-- ==== Sys2Proof/Word.lean ====
section
/-! DEFINITION. The word types of the SUB007 block (spec/00_scope.md R8, R10): registers are 32 bits wide,
main memory is bytes, and an instruction word is 160 bits. -/

namespace Sys2Proof

/-- A register value: `XLEN = 32` bits, unsigned (00_scope.md R8). -/
abbrev Word := BitVec 32

/-- One byte of main memory (10_state.md R36). -/
abbrev Byte := BitVec 8

/-- One instruction word `W[159:0]` (30_encoding.md R122). -/
abbrev InstrWord := BitVec 160

end Sys2Proof
end

