-- ==== Sys2Proof/Config.lean ====
section
/-! DEFINITION. What a construction of the machine fixes (00_scope.md R7 to R9): the open parameters as a record of
plain data that the state carries, and the replacement policy a host may put in place of LRU as a free function
(46_cache_ops.md R287, 92_eei_decisions.md O9). The shape of a cache slot stands here because a replacement policy
reads it. -/

namespace Sys2Proof

/-- MESI state of a cache slot (10_state.md R38, 30_encoding.md R136). -/
inductive Mesi where
  | invalid
  | shared
  | exclusive
  | modified
  deriving DecidableEq, Repr, Inhabited

/-- One slot of a cache (10_state.md R38). `data` holds the `LINE_SIZE / 4` words of the line, word k at byte
address `addr + 4k`. -/
structure CacheSlot where
  addr    : Nat
  data    : List Word
  state   : Mesi
  dirty   : Bool
  lastUse : Nat
  deriving DecidableEq, Repr

/-- `VictimPolicy` (00_scope.md R8): LRU, the spec's default, or another policy the host names by a number. -/
inductive VictimPolicy where
  | lru
  | other (n : Nat)
  deriving DecidableEq, Repr

/-- The choice a replacement policy other than LRU makes, as a function of the policy's number and of the contents
of the set. The spec leaves it open (R287: "any function that returns an INVALID way when there is one"), so it has
no body: nothing can be proved of its value. Log entry 4. -/
opaque Config.victimChoice : Nat → List CacheSlot → Nat

/-- The configuration of 00_scope.md R8. -/
structure Config where
  /-- `NPROC`, the number of processors. -/
  nproc      : Nat
  /-- `MEM_SIZE`, bytes of main memory. -/
  memSize    : Nat
  /-- `LINE_SIZE`, bytes per cache line. -/
  lineSize   : Nat
  /-- `NUM_SETS`, sets per cache. -/
  numSets    : Nat
  /-- `ASSOC`, ways per set. -/
  assoc      : Nat
  /-- `COHERENCE_EN`: caches and bus in use. -/
  coherence  : Bool
  /-- `BUS_LATENCY`, ticks from submission to completion of a bus request. -/
  busLatency : Nat
  /-- `ENFORCE[p]` of the processors the host configured; true for the others (R8, D31). -/
  enforce    : List Bool
  /-- `VictimPolicy`. -/
  victim     : VictimPolicy
  deriving DecidableEq, Repr

/-- The constraints of 00_scope.md R9. -/
def Config.ok (c : Config) : Bool :=
  c.lineSize % 4 == 0 && 4 ≤ c.lineSize && c.memSize % c.lineSize == 0 && c.memSize ≤ 2 ^ 32 &&
    1 ≤ c.busLatency && 1 ≤ c.nproc && 1 ≤ c.numSets && 1 ≤ c.assoc

/-- `ENFORCE[p]`, true when not configured (00_scope.md R8, 10_state.md R48). -/
def Config.enforceAt (c : Config) (p : Nat) : Bool := c.enforce.getD p true

/-- Words per cache line (10_state.md R38). -/
def Config.lineWords (c : Config) : Nat := c.lineSize / 4

/-- The configuration of `State.reset`: the vector configuration TV of 95_test_vectors.md section 0, with two
processors. The spec gives no default for any of these parameters (R7), so this is the model's choice
(DESIGN CHOICE, log entry 1); every statement that needs a configuration quantifies over it. -/
def Config.vector : Config where
  nproc := 2
  memSize := 1024
  lineSize := 16
  numSets := 4
  assoc := 2
  coherence := true
  busLatency := 2
  enforce := []
  victim := .lru

end Sys2Proof
end

