-- ==== Sys2Proof/Syntax.lean ====
section
/-! DEFINITION. The instructions of the SUB007 block: one constructor per row of spec/opcode_table.json
(30_encoding.md R121, R123, R129). Operand kinds and register numbers are resolved by the decoder, so an
instruction here has only operands its row of the table of R129 admits. -/

namespace Sys2Proof

/-- An operand-nameable register number (00_scope.md R11, 30_encoding.md R123):
0 to 15 are R0 to R15, 16 is SP, 17 is FP. -/
abbrev Reg := Fin 18

/-- SP, register number 16. -/
abbrev Reg.sp : Reg := 16

/-- FP, register number 17. -/
abbrev Reg.fp : Reg := 17

/-- What every instruction record carries beside its operands (30_encoding.md R121): the privileged flag and
the latency in cycles. Both belong to the record, not to the opcode. -/
structure Hdr where
  priv : Bool
  lat  : Nat
  deriving DecidableEq, Repr

/-- A source operand of kind REG or IMM. -/
inductive Src where
  | reg (r : Reg)
  | imm (v : Word)
  deriving DecidableEq, Repr

/-- The second operand of LOAD: kind ADDR or IMM (42_memory_instr.md R201). -/
inductive LoadSrc where
  | addr (a : Word)
  | imm (v : Word)
  deriving DecidableEq, Repr

/-- The argument operand of SPAWN: kind ADDR, REG or IMM (45_system_special.md R265). -/
inductive SpawnArg where
  | addr (a : Word)
  | reg (r : Reg)
  | imm (v : Word)
  deriving DecidableEq, Repr

/-- The 29 instructions (00_scope.md R2, 30_encoding.md R129), in the table's order. Each takes its record's
privileged flag and latency first, then its operands in the order of R130. -/
inductive Instr where
  | add (h : Hdr) (rd : Reg) (a b : Src)
  | sub (h : Hdr) (rd : Reg) (a b : Src)
  | mul (h : Hdr) (rd : Reg) (a b : Src)
  | div (h : Hdr) (rd : Reg) (a b : Src)
  | and (h : Hdr) (rd : Reg) (a b : Src)
  | or (h : Hdr) (rd : Reg) (a b : Src)
  | xor (h : Hdr) (rd : Reg) (a b : Src)
  | shl (h : Hdr) (rd : Reg) (a b : Src)
  | shr (h : Hdr) (rd : Reg) (a b : Src)
  | load (h : Hdr) (rd : Reg) (src : LoadSrc)
  | store (h : Hdr) (rs : Reg) (a : Word)
  | push (h : Hdr) (rs : Reg)
  | pop (h : Hdr) (rd : Reg)
  | jmp (h : Hdr) (target : Word)
  | jz (h : Hdr) (target : Word)
  | jnz (h : Hdr) (target : Word)
  | call (h : Hdr) (target : Word)
  | ret (h : Hdr)
  | lock (h : Hdr) (id : Src)
  | unlock (h : Hdr) (id : Src)
  | fence (h : Hdr)
  | cas (h : Hdr) (a : Word) (expected new : Src) (rd : Reg)
  | barrier (h : Hdr) (id parties : Src)
  | halt (h : Hdr)
  | yield (h : Hdr)
  | syscall (h : Hdr) (number : Src)
  | nop (h : Hdr)
  | spawn (h : Hdr) (func : Word) (arg : SpawnArg) (rd : Reg)
  | join (h : Hdr) (tid : Src)
  deriving DecidableEq, Repr

/-- The privileged flag and the latency of an instruction record. -/
def Instr.hdr : Instr → Hdr
  | .add h _ _ _ => h
  | .sub h _ _ _ => h
  | .mul h _ _ _ => h
  | .div h _ _ _ => h
  | .and h _ _ _ => h
  | .or h _ _ _ => h
  | .xor h _ _ _ => h
  | .shl h _ _ _ => h
  | .shr h _ _ _ => h
  | .load h _ _ => h
  | .store h _ _ => h
  | .push h _ => h
  | .pop h _ => h
  | .jmp h _ => h
  | .jz h _ => h
  | .jnz h _ => h
  | .call h _ => h
  | .ret h => h
  | .lock h _ => h
  | .unlock h _ => h
  | .fence h => h
  | .cas h _ _ _ _ => h
  | .barrier h _ _ => h
  | .halt h => h
  | .yield h => h
  | .syscall h _ => h
  | .nop h => h
  | .spawn h _ _ _ => h
  | .join h _ => h

end Sys2Proof
end

