-- ==== Sys2Proof/WellFormed.lean ====
section
/-! DEFINITION. Well-formed instruction records: the latency is in 1 .. 255 (00_scope.md R8 `LAT_MAX`,
30_encoding.md R122, R132). Operand kinds and register numbers are well formed by their types. -/

namespace Sys2Proof

/-- A record whose latency is 0 is refused at program load (30_encoding.md R132), and the instruction word holds
no latency above `LAT_MAX = 255` (00_scope.md R8). -/
def Hdr.wellFormed (h : Hdr) : Bool := 1 ≤ h.lat && h.lat ≤ 255

/-- The instruction's record is one a Program may hold. -/
def Instr.wellFormed (i : Instr) : Bool := i.hdr.wellFormed

end Sys2Proof
end

