-- ==== Sys2Proof/Decode.lean ====
section
/-! DEFINITION. The 160-bit instruction word: its fields (30_encoding.md R122 to R125), the decoder with the decode
tests of R131 in their order (R129, R141), and after it the encoder (R120, R122, R124, R141). -/

namespace Sys2Proof

/-- The fields of an instruction word, as the layout table of R122 names them. -/
structure RawWord where
  opcode : BitVec 8
  itype  : BitVec 3
  priv   : BitVec 1
  nops   : BitVec 4
  lat    : BitVec 8
  k0 : BitVec 2
  k1 : BitVec 2
  k2 : BitVec 2
  k3 : BitVec 2
  v0 : Word
  v1 : Word
  v2 : Word
  v3 : Word
  deriving DecidableEq, Repr

/-- One operand slot: its kind (0 REG, 1 IMM, 2 ADDR, 3 reserved) and its value field (R122, R123). -/
structure RawOperand where
  kind : BitVec 2
  val  : Word
  deriving DecidableEq, Repr

/-- Why a word is invalid, in the order of the tests of R131. -/
inductive DecodeFault where
  | unknownType
  | badOpcode
  | operandCount
  | operandKind
  deriving DecidableEq, Repr

/-- The opcodes of R129. -/
inductive Op where
  | add | sub | mul | div | and | or | xor | shl | shr
  | load | store | push | pop
  | jmp | jz | jnz | call | ret
  | lock | unlock | fence | cas | barrier
  | halt | yield | syscall
  | nop | spawn | join
  deriving DecidableEq, Repr

/-- The opcodes in the order of the table of R129. -/
def Op.all : List Op :=
  [.add, .sub, .mul, .div, .and, .or, .xor, .shl, .shr, .load, .store, .push, .pop,
   .jmp, .jz, .jnz, .call, .ret, .lock, .unlock, .fence, .cas, .barrier,
   .halt, .yield, .syscall, .nop, .spawn, .join]

/-- The opcode numbers of R129. -/
def Op.code : Op → BitVec 8
  | .add => 0x00 | .sub => 0x01 | .mul => 0x02 | .div => 0x03 | .and => 0x04
  | .or => 0x05 | .xor => 0x06 | .shl => 0x07 | .shr => 0x08
  | .load => 0x10 | .store => 0x11 | .push => 0x12 | .pop => 0x13
  | .jmp => 0x20 | .jz => 0x21 | .jnz => 0x22 | .call => 0x23 | .ret => 0x24
  | .lock => 0x30 | .unlock => 0x31 | .fence => 0x32 | .cas => 0x33 | .barrier => 0x34
  | .halt => 0x40 | .yield => 0x41 | .syscall => 0x42
  | .nop => 0x50 | .spawn => 0x51 | .join => 0x52

/-- The instruction type the table of R129 files an opcode under (0 COMPUTE, 1 MEMORY, 2 BRANCH, 3 SYNC, 4 SYSTEM,
5 SPECIAL). -/
def Op.itype : Op → BitVec 3
  | .add | .sub | .mul | .div | .and | .or | .xor | .shl | .shr => 0
  | .load | .store | .push | .pop => 1
  | .jmp | .jz | .jnz | .call | .ret => 2
  | .lock | .unlock | .fence | .cas | .barrier => 3
  | .halt | .yield | .syscall => 4
  | .nop | .spawn | .join => 5

/-- The operand count of R129. -/
def Op.nops : Op → BitVec 4
  | .add | .sub | .mul | .div | .and | .or | .xor | .shl | .shr => 3
  | .load | .store => 2
  | .push | .pop => 1
  | .jmp | .jz | .jnz | .call => 1
  | .ret => 0
  | .lock | .unlock => 1
  | .fence => 0
  | .cas => 4
  | .barrier => 2
  | .halt | .yield => 0
  | .syscall => 1
  | .nop => 0
  | .spawn => 3
  | .join => 1

/-- The opcode with a given number, if the table of R129 has one. -/
def opOf (c : BitVec 8) : Option Op := Op.all.find? fun o => o.code == c

/-- The fields of a word (R122). -/
def unpack (w : InstrWord) : RawWord where
  opcode := w.extractLsb' 0 8
  itype := w.extractLsb' 8 3
  priv := w.extractLsb' 11 1
  nops := w.extractLsb' 12 4
  lat := w.extractLsb' 16 8
  k0 := w.extractLsb' 24 2
  k1 := w.extractLsb' 26 2
  k2 := w.extractLsb' 28 2
  k3 := w.extractLsb' 30 2
  v0 := w.extractLsb' 32 32
  v1 := w.extractLsb' 64 32
  v2 := w.extractLsb' 96 32
  v3 := w.extractLsb' 128 32

/-- A REG operand: kind 0 and a register number 0 to 17 (R123, R131 test 4). -/
def regOf (o : RawOperand) : Option Reg :=
  if o.kind = 0 then (if h : o.val.toNat < 18 then some ⟨o.val.toNat, h⟩ else none) else none

/-- An IMM operand: kind 1 (R123). -/
def immOf (o : RawOperand) : Option Word := if o.kind = 1 then some o.val else none

/-- An ADDR operand: kind 2 (R123). -/
def addrOf (o : RawOperand) : Option Word := if o.kind = 2 then some o.val else none

/-- A REG or IMM operand. -/
def srcOf (o : RawOperand) : Option Src :=
  match regOf o with
  | some r => some (.reg r)
  | none => (immOf o).map .imm

/-- LOAD's second operand, ADDR or IMM. -/
def loadSrcOf (o : RawOperand) : Option LoadSrc :=
  match addrOf o with
  | some a => some (.addr a)
  | none => (immOf o).map .imm

/-- SPAWN's second operand, ADDR, REG or IMM. -/
def spawnArgOf (o : RawOperand) : Option SpawnArg :=
  match addrOf o with
  | some a => some (.addr a)
  | none =>
    match regOf o with
    | some r => some (.reg r)
    | none => (immOf o).map .imm

/-- R131 test 4, position by position as the table of R129 lists the kinds: the instruction, or none when an operand
has a kind its position does not take or names no register. -/
def build (op : Op) (h : Hdr) (o0 o1 o2 o3 : RawOperand) : Option Instr :=
  let alu (mk : Hdr → Reg → Src → Src → Instr) : Option Instr := do
    let rd ← regOf o0
    let a ← srcOf o1
    let b ← srcOf o2
    pure (mk h rd a b)
  match op with
  | .add => alu .add
  | .sub => alu .sub
  | .mul => alu .mul
  | .div => alu .div
  | .and => alu .and
  | .or => alu .or
  | .xor => alu .xor
  | .shl => alu .shl
  | .shr => alu .shr
  | .load => do
    let rd ← regOf o0
    let src ← loadSrcOf o1
    pure (.load h rd src)
  | .store => do
    let rs ← regOf o0
    let a ← addrOf o1
    pure (.store h rs a)
  | .push => (regOf o0).map (.push h)
  | .pop => (regOf o0).map (.pop h)
  | .jmp => (addrOf o0).map (.jmp h)
  | .jz => (addrOf o0).map (.jz h)
  | .jnz => (addrOf o0).map (.jnz h)
  | .call => (addrOf o0).map (.call h)
  | .ret => some (.ret h)
  | .lock => (srcOf o0).map (.lock h)
  | .unlock => (srcOf o0).map (.unlock h)
  | .fence => some (.fence h)
  | .cas => do
    let a ← addrOf o0
    let e ← srcOf o1
    let n ← srcOf o2
    let rd ← regOf o3
    pure (.cas h a e n rd)
  | .barrier => do
    let b ← srcOf o0
    let n ← srcOf o1
    pure (.barrier h b n)
  | .halt => some (.halt h)
  | .yield => some (.yield h)
  | .syscall => (srcOf o0).map (.syscall h)
  | .nop => some (.nop h)
  | .spawn => do
    let f ← addrOf o0
    let a ← spawnArgOf o1
    let rd ← regOf o2
    pure (.spawn h f a rd)
  | .join => (srcOf o0).map (.join h)

/-- The privileged flag and the latency of a word. -/
def rawHdr (r : RawWord) : Hdr := { priv := r.priv == 1, lat := r.lat.toNat }

/-- `Valid` of R131: its four tests in their order; a word that passes them is its instruction. -/
def decodeRaw (r : RawWord) : Except DecodeFault Instr :=
  if 6 ≤ r.itype.toNat then .error .unknownType
  else
    match opOf r.opcode with
    | none => .error .badOpcode
    | some op =>
      if (r.opcode.extractLsb' 4 4).toNat ≠ r.itype.toNat then .error .badOpcode
      else if r.nops ≠ op.nops then .error .operandCount
      else
        match build op (rawHdr r) ⟨r.k0, r.v0⟩ ⟨r.k1, r.v1⟩ ⟨r.k2, r.v2⟩ ⟨r.k3, r.v3⟩ with
        | none => .error .operandKind
        | some i => .ok i

/-- Decoding is total (R141): every 160-bit word is an instruction or is invalid for a named reason. A latency of 0
passes, since R131 does not test it: R132 refuses it at program load. -/
def decode (w : InstrWord) : Except DecodeFault Instr := decodeRaw (unpack w)

/-- The word with the given fields (R122): bits 31:0 are the control word, then the four values. -/
def pack (r : RawWord) : InstrWord :=
  r.v3 ++ r.v2 ++ r.v1 ++ r.v0 ++
    (r.k3 ++ r.k2 ++ r.k1 ++ r.k0 ++ r.lat ++ r.nops ++ r.priv ++ r.itype ++ r.opcode)

/-- A REG operand slot. -/
def regSlot (r : Reg) : RawOperand := ⟨0, BitVec.ofNat 32 r.val⟩

/-- An IMM operand slot. -/
def immSlot (v : Word) : RawOperand := ⟨1, v⟩

/-- An ADDR operand slot. -/
def addrSlot (a : Word) : RawOperand := ⟨2, a⟩

/-- An operand slot at or above `nops`: an assembler writes it as 0 (R124). -/
def unusedSlot : RawOperand := ⟨0, 0⟩

/-- The slot of a REG or IMM source. -/
def srcSlot : Src → RawOperand
  | .reg r => regSlot r
  | .imm v => immSlot v

/-- The slot of LOAD's second operand. -/
def loadSrcSlot : LoadSrc → RawOperand
  | .addr a => addrSlot a
  | .imm v => immSlot v

/-- The slot of SPAWN's argument. -/
def spawnArgSlot : SpawnArg → RawOperand
  | .addr a => addrSlot a
  | .reg r => regSlot r
  | .imm v => immSlot v

/-- The fields of a record: opcode, type and count by R129, the rest by R122. -/
def rawOf (op : Op) (h : Hdr) (o0 o1 o2 o3 : RawOperand) : RawWord where
  opcode := op.code
  itype := op.itype
  priv := if h.priv then 1 else 0
  nops := op.nops
  lat := BitVec.ofNat 8 h.lat
  k0 := o0.kind
  k1 := o1.kind
  k2 := o2.kind
  k3 := o3.kind
  v0 := o0.val
  v1 := o1.val
  v2 := o2.val
  v3 := o3.val

/-- The fields an assembler writes for an instruction (R124, R129, R130). -/
def toRaw : Instr → RawWord
  | .add h rd a b => rawOf .add h (regSlot rd) (srcSlot a) (srcSlot b) unusedSlot
  | .sub h rd a b => rawOf .sub h (regSlot rd) (srcSlot a) (srcSlot b) unusedSlot
  | .mul h rd a b => rawOf .mul h (regSlot rd) (srcSlot a) (srcSlot b) unusedSlot
  | .div h rd a b => rawOf .div h (regSlot rd) (srcSlot a) (srcSlot b) unusedSlot
  | .and h rd a b => rawOf .and h (regSlot rd) (srcSlot a) (srcSlot b) unusedSlot
  | .or h rd a b => rawOf .or h (regSlot rd) (srcSlot a) (srcSlot b) unusedSlot
  | .xor h rd a b => rawOf .xor h (regSlot rd) (srcSlot a) (srcSlot b) unusedSlot
  | .shl h rd a b => rawOf .shl h (regSlot rd) (srcSlot a) (srcSlot b) unusedSlot
  | .shr h rd a b => rawOf .shr h (regSlot rd) (srcSlot a) (srcSlot b) unusedSlot
  | .load h rd src => rawOf .load h (regSlot rd) (loadSrcSlot src) unusedSlot unusedSlot
  | .store h rs a => rawOf .store h (regSlot rs) (addrSlot a) unusedSlot unusedSlot
  | .push h rs => rawOf .push h (regSlot rs) unusedSlot unusedSlot unusedSlot
  | .pop h rd => rawOf .pop h (regSlot rd) unusedSlot unusedSlot unusedSlot
  | .jmp h t => rawOf .jmp h (addrSlot t) unusedSlot unusedSlot unusedSlot
  | .jz h t => rawOf .jz h (addrSlot t) unusedSlot unusedSlot unusedSlot
  | .jnz h t => rawOf .jnz h (addrSlot t) unusedSlot unusedSlot unusedSlot
  | .call h t => rawOf .call h (addrSlot t) unusedSlot unusedSlot unusedSlot
  | .ret h => rawOf .ret h unusedSlot unusedSlot unusedSlot unusedSlot
  | .lock h l => rawOf .lock h (srcSlot l) unusedSlot unusedSlot unusedSlot
  | .unlock h l => rawOf .unlock h (srcSlot l) unusedSlot unusedSlot unusedSlot
  | .fence h => rawOf .fence h unusedSlot unusedSlot unusedSlot unusedSlot
  | .cas h a e n rd => rawOf .cas h (addrSlot a) (srcSlot e) (srcSlot n) (regSlot rd)
  | .barrier h b n => rawOf .barrier h (srcSlot b) (srcSlot n) unusedSlot unusedSlot
  | .halt h => rawOf .halt h unusedSlot unusedSlot unusedSlot unusedSlot
  | .yield h => rawOf .yield h unusedSlot unusedSlot unusedSlot unusedSlot
  | .syscall h n => rawOf .syscall h (srcSlot n) unusedSlot unusedSlot unusedSlot
  | .nop h => rawOf .nop h unusedSlot unusedSlot unusedSlot unusedSlot
  | .spawn h f a rd => rawOf .spawn h (addrSlot f) (spawnArgSlot a) (regSlot rd) unusedSlot
  | .join h t => rawOf .join h (srcSlot t) unusedSlot unusedSlot unusedSlot

/-- The instruction word of an instruction (R120, R122). -/
def encode (i : Instr) : InstrWord := pack (toRaw i)

/-- The word whose low `nbits` bits are those of `w` and whose other bits are 0, numbered as
spec/opcode_table.json numbers them. -/
def tableWord (nbits w : Nat) : InstrWord := BitVec.ofNat 160 (w % 2 ^ nbits)

/-- The instruction the decoder reads from such a word. -/
def decodeTableWord (nbits w : Nat) : Option Instr :=
  match decode (tableWord nbits w) with
  | .ok i => some i
  | .error _ => none

end Sys2Proof
end

