-- ==== Sys2Proof/Machine/State.lean ====
section
/-! DEFINITION. The state of the machine as plain data (10_state.md R20 to R50, 49_environment.md R378), the reasons a
step can stop, and the state after reset (10_state.md R48, 70_reset_and_hazards.md R440). -/

namespace Sys2Proof.Machine

/-- Privilege level, USER < SUPERVISOR < KERNEL (10_state.md R28). -/
inductive Privilege where
  | user
  | supervisor
  | kernel
  deriving DecidableEq, Repr

/-- Processor state (10_state.md R29). No rule enters BLOCKED or TERMINATED. -/
inductive ProcState where
  | idle
  | running
  | waiting
  | blocked
  | terminated
  deriving DecidableEq, Repr

/-- Thread state (00_scope.md R18). -/
inductive ThreadState where
  | ready
  | running
  | waiting
  | terminated
  deriving DecidableEq, Repr

/-- VM state (10_state.md R47). -/
inductive VmState where
  | idle
  | running
  | paused
  | finished
  deriving DecidableEq, Repr

/-- The register set of a processor and equally the context of a thread (10_state.md R21 to R28, R45): the operand
registers R0 to R15, SP and FP by their numbers, PC, FLAGS and the privilege level. -/
structure RegSet where
  x     : Vector Word 18
  pc    : Word
  flags : Word
  priv  : Privilege
  deriving DecidableEq, Repr

/-- The mnemonic in a control-flow record (10_state.md R34). -/
inductive BranchKind where
  | jmp
  | jz
  | jnz
  | call
  | ret
  deriving DecidableEq, Repr

/-- A control-flow record `(kind, from, to, legit)` (10_state.md R34). -/
structure CfRecord where
  kind  : BranchKind
  src   : Word
  dst   : Word
  legit : Bool
  deriving DecidableEq, Repr

/-- Where the word of a MemoryRead effect goes: a register, or PC for RET (30_encoding.md R139). -/
inductive Dest where
  | reg (r : Reg)
  | pc
  deriving DecidableEq, Repr

/-- The effects a processor emits (30_encoding.md R139). -/
inductive Effect where
  | registersModified (rs : List Reg)
  | memoryRead (addr : Word) (dest : Dest)
  | memoryWrite (addr : Word) (value : Word)
  | ret
  | syncLock (id : Word)
  | syncUnlock (id : Word)
  | fence
  | cas (addr expected new : Word) (result : Reg)
  | barrier (id parties : Word)
  | halt
  | yield
  | syscall (number : Word)
  | spawn (func arg : Word) (result : Reg)
  | join (tid : Word)
  deriving DecidableEq, Repr

/-- The faults `execute_instruction` raises (60_exceptions.md R400, R401), with the address a memory fault carries. -/
inductive ThreadFault where
  | fetchOutOfRange
  | invalid (why : DecodeFault)
  | privilegeViolation
  | divideByZero
  | misalignedAccess (a : Word)
  | addressOutOfRange (a : Word)
  deriving DecidableEq, Repr

/-- The VMExceptions (60_exceptions.md R401 class 4). -/
inductive VmException where
  | joinNonexistentThread
  | lockInconsistency
  deriving DecidableEq, Repr

/-- What a fault record is about: its class and sub-code (60_exceptions.md R401). -/
inductive FaultKind where
  | thread (f : ThreadFault)
  | vm (e : VmException)
  deriving DecidableEq, Repr

/-- A record of `VM.faults` (49_environment.md R378); class and sub-code are those of `kind` (DESIGN CHOICE, log
entry 20). -/
structure FaultRecord where
  clock : Nat
  proc  : Nat
  tid   : Nat
  kind  : FaultKind
  pc    : Word
  info  : Word
  deriving DecidableEq, Repr

/-- What surfaces to the caller of `step()` or `run()` (60_exceptions.md R407). -/
inductive HostCondition where
  | vmException (r : FaultRecord)
  | executionLimit (steps : Nat)
  | deadlock (waiting : List Nat)
  deriving DecidableEq, Repr

/-- A processor: its register set and its control fields (10_state.md R21 to R34). The last two fields are the value
its latest `execute_instruction` call returned (40_pipeline.md R150, R158, R159; DESIGN CHOICE, log entry 5). -/
structure Proc where
  regs      : RegSet
  state     : ProcState
  thread    : Option Nat
  stall     : Nat
  cycles    : Nat
  enforce   : Bool
  cflog     : List CfRecord
  completed : Bool
  effects   : List Effect
  deriving DecidableEq, Repr

/-- A thread record (10_state.md R45). `softStack` is the "software stack" field, which no rule uses (DESIGN CHOICE, log entry 18). -/
structure Thread where
  id         : Nat
  prog       : Nat
  ctx        : RegSet
  softStack  : List Word
  state      : ThreadState
  proc       : Option Nat
  parent     : Option Nat
  created    : Nat
  execCycles : Nat
  joiners    : List Nat
  deriving DecidableEq, Repr

/-- A loaded program (10_state.md R37, 20_memory.md R71): its instruction words by index, and its entry point. -/
structure Program where
  code  : List InstrWord
  entry : Word
  deriving DecidableEq, Repr

/-- A lock (10_state.md R46). -/
structure Lock where
  id     : Word
  holder : Option Nat
  queue  : List Nat
  deriving DecidableEq, Repr

/-- A barrier (10_state.md R46, 49_environment.md R364). `arrived` is a set of thread ids, kept ascending. -/
structure Barrier where
  id         : Word
  parties    : Word
  arrived    : List Nat
  released   : Bool
  generation : Nat
  deriving DecidableEq, Repr

/-- A cache (10_state.md R39): `sets[s][w]` is way w of set s. -/
structure Cache where
  sets   : List (List CacheSlot)
  useCtr : Nat
  deriving DecidableEq, Repr

/-- Bus operation (10_state.md R41). -/
inductive BusOp where
  | readShared
  | readExclusive
  | writeBack
  | invalidate
  deriving DecidableEq, Repr

/-- The result record of a bus request (47_bus_ops.md R324). -/
inductive BusResult where
  | line (data : List Word) (state : Mesi)
  | success
  deriving DecidableEq, Repr

/-- A BusRequest (10_state.md R41). -/
structure BusRequest where
  op        : BusOp
  addr      : Nat
  pid       : Nat
  tid       : Option Nat
  payload   : Option (List Word)
  completed : Bool
  result    : BusResult
  remaining : Nat
  deriving DecidableEq, Repr

/-- The bus: its pending-request queue and its statistics (10_state.md R42, R43). -/
structure Bus where
  queue                : List BusRequest
  totalRequests        : Nat
  readRequests         : Nat
  writeRequests        : Nat
  invalidationRequests : Nat
  deriving DecidableEq, Repr

/-- Main memory as (address, byte) pairs (10_state.md R36), addresses strictly rising, no byte 0 listed: an unlisted
address reads as 0, the reset value of 10_state.md R48 (DEDUCED, log entry 19). -/
abbrev Memory := List Host.Cell

/-- What the latest `step()` gave its caller: the condition it raised, if any, its return value, and the requests the
bus tick completed (49_environment.md R351, R372, 47_bus_ops.md R323). These are the model's own fields. -/
structure StepOut where
  raised       : Option HostCondition
  stillRunning : Bool
  ticked       : List BusRequest
  deriving DecidableEq, Repr

/-- The state of the machine (10_state.md R20). -/
structure State where
  /-- the configuration fixed at construction (00_scope.md R7, R8); no step writes it (DESIGN CHOICE, log entry 2) -/
  cfg       : Config
  /-- the program table (10_state.md R37); no step writes it (DESIGN CHOICE, log entry 2) -/
  programs  : List Program
  /-- the processors by id (10_state.md R20 to R34) -/
  procs     : List Proc
  /-- the private caches by processor id (10_state.md R39) -/
  caches    : List Cache
  /-- main memory (10_state.md R36) -/
  mem       : Memory
  /-- the bus (10_state.md R42, R43) -/
  bus       : Bus
  /-- the thread table; thread id n is entry n (10_state.md R45) -/
  threads   : List Thread
  /-- the ready queue, head first (10_state.md R46) -/
  ready     : List Nat
  /-- the lock table, ascending lock id (10_state.md R46) -/
  locks     : List Lock
  /-- the barrier table, ascending barrier id (10_state.md R46) -/
  barriers  : List Barrier
  /-- the global clock (10_state.md R47) -/
  clock     : Nat
  /-- the global context-switch counter (10_state.md R47) -/
  switches  : Nat
  /-- the thread-id counter (10_state.md R47) -/
  threadCounter : Nat
  /-- the VM state (10_state.md R47) -/
  vm        : VmState
  /-- `VM.faults` (49_environment.md R378) -/
  faults    : List FaultRecord
  /-- `VM.pending` (49_environment.md R378) -/
  pending   : List FaultRecord
  /-- the model's own: the processor whose call is being made (DESIGN CHOICE, log entry 5) -/
  cur       : Nat
  /-- the model's own: what the latest `step()` gave its caller (DESIGN CHOICE, log entries 5 and 17) -/
  out       : StepOut
  deriving DecidableEq, Repr

/-- The machine stops with a fault. None of these is a fault of the spec's taxonomy: those terminate a thread and
give a next state. All are safe: the first three are met by no state that a run from `State.reset` or the host calls
reach (log entry 11), the last is the host's own error (log entry 14). -/
inductive Fault where
  /-- `exec` was asked to run on a processor id the machine does not have (raised by `issue`; safe). -/
  | noProcessor
  /-- A RUNNING processor has no thread, which 10_state.md R30 excludes (raised by `issue` and `cycle`; safe). -/
  | noThread
  /-- A processor's thread id is not in the thread table, which 10_state.md R45 excludes (raised by `issue` and
  `cycle`; safe). -/
  | noThreadRecord
  /-- The host accessed an address that does not exist or is not a word address (20_memory.md R73, R76; raised by the
  host operations; safe). -/
  | badAddress
  deriving DecidableEq, Repr

/-- What the model refuses. All are safe: the model stops where the spec says a model refuses. -/
inductive Refusal where
  /-- An instruction without a meaning; raised by no arm of `exec` (safe). -/
  | notModelled (mnemonic : String)
  /-- An instruction record of latency 0 (30_encoding.md R132, 93_implementation_defined.md V4: "refuse at program
  load"); raised by `issue` and by `loadProgram` (safe). -/
  | latencyZero
  /-- A configuration that breaks 00_scope.md R9; raised by `construct` (safe). -/
  | badConfig
  /-- A program id not in the program table (49_environment.md R354); raised by `hostCreateThread` (safe). -/
  | unknownProgram
  /-- A raw bus request whose address is not a line address in range (47_bus_ops.md R321); raised by `hostSubmit`
  (safe). -/
  | badRequest
  /-- A raw bus request with `COHERENCE_EN` false, when no request is ever submitted (20_memory.md R97; log entry 15;
  raised by `hostSubmit`; safe). -/
  | busNotInUse
  /-- A raw write of main memory to a line some cache holds valid (70_reset_and_hazards.md R452, D51: "a model may
  check and refuse"); raised by `hostMemWrite` (safe). -/
  | rawWriteToHeldLine
  /-- A host access through a processor id the machine does not have (raised by `hostDataRead`, `hostDataWrite`
  and `hostEvict`; safe). -/
  | noSuchProcessor
  deriving DecidableEq, Repr

/-- Every register 0, FLAGS 0, PC 0, privilege USER (10_state.md R48, R50). -/
def RegSet.reset : RegSet where
  x := Vector.replicate 18 0
  pc := 0
  flags := 0
  priv := .user

/-- A processor at reset (10_state.md R48). -/
def Proc.reset (enforce : Bool) : Proc where
  regs := RegSet.reset
  state := .idle
  thread := none
  stall := 0
  cycles := 0
  enforce := enforce
  cflog := []
  completed := false
  effects := []

/-- A cache slot at reset, with `words` words of data (10_state.md R48). -/
def resetSlot (words : Nat) : CacheSlot where
  addr := 0
  data := List.replicate words 0
  state := .invalid
  dirty := false
  lastUse := 0

/-- A cache at reset (10_state.md R48). -/
def Cache.reset (c : Config) : Cache where
  sets := List.replicate c.numSets (List.replicate c.assoc (resetSlot c.lineWords))
  useCtr := 0

/-- The bus at reset (10_state.md R48). -/
def Bus.reset : Bus where
  queue := []
  totalRequests := 0
  readRequests := 0
  writeRequests := 0
  invalidationRequests := 0

/-- The state after reset under a configuration, with a program table that `reset()` keeps (10_state.md R48,
70_reset_and_hazards.md R440). -/
def State.resetWith (c : Config) (programs : List Program) : State where
  cfg := c
  programs := programs
  procs := (List.range c.nproc).map fun p => Proc.reset (c.enforceAt p)
  caches := List.replicate c.nproc (Cache.reset c)
  mem := []
  bus := Bus.reset
  threads := []
  ready := []
  locks := []
  barriers := []
  clock := 0
  switches := 0
  threadCounter := 0
  vm := .idle
  faults := []
  pending := []
  cur := 0
  out := { raised := none, stillRunning := true, ticked := [] }

/-- The machine right after construction: the reset state, with an empty program table (10_state.md R48), under the
configuration `Config.vector` (log entry 1). -/
def State.reset : State := State.resetWith Config.vector []

end Sys2Proof.Machine
end

