-- ==== Sys2Proof/Machine/Ops.lean ====
section
/-! DEFINITION. The named operations over registers, memory, processors, threads and locks that every instruction and
the driver share, with the taking of a thread fault (60_exceptions.md R404) and of a VMException (49_environment.md
R373) written once. There is no return from a fault: a terminated thread is never resumed (60_exceptions.md R406). -/

namespace Sys2Proof.Machine

/-! ### Registers (10_state.md R21 to R28) -/

/-- `x[i]` (00_scope.md R11). -/
def readReg (r : RegSet) (i : Reg) : Word := r.x[i]

/-- `x[i] <- v` (00_scope.md R11). -/
def writeReg (r : RegSet) (i : Reg) (v : Word) : RegSet := { r with x := r.x.set i v }

/-- `pc <- v`. -/
def writePc (r : RegSet) (v : Word) : RegSet := { r with pc := v }

/-- `u32(pc + 1)` (10_state.md R24). -/
def nextPc (r : RegSet) : Word := r.pc + 1

/-! ### Main memory (00_scope.md R12, 20_memory.md R74) -/

/-- One byte of main memory; an unlisted address reads as 0 (10_state.md R48). -/
def memByte : Memory → Nat → Byte
  | [], _ => 0
  | (k, b) :: m, a => if k = a then b else memByte m a

/-- Store one byte, keeping the canonical form: storing 0, what an unlisted address reads as, removes the entry. -/
def memSetByte : Memory → Nat → Byte → Memory
  | [], a, b => if b = 0 then [] else [(a, b)]
  | (k, c) :: m, a, b =>
    if a < k then (if b = 0 then (k, c) :: m else (a, b) :: (k, c) :: m)
    else if a = k then (if b = 0 then m else (a, b) :: m)
    else (k, c) :: memSetByte m a b

/-- `MemRead(a, n)`: the n bytes at a, little-endian, as an unsigned number (R12, R74). -/
def memRead (m : Memory) (a : Nat) : Nat → Nat
  | 0 => 0
  | n + 1 => (memByte m a).toNat + 256 * memRead m (a + 1) n

/-- `MemWrite(a, n, v)`: the low 8n bits of v, little-endian (R12, R74). -/
def memWrite (m : Memory) (a : Nat) : Nat → Nat → Memory
  | 0, _ => m
  | n + 1, v => memWrite (memSetByte m a (BitVec.ofNat 8 v)) (a + 1) n (v / 256)

/-- `MemRead(a, 4)` as a word. -/
def memReadWord (m : Memory) (a : Nat) : Word := BitVec.ofNat 32 (memRead m a 4)

/-- `MemWrite(a, 4, v)` of a word. -/
def memWriteWord (m : Memory) (a : Nat) (v : Word) : Memory := memWrite m a 4 v.toNat

/-- `MemLineRead(la)`: the words `MemRead(la + 4k, 4)`, k ascending (47_bus_ops.md). -/
def memLineRead (m : Memory) (la : Nat) : Nat → List Word
  | 0 => []
  | n + 1 => memReadWord m la :: memLineRead m (la + 4) n

/-- `MemLineWrite(la, d)`: `MemWrite(la + 4k, 4, d[k])` for each k (47_bus_ops.md). -/
def memLineWrite (m : Memory) (la : Nat) : List Word → Memory
  | [] => m
  | v :: vs => memLineWrite (memWriteWord m la v) (la + 4) vs

/-- The canonical form of `Memory`: addresses strictly rising and no byte 0 listed. -/
def Memory.wf : Memory → Bool
  | [] => true
  | [(_, b)] => b != 0
  | (a, b) :: (a', b') :: m => b != 0 && decide (a < a') && Memory.wf ((a', b') :: m)

/-! ### Ascending lists of thread ids -/

/-- Insert a thread id into an ascending list, once. -/
def insertId (t : Nat) : List Nat → List Nat
  | [] => [t]
  | u :: us => if t < u then t :: u :: us else if t = u then u :: us else u :: insertId t us

/-- The ids of a list in ascending order, each once. -/
def sortIds (ts : List Nat) : List Nat := ts.foldr insertId []

/-! ### Processors, threads and caches by id -/

/-- Change processor p. -/
def State.modProc (s : State) (p : Nat) (f : Proc → Proc) : State := { s with procs := s.procs.modify p f }

/-- Change thread t's record. -/
def State.modThread (s : State) (t : Nat) (f : Thread → Thread) : State :=
  { s with threads := s.threads.modify t f }

/-- Change the registers of processor p. -/
def State.modRegs (s : State) (p : Nat) (f : RegSet → RegSet) : State :=
  s.modProc p fun P => { P with regs := f P.regs }

/-- The registers of processor p. -/
def State.regsOf (s : State) (p : Nat) : RegSet :=
  match s.procs[p]? with
  | some P => P.regs
  | none => RegSet.reset

/-- The thread on processor p, if any (10_state.md R30). -/
def State.threadOn (s : State) (p : Nat) : Option Nat :=
  match s.procs[p]? with
  | some P => P.thread
  | none => none

/-- The code of thread t's Program (20_memory.md R71). -/
def State.codeOf (s : State) (t : Nat) : List InstrWord :=
  match s.threads[t]? with
  | some T =>
    match s.programs[T.prog]? with
    | some g => g.code
    | none => []
  | none => []

/-- `plen`, the length of thread t's Program (43_branch.md). -/
def State.plen (s : State) (t : Nat) : Nat := (s.codeOf t).length

/-! ### Scheduling (49_environment.md R355, R358, R359) -/

/-- Put thread t, which is leaving processor p, into state `st`: save its context, free the processor
(R358 and the first lines of R371). `P[p].stall` is left as it is. The processor is an argument, not read from the
thread's record (DEDUCED, log entry 10). -/
def takeOff (p t : Nat) (st : ThreadState) (s : State) : State :=
  let ctx := s.regsOf p
  (s.modThread t fun T => { T with ctx := ctx, state := st, proc := none }).modProc p
    fun P => { P with thread := none, state := .idle }

/-- `suspend(p)` for the thread t on p (R358). -/
def suspend (p t : Nat) (s : State) : State := takeOff p t .waiting s

/-- `unblock(u)` (R359). -/
def unblock (u : Nat) (s : State) : State :=
  let s := s.modThread u fun T => { T with state := .ready }
  { s with ready := s.ready ++ [u] }

/-- `unblock` each thread of a list, in its order. -/
def unblockAll (us : List Nat) (s : State) : State := us.foldl (fun s u => unblock u s) s

/-- `SwitchIn(p, t)` (R355). -/
def switchIn (p t : Nat) (s : State) : State :=
  match s.threads[t]? with
  | none => s
  | some T =>
    let s := s.modProc p fun P =>
      { P with regs := T.ctx, thread := some t, state := .running, stall := 0 }
    let s := s.modThread t fun T => { T with state := .running, proc := some p }
    { s with switches := s.switches + 1 }

/-! ### Locks (10_state.md R46, 49_environment.md R362, R363) -/

/-- The lock with an id, if it exists. -/
def findLock (id : Word) (ls : List Lock) : Option Lock := ls.find? fun l => l.id == id

/-- Put a lock into the table in place of the one with its id, or at its place in ascending id order. -/
def putLock (l : Lock) : List Lock → List Lock
  | [] => [l]
  | k :: ks => if l.id < k.id then l :: k :: ks else if l.id = k.id then l :: ks else k :: putLock l ks

/-- `Release(L)` (R363): the lock afterwards and the thread it was handed to, if any. -/
def releaseLock (l : Lock) : Lock × Option Nat :=
  match l.queue with
  | [] => ({ l with holder := none }, none)
  | n :: q => ({ l with holder := some n, queue := q }, some n)

/-- Release every lock thread t holds, in table order, which is ascending lock id (R371): the table afterwards and
the threads handed a lock, in that order. -/
def releaseHeld (t : Nat) : List Lock → List Lock × List Nat
  | [] => ([], [])
  | l :: ls =>
    let rest := releaseHeld t ls
    if l.holder = some t then
      let r := releaseLock l
      (r.1 :: rest.1, r.2.toList ++ rest.2)
    else (l :: rest.1, rest.2)

/-! ### Termination and the taking of faults (49_environment.md R371, R373; 60_exceptions.md R404) -/

/-- The threads waiting in JOIN for t, ascending. -/
def joinersOf (t : Nat) (s : State) : List Nat :=
  match s.threads[t]? with
  | some T => sortIds T.joiners
  | none => []

/-- `terminate(t)` for the thread t on processor p (R371). -/
def terminate (p t : Nat) (s : State) : State :=
  let s := takeOff p t .terminated s
  let r := releaseHeld t s.locks
  let s := unblockAll r.2 { s with locks := r.1 }
  let js := joinersOf t s
  (unblockAll js s).modThread t fun T => { T with joiners := [] }

/-- The `info` a thread fault's record carries (60_exceptions.md R401): the address for the memory faults, the
faulting pc for the others. -/
def faultInfo (f : ThreadFault) (pc : Word) : Word :=
  match f with
  | .misalignedAccess a => a
  | .addressOutOfRange a => a
  | .fetchOutOfRange => pc
  | .invalid _ => pc
  | .privilegeViolation => pc
  | .divideByZero => pc

/-- `HandleFault(p, t, F)` (60_exceptions.md R404): record the fault with the index of the instruction that was
executing, and terminate the thread. -/
def takeFault (p t : Nat) (f : ThreadFault) (s : State) : State :=
  let pc := (s.regsOf p).pc
  terminate p t { s with faults := s.faults ++ [⟨s.clock, p, t, .thread f, pc, faultInfo f pc⟩] }

/-- `VMFail(p, t, kind, info)` (49_environment.md R373): record the exception with the index of the UNLOCK or JOIN, pc
having advanced, and terminate the thread. -/
def vmFail (p t : Nat) (e : VmException) (info : Word) (s : State) : State :=
  let r : FaultRecord := ⟨s.clock, p, t, .vm e, (s.regsOf p).pc - 1, info⟩
  terminate p t { s with faults := s.faults ++ [r], pending := s.pending ++ [r] }

/-! ### Threads (49_environment.md R354) -/

/-- The record `create_thread` appends (R354); the `priority` argument of the source is ignored and left out. -/
def newThread (s : State) (prog : Nat) (ctx : RegSet) (parent : Option Nat) : Thread where
  id := s.threadCounter
  prog := prog
  ctx := ctx
  softStack := []
  state := .ready
  proc := none
  parent := parent
  created := s.clock
  execCycles := 0
  joiners := []

/-- `create_thread` with the new thread's whole context (R354); the id it returns is the counter before the call. -/
def createThread (prog : Nat) (ctx : RegSet) (parent : Option Nat) (s : State) : State :=
  { s with
    threads := s.threads ++ [newThread s prog ctx parent]
    ready := s.ready ++ [s.threadCounter]
    threadCounter := s.threadCounter + 1 }

/-- The Program of thread t. -/
def State.progOf (s : State) (t : Nat) : Nat :=
  match s.threads[t]? with
  | some T => T.prog
  | none => 0

end Sys2Proof.Machine
end

