-- ==== Sys2Proof/Machine/Flags.lean ====
section
/-! DEFINITION. The FLAGS register: the places of its five named bits and the one flag computation of the instruction
set (10_state.md R25 to R27, 41_compute.md R190). -/

namespace Sys2Proof.Machine

/-- ZERO, bit 0 (10_state.md R26). -/
def flagZero (f : Word) : Bool := f.getLsbD 0

/-- NEGATIVE, bit 1. -/
def flagNegative (f : Word) : Bool := f.getLsbD 1

/-- CARRY, bit 2: written and read by no instruction (10_state.md R27). -/
def flagCarry (f : Word) : Bool := f.getLsbD 2

/-- OVERFLOW, bit 3: written and read by no instruction. -/
def flagOverflow (f : Word) : Bool := f.getLsbD 3

/-- INTERRUPT, bit 4: written and read by no instruction (60_exceptions.md R410). -/
def flagInterrupt (f : Word) : Bool := f.getLsbD 4

/-- FLAGS after a COMPUTE instruction with result r: ZERO and NEGATIVE from r, every other bit unchanged (R190). -/
def setFlags (f r : Word) : Word :=
  (f &&& 0xFFFFFFFC#32) ||| (if r = 0 then 1#32 else 0#32) ||| (if r.msb then 2#32 else 0#32)

end Sys2Proof.Machine
end

