-- ==== Sys2Proof/Machine/Codes.lean ====
section
/-! DEFINITION. The numeric codes of the enumerations (30_encoding.md R135 to R138), the class and sub-codes of the
faults and host conditions (60_exceptions.md R401) and the bit rendering of a bus request (R137). No rule of the
machine depends on a code but `priv < KERNEL` (92_eei_decisions.md D3). -/

namespace Sys2Proof.Machine

/-- R135. -/
def privilegeCode : Privilege → Nat
  | .user => 0
  | .supervisor => 1
  | .kernel => 2

/-- R135. -/
def procStateCode : ProcState → Nat
  | .idle => 0
  | .running => 1
  | .waiting => 2
  | .blocked => 3
  | .terminated => 4

/-- R136. -/
def mesiCode : Mesi → Nat
  | .invalid => 0
  | .shared => 1
  | .exclusive => 2
  | .modified => 3

/-- R137. -/
def busOpCode : BusOp → Nat
  | .readShared => 0
  | .readExclusive => 1
  | .writeBack => 2
  | .invalidate => 3

/-- R138. -/
def threadStateCode : ThreadState → Nat
  | .ready => 0
  | .running => 1
  | .waiting => 2
  | .terminated => 3

/-- R138. -/
def vmStateCode : VmState → Nat
  | .idle => 0
  | .running => 1
  | .paused => 2
  | .finished => 3

/-- The class of a fault (60_exceptions.md R401). -/
def faultClass : FaultKind → Nat
  | .thread .fetchOutOfRange => 1
  | .thread (.invalid _) => 1
  | .thread .privilegeViolation => 2
  | .thread .divideByZero => 3
  | .thread (.misalignedAccess _) => 3
  | .thread (.addressOutOfRange _) => 3
  | .vm _ => 4

/-- The sub-code of a fault (60_exceptions.md R401). -/
def faultSub : FaultKind → Nat
  | .thread .fetchOutOfRange => 1
  | .thread (.invalid .unknownType) => 2
  | .thread (.invalid .badOpcode) => 3
  | .thread (.invalid .operandCount) => 4
  | .thread (.invalid .operandKind) => 5
  | .thread .privilegeViolation => 0
  | .thread .divideByZero => 1
  | .thread (.misalignedAccess _) => 2
  | .thread (.addressOutOfRange _) => 3
  | .vm .joinNonexistentThread => 1
  | .vm .lockInconsistency => 2

/-- The class of a host condition (60_exceptions.md R401): 4 VMException, 5 ExecutionLimitException, 6 Deadlock. -/
def hostConditionClass : HostCondition → Nat
  | .vmException _ => 4
  | .executionLimit _ => 5
  | .deadlock _ => 6

/-- The sub-code of a host condition (60_exceptions.md R401): the exception's own for a VMException, 0 for
ExecutionLimitException and for Deadlock. -/
def hostConditionSub : HostCondition → Nat
  | .vmException r => faultSub r.kind
  | .executionLimit _ => 0
  | .deadlock _ => 0

/-- A line of words as one number, word 0 least significant: R137 does not say how the words lie in `payload` (DESIGN
CHOICE, log entry 22). -/
def lineBits : List Word → Nat
  | [] => 0
  | v :: vs => v.toNat + 2 ^ 32 * lineBits vs

/-- A bus request as bits (R137): `op` in the two least significant bits, then `addr[31:0]`, `pid[7:0]`, `tid_valid`,
`tid[31:0]` and `payload`, which is 0 unless `op` is WRITE_BACK. Where there is no thread, `tid[31:0]` is 0, and a
larger id is cut to 32 bits; the payload of a WRITE_BACK without one is 0, and one of more words than a line is not
cut: R137 says none of these (DESIGN CHOICE, log entry 22). -/
def busRequestBits (r : BusRequest) : Nat :=
  let tid := match r.tid with
    | some t => (1, t % 2 ^ 32)
    | none => (0, 0)
  let payload := match r.op, r.payload with
    | .writeBack, some d => lineBits d
    | _, _ => 0
  busOpCode r.op + 2 ^ 2 * (r.addr % 2 ^ 32) + 2 ^ 34 * (r.pid % 2 ^ 8) + 2 ^ 42 * tid.1 + 2 ^ 43 * tid.2 +
    2 ^ 75 * payload

end Sys2Proof.Machine
end

