-- ==== Sys2Proof/Machine/CacheOps.lean ====
section
/-! DEFINITION. One cache: address split, lookup, local read and write, allocation, eviction, the three bus-message
handlers and flush (46_cache_ops.md R280 to R296). Addresses are byte addresses as natural numbers. -/

namespace Sys2Proof.Machine

/-! ### Address split and lookup (46_cache_ops.md R281) -/

/-- `LineAddr(a)`. -/
def lineAddr (c : Config) (a : Nat) : Nat := a - a % c.lineSize

/-- `WordIndex(a)`. -/
def wordIndex (c : Config) (a : Nat) : Nat := a % c.lineSize / 4

/-- `SetIndex(a)`. -/
def setIndex (c : Config) (a : Nat) : Nat := a / c.lineSize % c.numSets

/-- The slot read where a set or a way does not exist: an INVALID one. -/
def noSlot : CacheSlot := resetSlot 0

/-- The slots of set `si`. -/
def setOf (k : Cache) (si : Nat) : List CacheSlot := k.sets.getD si []

/-- `C.slot[si][w]`. -/
def slotOf (k : Cache) (si w : Nat) : CacheSlot := (setOf k si).getD w noSlot

/-- `C.slot[si][w] <- sl`. -/
def putSlot (k : Cache) (si w : Nat) (sl : CacheSlot) : Cache :=
  { k with sets := k.sets.modify si fun set => set.set w sl }

/-- A slot holds line `la`: it is valid and its address is `la`. -/
def holdsLine (la : Nat) (sl : CacheSlot) : Bool := sl.state != .invalid && sl.addr == la

/-- `Lookup(a)`: the way of set `SetIndex(a)` that holds `LineAddr(a)`, if one does. -/
def lookup (c : Config) (k : Cache) (a : Nat) : Option Nat :=
  (setOf k (setIndex c a)).findIdx? (holdsLine (lineAddr c a))

/-- Store a slot and touch it (46_cache_ops.md R282): the use counter goes up and the slot takes its value. -/
def putTouched (k : Cache) (si w : Nat) (sl : CacheSlot) : Cache :=
  { putSlot k si w { sl with lastUse := k.useCtr + 1 } with useCtr := k.useCtr + 1 }

/-! ### Local operations -/

/-- `CacheRead(a)` (R283): the word on a hit, and the cache afterwards. -/
def cacheRead (c : Config) (k : Cache) (a : Nat) : Option Word × Cache :=
  match lookup c k a with
  | none => (none, k)
  | some w =>
    let sl := slotOf k (setIndex c a) w
    (some (sl.data.getD (wordIndex c a) 0), putTouched k (setIndex c a) w sl)

/-- What `CacheWrite` returns (R284). -/
inductive WriteResult where
  | miss
  | needInvalidate
  | done
  deriving DecidableEq, Repr

/-- A slot with one word written and its state MODIFIED. -/
def writtenSlot (c : Config) (a : Nat) (v : Word) (sl : CacheSlot) : CacheSlot :=
  { sl with data := sl.data.set (wordIndex c a) v, state := .modified, dirty := true }

/-- `CacheWrite(a, v)` (R284). -/
def cacheWrite (c : Config) (k : Cache) (a : Nat) (v : Word) : WriteResult × Cache :=
  match lookup c k a with
  | none => (.miss, k)
  | some w =>
    let sl := slotOf k (setIndex c a) w
    if sl.state = .shared then (.needInvalidate, k)
    else (.done, putTouched k (setIndex c a) w (writtenSlot c a v sl))

/-- What leaves a cache (R286, R288). -/
structure Evicted where
  addr  : Nat
  data  : List Word
  dirty : Bool
  state : Mesi
  deriving DecidableEq, Repr

/-- The copy of a slot that leaves its cache. -/
def evictedOf (sl : CacheSlot) : Evicted := ⟨sl.addr, sl.data, sl.dirty, sl.state⟩

/-- The way with the smallest `lastUse`, the lowest on a tie. -/
def lruWay : List CacheSlot → Nat
  | [] => 0
  | [_] => 0
  | s :: t :: rest =>
    let w := lruWay (t :: rest)
    if s.lastUse ≤ ((t :: rest).getD w noSlot).lastUse then 0 else w + 1

/-- The ways of a set that are INVALID, ascending. -/
def invalidWays (set : List CacheSlot) : List Nat :=
  (List.range set.length).filter fun w => (set.getD w noSlot).state == .invalid

/-- `Victim(set)` (R287). LRU takes the lowest INVALID way and, when every way is valid, the least recently used. Any
other policy takes some INVALID way when there is one, and else some way, as `Config.victimChoice` chooses. -/
def victimWay (c : Config) (set : List CacheSlot) : Nat :=
  match c.victim with
  | .lru => (set.findIdx? fun sl => sl.state == .invalid).getD (lruWay set)
  | .other n =>
    let ws := if invalidWays set = [] then List.range set.length else invalidWays set
    ws.getD (Config.victimChoice n set % ws.length) 0

/-- The slot `Allocate` installs (R286), before the touch. -/
def filledSlot (la : Nat) (data : List Word) (st : Mesi) : CacheSlot :=
  { addr := la, data := data, state := st, dirty := st == .modified, lastUse := 0 }

/-- `Allocate(la, data, st)` (R286): what had to leave, and the cache afterwards. -/
def allocate (c : Config) (k : Cache) (la : Nat) (data : List Word) (st : Mesi) : Option Evicted × Cache :=
  let si := setIndex c la
  match lookup c k la with
  | some w => (none, putTouched k si w (filledSlot la data st))
  | none =>
    let w := victimWay c (setOf k si)
    let old := slotOf k si w
    (if old.state = .invalid then none else some (evictedOf old), putTouched k si w (filledSlot la data st))

/-- A slot made INVALID and clean. -/
def clearedSlot (sl : CacheSlot) : CacheSlot := { sl with state := .invalid, dirty := false }

/-- `Evict(la)` (R288), a host operation. -/
def evict (c : Config) (k : Cache) (la : Nat) : Option Evicted × Cache :=
  match lookup c k la with
  | none => (none, k)
  | some w =>
    let sl := slotOf k (setIndex c la) w
    (some (evictedOf sl), putSlot k (setIndex c la) w (clearedSlot sl))

/-! ### Bus-message handlers (R289 to R291); they do not touch `lastUse` (R294) -/

/-- What `HandleBusRead` returns: none is NotHeld; else the data, and whether the line was MODIFIED. -/
def handleBusRead (c : Config) (k : Cache) (la : Nat) : Option (List Word × Bool) × Cache :=
  match lookup c k la with
  | none => (none, k)
  | some w =>
    let sl := slotOf k (setIndex c la) w
    (some (sl.data, sl.state == .modified),
      putSlot k (setIndex c la) w { sl with state := .shared, dirty := false })

/-- What `HandleBusReadExclusive` returns (R290). -/
inductive ExclusiveReply where
  | notHeld
  | heldClean
  | heldDirty (data : List Word)
  deriving DecidableEq, Repr

/-- `HandleBusReadExclusive(la)` (R290). -/
def handleBusReadExclusive (c : Config) (k : Cache) (la : Nat) : ExclusiveReply × Cache :=
  match lookup c k la with
  | none => (.notHeld, k)
  | some w =>
    let sl := slotOf k (setIndex c la) w
    (if sl.state = .modified then .heldDirty sl.data else .heldClean,
      putSlot k (setIndex c la) w (clearedSlot sl))

/-- `HandleBusInvalidate(la)` (R291): "MODIFIED blocks invalidation". -/
def handleBusInvalidate (c : Config) (k : Cache) (la : Nat) : Cache :=
  match lookup c k la with
  | none => k
  | some w =>
    let sl := slotOf k (setIndex c la) w
    if sl.state = .modified then k else putSlot k (setIndex c la) w (clearedSlot sl)

/-! ### Flush (R292) -/

/-- Write back the line of a MODIFIED slot. -/
def flushSlot (m : Memory) (sl : CacheSlot) : Memory :=
  if sl.state = .modified then memLineWrite m sl.addr sl.data else m

/-- Write back every MODIFIED line of one cache, sets then ways ascending. -/
def flushCache (m : Memory) (k : Cache) : Memory := k.sets.foldl (fun m set => set.foldl flushSlot m) m

end Sys2Proof.Machine
end

