-- ==== Sys2Proof/Machine/BusOps.lean ====
section
/-! DEFINITION. The bus and the coherent paths (47_bus_ops.md R320 to R339): submission and tick, the bus side of each
request, and `DataRead` and `DataWrite`, through which every instruction reaches memory. -/

namespace Sys2Proof.Machine

/-! ### The caches of the state -/

/-- Cache p; a machine without that cache reads as one that holds nothing. -/
def State.cacheAt (s : State) (p : Nat) : Cache := s.caches.getD p ⟨[], 0⟩

/-- Replace cache p. -/
def State.putCache (s : State) (p : Nat) (k : Cache) : State := { s with caches := s.caches.set p k }

/-! ### Snoops, in ascending processor id, the requester skipped (R294, 92_eei_decisions.md D20) -/

/-- What a READ_SHARED's snoops gather: main memory, the data, and whether some cache held the line. -/
structure SnoopAcc where
  mem  : Memory
  data : Option (List Word)
  held : Bool
  deriving DecidableEq, Repr

/-- The reply of one cache to a READ_SHARED, folded in (R333). -/
def snoopReadReply (la : Nat) (acc : SnoopAcc) : Option (List Word × Bool) → SnoopAcc
  | none => acc
  | some (d, true) => { mem := memLineWrite acc.mem la d, data := some d, held := true }
  | some (d, false) => { acc with data := some (acc.data.getD d), held := true }

/-- The snoops of READ_SHARED over the caches from processor id q on (R333). -/
def snoopRead (c : Config) (la pid : Nat) : Nat → List Cache → SnoopAcc → List Cache × SnoopAcc
  | _, [], acc => ([], acc)
  | q, k :: ks, acc =>
    if q = pid then
      let r := snoopRead c la pid (q + 1) ks acc
      (k :: r.1, r.2)
    else
      let h := handleBusRead c k la
      let r := snoopRead c la pid (q + 1) ks (snoopReadReply la acc h.1)
      (h.2 :: r.1, r.2)

/-- The reply of one cache to a READ_EXCLUSIVE, folded in (R334). -/
def snoopExclusiveReply (la : Nat) (acc : Memory × Option (List Word)) :
    ExclusiveReply → Memory × Option (List Word)
  | .notHeld => acc
  | .heldClean => acc
  | .heldDirty d => (memLineWrite acc.1 la d, some d)

/-- The snoops of READ_EXCLUSIVE over the caches from processor id q on (R334). -/
def snoopExclusive (c : Config) (la pid : Nat) :
    Nat → List Cache → Memory × Option (List Word) → List Cache × (Memory × Option (List Word))
  | _, [], acc => ([], acc)
  | q, k :: ks, acc =>
    if q = pid then
      let r := snoopExclusive c la pid (q + 1) ks acc
      (k :: r.1, r.2)
    else
      let h := handleBusReadExclusive c k la
      let r := snoopExclusive c la pid (q + 1) ks (snoopExclusiveReply la acc h.1)
      (h.2 :: r.1, r.2)

/-- The snoops of INVALIDATE over the caches from processor id q on (R335). -/
def snoopInvalidate (c : Config) (la pid : Nat) : Nat → List Cache → List Cache
  | _, [] => []
  | q, k :: ks =>
    (if q = pid then k else handleBusInvalidate c k la) :: snoopInvalidate c la pid (q + 1) ks

/-! ### The bus side of each request (R333 to R336) -/

/-- `BusSide(READ_SHARED, la, pid)` (R333). -/
def busReadShared (la pid : Nat) (s : State) : BusResult × State :=
  let r := snoopRead s.cfg la pid 0 s.caches { mem := s.mem, data := none, held := false }
  let d := r.2.data.getD (memLineRead r.2.mem la s.cfg.lineWords)
  (.line d (if r.2.held then .shared else .exclusive), { s with caches := r.1, mem := r.2.mem })

/-- `BusSide(READ_EXCLUSIVE, la, pid)` (R334). -/
def busReadExclusive (la pid : Nat) (s : State) : BusResult × State :=
  let r := snoopExclusive s.cfg la pid 0 s.caches (s.mem, none)
  let d := r.2.2.getD (memLineRead r.2.1 la s.cfg.lineWords)
  (.line d .modified, { s with caches := r.1, mem := r.2.1 })

/-- `BusSide(INVALIDATE, la, pid)` (R335). -/
def busInvalidate (la pid : Nat) (s : State) : BusResult × State :=
  (.success, { s with caches := snoopInvalidate s.cfg la pid 0 s.caches })

/-- `BusSide(WRITE_BACK, la, pid, payload)` (R336): without a payload nothing is written. -/
def busWriteBack (la : Nat) (payload : Option (List Word)) (s : State) : BusResult × State :=
  match payload with
  | some d => (.success, { s with mem := memLineWrite s.mem la d })
  | none => (.success, s)

/-- `BusSide`, by operation. -/
def busSide (op : BusOp) (la pid : Nat) (payload : Option (List Word)) (s : State) : BusResult × State :=
  match op with
  | .readShared => busReadShared la pid s
  | .readExclusive => busReadExclusive la pid s
  | .writeBack => busWriteBack la payload s
  | .invalidate => busInvalidate la pid s

/-- The statistics after one more request (R326), counted at submission. -/
def countRequest (op : BusOp) (b : Bus) : Bus :=
  match op with
  | .readShared => { b with totalRequests := b.totalRequests + 1, readRequests := b.readRequests + 1 }
  | .readExclusive => { b with totalRequests := b.totalRequests + 1, readRequests := b.readRequests + 1 }
  | .writeBack => { b with totalRequests := b.totalRequests + 1, writeRequests := b.writeRequests + 1 }
  | .invalidate =>
    { b with totalRequests := b.totalRequests + 1, invalidationRequests := b.invalidationRequests + 1 }

/-- `Submit(op, la, pid, tid, payload)` (R321, R325): the whole effect is atomic at submission; the request then waits
`BUS_LATENCY` ticks in the queue. -/
def submit (op : BusOp) (la pid : Nat) (tid : Option Nat) (payload : Option (List Word)) (s : State) :
    BusResult × State :=
  let r := busSide op la pid payload { s with bus := countRequest op s.bus }
  let q : BusRequest := ⟨op, la, pid, tid, payload, false, r.1, s.cfg.busLatency⟩
  (r.1, { r.2 with bus := { r.2.bus with queue := r.2.bus.queue ++ [q] } })

/-- `Tick()` (R322): the requests it completes, in queue order, and the bus afterwards. -/
def tick (b : Bus) : List BusRequest × Bus :=
  let q := b.queue.map fun r => { r with remaining := r.remaining - 1 }
  ((q.filter fun r => r.remaining == 0).map fun r => { r with completed := true },
    { b with queue := q.filter fun r => r.remaining != 0 })

/-! ### The coherent read and write paths (R330 to R332) -/

/-- `Install(p, la, data, st, tid)` (R332). -/
def install (p la : Nat) (data : List Word) (st : Mesi) (tid : Option Nat) (s : State) : State :=
  let r := allocate s.cfg (s.cacheAt p) la data st
  let s := s.putCache p r.2
  match r.1 with
  | some ev => if ev.dirty then (submit .writeBack ev.addr p tid (some ev.data) s).2 else s
  | none => s

/-- The words and the state a read request's result carries (R324). -/
def lineOf : BusResult → List Word × Mesi
  | .line d st => (d, st)
  | .success => ([], .invalid)

/-- `DataRead(p, a)` with `COHERENCE_EN` (R330); its requests carry the thread id `tid`. -/
def coherentRead (p : Nat) (tid : Option Nat) (a : Nat) (s : State) : Word × State :=
  let c := s.cfg
  match cacheRead c (s.cacheAt p) a with
  | (some v, k) => (v, s.putCache p k)
  | (none, _) =>
    let r := submit .readShared (lineAddr c a) p tid none s
    let d := lineOf r.1
    (d.1.getD (wordIndex c a) 0, install p (lineAddr c a) d.1 d.2 tid r.2)

/-- The last lines of a write that had to go to the bus: look the line up again and change it (R331). -/
def writeLooked (p a : Nat) (f : Cache → Nat → CacheSlot → Cache) (s : State) : State :=
  let k := s.cacheAt p
  match lookup s.cfg k a with
  | some w => s.putCache p (f k w (slotOf k (setIndex s.cfg a) w))
  | none => s

/-- `DataWrite(p, a, v)` with `COHERENCE_EN` (R331); its requests carry the thread id `tid`. -/
def coherentWrite (p : Nat) (tid : Option Nat) (a : Nat) (v : Word) (s : State) : State :=
  let c := s.cfg
  match cacheWrite c (s.cacheAt p) a v with
  | (.done, k) => s.putCache p k
  | (.needInvalidate, _) =>
    writeLooked p a (fun k w sl => putTouched k (setIndex c a) w (writtenSlot c a v sl))
      (submit .invalidate (lineAddr c a) p tid none s).2
  | (.miss, _) =>
    let r := submit .readExclusive (lineAddr c a) p tid none s
    writeLooked p a
      (fun k w sl => putSlot k (setIndex c a) w { sl with data := sl.data.set (wordIndex c a) v })
      (install p (lineAddr c a) (lineOf r.1).1 .modified tid r.2)

/-- `DataRead(p, a)`, the 32-bit read at byte address a as processor p (R330, 20_memory.md R97). `tid` is `P[p].thread`
for an instruction's access and none for the host's (47_bus_ops.md section 3, 10_state.md R41). -/
def dataRead (p : Nat) (tid : Option Nat) (a : Nat) (s : State) : Word × State :=
  if s.cfg.coherence then coherentRead p tid a s else (memReadWord s.mem a, s)

/-- `DataWrite(p, a, v)`, the 32-bit write (R331, 20_memory.md R97). `tid` is as in `dataRead`. -/
def dataWrite (p : Nat) (tid : Option Nat) (a : Nat) (v : Word) (s : State) : State :=
  if s.cfg.coherence then coherentWrite p tid a v s else { s with mem := memWriteWord s.mem a v }

/-- `FlushAll()` (46_cache_ops.md R292); with `COHERENCE_EN` false it is a no-op (92_eei_decisions.md D46). -/
def flushAll (s : State) : State :=
  if s.cfg.coherence then { s with mem := s.caches.foldl flushCache s.mem } else s

end Sys2Proof.Machine
end

