-- ==== Sys2Proof/Machine/Effects.lean ====
section
/-! DEFINITION. The environment's resolution of the effects a processor emits (49_environment.md R352, R360 to R370),
with the lock and barrier operations of the synchronization manager (44_sync.md R241, R242, R245). `p` is the
processor whose call emitted the effect and `t` the thread it ran. -/

namespace Sys2Proof.Machine

/-! ### Memory (R360, R361, R365) -/

/-- MemoryRead into a register (R360). -/
def resolveReadReg (p : Nat) (a : Word) (r : Reg) (s : State) : State :=
  let d := dataRead p (s.threadOn p) a.toNat s
  d.2.modRegs p fun R => writeReg R r d.1

/-- The control-flow record of a transfer (10_state.md R34): `legit` says the target is an index of the Program. -/
def cfRecord (k : BranchKind) (src dst : Word) (plen : Nat) : CfRecord := ⟨k, src, dst, decide (dst.toNat < plen)⟩

/-- MemoryRead into PC, RET's (R360): PC still holds the RET's own index, which the record names as its origin (DEDUCED,
log entry 8). -/
def resolveReadPc (p t : Nat) (a : Word) (s : State) : State :=
  let d := dataRead p (s.threadOn p) a.toNat s
  let plen := s.plen t
  d.2.modProc p fun P =>
    { P with regs := writePc P.regs d.1, cflog := P.cflog ++ [cfRecord .ret P.regs.pc d.1 plen] }

/-- Cas (R365): the read, and the write only when the value read equals `expected`. -/
def resolveCas (p : Nat) (a e n : Word) (r : Reg) (s : State) : State :=
  let d := dataRead p (s.threadOn p) a.toNat s
  if d.1 = e then (dataWrite p (s.threadOn p) a.toNat n d.2).modRegs p fun R => writeReg R r 1
  else d.2.modRegs p fun R => writeReg R r 0

/-! ### Locks (R362, R363) -/

/-- SyncLock, `acquire_lock` (R362, 44_sync.md R241). -/
def resolveLock (p t : Nat) (id : Word) (s : State) : State :=
  let l := (findLock id s.locks).getD ⟨id, none, []⟩
  match l.holder with
  | none => { s with locks := putLock { l with holder := some t } s.locks }
  | some _ => suspend p t { s with locks := putLock { l with queue := l.queue ++ [t] } s.locks }

/-- SyncUnlock, `release_lock` (R363, 44_sync.md R242). -/
def resolveUnlock (p t : Nat) (id : Word) (s : State) : State :=
  match findLock id s.locks with
  | none => vmFail p t .lockInconsistency id s
  | some l =>
    if l.holder = some t then
      let r := releaseLock l
      unblockAll r.2.toList { s with locks := putLock r.1 s.locks }
    else vmFail p t .lockInconsistency id s

/-! ### Barriers (R364, 44_sync.md R245) -/

/-- The barrier with an id, if it exists. -/
def findBarrier (id : Word) (bs : List Barrier) : Option Barrier := bs.find? fun b => b.id == id

/-- Put a barrier into the table in place of the one with its id, or at its place in ascending id order. -/
def putBarrier (b : Barrier) : List Barrier → List Barrier
  | [] => [b]
  | k :: ks => if b.id < k.id then b :: k :: ks else if b.id = k.id then b :: ks else k :: putBarrier b ks

/-- The barrier after thread t's arrival with n parties, before the test whether it trips (R245): `parties` is the
latest call's, and `released` falls at the first arrival of a generation. -/
def arriveBarrier (t : Nat) (n : Word) (b : Barrier) : Barrier :=
  { b with
    parties := n
    released := if b.arrived = [] then false else b.released
    arrived := insertId t b.arrived }

/-- The barrier after it has tripped: the next generation. -/
def trippedBarrier (b : Barrier) : Barrier :=
  { b with arrived := [], released := true, generation := b.generation + 1 }

/-- Barrier, `await_barrier` (R245, R364). -/
def resolveBarrier (p t : Nat) (id n : Word) (s : State) : State :=
  let b := arriveBarrier t n ((findBarrier id s.barriers).getD ⟨id, n, [], false, 0⟩)
  if b.arrived.length = n.toNat then
    unblockAll (b.arrived.filter fun u => u != t) { s with barriers := putBarrier (trippedBarrier b) s.barriers }
  else suspend p t { s with barriers := putBarrier b s.barriers }

/-! ### Threads (R366 to R368, R370) -/

/-- Yield (R367): suspend, then unblock to the tail of the ready queue. -/
def resolveYield (p t : Nat) (s : State) : State := unblock t (suspend p t s)

/-- The context of a spawned child (R368, 45_system_special.md R265): every register 0 and FLAGS 0, but PC, R0 and the
inherited privilege level. -/
def childContext (func arg : Word) (priv : Privilege) : RegSet :=
  { writeReg RegSet.reset 0 arg with pc := func, priv := priv }

/-- Spawn (R368). The child's id is written to the result register modulo 2^32 (DEDUCED, log entry 9). -/
def resolveSpawn (p t : Nat) (func arg : Word) (r : Reg) (s : State) : State :=
  let child := s.threadCounter
  (createThread (s.progOf t) (childContext func arg (s.regsOf p).priv) (some t) s).modRegs p
    fun R => writeReg R r (BitVec.ofNat 32 child)

/-- Join (R370). The processor is WAITING when this begins and not when it ends. -/
def resolveJoin (p t : Nat) (j : Word) (s : State) : State :=
  match s.threads[j.toNat]? with
  | none => vmFail p t .joinNonexistentThread j s
  | some T =>
    if T.state = .terminated then s.modProc p fun P => { P with state := .running }
    else suspend p t (s.modThread j.toNat fun T => { T with joiners := T.joiners ++ [t] })

/-! ### Routing (R352) -/

/-- `Resolve(p, t, e)` (R352). -/
def resolve (p t : Nat) (e : Effect) (s : State) : State :=
  match e with
  | .registersModified _ => s
  | .memoryRead a (.reg r) => resolveReadReg p a r s
  | .memoryRead a .pc => resolveReadPc p t a s
  | .memoryWrite a v => dataWrite p (s.threadOn p) a.toNat v s
  | .ret => s
  | .syncLock id => resolveLock p t id s
  | .syncUnlock id => resolveUnlock p t id s
  | .fence => s
  | .cas a e n r => resolveCas p a e n r s
  | .barrier id n => resolveBarrier p t id n s
  | .halt => terminate p t s
  | .yield => resolveYield p t s
  | .syscall _ => s
  | .spawn f a r => resolveSpawn p t f a r s
  | .join j => resolveJoin p t j s

/-- Resolve the effects of one call in the order they were emitted (R352). -/
def resolveAll (p t : Nat) (es : List Effect) (s : State) : State := es.foldl (fun s e => resolve p t e s) s

end Sys2Proof.Machine
end

