-- ==== Sys2Proof/Machine/Operands.lean ====
section
/-! DEFINITION. The value of an operand (00_scope.md R14) and the address check of the memory instructions
(20_memory.md R78). -/

namespace Sys2Proof.Machine

/-- `V(o)` of a REG or IMM operand. -/
def srcValue (r : RegSet) : Src → Word
  | .reg i => readReg r i
  | .imm v => v

/-- `V(o)` of SPAWN's argument: for ADDR the number itself, not the word stored there
(45_system_special.md R265). -/
def spawnArgValue (r : RegSet) : SpawnArg → Word
  | .addr a => a
  | .reg i => readReg r i
  | .imm v => v

/-- `AddrCheck(a)` (20_memory.md R78): the fault it raises, if any, the misalignment test first. -/
def addrCheck (memSize : Nat) (a : Word) : Option ThreadFault :=
  if a.toNat % 4 ≠ 0 then some (.misalignedAccess a)
  else if memSize < a.toNat + 4 then some (.addressOutOfRange a)
  else none

end Sys2Proof.Machine
end

