-- ==== Sys2Proof/Machine/Issue.lean ====
section
/-! DEFINITION. The part of an accepting `execute_instruction` call that is common to every instruction: privilege
check, acceptance, dispatch of the instruction's rule, PC update, result, and the resolution of its effects or the
taking of its fault (40_pipeline.md R153 to R161, 49_environment.md R351). -/

namespace Sys2Proof.Machine

/-- What an instruction's rule reads beside its processor: `plen` (43_branch.md) and `MEM_SIZE`. -/
structure CallEnv where
  plen    : Nat
  memSize : Nat
  deriving DecidableEq, Repr

/-- What the dispatch of an instruction's rule gives (40_pipeline.md R156): a fault, raised before anything was
written (R161), or the processor as the rule leaves it, `next`, and the effects emitted. -/
inductive Dispatch where
  | raise (f : ThreadFault)
  | done (P : Proc) (next : Word) (effects : List Effect)
  deriving DecidableEq, Repr

/-- The privilege check (R153): the instruction is privileged, enforcement is on and the level is below KERNEL. -/
def privBlocked (h : Hdr) (P : Proc) : Bool :=
  h.priv && P.enforce && decide (privilegeCode P.regs.priv < privilegeCode .kernel)

/-- Acceptance (R154). -/
def accept (h : Hdr) (P : Proc) : Proc := { P with stall := h.lat - 1, cycles := P.cycles + 1 }

/-- The processor as its call leaves it when nothing was emitted: on a fault and on a stall cycle. -/
def silent (P : Proc) : Proc := { P with completed := false, effects := [] }

/-- PC update and result (R157, R158): `completed` says that the stall counter is 0 after this call. -/
def finishCall (P : Proc) (next : Word) (es : List Effect) : Proc :=
  { P with regs := writePc P.regs next, completed := P.stall == 0, effects := es }

/-- Count one accepted instruction of thread t (49_environment.md R351). -/
def countExec (t : Nat) (s : State) : State :=
  s.modThread t fun T => { T with execCycles := T.execCycles + 1 }

/-- Replace processor p. -/
def State.putProc (s : State) (p : Nat) (P : Proc) : State := { s with procs := s.procs.set p P }

/-- What an instruction's rule reads beside its processor, for thread t. -/
def callEnv (s : State) (t : Nat) : CallEnv := { plen := s.plen t, memSize := s.cfg.memSize }

/-- Acceptance and everything after it, for processor P running thread t (R154 to R161). -/
def dispatchOn (h : Hdr) (rule : CallEnv → Proc → Dispatch) (P : Proc) (t : Nat) (s : State) : State :=
  let Q := accept h P
  let s1 := countExec t (s.putProc s.cur (silent Q))
  match rule (callEnv s t) Q with
  | .raise f => takeFault s.cur t f s1
  | .done R next es => resolveAll s.cur t es (s1.putProc s.cur (finishCall R next es))

/-- One accepting call on the processor `cur` (R150, R160), from the privilege check on (DESIGN CHOICE, log entry 6). A
record of latency 0, which no loaded Program holds (30_encoding.md R132), is refused (log entry 7). -/
def issue (h : Hdr) (rule : CallEnv → Proc → Dispatch) (s : State) : Host.Outcome State Fault Refusal :=
  match s.procs[s.cur]? with
  | none => .fault .noProcessor
  | some P =>
    match P.thread with
    | none => .fault .noThread
    | some t =>
      match s.threads[t]? with
      | none => .fault .noThreadRecord
      | some _ =>
        if h.lat = 0 then .refused .latencyZero
        else if privBlocked h P then .next (takeFault s.cur t .privilegeViolation (s.putProc s.cur (silent P)))
        else .next (dispatchOn h rule P t s)

/-- The rule of a word that the decode check refuses (R155): InvalidInstruction, after acceptance. -/
def invalidRule (why : DecodeFault) (_ : CallEnv) (_ : Proc) : Dispatch := .raise (.invalid why)

/-- The call on an invalid word (R155, 60_exceptions.md R403). -/
def issueInvalid (h : Hdr) (why : DecodeFault) (s : State) : Host.Outcome State Fault Refusal :=
  issue h (invalidRule why) s

end Sys2Proof.Machine
end

