-- ==== Sys2Proof/Machine/MemoryInstr.lean ====
section
/-! DEFINITION. The MEMORY instructions (42_memory_instr.md): LOAD STORE PUSH POP. The address check of every access
comes before SP or any other register changes and before the effect is emitted (R207). -/

namespace Sys2Proof.Machine

/-- SP of a register set. -/
def spOf (r : RegSet) : Word := readReg r Reg.sp

/-- LOAD (R201): the immediate form writes the register and makes no access. -/
def loadRule (rd : Reg) (src : LoadSrc) (env : CallEnv) (P : Proc) : Dispatch :=
  match src with
  | .imm v => .done { P with regs := writeReg P.regs rd v } (nextPc P.regs) [.registersModified [rd]]
  | .addr a =>
    match addrCheck env.memSize a with
    | some f => .raise f
    | none => .done P (nextPc P.regs) [.memoryRead a (.reg rd)]

/-- STORE (R202). -/
def storeRule (rs : Reg) (a : Word) (env : CallEnv) (P : Proc) : Dispatch :=
  match addrCheck env.memSize a with
  | some f => .raise f
  | none => .done P (nextPc P.regs) [.memoryWrite a (readReg P.regs rs)]

/-- The push of PUSH and CALL (R203, R206, 43_branch.md R224): SP goes down by 4, then v is written at the new SP. -/
def pushWord (v next : Word) (log : List CfRecord) (env : CallEnv) (P : Proc) : Dispatch :=
  let a := spOf P.regs - 4
  match addrCheck env.memSize a with
  | some f => .raise f
  | none =>
    .done { P with regs := writeReg P.regs Reg.sp a, cflog := P.cflog ++ log } next [.memoryWrite a v]

/-- PUSH (R203): the register is read before SP changes. -/
def pushRule (rs : Reg) (env : CallEnv) (P : Proc) : Dispatch :=
  pushWord (readReg P.regs rs) (nextPc P.regs) [] env P

/-- POP (R204): SP goes up by 4; the environment's write of rd comes after it. -/
def popRule (rd : Reg) (env : CallEnv) (P : Proc) : Dispatch :=
  let a := spOf P.regs
  match addrCheck env.memSize a with
  | some f => .raise f
  | none => .done { P with regs := writeReg P.regs Reg.sp (a + 4) } (nextPc P.regs) [.memoryRead a (.reg rd)]

/-- LOAD rd, src (R201). -/
def execLoad (h : Hdr) (rd : Reg) (src : LoadSrc) (s : State) : Host.Outcome State Fault Refusal :=
  issue h (loadRule rd src) s

/-- STORE rs, @a (R202). -/
def execStore (h : Hdr) (rs : Reg) (a : Word) (s : State) : Host.Outcome State Fault Refusal :=
  issue h (storeRule rs a) s

/-- PUSH rs (R203). -/
def execPush (h : Hdr) (rs : Reg) (s : State) : Host.Outcome State Fault Refusal := issue h (pushRule rs) s

/-- POP rd (R204). -/
def execPop (h : Hdr) (rd : Reg) (s : State) : Host.Outcome State Fault Refusal := issue h (popRule rd) s

end Sys2Proof.Machine
end

