-- ==== Sys2Proof/Machine/Branch.lean ====
section
/-! DEFINITION. The BRANCH instructions (43_branch.md): JMP JZ JNZ CALL RET. -/

namespace Sys2Proof.Machine

/-- A transfer to an index, logged (R220, R221). -/
def transfer (k : BranchKind) (target : Word) (env : CallEnv) (P : Proc) : Dispatch :=
  .done { P with cflog := P.cflog ++ [cfRecord k P.regs.pc target env.plen] } target []

/-- A branch: taken, a transfer; not taken, `next` stays `u32(pc + 1)` and nothing is logged (R222, R223). -/
def branchRule (k : BranchKind) (taken : Word → Bool) (target : Word) (env : CallEnv) (P : Proc) : Dispatch :=
  if taken P.regs.flags then transfer k target env P else .done P (nextPc P.regs) []

/-- CALL (R224): push the index of the next instruction, then transfer. -/
def callRule (target : Word) (env : CallEnv) (P : Proc) : Dispatch :=
  pushWord (nextPc P.regs) target [cfRecord .call P.regs.pc target env.plen] env P

/-- RET (R225): SP goes up by 4; the processor leaves PC at its own index and the environment loads it with the word
read and completes the control-flow record (49_environment.md R360). -/
def retRule (env : CallEnv) (P : Proc) : Dispatch :=
  let a := spOf P.regs
  match addrCheck env.memSize a with
  | some f => .raise f
  | none => .done { P with regs := writeReg P.regs Reg.sp (a + 4) } P.regs.pc [.memoryRead a .pc, .ret]

/-- JMP @t (R221). -/
def execJmp (h : Hdr) (target : Word) (s : State) : Host.Outcome State Fault Refusal :=
  issue h (transfer .jmp target) s

/-- JZ @t (R222): taken when ZERO is 1. -/
def execJz (h : Hdr) (target : Word) (s : State) : Host.Outcome State Fault Refusal :=
  issue h (branchRule .jz flagZero target) s

/-- JNZ @t (R223): taken when ZERO is 0. -/
def execJnz (h : Hdr) (target : Word) (s : State) : Host.Outcome State Fault Refusal :=
  issue h (branchRule .jnz (fun f => !flagZero f) target) s

/-- CALL @t (R224). -/
def execCall (h : Hdr) (target : Word) (s : State) : Host.Outcome State Fault Refusal :=
  issue h (callRule target) s

/-- RET (R225). -/
def execRet (h : Hdr) (s : State) : Host.Outcome State Fault Refusal := issue h retRule s

end Sys2Proof.Machine
end

