-- ==== Sys2Proof/Machine/Compute.lean ====
section
/-! DEFINITION. The COMPUTE instructions (41_compute.md): ADD SUB MUL DIV AND OR XOR SHL SHR. -/

namespace Sys2Proof.Machine

/-- The common pseudocode of R180 once the result r is known: write the destination, update ZERO and NEGATIVE, emit
RegistersModified. -/
def writeResult (rd : Reg) (r : Word) (P : Proc) : Dispatch :=
  .done { P with regs := { writeReg P.regs rd r with flags := setFlags P.regs.flags r } } (nextPc P.regs)
    [.registersModified [rd]]

/-- R180 for an operation that cannot fault; both sources are read before anything is written (R192). -/
def computeRule (f : Word → Word → Word) (rd : Reg) (a b : Src) (_ : CallEnv) (P : Proc) : Dispatch :=
  writeResult rd (f (srcValue P.regs a) (srcValue P.regs b)) P

/-- `u32(a + b)` (R181). -/
def aluAdd (a b : Word) : Word := a + b

/-- `u32(a - b)` (R182). -/
def aluSub (a b : Word) : Word := a - b

/-- `u32(a * b)` (R183). -/
def aluMul (a b : Word) : Word := a * b

/-- `a div b`, unsigned (R184); asked only for b other than 0. -/
def aluDiv (a b : Word) : Word := a / b

/-- `a and b` (R185). -/
def aluAnd (a b : Word) : Word := a &&& b

/-- `a or b` (R186). -/
def aluOr (a b : Word) : Word := a ||| b

/-- `a xor b` (R187). -/
def aluXor (a b : Word) : Word := a ^^^ b

/-- `u32(a * 2^b)` for b below 32, else 0: the count is not masked (R188). -/
def aluShl (a b : Word) : Word := if b.toNat < 32 then a <<< b.toNat else 0

/-- `a div 2^b` for b below 32, else 0 (R189). -/
def aluShr (a b : Word) : Word := if b.toNat < 32 then a >>> b.toNat else 0

/-- R184: a zero divisor faults before the destination or a flag is written. -/
def divRule (rd : Reg) (a b : Src) (_ : CallEnv) (P : Proc) : Dispatch :=
  if srcValue P.regs b = 0 then .raise .divideByZero
  else writeResult rd (aluDiv (srcValue P.regs a) (srcValue P.regs b)) P

/-- ADD rd, s1, s2 (R181). -/
def execAdd (h : Hdr) (rd : Reg) (a b : Src) (s : State) : Host.Outcome State Fault Refusal :=
  issue h (computeRule aluAdd rd a b) s

/-- SUB rd, s1, s2 (R182). -/
def execSub (h : Hdr) (rd : Reg) (a b : Src) (s : State) : Host.Outcome State Fault Refusal :=
  issue h (computeRule aluSub rd a b) s

/-- MUL rd, s1, s2 (R183). -/
def execMul (h : Hdr) (rd : Reg) (a b : Src) (s : State) : Host.Outcome State Fault Refusal :=
  issue h (computeRule aluMul rd a b) s

/-- DIV rd, s1, s2 (R184). -/
def execDiv (h : Hdr) (rd : Reg) (a b : Src) (s : State) : Host.Outcome State Fault Refusal :=
  issue h (divRule rd a b) s

/-- AND rd, s1, s2 (R185). -/
def execAnd (h : Hdr) (rd : Reg) (a b : Src) (s : State) : Host.Outcome State Fault Refusal :=
  issue h (computeRule aluAnd rd a b) s

/-- OR rd, s1, s2 (R186). -/
def execOr (h : Hdr) (rd : Reg) (a b : Src) (s : State) : Host.Outcome State Fault Refusal :=
  issue h (computeRule aluOr rd a b) s

/-- XOR rd, s1, s2 (R187). -/
def execXor (h : Hdr) (rd : Reg) (a b : Src) (s : State) : Host.Outcome State Fault Refusal :=
  issue h (computeRule aluXor rd a b) s

/-- SHL rd, s1, s2 (R188). -/
def execShl (h : Hdr) (rd : Reg) (a b : Src) (s : State) : Host.Outcome State Fault Refusal :=
  issue h (computeRule aluShl rd a b) s

/-- SHR rd, s1, s2 (R189). -/
def execShr (h : Hdr) (rd : Reg) (a b : Src) (s : State) : Host.Outcome State Fault Refusal :=
  issue h (computeRule aluShr rd a b) s

end Sys2Proof.Machine
end

