-- ==== Sys2Proof/Machine/SyncInstr.lean ====
section
/-! DEFINITION. The SYNC instructions (44_sync.md): LOCK UNLOCK FENCE CAS BARRIER. The processor's part is to read the
operands and emit one effect (R240). -/

namespace Sys2Proof.Machine

/-- A rule that changes nothing in the processor and emits the effects given (R240, R260, R267). -/
def emitRule (es : RegSet → List Effect) (_ : CallEnv) (P : Proc) : Dispatch := .done P (nextPc P.regs) (es P.regs)

/-- CAS (R244): the registers are read at dispatch, then the address is checked. -/
def casRule (a : Word) (e n : Src) (rd : Reg) (env : CallEnv) (P : Proc) : Dispatch :=
  match addrCheck env.memSize a with
  | some f => .raise f
  | none => .done P (nextPc P.regs) [.cas a (srcValue P.regs e) (srcValue P.regs n) rd]

/-- LOCK id (R241). -/
def execLock (h : Hdr) (id : Src) (s : State) : Host.Outcome State Fault Refusal :=
  issue h (emitRule fun r => [.syncLock (srcValue r id)]) s

/-- UNLOCK id (R242). -/
def execUnlock (h : Hdr) (id : Src) (s : State) : Host.Outcome State Fault Refusal :=
  issue h (emitRule fun r => [.syncUnlock (srcValue r id)]) s

/-- FENCE (R243). -/
def execFence (h : Hdr) (s : State) : Host.Outcome State Fault Refusal := issue h (emitRule fun _ => [.fence]) s

/-- CAS @a, e, n, rd (R244). -/
def execCas (h : Hdr) (a : Word) (e n : Src) (rd : Reg) (s : State) : Host.Outcome State Fault Refusal :=
  issue h (casRule a e n rd) s

/-- BARRIER id, parties (R245). -/
def execBarrier (h : Hdr) (id parties : Src) (s : State) : Host.Outcome State Fault Refusal :=
  issue h (emitRule fun r => [.barrier (srcValue r id) (srcValue r parties)]) s

end Sys2Proof.Machine
end

