-- ==== Sys2Proof/Machine/SystemInstr.lean ====
section
/-! DEFINITION. The SYSTEM and SPECIAL instructions (45_system_special.md): HALT YIELD SYSCALL NOP SPAWN JOIN. -/

namespace Sys2Proof.Machine

/-- JOIN (R266): the processor is WAITING until the effect is resolved. -/
def joinRule (tid : Src) (_ : CallEnv) (P : Proc) : Dispatch :=
  .done { P with state := .waiting } (nextPc P.regs) [.join (srcValue P.regs tid)]

/-- HALT (R261). -/
def execHalt (h : Hdr) (s : State) : Host.Outcome State Fault Refusal := issue h (emitRule fun _ => [.halt]) s

/-- YIELD (R262). -/
def execYield (h : Hdr) (s : State) : Host.Outcome State Fault Refusal := issue h (emitRule fun _ => [.yield]) s

/-- SYSCALL n (R263). -/
def execSyscall (h : Hdr) (number : Src) (s : State) : Host.Outcome State Fault Refusal :=
  issue h (emitRule fun r => [.syscall (srcValue r number)]) s

/-- NOP (R264). -/
def execNop (h : Hdr) (s : State) : Host.Outcome State Fault Refusal := issue h (emitRule fun _ => []) s

/-- SPAWN @f, arg, rd (R265). -/
def execSpawn (h : Hdr) (func : Word) (arg : SpawnArg) (rd : Reg) (s : State) : Host.Outcome State Fault Refusal :=
  issue h (emitRule fun r => [.spawn func (spawnArgValue r arg) rd]) s

/-- JOIN tid (R266). -/
def execJoin (h : Hdr) (tid : Src) (s : State) : Host.Outcome State Fault Refusal := issue h (joinRule tid) s

end Sys2Proof.Machine
end

