-- ==== Sys2Proof/Machine/Dispatch.lean ====
section
/-! DEFINITION. One arm per instruction of spec/opcode_table.json: the accepting call of each on the processor `cur`. -/

namespace Sys2Proof.Machine

def exec (i : Instr) (s : State) : Host.Outcome State Fault Refusal :=
  match i with
  | .add h rd a b => Sys2Proof.Machine.execAdd h rd a b s
  | .sub h rd a b => Sys2Proof.Machine.execSub h rd a b s
  | .mul h rd a b => Sys2Proof.Machine.execMul h rd a b s
  | .div h rd a b => Sys2Proof.Machine.execDiv h rd a b s
  | .and h rd a b => Sys2Proof.Machine.execAnd h rd a b s
  | .or h rd a b => Sys2Proof.Machine.execOr h rd a b s
  | .xor h rd a b => Sys2Proof.Machine.execXor h rd a b s
  | .shl h rd a b => Sys2Proof.Machine.execShl h rd a b s
  | .shr h rd a b => Sys2Proof.Machine.execShr h rd a b s
  | .load h rd src => Sys2Proof.Machine.execLoad h rd src s
  | .store h rs a => Sys2Proof.Machine.execStore h rs a s
  | .push h rs => Sys2Proof.Machine.execPush h rs s
  | .pop h rd => Sys2Proof.Machine.execPop h rd s
  | .jmp h target => Sys2Proof.Machine.execJmp h target s
  | .jz h target => Sys2Proof.Machine.execJz h target s
  | .jnz h target => Sys2Proof.Machine.execJnz h target s
  | .call h target => Sys2Proof.Machine.execCall h target s
  | .ret h => Sys2Proof.Machine.execRet h s
  | .lock h id => Sys2Proof.Machine.execLock h id s
  | .unlock h id => Sys2Proof.Machine.execUnlock h id s
  | .fence h => Sys2Proof.Machine.execFence h s
  | .cas h a e n rd => Sys2Proof.Machine.execCas h a e n rd s
  | .barrier h id parties => Sys2Proof.Machine.execBarrier h id parties s
  | .halt h => Sys2Proof.Machine.execHalt h s
  | .yield h => Sys2Proof.Machine.execYield h s
  | .syscall h number => Sys2Proof.Machine.execSyscall h number s
  | .nop h => Sys2Proof.Machine.execNop h s
  | .spawn h func arg rd => Sys2Proof.Machine.execSpawn h func arg rd s
  | .join h tid => Sys2Proof.Machine.execJoin h tid s

end Sys2Proof.Machine
end

