-- ==== Sys2Proof/Machine/Driver.lean ====
section
/-! DEFINITION. The fetch and the stall controller of one processor (40_pipeline.md R150 to R152, R160) and the driver's
`step()` around them: scheduling, every busy processor's call in processor-id order, the bus tick and the end of the
step (49_environment.md R351, R356, R372). -/

namespace Sys2Proof.Machine

/-- Go on with the next state, or stop. -/
def andThen (o : Host.Outcome State Fault Refusal) (f : State → Host.Outcome State Fault Refusal) :
    Host.Outcome State Fault Refusal :=
  match o with
  | .next s => f s
  | .fault r => .fault r
  | .refused r => .refused r

/-- A stall cycle (R151): nothing but the stall counter changes; the call returns `completed` when it reaches 0. -/
def stallCycle (P : Proc) : Proc :=
  { P with stall := P.stall - 1, completed := P.stall - 1 == 0, effects := [] }

/-- `ProgFetch(t, pc)` (20_memory.md R71): the word at an index of thread t's Program, if it has that index. -/
def progFetch (s : State) (t : Nat) (pc : Word) : Option InstrWord := (s.codeOf t)[pc.toNat]?

/-- The accepting call on a fetched word (R153 to R160): an instruction runs, an invalid word faults. -/
def runWord (w : InstrWord) (s : State) : Host.Outcome State Fault Refusal :=
  match decode w with
  | .ok i => exec i s
  | .error e => issueInvalid (rawHdr (unpack w)) e s

/-- `Cycle(p)` with the resolution of its outcome (R160, 49_environment.md R351), for the processor `cur`: a stall
cycle, or fetch and an accepting call. -/
def cycle (P : Proc) (s : State) : Host.Outcome State Fault Refusal :=
  if 0 < P.stall then .next (s.putProc s.cur (stallCycle P))
  else
    match P.thread with
    | none => .fault .noThread
    | some t =>
      match s.threads[t]? with
      | none => .fault .noThreadRecord
      | some _ =>
        match progFetch s t P.regs.pc with
        | none => .next (takeFault s.cur t .fetchOutOfRange (s.putProc s.cur (silent P)))
        | some w => runWord w s

/-- Processor p's turn in a step (R351): a RUNNING processor makes one call, any other does nothing. -/
def turn (p : Nat) (s : State) : Host.Outcome State Fault Refusal :=
  match s.procs[p]? with
  | none => .next s
  | some P => if P.state = .running then cycle P { s with cur := p } else .next s

/-- The turns of a list of processors, in its order. -/
def turns : List Nat → State → Host.Outcome State Fault Refusal
  | [], s => .next s
  | p :: ps, s => andThen (turn p s) (turns ps)

/-- The scheduler at processor p (49_environment.md R356). -/
def scheduleOn (s : State) (p : Nat) : State :=
  match s.procs[p]? with
  | none => s
  | some P =>
    if P.state = .idle then
      match s.ready with
      | [] => s
      | t :: ts => switchIn p t { s with ready := ts }
    else s

/-- `schedule_threads()` (R356). -/
def scheduleThreads (s : State) : State := (List.range s.cfg.nproc).foldl scheduleOn s

/-- The first lines of `step()` (R351): the VM runs, the clock advances and the scheduler is invoked. -/
def beginStep (s : State) : State :=
  scheduleThreads { s with vm := if s.vm = .idle then .running else s.vm, clock := s.clock + 1 }

/-- Some processor is RUNNING. -/
def anyRunning (s : State) : Bool := s.procs.any fun P => P.state == .running

/-- The ids of the WAITING threads, ascending. -/
def waitingThreads (s : State) : List Nat :=
  (List.range s.threads.length).filter fun t =>
    match s.threads[t]? with
    | some T => T.state == .waiting
    | none => false

/-- `EndOfStep()` (R372): what it raises, if anything, and the VM state it leaves. What is raised first ends it
(DEDUCED, log entry 17). -/
def endOfStep (s : State) : Option HostCondition × VmState :=
  match s.pending with
  | r :: _ => (some (.vmException r), .paused)
  | [] =>
    if anyRunning s || !s.ready.isEmpty then (none, s.vm)
    else if (waitingThreads s).isEmpty then (none, .finished)
    else (some (.deadlock (waitingThreads s)), .paused)

/-- The last lines of `step()` (R351): the bus is ticked, then the step ends. -/
def finishStep (s : State) : State :=
  let t := tick s.bus
  let e := endOfStep s
  { s with
    bus := t.2
    vm := e.2
    cur := 0
    out := { raised := e.1, stillRunning := e.2 != .finished, ticked := t.1 } }

/-- `step()` (R351): one global clock tick. A FINISHED machine does nothing and returns false. -/
def driverStep (s : State) : Host.Outcome State Fault Refusal :=
  if s.vm = .finished then .next { s with out := { raised := none, stillRunning := false, ticked := [] } }
  else andThen (turns (List.range s.cfg.nproc) (beginStep s)) fun s' => .next (finishStep s')

/-- Place a word where the next step fetches: a Program of that one word is put at the end of the program table, a
new USER thread of it at the head of the ready queue, processor 0 is idle, and the VM is not FINISHED. Processor 0
takes the thread at the start of the next step and its call is the first of that step. Log entry 3. -/
def placeWord (w : InstrWord) (s : State) : State :=
  let s1 := createThread s.programs.length RegSet.reset none { s with programs := s.programs ++ [⟨[w], 0⟩] }
  let s2 := s1.modProc 0 fun P => { P with state := .idle, thread := none, stall := 0 }
  { s2 with
    ready := s.threadCounter :: s.ready
    vm := if s.vm = .finished then .running else s.vm }

end Sys2Proof.Machine
end

