-- ==== Sys2Proof/Machine/Step.lean ====
section
/-! DEFINITION. The step of the machine: one call of the driver's `step()` (49_environment.md R351). -/

namespace Sys2Proof.Machine

/-- One global clock tick (49_environment.md R350, R351). -/
def step (s : State) : Host.Outcome State Fault Refusal := driverStep s

/-- The state with an instruction placed where `step` fetches its next instruction (log entry 3). -/
def State.withFetchWord (s : State) (nbits w : Nat) : State := placeWord (tableWord nbits w) s

end Sys2Proof.Machine
end

