-- ==== Sys2Proof/Machine/HostApi.lean ====
section
/-! DEFINITION. The calls the host makes between steps (49_environment.md R354, R373 to R377; 46_cache_ops.md R288,
R292; 47_bus_ops.md R321, R322). What the spec has a model refuse is refused by name (log entries 13 to 16). -/

namespace Sys2Proof.Machine

/-- Construction of the machine: a configuration that breaks 00_scope.md R9 is refused. -/
def construct (c : Config) : Host.Outcome State Fault Refusal :=
  if c.ok then .next (State.resetWith c []) else .refused .badConfig

/-- `reset()` (R375, 70_reset_and_hazards.md R440): the program table and the configuration survive. -/
def hostReset (s : State) : State := State.resetWith s.cfg s.programs

/-- `pause()` (R375). -/
def hostPause (s : State) : State := { s with vm := if s.vm = .running then .paused else s.vm }

/-- Load a Program (R376): its id and the state; a record of latency 0 is refused (30_encoding.md R132). -/
def loadProgram (g : Program) (s : State) : Host.Outcome (Nat × State) Fault Refusal :=
  if g.code.any fun w => (unpack w).lat == 0 then .refused .latencyZero
  else .next (s.programs.length, { s with programs := s.programs ++ [g] })

/-- A register the `registers` argument of `create_thread` may name (R354). -/
inductive InitReg where
  | x (r : Reg)
  | flags
  deriving DecidableEq, Repr

/-- `context.register <- value` (R354). -/
def setInitReg (R : RegSet) (v : InitReg × Word) : RegSet :=
  match v.1 with
  | .x r => writeReg R r v.2
  | .flags => { R with flags := v.2 }

/-- `create_thread(program_id, entry?, registers?, parent?, priority?, priv?)` (R354): the id and the state. The
`priority` argument is accepted and ignored. -/
def hostCreateThread (prog : Nat) (entry : Option Word) (regs : List (InitReg × Word)) (parent : Option Nat)
    (_priority : Option Nat) (priv : Option Privilege) (s : State) : Host.Outcome (Nat × State) Fault Refusal :=
  match s.programs[prog]? with
  | none => .refused .unknownProgram
  | some g =>
    let ctx := { RegSet.reset with pc := entry.getD g.entry, priv := priv.getD .user }
    .next (s.threadCounter, createThread prog (regs.foldl setInitReg ctx) parent s)

/-- Some cache holds a line of `[a, a + n)` valid (70_reset_and_hazards.md R452). -/
def rangeHeld (s : State) (a n : Nat) : Bool :=
  s.caches.any fun k => (List.range n).any fun i => (lookup s.cfg k (a + i)).isSome

/-- The host's `MemRead(a, n)` (R377). -/
def hostMemRead (a n : Nat) (s : State) : Host.Outcome Nat Fault Refusal :=
  if s.cfg.memSize < a + n then .fault .badAddress else .next (memRead s.mem a n)

/-- The host's `MemWrite(a, n, v)` (R377), refused on a line some cache holds (70_reset_and_hazards.md R452). -/
def hostMemWrite (a n v : Nat) (s : State) : Host.Outcome State Fault Refusal :=
  if s.cfg.memSize < a + n then .fault .badAddress
  else if rangeHeld s a n then .refused .rawWriteToHeldLine
  else .next { s with mem := memWrite s.mem a n v }

/-- The host's `DataRead(p, a)`, after its own `AddrCheck` (R377); its requests carry no thread id (10_state.md R41). -/
def hostDataRead (p : Nat) (a : Word) (s : State) : Host.Outcome (Word × State) Fault Refusal :=
  if s.cfg.nproc ≤ p then .refused .noSuchProcessor
  else if (addrCheck s.cfg.memSize a).isSome then .fault .badAddress
  else .next (dataRead p none a.toNat s)

/-- The host's `DataWrite(p, a, v)`, after its own `AddrCheck` (R377); its requests carry no thread id (10_state.md R41). -/
def hostDataWrite (p : Nat) (a v : Word) (s : State) : Host.Outcome State Fault Refusal :=
  if s.cfg.nproc ≤ p then .refused .noSuchProcessor
  else if (addrCheck s.cfg.memSize a).isSome then .fault .badAddress
  else .next (dataWrite p none a.toNat v s)

/-- The host's `Evict(p, la)` (46_cache_ops.md R288). -/
def hostEvict (p la : Nat) (s : State) : Host.Outcome (Option Evicted × State) Fault Refusal :=
  if s.cfg.nproc ≤ p then .refused .noSuchProcessor
  else
    let r := evict s.cfg (s.cacheAt p) la
    .next (r.1, s.putCache p r.2)

/-- `FlushAll()` (46_cache_ops.md R292). -/
def hostFlushAll (s : State) : State := flushAll s

/-- A raw `Submit` (47_bus_ops.md R321): refused when `la` is not a line address in range, and when `COHERENCE_EN` is
false, as then "no BusRequest is ever submitted" (20_memory.md R97; DEDUCED, log entry 15). -/
def hostSubmit (op : BusOp) (la pid : Nat) (tid : Option Nat) (payload : Option (List Word)) (s : State) :
    Host.Outcome (BusResult × State) Fault Refusal :=
  if s.cfg.coherence = false then .refused .busNotInUse
  else if la % s.cfg.lineSize ≠ 0 ∨ s.cfg.memSize < la + s.cfg.lineSize then .refused .badRequest
  else .next (submit op la pid tid payload s)

/-- A `Tick` by the host (47_bus_ops.md R322, R323). -/
def hostTick (s : State) : List BusRequest × State :=
  let t := tick s.bus
  (t.1, { s with bus := t.2 })

/-- The host clears `VM.pending` after a VMException surfaced (R372). -/
def hostClearPending (s : State) : State := { s with pending := [] }

/-- How a `run()` ended: it returned a count of steps, a condition surfaced, or, for a run without a budget, it had
not ended after the steps looked at. -/
inductive RunResult where
  | returned (steps : Nat)
  | raised (c : HostCondition)
  | unfinished
  deriving DecidableEq, Repr

/-- The loop of `run` (R374): `left` more steps may be made, `n` were made; `atLimit` says what happens when the
budget is spent while the VM is RUNNING. -/
def runLoop (atLimit : Nat → State → RunResult × State) :
    Nat → Nat → State → Host.Outcome (RunResult × State) Fault Refusal
  | left, n, s =>
    if s.vm = .running then
      match left with
      | 0 => .next (atLimit n s)
      | left + 1 =>
        match step s with
        | .next s' =>
          match s'.out.raised with
          | some c => .next (.raised c, s')
          | none => runLoop atLimit left (n + 1) s'
        | .fault r => .fault r
        | .refused r => .refused r
    else .next (.returned n, s)

/-- The first lines of `run` (R374). -/
def startRun (atLimit : Nat → State → RunResult × State) (steps : Nat) (s : State) :
    Host.Outcome (RunResult × State) Fault Refusal :=
  if s.vm = .finished then .next (.returned 0, s) else runLoop atLimit steps 0 { s with vm := .running }

/-- What the end of the budget does (R374): the VM is PAUSED, and the run returns or raises. -/
def budgetSpent (tolerate : Bool) (n : Nat) (s : State) : RunResult × State :=
  (if tolerate then .returned n else .raised (.executionLimit n), { s with vm := .paused })

/-- `run(max)` (R374); `tolerate` says that the caller tolerates truncation. -/
def hostRun (max : Nat) (tolerate : Bool) (s : State) : Host.Outcome (RunResult × State) Fault Refusal :=
  startRun (budgetSpent tolerate) max s

/-- The first `fuel` steps of `run()` without a budget (R374): where it has not ended by then, the state so far. -/
def hostRunUnlimited (fuel : Nat) (s : State) : Host.Outcome (RunResult × State) Fault Refusal :=
  startRun (fun _ s' => (.unfinished, s')) fuel s

end Sys2Proof.Machine
end

