-- ==== Sys2Proof/Safety.lean ====
section
/-! DEFINITION. The terms the statements about the machine use: a processor in the middle of a thread, what a call
leaves, the value memory has for a program (20_memory.md R91), the invariants of the cache system (10_state.md R40) and
of the scheduler (10_state.md R30, R45, R46). -/

namespace Sys2Proof.Machine

/-! ### One call -/

/-- Processor `cur` is P and runs thread t, whose record is T. -/
structure Running (s : State) (P : Proc) (t : Nat) (T : Thread) : Prop where
  proc   : s.procs[s.cur]? = some P
  thread : P.thread = some t
  record : s.threads[t]? = some T

/-- An instruction with this record is accepted on P: its latency is not 0 (30_encoding.md R132), and a privileged one
meets enforcement off or the level KERNEL (40_pipeline.md R153). -/
abbrev MayRun (h : Hdr) (P : Proc) : Prop := 1 ≤ h.lat ∧ (h.priv = true → P.enforce = true → P.regs.priv = .kernel)

/-- The privilege check refuses an instruction with this record on P (40_pipeline.md R153). -/
abbrev Blocked (h : Hdr) (P : Proc) : Prop := h.priv = true ∧ P.enforce = true ∧ P.regs.priv ≠ .kernel

/-- P after acceptance, with registers R and effects es returned (40_pipeline.md R154, R158, R159): the stall counter
is latency - 1, the cycle counter one more, and `completed` says that the latency is 1. -/
def accepted (h : Hdr) (R : RegSet) (es : List Effect) (P : Proc) : Proc :=
  { P with
    regs := R
    stall := h.lat - 1
    cycles := P.cycles + 1
    completed := decide (h.lat = 1)
    effects := es }

/-- P after an accepting call that raised a fault (40_pipeline.md R161). -/
def acceptedFault (h : Hdr) (P : Proc) : Proc :=
  { P with stall := h.lat - 1, cycles := P.cycles + 1, completed := false, effects := [] }

/-- A thread's record with one more accepted instruction counted (49_environment.md R351). -/
def countOne (T : Thread) : Thread := { T with execCycles := T.execCycles + 1 }

/-- The state with processor `cur` replaced by Q and thread t's count one up; nothing else differs. -/
def called (s : State) (t : Nat) (Q : Proc) : State :=
  { s with procs := s.procs.set s.cur Q, threads := s.threads.modify t countOne }

/-- The state after a COMPUTE instruction with destination rd and result r (41_compute.md R180, R190). -/
def computed (s : State) (P : Proc) (t : Nat) (h : Hdr) (rd : Reg) (r : Word) : State :=
  called s t
    (accepted h
      { x := P.regs.x.set rd r, pc := P.regs.pc + 1, flags := setFlags P.regs.flags r, priv := P.regs.priv }
      [.registersModified [rd]] P)

/-- The destination register of a COMPUTE instruction (41_compute.md R180); none for every other instruction. -/
def computeDest : Instr → Option Reg
  | .add _ rd _ _ | .sub _ rd _ _ | .mul _ rd _ _ | .div _ rd _ _ | .and _ rd _ _ | .or _ rd _ _ | .xor _ rd _ _
  | .shl _ rd _ _ | .shr _ rd _ _ => some rd
  | .load _ _ _ | .store _ _ _ | .push _ _ | .pop _ _ | .jmp _ _ | .jz _ _ | .jnz _ _ | .call _ _ | .ret _
  | .lock _ _ | .unlock _ _ | .fence _ | .cas _ _ _ _ _ | .barrier _ _ _ | .halt _ | .yield _ | .syscall _ _ | .nop _
  | .spawn _ _ _ _ | .join _ _ => none

/-- The byte address of the one word an instruction accesses, from the registers before it (20_memory.md R79). -/
def accessAddr (r : RegSet) : Instr → Option Word
  | .load _ _ (.addr a) | .store _ _ a | .cas _ a _ _ _ => some a
  | .push _ _ | .call _ _ => some (spOf r - 4)
  | .pop _ _ | .ret _ => some (spOf r)
  | .load _ _ (.imm _) | .add _ _ _ _ | .sub _ _ _ _ | .mul _ _ _ _ | .div _ _ _ _ | .and _ _ _ _ | .or _ _ _ _
  | .xor _ _ _ _ | .shl _ _ _ _ | .shr _ _ _ _ | .jmp _ _ | .jz _ _ | .jnz _ _ | .lock _ _ | .unlock _ _ | .fence _
  | .barrier _ _ _ | .halt _ | .yield _ | .syscall _ _ | .nop _ | .spawn _ _ _ _ | .join _ _ => none

/-- An instruction whose resolution can raise a VMException (60_exceptions.md R402). -/
def mayFailInVm : Instr → Bool
  | .unlock _ _ | .join _ _ => true
  | .add _ _ _ _ | .sub _ _ _ _ | .mul _ _ _ _ | .div _ _ _ _ | .and _ _ _ _ | .or _ _ _ _ | .xor _ _ _ _
  | .shl _ _ _ _ | .shr _ _ _ _ | .load _ _ _ | .store _ _ _ | .push _ _ | .pop _ _ | .jmp _ _ | .jz _ _ | .jnz _ _
  | .call _ _ | .ret _ | .lock _ _ | .fence _ | .cas _ _ _ _ _ | .barrier _ _ _ | .halt _ | .yield _ | .syscall _ _
  | .nop _ | .spawn _ _ _ _ => false

/-- The instruction divides by zero on these registers (41_compute.md R184). -/
def dividesByZero (r : RegSet) : Instr → Bool
  | .div _ _ _ b => srcValue r b == 0
  | .add _ _ _ _ | .sub _ _ _ _ | .mul _ _ _ _ | .and _ _ _ _ | .or _ _ _ _ | .xor _ _ _ _ | .shl _ _ _ _
  | .shr _ _ _ _ | .load _ _ _ | .store _ _ _ | .push _ _ | .pop _ _ | .jmp _ _ | .jz _ _ | .jnz _ _ | .call _ _
  | .ret _ | .lock _ _ | .unlock _ _ | .fence _ | .cas _ _ _ _ _ | .barrier _ _ _ | .halt _ | .yield _ | .syscall _ _
  | .nop _ | .spawn _ _ _ _ | .join _ _ => false

/-! ### Threads that leave a processor or become READY -/

/-- The thread table after the threads us have become READY (49_environment.md R359). -/
def woken (us : List Nat) (ts : List Thread) : List Thread :=
  ts.mapIdx fun u U => if u ∈ us then { U with state := .ready } else U

/-- The state after thread t, whose registers processor p holds as P, has left p for state `st`
(49_environment.md R358). -/
def leaving (p t : Nat) (st : ThreadState) (P : Proc) (s : State) : State :=
  { s with
    procs := s.procs.set p { P with thread := none, state := .idle }
    threads := s.threads.modify t fun T => { T with ctx := P.regs, state := st, proc := none } }

/-- The heads of the queues of the locks t holds, by ascending lock id: the threads its termination hands a lock to
(49_environment.md R363, R371). -/
def handoffs (t : Nat) (ls : List Lock) : List Nat :=
  ls.filterMap fun l => if l.holder = some t then l.queue.head? else none

/-- A lock after t, if it held it, has passed it on (49_environment.md R363). -/
def passedOn (t : Nat) (l : Lock) : Lock :=
  if l.holder = some t then { l with holder := l.queue.head?, queue := l.queue.tail } else l

/-- The state after thread t, with record T and on processor p as P, has terminated (49_environment.md R371). -/
def ended (p t : Nat) (P : Proc) (T : Thread) (s : State) : State :=
  let us := handoffs t s.locks ++ sortIds T.joiners
  { s with
    procs := s.procs.set p { P with thread := none, state := .idle }
    threads := (woken us s.threads).set t
      { T with ctx := P.regs, state := .terminated, proc := none, joiners := [] }
    ready := s.ready ++ us
    locks := s.locks.map (passedOn t) }

/-! ### The table of operand kinds -/

/-- The opcode map (30_encoding.md R129): number, then the kinds each operand may have (0 REG, 1 IMM, 2 ADDR). The
instruction type is the number's high digit and the operand count is the length of the list. -/
def kindTable : List (Nat × List (List Nat)) :=
  [(0x00, [[0], [0, 1], [0, 1]]), (0x01, [[0], [0, 1], [0, 1]]), (0x02, [[0], [0, 1], [0, 1]]),
   (0x03, [[0], [0, 1], [0, 1]]), (0x04, [[0], [0, 1], [0, 1]]), (0x05, [[0], [0, 1], [0, 1]]),
   (0x06, [[0], [0, 1], [0, 1]]), (0x07, [[0], [0, 1], [0, 1]]), (0x08, [[0], [0, 1], [0, 1]])] ++
  [(0x10, [[0], [2, 1]]), (0x11, [[0], [2]]), (0x12, [[0]]), (0x13, [[0]])] ++
  [(0x20, [[2]]), (0x21, [[2]]), (0x22, [[2]]), (0x23, [[2]]), (0x24, [])] ++
  [(0x30, [[0, 1]]), (0x31, [[0, 1]]), (0x32, []), (0x33, [[2], [0, 1], [0, 1], [0]]), (0x34, [[0, 1], [0, 1]])] ++
  [(0x40, []), (0x41, []), (0x42, [[0, 1]])] ++
  [(0x50, []), (0x51, [[2], [2, 0, 1], [0]]), (0x52, [[0, 1]])]

/-- The kind field of operand slot j of a word (30_encoding.md R122). -/
def slotKind (w : InstrWord) (j : Nat) : Nat := (w.extractLsb' (24 + 2 * j) 2).toNat

/-- The value field of operand slot j of a word (30_encoding.md R122). -/
def slotValue (w : InstrWord) (j : Nat) : Word := w.extractLsb' (32 + 32 * j) 32

/-- Slot j breaks test 4 of 30_encoding.md R131 for the kinds its position takes. -/
def slotRefused (w : InstrWord) (kinds : List Nat) (j : Nat) : Bool :=
  !kinds.contains (slotKind w j) || (slotKind w j == 0 && decide (18 ≤ (slotValue w j).toNat))

/-- The four tests of 30_encoding.md R131 in their order, read off `kindTable`. -/
def decodeTest (w : InstrWord) : Option DecodeFault :=
  let opcode := (w.extractLsb' 0 8).toNat
  let itype := (w.extractLsb' 8 3).toNat
  let nops := (w.extractLsb' 12 4).toNat
  if 6 ≤ itype then some .unknownType
  else
    match kindTable.find? fun row => row.1 == opcode with
    | none => some .badOpcode
    | some row =>
      if opcode / 16 ≠ itype then some .badOpcode
      else if nops ≠ row.2.length then some .operandCount
      else if (List.range nops).any fun j => slotRefused w (row.2.getD j []) j then some .operandKind
      else none

/-- An access of one word at byte address a passes `AddrCheck` (20_memory.md R78). -/
abbrev Accessible (s : State) (a : Word) : Prop := a.toNat % 4 = 0 ∧ a.toNat + 4 ≤ s.cfg.memSize

/-! ### What memory holds for a program -/

/-- All slots of a cache. -/
def slots (k : Cache) : List CacheSlot := k.sets.flatten

/-- The MODIFIED slot of line `la` in any cache, if there is one. -/
def modifiedSlot (s : State) (la : Nat) : Option CacheSlot :=
  (s.caches.flatMap slots).find? fun sl => sl.state == .modified && sl.addr == la

/-- The newest value of the word at byte address a: that of the MODIFIED holder of its line if there is one, else main
memory's (47_bus_ops.md R328). -/
def coherentWord (s : State) (a : Nat) : Word :=
  if s.cfg.coherence then
    match modifiedSlot s (lineAddr s.cfg a) with
    | some sl => sl.data.getD (wordIndex s.cfg a) 0
    | none => memReadWord s.mem a
  else memReadWord s.mem a

/-- The newest value of one byte (20_memory.md R74). -/
def coherentByte (s : State) (b : Nat) : Byte := (coherentWord s (b - b % 4)).extractLsb' (8 * (b % 4)) 8

/-- The byte at b of a word v stored at a: v's own byte inside the word, `old` outside. -/
def storedByte (a : Nat) (v : Word) (old : Nat → Byte) (b : Nat) : Byte :=
  if a ≤ b ∧ b < a + 4 then v.extractLsb' (8 * (b - a)) 8 else old b

/-- The state of line `la` in a cache; INVALID when no slot holds it (46_cache_ops.md R285). -/
def lineStateIn (c : Config) (k : Cache) (la : Nat) : Mesi :=
  match lookup c k la with
  | some w => (slotOf k (setIndex c la) w).state
  | none => .invalid

/-- The words of line `la` in a cache; empty when no slot holds it. -/
def lineDataIn (c : Config) (k : Cache) (la : Nat) : List Word :=
  match lookup c k la with
  | some w => (slotOf k (setIndex c la) w).data
  | none => []

/-- The state of line `la` in cache q of the machine. -/
def lineState (s : State) (q la : Nat) : Mesi := lineStateIn s.cfg (s.cacheAt q) la

/-! ### The invariants of the cache system -/

/-- A valid slot of set `si`: a line address in range, of that set, with a whole line of words (10_state.md R38,
R40 I4). -/
abbrev SlotPlaced (c : Config) (si : Nat) (sl : CacheSlot) : Prop :=
  sl.state ≠ .invalid →
    sl.addr % c.lineSize = 0 ∧ sl.addr + c.lineSize ≤ c.memSize ∧ setIndex c sl.addr = si ∧
      sl.data.length = c.lineWords

/-- Two slots do not hold the same line. -/
abbrev DistinctLines (a b : CacheSlot) : Prop := a.state ≠ .invalid → b.state ≠ .invalid → a.addr ≠ b.addr

/-- One cache: its shape (10_state.md R39), its slots in their places and no line twice (R40 I4), and `dirty` exactly
in MODIFIED (R40 I5). -/
abbrev CacheOk (c : Config) (k : Cache) : Prop :=
  k.sets.length = c.numSets ∧
    (∀ si < c.numSets, (setOf k si).length = c.assoc ∧ (∀ sl ∈ setOf k si, SlotPlaced c si sl) ∧
      (setOf k si).Pairwise DistinctLines) ∧
    (∀ sl ∈ slots k, sl.dirty = decide (sl.state = .modified))

/-- A line two caches hold is SHARED in both: I1, I2 and I3 of 10_state.md R40. -/
abbrev ShareOnly (k k' : Cache) : Prop :=
  ∀ a ∈ slots k, ∀ b ∈ slots k',
    a.state ≠ .invalid → b.state ≠ .invalid → a.addr = b.addr → a.state = .shared ∧ b.state = .shared

/-- A valid slot that is not MODIFIED holds the words of main memory (R40 I6). -/
abbrev CleanMatches (s : State) (sl : CacheSlot) : Prop :=
  sl.state = .shared ∨ sl.state = .exclusive → sl.data = memLineRead s.mem sl.addr s.cfg.lineWords

/-- The invariants I1 to I6 of 10_state.md R40, for a configuration of 00_scope.md R9, a memory in its canonical
form and a machine of its shape. -/
abbrev Coherent (s : State) : Prop :=
  s.cfg.ok = true ∧ s.mem.wf = true ∧ s.procs.length = s.cfg.nproc ∧ s.caches.length = s.cfg.nproc ∧
    (∀ k ∈ s.caches, CacheOk s.cfg k) ∧ s.caches.Pairwise ShareOnly ∧
    (s.cfg.coherence = true → ∀ k ∈ s.caches, ∀ sl ∈ slots k, CleanMatches s sl)

/-! ### The invariants of the scheduler -/

/-- The threads on processors, by processor id. -/
def hosted (s : State) : List Nat := s.procs.filterMap fun P => P.thread

/-- The threads in a lock's queue, in a barrier's arrived set or in some thread's joiners. -/
def parked (s : State) : List Nat :=
  s.locks.flatMap (fun l => l.queue) ++ s.barriers.flatMap (fun b => b.arrived) ++
    s.threads.flatMap (fun T => T.joiners)

/-- A processor between steps is IDLE without a thread or RUNNING with one (10_state.md R29, R30). -/
abbrev ProcSettled (P : Proc) : Prop :=
  (P.state = .idle ∧ P.thread = none) ∨ (P.state = .running ∧ P.thread.isSome = true)

/-- The thread state is the one its places say (10_state.md R45; 49_environment.md R355 to R359). -/
abbrev StateMatches (s : State) (t : Nat) (T : Thread) : Prop :=
  (T.state = .running ↔ t ∈ hosted s) ∧ (T.state = .ready ↔ t ∈ s.ready) ∧ (T.state = .waiting ↔ t ∈ parked s)

/-- The lock and barrier tables list each id once, ascending, and a barrier's arrived set lists each thread once,
ascending (10_state.md R46; the model's own form). -/
abbrev TablesAscending (s : State) : Prop :=
  (s.locks.map fun l => l.id.toNat).Pairwise (· < ·) ∧ (s.barriers.map fun b => b.id.toNat).Pairwise (· < ·) ∧
    ∀ b ∈ s.barriers, b.arrived.Pairwise (· < ·)

/-- A thread's record names the processor it is on, and none when it is on none (10_state.md R45). -/
abbrev HostMatches (s : State) (t : Nat) (T : Thread) : Prop :=
  (∀ p < s.procs.length, s.threadOn p = some t → T.proc = some p) ∧ (t ∉ hosted s → T.proc = none)

/-- Every thread that has not terminated is in exactly one place: on one processor, in the ready queue, or parked in
one lock's queue, one barrier's arrived set or one thread's joiners. Thread ids are the entries of the table, and the
lock and barrier tables are in their form. -/
abbrev Scheduled (s : State) : Prop :=
  s.threadCounter = s.threads.length ∧ (∀ P ∈ s.procs, ProcSettled P) ∧
    (hosted s ++ (s.ready ++ parked s)).Nodup ∧
    (∀ t ∈ hosted s ++ (s.ready ++ parked s), t < s.threads.length) ∧
    (∀ t (h : t < s.threads.length),
      s.threads[t].id = t ∧ StateMatches s t s.threads[t] ∧ HostMatches s t s.threads[t]) ∧
    TablesAscending s

/-- The idle processors, ascending (49_environment.md R356). -/
def idleProcs (s : State) : List Nat :=
  (List.range s.procs.length).filter fun p => (s.procs[p]?.map fun P => P.state) == some .idle

/-- A processor once thread t, with saved context R, has been switched in (49_environment.md R355). -/
def switchedIn (t : Nat) (R : RegSet) (P : Proc) : Proc :=
  { P with regs := R, thread := some t, state := .running, stall := 0 }

/-! ### The machine without caches -/

/-- f is s without caches: `COHERENCE_EN` is off and main memory holds the newest value of every word, while all a
program can see, and all the environment keeps, is the same (20_memory.md R92, 10_state.md R44). -/
structure FlatViewOf (s f : State) : Prop where
  cfg      : f.cfg = { s.cfg with coherence := false }
  programs : f.programs = s.programs
  procs    : f.procs = s.procs
  threads  : f.threads = s.threads
  ready    : f.ready = s.ready
  locks    : f.locks = s.locks
  barriers : f.barriers = s.barriers
  clock    : f.clock = s.clock
  switches : f.switches = s.switches
  counter  : f.threadCounter = s.threadCounter
  vm       : f.vm = s.vm
  faults   : f.faults = s.faults
  pending  : f.pending = s.pending
  cur      : f.cur = s.cur
  memory   : ∀ a, a % 4 = 0 → a + 4 ≤ s.cfg.memSize → memReadWord f.mem a = coherentWord s a

/-! ### Other facts every step keeps -/

/-- `total_requests` is the sum of the other three counters (47_bus_ops.md R326). -/
abbrev StatisticsAdd (b : Bus) : Prop :=
  b.totalRequests = b.readRequests + b.writeRequests + b.invalidationRequests

/-- The stall counters are in their range 0 .. `LAT_MAX` - 1 (10_state.md R31). -/
abbrev StallsBounded (s : State) : Prop := ∀ P ∈ s.procs, P.stall ≤ 254

end Sys2Proof.Machine
end

