-- ==== Sys2Proof/Certificates/Slice0/Obligations.lean ====
section
/-! DEFINITION. The statements about the model. Each docstring names the rules of spec/ the statement formalises. -/

open Sys2Proof Sys2Proof.Machine

/-! ### Instruction words -/

/-- 30_encoding.md R141: encoding a record whose fields are in range and decoding it again gives the same record. -/
def Obligations.DecodeOfEncode : Prop :=
  ∀ i : Instr, i.wellFormed = true → decode (encode i) = .ok i

/-- 30_encoding.md R122, R124, R141: a word that decodes is the encoding of its instruction, but for the operand slots at
or above `nops`, which an encoder writes as 0. -/
def Obligations.EncodeOfDecode : Prop :=
  ∀ (w : InstrWord) (i : Instr), decode w = .ok i → ∀ k < 160,
    (encode i).getLsbD k =
      (w.getLsbD k &&
        decide (k < 24 ∨ (if k < 32 then (k - 24) / 2 else (k - 32) / 32) < (w.extractLsb' 12 4).toNat))

/-- 30_encoding.md R124: the operand slots at or above `nops` are ignored, and an encoder writes them as 0. -/
def Obligations.UnusedOperandSlotsAreIgnored : Prop :=
  (∀ w w' : InstrWord, w.extractLsb' 0 24 = w'.extractLsb' 0 24 →
    (∀ j < 4, j < (w.extractLsb' 12 4).toNat → slotKind w j = slotKind w' j ∧ slotValue w j = slotValue w' j) →
    decode w = decode w') ∧
  (∀ (i : Instr), ∀ j < 4, ((encode i).extractLsb' 12 4).toNat ≤ j →
    slotKind (encode i) j = 0 ∧ slotValue (encode i) j = 0)

/-- 30_encoding.md R131 with the table of R129: a word is invalid for the first of the four tests it breaks, and is an
instruction when it breaks none. -/
def Obligations.DecodeTestsInOrder : Prop :=
  ∀ w : InstrWord,
    match decodeTest w with
    | some e => decode w = .error e
    | none => ∃ i, decode w = .ok i

/-- Words the rules of 41 to 45 write out decode to the instructions those rules name them as. -/
def Obligations.SampleWordsDecode : Prop :=
  decode 0x0000000000000002000000010000000300013000 = .ok (.add ⟨false, 1⟩ 3 (.reg 1) (.reg 2)) ∧
  decode 0x0000000000000001000000010000000110013001 = .ok (.sub ⟨false, 1⟩ 1 (.reg 1) (.imm 1)) ∧
  decode 0x0000000000000000000000400000000108012110 = .ok (.load ⟨false, 1⟩ 1 (.addr 0x40)) ∧
  decode 0x0000000000000000000000000000000202011222 = .ok (.jnz ⟨false, 1⟩ 2) ∧
  decode 0x0000000500000001000000000000008016014333 =
    .ok (.cas ⟨false, 1⟩ 0x80 (.imm 0) (.imm 1) 5) ∧
  decode 0x0000000000000000000000000000000301011C42 = .ok (.syscall ⟨true, 1⟩ (.imm 3)) ∧
  decode 0x000000000000000200000100000000060A013551 =
    .ok (.spawn ⟨false, 1⟩ 6 (.addr 0x100) 2) ∧
  decode 0x0000000000000000000000000000000000040550 = .ok (.nop ⟨false, 4⟩)

/-! ### Reset and the host's setting up -/

/-- 10_state.md R48: every piece of state at its reset value, after construction and after `reset()`, for every
configuration; `reset()` keeps the program table, which is empty after construction. -/
def Obligations.ResetValues : Prop :=
  (∀ c : Config, c.ok = true → construct c = .next (State.resetWith c [])) ∧
  (∀ s : State, hostReset s = State.resetWith s.cfg s.programs) ∧
  ∀ (c : Config) (gs : List Program), let s := State.resetWith c gs
    s.programs = gs ∧ s.cfg = c ∧ s.procs.length = c.nproc ∧ s.caches.length = c.nproc ∧
    (∀ (p : Nat) (P : Proc), s.procs[p]? = some P →
      (∀ i : Reg, P.regs.x[i] = 0) ∧ P.regs.pc = 0 ∧ P.regs.flags = 0 ∧ P.regs.priv = .user ∧
      P.state = .idle ∧ P.thread = none ∧ P.stall = 0 ∧ P.cycles = 0 ∧
      P.enforce = (c.enforce[p]?).getD true ∧ P.cflog = []) ∧
    (∀ a, memByte s.mem a = 0) ∧
    (∀ k ∈ s.caches, k.useCtr = 0 ∧ k.sets.length = c.numSets ∧
      ∀ set ∈ k.sets, set.length = c.assoc ∧ ∀ sl ∈ set,
        sl.state = .invalid ∧ sl.dirty = false ∧ sl.addr = 0 ∧ sl.lastUse = 0 ∧
        sl.data.length = c.lineSize / 4 ∧ ∀ v ∈ sl.data, v = 0) ∧
    s.bus.queue = [] ∧ s.bus.totalRequests = 0 ∧ s.bus.readRequests = 0 ∧ s.bus.writeRequests = 0 ∧
    s.bus.invalidationRequests = 0 ∧
    s.threads = [] ∧ s.ready = [] ∧ s.locks = [] ∧ s.barriers = [] ∧ s.faults = [] ∧ s.pending = [] ∧
    s.clock = 0 ∧ s.switches = 0 ∧ s.threadCounter = 0 ∧ s.vm = .idle

/-- The invariants below hold of the machine after reset, for every configuration of 00_scope.md R9; the configuration of
`State.reset`, which is the model's choice (log entry 1), is one of them. -/
def Obligations.ResetMeetsInvariants : Prop :=
  Config.vector.ok = true ∧
  ∀ (c : Config) (gs : List Program), c.ok = true → let s := State.resetWith c gs
    Coherent s ∧ Scheduled s ∧ StatisticsAdd s.bus ∧ StallsBounded s

/-- 49_environment.md R354, R376 with 30_encoding.md R132: a Program with a record of latency 0 is refused, any other
takes the next program id; a thread of an unknown program is refused, any other thread takes the next thread id, is
READY at the tail of the queue, and starts with the registers given and every other register 0. -/
def Obligations.LoadProgramAndCreateThread : Prop :=
  (∀ (g : Program) (s : State),
    ((∃ w ∈ g.code, w.extractLsb' 16 8 = 0) → loadProgram g s = .refused .latencyZero) ∧
    ((∀ w ∈ g.code, w.extractLsb' 16 8 ≠ 0) →
      loadProgram g s = .next (s.programs.length, { s with programs := s.programs ++ [g] }))) ∧
  ∀ (prog : Nat) (entry : Option Word) (regs : List (InitReg × Word)) (parent priority : Option Nat)
    (priv : Option Privilege) (s : State),
    (s.programs.length ≤ prog →
      hostCreateThread prog entry regs parent priority priv s = .refused .unknownProgram) ∧
    ∀ g, s.programs[prog]? = some g → ∃ T : Thread,
      hostCreateThread prog entry regs parent priority priv s =
        .next (s.threadCounter, { s with
          threads := s.threads ++ [T]
          ready := s.ready ++ [s.threadCounter]
          threadCounter := s.threadCounter + 1 }) ∧
      T.id = s.threadCounter ∧ T.prog = prog ∧ T.state = .ready ∧ T.proc = none ∧ T.parent = parent ∧
      T.created = s.clock ∧ T.execCycles = 0 ∧ T.joiners = [] ∧
      T.ctx.pc = entry.getD g.entry ∧ T.ctx.priv = priv.getD .user ∧
      (∀ r : Reg, T.ctx.x[r] =
        ((regs.filter fun v => v.1 = .x r).getLast?.map fun v => v.2).getD 0) ∧
      T.ctx.flags = ((regs.filter fun v => v.1 = .flags).getLast?.map fun v => v.2).getD 0

/-! ### Invariants of every step -/

/-- 10_state.md R40, 47_bus_ops.md R337: every step keeps the invariants of the cache system. -/
def Obligations.StepKeepsCoherence : Prop :=
  ∀ s s' : State, Coherent s → step s = .next s' → Coherent s'

/-- 47_bus_ops.md R337 and 70_reset_and_hazards.md R452: every host access but a raw WRITE_BACK, which R337 leaves to the
host, keeps the invariants of the cache system; raw writes to lines that some cache holds are refused (the model's
choice, which R452 allows: log entry 13). -/
def Obligations.HostCallsKeepCoherence : Prop :=
  ∀ s : State, Coherent s →
    (∀ p a v s', hostDataRead p a s = .next (v, s') → Coherent s') ∧
    (∀ p a v s', hostDataWrite p a v s = .next s' → Coherent s') ∧
    (∀ p la e s', hostEvict p la s = .next (e, s') → Coherent s') ∧
    (∀ a n v s', hostMemWrite a n v s = .next s' → Coherent s') ∧
    (∀ op la pid tid payload r s', op ≠ .writeBack → hostSubmit op la pid tid payload s = .next (r, s') →
      Coherent s') ∧
    Coherent (hostFlushAll s) ∧ Coherent (hostTick s).2

/-- 10_state.md R30, R45, 49_environment.md R356: every step keeps each thread in one place, on one processor at most. That
the lock and barrier tables and the arrived sets are ascending lists is the model's own form (log entry 12). -/
def Obligations.StepKeepsSchedule : Prop :=
  ∀ s s' : State, Scheduled s → step s = .next s' → Scheduled s'

/-- 49_environment.md R371, 60_exceptions.md R406: a terminated thread is never resumed, and its record stays. -/
def Obligations.TerminatedThreadsStay : Prop :=
  ∀ s s' : State, Scheduled s → step s = .next s' →
    ∀ (t : Nat) (T : Thread), s.threads[t]? = some T → T.state = .terminated → s'.threads[t]? = some T

/-- 10_state.md R33, R37, R49: no step writes the configuration, the program table or an enforcement flag. -/
def Obligations.StepKeepsConfiguration : Prop :=
  ∀ s s' : State, step s = .next s' →
    s'.cfg = s.cfg ∧ s'.programs = s.programs ∧
      (s'.procs.map fun P => P.enforce) = s.procs.map fun P => P.enforce

/-- 60_exceptions.md R414, 47_bus_ops.md R326, 10_state.md R32, R34, 49_environment.md R378: counters only count up, those
of the threads among them, and creation timestamps stay; the statistics add up and, without `COHERENCE_EN`, stay
(20_memory.md R97); a step is one clock tick and at most one acceptance on each processor, and the logs are append-only. -/
def Obligations.CountersOnlyCountUp : Prop :=
  ∀ s s' : State, step s = .next s' →
    (s.vm ≠ .finished → s'.clock = s.clock + 1) ∧ s.switches ≤ s'.switches ∧
    s.bus.totalRequests ≤ s'.bus.totalRequests ∧ s.bus.readRequests ≤ s'.bus.readRequests ∧
    s.bus.writeRequests ≤ s'.bus.writeRequests ∧ s.bus.invalidationRequests ≤ s'.bus.invalidationRequests ∧
    (StatisticsAdd s.bus → StatisticsAdd s'.bus) ∧ s.faults <+: s'.faults ∧ s.pending <+: s'.pending ∧
    (s.cfg.coherence = false → s'.bus = { s.bus with queue := s'.bus.queue }) ∧
    (∀ (t : Nat) (T : Thread), s.threads[t]? = some T → ∃ T', s'.threads[t]? = some T' ∧
      T.execCycles ≤ T'.execCycles ∧ T'.created = T.created) ∧
    ∀ (p : Nat) (P : Proc), s.procs[p]? = some P → ∃ P', s'.procs[p]? = some P' ∧
      P.cycles ≤ P'.cycles ∧ P'.cycles ≤ P.cycles + 1 ∧ P.cflog <+: P'.cflog

/-- 10_state.md R31: the stall counters stay in 0 .. 254. -/
def Obligations.StepKeepsStallRange : Prop :=
  ∀ s s' : State, StallsBounded s → step s = .next s' → StallsBounded s'

/-! ### What an instruction may touch -/

/-- 10_state.md R23, R28, 60_exceptions.md R412, 00_scope.md R15: an instruction changes no other processor, no other
thread's saved context, no privilege level, no enforcement flag, and neither the clock nor the configuration. -/
def Obligations.InstructionTouchesItsOwnProcessor : Prop :=
  ∀ (i : Instr) (s s' : State) (P : Proc) (t : Nat) (T : Thread), Running s P t T → exec i s = .next s' →
    s'.cfg = s.cfg ∧ s'.programs = s.programs ∧ s'.clock = s.clock ∧ s'.switches = s.switches ∧ s'.cur = s.cur ∧
    s'.vm = s.vm ∧
    (∀ q, q ≠ s.cur → s'.procs[q]? = s.procs[q]?) ∧
    (∃ P', s'.procs[s.cur]? = some P' ∧ P'.regs.priv = P.regs.priv ∧ P'.enforce = P.enforce) ∧
    ∀ (u : Nat) (U : Thread), u ≠ t → s.threads[u]? = some U → ∃ U', s'.threads[u]? = some U' ∧
      U'.ctx = U.ctx ∧ U'.proc = U.proc ∧ U'.prog = U.prog ∧ U'.execCycles = U.execCycles

/-- 10_state.md R25, R27: no instruction changes a flag other than ZERO and NEGATIVE, and none but the COMPUTE
instructions changes FLAGS at all. -/
def Obligations.InstructionFlagFrame : Prop :=
  ∀ (i : Instr) (s s' : State) (P P' : Proc) (t : Nat) (T : Thread), Running s P t T → exec i s = .next s' →
    s'.procs[s.cur]? = some P' →
    (∀ k, 2 ≤ k → P'.regs.flags.getLsbD k = P.regs.flags.getLsbD k) ∧
    (computeDest i = none → P'.regs.flags = P.regs.flags)

/-! ### The pipeline -/

/-- 40_pipeline.md R151: a stall cycle changes nothing but the stall counter, and its call returns `completed` exactly
when the counter reaches 0, and no effects; `completed`, `effects` and `cur` are where the model keeps what the call
returned (log entry 5). -/
def Obligations.StallCycleTouchesOnlyTheCounter : Prop :=
  ∀ (s : State) (p : Nat) (P : Proc), s.procs[p]? = some P → P.state = .running → 0 < P.stall →
    turn p s = .next { s with
      cur := p
      procs := s.procs.set p
        { P with stall := P.stall - 1, completed := decide (P.stall - 1 = 0), effects := [] } }

/-- 40_pipeline.md R160, 49_environment.md R351: when the word at a RUNNING processor's PC decodes to an instruction, the
processor's turn is `exec` of it; a step is the begin of the step, the turns in processor-id order and the end of the
step; a FINISHED machine does nothing. -/
def Obligations.StepRunsTheDecodedInstruction : Prop :=
  (∀ (s : State) (p : Nat) (P : Proc) (t : Nat) (T : Thread) (w : InstrWord) (i : Instr),
    Running { s with cur := p } P t T → P.state = .running → P.stall = 0 →
    (s.codeOf t)[P.regs.pc.toNat]? = some w → decode w = .ok i → turn p s = exec i { s with cur := p }) ∧
  (∀ (s : State) (p : Nat), (∀ P, s.procs[p]? = some P → P.state ≠ .running) → turn p s = .next s) ∧
  (∀ s : State, turns [] s = .next s) ∧
  (∀ (p : Nat) (ps : List Nat) (s : State), turns (p :: ps) s = andThen (turn p s) (turns ps)) ∧
  (∀ s : State, s.vm ≠ .finished →
    step s = andThen (turns (List.range s.cfg.nproc) (beginStep s)) fun s' => .next (finishStep s')) ∧
  (∀ s : State, s.vm = .finished →
    step s = .next { s with out := { raised := none, stillRunning := false, ticked := [] } })

/-- 49_environment.md R351, 40_pipeline.md R160: in a step in which one processor is RUNNING, and it is to fetch, the step
is `exec` of the instruction fetched, between the begin and the end of the step. -/
def Obligations.StepOfOneRunningProcessor : Prop :=
  ∀ (s : State) (p : Nat) (P : Proc) (t : Nat) (T : Thread) (w : InstrWord) (i : Instr),
    s.vm ≠ .finished → p < s.cfg.nproc → Running { beginStep s with cur := p } P t T →
    P.state = .running → P.stall = 0 →
    (∀ q Q, q ≠ p → (beginStep s).procs[q]? = some Q → Q.state ≠ .running) →
    ((beginStep s).codeOf t)[P.regs.pc.toNat]? = some w → decode w = .ok i →
    step s = andThen (exec i { beginStep s with cur := p }) fun s' => .next (finishStep s')

/-- 40_pipeline.md R162: an instruction of latency L whose thread stays on the processor returns `completed` on the L-th
call and not before; the stall cycles change no register; after L calls the processor fetches again. -/
def Obligations.LatencyLaw : Prop :=
  ∀ (i : Instr) (s s' : State) (P P' : Proc) (t : Nat) (T : Thread), Running s P t T → P.state = .running →
    exec i s = .next s' → s'.procs[s.cur]? = some P' → P'.state = .running →
    1 ≤ i.hdr.lat ∧ (P'.completed = true ↔ i.hdr.lat = 1) ∧ P'.cycles = P.cycles + 1 ∧
    ∀ k, k + 1 ≤ i.hdr.lat →
      (stallCycle^[k] P').stall = i.hdr.lat - 1 - k ∧ (stallCycle^[k] P').regs = P'.regs ∧
      ((stallCycle^[k] P').completed = true ↔ k + 1 = i.hdr.lat)

/-- 40_pipeline.md R152, R155, R160, 60_exceptions.md R403: a fetch at or beyond the Program's length faults before
acceptance; an invalid word faults after acceptance, unless the privilege check refuses it first. -/
def Obligations.InvalidFetchFaults : Prop :=
  ∀ (s : State) (p : Nat) (P : Proc) (t : Nat) (T : Thread),
    Running { s with cur := p } P t T → P.state = .running → P.stall = 0 →
    (s.plen t ≤ P.regs.pc.toNat →
      turn p s = .next (takeFault p t .fetchOutOfRange { s with
        cur := p, procs := s.procs.set p { P with completed := false, effects := [] } })) ∧
    ∀ (w : InstrWord) (e : DecodeFault), (s.codeOf t)[P.regs.pc.toNat]? = some w → decode w = .error e →
      let h : Hdr := ⟨w.getLsbD 11, (w.extractLsb' 16 8).toNat⟩
      (MayRun h P →
        turn p s = .next (takeFault p t (.invalid e) (called { s with cur := p } t (acceptedFault h P)))) ∧
      (1 ≤ h.lat → Blocked h P →
        turn p s = .next (takeFault p t .privilegeViolation { s with
          cur := p, procs := s.procs.set p { P with completed := false, effects := [] } }))

/-- 40_pipeline.md R153, R154: a privileged instruction below KERNEL, enforcement on, raises PrivilegeViolation before
acceptance, whatever the instruction; otherwise the check passes at every level and the instruction is accepted. That
`completed` and `effects` are false and empty after a refusal is the model's choice (log entry 5). -/
def Obligations.PrivilegeCheckAndAcceptance : Prop :=
  ∀ (i : Instr) (s : State) (P : Proc) (t : Nat) (T : Thread), Running s P t T → 1 ≤ i.hdr.lat →
    (Blocked i.hdr P →
      exec i s = .next (takeFault s.cur t .privilegeViolation
        { s with procs := s.procs.set s.cur { P with completed := false, effects := [] } })) ∧
    (¬ Blocked i.hdr P → ∃ s' P', exec i s = .next s' ∧ s'.procs[s.cur]? = some P' ∧
      P'.stall = i.hdr.lat - 1 ∧ P'.cycles = P.cycles + 1)

/-! ### COMPUTE -/

/-- 41_compute.md R181, R182, R183: ADD, SUB and MUL complete with the sum, difference and product modulo 2^32; nothing
changes but what `computed` names. -/
def Obligations.AddSubMulResults : Prop :=
  ∀ (h : Hdr) (rd : Reg) (a b : Src) (s : State) (P : Proc) (t : Nat) (T : Thread),
    Running s P t T → MayRun h P →
    let x : Int := (srcValue P.regs a).toNat
    let y : Int := (srcValue P.regs b).toNat
    exec (.add h rd a b) s = .next (computed s P t h rd (BitVec.ofInt 32 (x + y))) ∧
    exec (.sub h rd a b) s = .next (computed s P t h rd (BitVec.ofInt 32 (x - y))) ∧
    exec (.mul h rd a b) s = .next (computed s P t h rd (BitVec.ofInt 32 (x * y)))

/-- 41_compute.md R185, R186, R187: AND, OR and XOR complete with the result bit by bit. -/
def Obligations.BitwiseResults : Prop :=
  ∀ (h : Hdr) (rd : Reg) (a b : Src) (s : State) (P : Proc) (t : Nat) (T : Thread),
    Running s P t T → MayRun h P →
    let x := srcValue P.regs a
    let y := srcValue P.regs b
    (∃ r : Word, (∀ k < 32, r.getLsbD k = (x.getLsbD k && y.getLsbD k)) ∧
      exec (.and h rd a b) s = .next (computed s P t h rd r)) ∧
    (∃ r : Word, (∀ k < 32, r.getLsbD k = (x.getLsbD k || y.getLsbD k)) ∧
      exec (.or h rd a b) s = .next (computed s P t h rd r)) ∧
    (∃ r : Word, (∀ k < 32, r.getLsbD k = (x.getLsbD k != y.getLsbD k)) ∧
      exec (.xor h rd a b) s = .next (computed s P t h rd r))

/-- 41_compute.md R188, R189: SHL and SHR complete with u32(a * 2^b) and a div 2^b for a count b below 32, and with 0 for
any larger count, which is not masked. -/
def Obligations.ShiftResults : Prop :=
  ∀ (h : Hdr) (rd : Reg) (a b : Src) (s : State) (P : Proc) (t : Nat) (T : Thread),
    Running s P t T → MayRun h P →
    let x := (srcValue P.regs a).toNat
    let y := (srcValue P.regs b).toNat
    exec (.shl h rd a b) s =
      .next (computed s P t h rd (if y < 32 then BitVec.ofNat 32 (x * 2 ^ y) else 0)) ∧
    exec (.shr h rd a b) s =
      .next (computed s P t h rd (if y < 32 then BitVec.ofNat 32 (x / 2 ^ y) else 0))

/-- 41_compute.md R184: DIV completes with the unsigned quotient, and with a divisor of 0 faults with no register and no
flag written. -/
def Obligations.DivisionResult : Prop :=
  ∀ (h : Hdr) (rd : Reg) (a b : Src) (s : State) (P : Proc) (t : Nat) (T : Thread),
    Running s P t T → MayRun h P →
    let x := (srcValue P.regs a).toNat
    let y := (srcValue P.regs b).toNat
    (y ≠ 0 → exec (.div h rd a b) s = .next (computed s P t h rd (BitVec.ofNat 32 (x / y)))) ∧
    (y = 0 → exec (.div h rd a b) s = .next (takeFault s.cur t .divideByZero (called s t (acceptedFault h P))))

/-- 41_compute.md R190: after a COMPUTE instruction that did not fault, ZERO says that the destination's new value is 0,
NEGATIVE is its bit 31, and every other bit of FLAGS is as before. -/
def Obligations.FlagsAfterCompute : Prop :=
  ∀ (i : Instr) (rd : Reg) (s s' : State) (P : Proc) (t : Nat) (T : Thread),
    Running s P t T → computeDest i = some rd → exec i s = .next s' → s'.faults = s.faults →
    ∃ P', s'.procs[s.cur]? = some P' ∧
      P'.regs.flags.getLsbD 0 = decide (P'.regs.x[rd] = 0) ∧
      P'.regs.flags.getLsbD 1 = P'.regs.x[rd].getLsbD 31 ∧
      ∀ k, 2 ≤ k → P'.regs.flags.getLsbD k = P.regs.flags.getLsbD k

/-! ### MEMORY -/

/-- 42_memory_instr.md R201: LOAD of an immediate writes the register and makes no access; LOAD from memory completes with
the newest value of the word, and changes no byte of memory. -/
def Obligations.LoadResult : Prop :=
  ∀ (h : Hdr) (rd : Reg) (s : State) (P : Proc) (t : Nat) (T : Thread), Running s P t T → MayRun h P →
    (∀ v, exec (.load h rd (.imm v)) s = .next (called s t (accepted h
      { P.regs with x := P.regs.x.set rd v, pc := P.regs.pc + 1 } [.registersModified [rd]] P))) ∧
    ∀ a, Coherent s → Accessible s a → ∃ s', exec (.load h rd (.addr a)) s = .next s' ∧
      s' = { called s t (accepted h
              { P.regs with x := P.regs.x.set rd (coherentWord s a.toNat), pc := P.regs.pc + 1 }
              [.memoryRead a (.reg rd)] P) with
             caches := s'.caches, mem := s'.mem, bus := s'.bus } ∧
      ∀ b, coherentByte s' b = coherentByte s b

/-- 42_memory_instr.md R202: STORE completes, changes no register but PC, and changes exactly the four bytes of the
addressed word, to the source register's value. -/
def Obligations.StoreResult : Prop :=
  ∀ (h : Hdr) (rs : Reg) (a : Word) (s : State) (P : Proc) (t : Nat) (T : Thread),
    Running s P t T → MayRun h P → Coherent s → Accessible s a →
    ∃ s', exec (.store h rs a) s = .next s' ∧
      s' = { called s t (accepted h { P.regs with pc := P.regs.pc + 1 } [.memoryWrite a P.regs.x[rs]] P) with
             caches := s'.caches, mem := s'.mem, bus := s'.bus } ∧
      ∀ b, coherentByte s' b = storedByte a.toNat P.regs.x[rs] (coherentByte s) b

/-- 42_memory_instr.md R203, R206: PUSH lowers SP by 4 and writes the register's earlier value at the new SP. -/
def Obligations.PushResult : Prop :=
  ∀ (h : Hdr) (rs : Reg) (s : State) (P : Proc) (t : Nat) (T : Thread),
    Running s P t T → MayRun h P → Coherent s → let a := P.regs.x[Reg.sp] - 4
    Accessible s a →
    ∃ s', exec (.push h rs) s = .next s' ∧
      s' = { called s t (accepted h
              { P.regs with x := P.regs.x.set Reg.sp a, pc := P.regs.pc + 1 } [.memoryWrite a P.regs.x[rs]] P) with
             caches := s'.caches, mem := s'.mem, bus := s'.bus } ∧
      ∀ b, coherentByte s' b = storedByte a.toNat P.regs.x[rs] (coherentByte s) b

/-- 42_memory_instr.md R204, R206: POP raises SP by 4 and then writes the word read at the old SP to the register, SP
itself included. -/
def Obligations.PopResult : Prop :=
  ∀ (h : Hdr) (rd : Reg) (s : State) (P : Proc) (t : Nat) (T : Thread),
    Running s P t T → MayRun h P → Coherent s → let a := P.regs.x[Reg.sp]
    Accessible s a →
    ∃ s', exec (.pop h rd) s = .next s' ∧
      s' = { called s t (accepted h
              { P.regs with
                x := (P.regs.x.set Reg.sp (a + 4)).set rd (coherentWord s a.toNat), pc := P.regs.pc + 1 }
              [.memoryRead a (.reg rd)] P) with
             caches := s'.caches, mem := s'.mem, bus := s'.bus } ∧
      ∀ b, coherentByte s' b = coherentByte s b

/-! ### BRANCH -/

/-- 43_branch.md R221, R222, R223: JMP always, JZ when ZERO is 1 and JNZ when it is 0 set PC to the target and log the
transfer; else PC goes up by 1 and nothing is logged. -/
def Obligations.JumpResults : Prop :=
  ∀ (h : Hdr) (target : Word) (s : State) (P : Proc) (t : Nat) (T : Thread), Running s P t T → MayRun h P →
    let taken (k : BranchKind) : State :=
      called s t { accepted h { P.regs with pc := target } [] P with
        cflog := P.cflog ++ [⟨k, P.regs.pc, target, decide (target.toNat < s.plen t)⟩] }
    let notTaken : State := called s t (accepted h { P.regs with pc := P.regs.pc + 1 } [] P)
    exec (.jmp h target) s = .next (taken .jmp) ∧
    exec (.jz h target) s = .next (if P.regs.flags.getLsbD 0 = true then taken .jz else notTaken) ∧
    exec (.jnz h target) s = .next (if P.regs.flags.getLsbD 0 = true then notTaken else taken .jnz)

/-- 43_branch.md R224: CALL pushes the next instruction's index, transfers and logs. -/
def Obligations.CallResult : Prop :=
  ∀ (h : Hdr) (target : Word) (s : State) (P : Proc) (t : Nat) (T : Thread),
    Running s P t T → MayRun h P → Coherent s → let a := P.regs.x[Reg.sp] - 4
    Accessible s a →
    ∃ s', exec (.call h target) s = .next s' ∧
      s' = { called s t { accepted h
              { P.regs with x := P.regs.x.set Reg.sp a, pc := target } [.memoryWrite a (P.regs.pc + 1)] P with
              cflog := P.cflog ++ [⟨.call, P.regs.pc, target, decide (target.toNat < s.plen t)⟩] } with
             caches := s'.caches, mem := s'.mem, bus := s'.bus } ∧
      ∀ b, coherentByte s' b = storedByte a.toNat (P.regs.pc + 1) (coherentByte s) b

/-- 43_branch.md R225: RET pops the word at SP into PC and logs the transfer from its own index. -/
def Obligations.RetResult : Prop :=
  ∀ (h : Hdr) (s : State) (P : Proc) (t : Nat) (T : Thread),
    Running s P t T → MayRun h P → Coherent s → let a := P.regs.x[Reg.sp]
    Accessible s a → let v := coherentWord s a.toNat
    ∃ s', exec (.ret h) s = .next s' ∧
      s' = { called s t { accepted h
              { P.regs with x := P.regs.x.set Reg.sp (a + 4), pc := v } [.memoryRead a .pc, .ret] P with
              cflog := P.cflog ++ [⟨.ret, P.regs.pc, v, decide (v.toNat < s.plen t)⟩] } with
             caches := s'.caches, mem := s'.mem, bus := s'.bus } ∧
      ∀ b, coherentByte s' b = coherentByte s b

/-! ### SYNC -/

/-- 44_sync.md R241: LOCK of a free or new lock takes it and the thread runs on; LOCK of a held lock queues the thread and
suspends it, also when it holds the lock itself. No other lock changes. -/
def Obligations.LockResult : Prop :=
  ∀ (h : Hdr) (o : Src) (s : State) (P : Proc) (t : Nat) (T : Thread), Running s P t T → MayRun h P →
    let id := srcValue P.regs o
    let l := (findLock id s.locks).getD ⟨id, none, []⟩
    let Q := accepted h { P.regs with pc := P.regs.pc + 1 } [.syncLock id] P
    ∃ s', exec (.lock h o) s = .next s' ∧ (∀ id', id' ≠ id → findLock id' s'.locks = findLock id' s.locks) ∧
      (l.holder = none →
        s' = { called s t Q with locks := s'.locks } ∧ findLock id s'.locks = some { l with holder := some t }) ∧
      (l.holder ≠ none →
        s' = { leaving s.cur t .waiting Q (called s t Q) with locks := s'.locks } ∧
          findLock id s'.locks = some { l with queue := l.queue ++ [t] })

/-- 44_sync.md R242: UNLOCK by the holder frees the lock or hands it to the longest waiter, which becomes READY; UNLOCK by
any other thread, or of a lock never used, is a VMException. No other lock changes. -/
def Obligations.UnlockResult : Prop :=
  ∀ (h : Hdr) (o : Src) (s : State) (P : Proc) (t : Nat) (T : Thread), Running s P t T → MayRun h P →
    let id := srcValue P.regs o
    let Q := accepted h { P.regs with pc := P.regs.pc + 1 } [.syncUnlock id] P
    (∀ l, findLock id s.locks = some l → l.holder = some t → ∃ s', exec (.unlock h o) s = .next s' ∧
      s' = { called s t Q with
             locks := s'.locks, threads := woken (l.queue.take 1) (called s t Q).threads
             ready := s.ready ++ l.queue.take 1 } ∧
      findLock id s'.locks = some { l with holder := l.queue.head?, queue := l.queue.tail } ∧
      ∀ id', id' ≠ id → findLock id' s'.locks = findLock id' s.locks) ∧
    ((∀ l, findLock id s.locks = some l → l.holder ≠ some t) →
      exec (.unlock h o) s = .next (vmFail s.cur t .lockInconsistency id (called s t Q)))

/-- 44_sync.md R243, 45_system_special.md R263, R264: FENCE, SYSCALL and NOP only advance PC and cost their latency. -/
def Obligations.PlainAdvance : Prop :=
  ∀ (h : Hdr) (o : Src) (s : State) (P : Proc) (t : Nat) (T : Thread), Running s P t T → MayRun h P →
    let on (es : List Effect) : State := called s t (accepted h { P.regs with pc := P.regs.pc + 1 } es P)
    exec (.fence h) s = .next (on [.fence]) ∧
    exec (.syscall h o) s = .next (on [.syscall (srcValue P.regs o)]) ∧
    exec (.nop h) s = .next (on [])

/-- 44_sync.md R244: CAS writes the new value and 1 to the result register when the word is the expected one; else it
writes 0 to the result register and leaves memory alone. -/
def Obligations.CasResult : Prop :=
  ∀ (h : Hdr) (a : Word) (e n : Src) (rd : Reg) (s : State) (P : Proc) (t : Nat) (T : Thread),
    Running s P t T → MayRun h P → Coherent s → Accessible s a →
    let ev := srcValue P.regs e
    let nv := srcValue P.regs n
    let hit := coherentWord s a.toNat = ev
    ∃ s', exec (.cas h a e n rd) s = .next s' ∧
      s' = { called s t (accepted h
              { P.regs with x := P.regs.x.set rd (if hit then 1 else 0), pc := P.regs.pc + 1 }
              [.cas a ev nv rd] P) with
             caches := s'.caches, mem := s'.mem, bus := s'.bus } ∧
      ∀ b, coherentByte s' b = if hit then storedByte a.toNat nv (coherentByte s) b else coherentByte s b

/-- 44_sync.md R245: the arrival that makes the count equal to the call's party count trips the barrier: every other
arrived thread becomes READY in ascending id, the barrier starts its next generation, and the thread runs on. Any other
arrival suspends the thread. No other barrier changes. -/
def Obligations.BarrierResult : Prop :=
  ∀ (h : Hdr) (o n : Src) (s : State) (P : Proc) (t : Nat) (T : Thread), Running s P t T → MayRun h P →
    let id := srcValue P.regs o
    let nv := srcValue P.regs n
    let b := (findBarrier id s.barriers).getD ⟨id, nv, [], false, 0⟩
    let Q := accepted h { P.regs with pc := P.regs.pc + 1 } [.barrier id nv] P
    t ∉ b.arrived → b.arrived.Pairwise (· < ·) →
    ∃ s', exec (.barrier h o n) s = .next s' ∧
      (∀ id', id' ≠ id → findBarrier id' s'.barriers = findBarrier id' s.barriers) ∧
      (b.arrived.length + 1 = nv.toNat →
        s' = { called s t Q with
               barriers := s'.barriers, threads := woken b.arrived (called s t Q).threads
               ready := s.ready ++ b.arrived } ∧
        findBarrier id s'.barriers = some ⟨b.id, nv, [], true, b.generation + 1⟩) ∧
      (b.arrived.length + 1 ≠ nv.toNat →
        s' = { leaving s.cur t .waiting Q (called s t Q) with barriers := s'.barriers } ∧
        ∃ us, us.Perm (t :: b.arrived) ∧ us.Pairwise (· < ·) ∧
          findBarrier id s'.barriers =
            some ⟨b.id, nv, us, if b.arrived = [] then false else b.released, b.generation⟩)

/-! ### SYSTEM and SPECIAL -/

/-- 45_system_special.md R261: HALT ends the thread with PC advanced, as `ended` says. -/
def Obligations.HaltResult : Prop :=
  ∀ (h : Hdr) (s : State) (P : Proc) (t : Nat) (T : Thread), Running s P t T → MayRun h P → t ∉ parked s →
    let Q := accepted h { P.regs with pc := P.regs.pc + 1 } [.halt] P
    exec (.halt h) s = .next (ended s.cur t Q (countOne T) (called s t Q))

/-- 45_system_special.md R262: YIELD saves the thread, frees the processor and puts the thread at the tail of the ready
queue in the same step. -/
def Obligations.YieldResult : Prop :=
  ∀ (h : Hdr) (s : State) (P : Proc) (t : Nat) (T : Thread), Running s P t T → MayRun h P →
    let Q := accepted h { P.regs with pc := P.regs.pc + 1 } [.yield] P
    exec (.yield h) s = .next { leaving s.cur t .ready Q (called s t Q) with ready := s.ready ++ [t] }

/-- 45_system_special.md R265: SPAWN creates a READY child of the same Program, at the given index, with the argument in
R0, every other register 0 and the parent's privilege level, and writes its id to the result register, modulo 2^32 as
the model has it (log entry 9). -/
def Obligations.SpawnResult : Prop :=
  ∀ (h : Hdr) (func : Word) (arg : SpawnArg) (rd : Reg) (s : State) (P : Proc) (t : Nat) (T : Thread),
    Running s P t T → MayRun h P →
    let v := match arg with
      | .addr a => a
      | .reg r => P.regs.x[r]
      | .imm c => c
    let Q := accepted h
      { P.regs with x := P.regs.x.set rd (BitVec.ofNat 32 s.threadCounter), pc := P.regs.pc + 1 }
      [.spawn func v rd] P
    let child : Thread :=
      { id := s.threadCounter, prog := T.prog, softStack := [], state := .ready, proc := none, parent := some t
        created := s.clock, execCycles := 0, joiners := []
        ctx := { x := (Vector.replicate 18 0).set 0 v, pc := func, flags := 0, priv := P.regs.priv } }
    exec (.spawn h func arg rd) s = .next { called s t Q with
      threads := (called s t Q).threads ++ [child], ready := s.ready ++ [s.threadCounter]
      threadCounter := s.threadCounter + 1 }

/-- 45_system_special.md R266: JOIN on a terminated thread runs on; on any other thread it joins the target's list and
suspends, also on itself; on an id no thread has it is a VMException. -/
def Obligations.JoinResult : Prop :=
  ∀ (h : Hdr) (o : Src) (s : State) (P : Proc) (t : Nat) (T : Thread), Running s P t T → MayRun h P →
    let j := srcValue P.regs o
    let Q := accepted h { P.regs with pc := P.regs.pc + 1 } [.join j] P
    (∀ J, s.threads[j.toNat]? = some J → J.state = .terminated →
      exec (.join h o) s = .next (called s t { Q with state := .running })) ∧
    (∀ J, s.threads[j.toNat]? = some J → J.state ≠ .terminated → let s1 := called s t Q
      exec (.join h o) s = .next (leaving s.cur t .waiting Q
        { s1 with threads := s1.threads.modify j.toNat fun U => { U with joiners := U.joiners ++ [t] } })) ∧
    (s.threads.length ≤ j.toNat →
      exec (.join h o) s =
        .next (vmFail s.cur t .joinNonexistentThread j (called s t { Q with state := .waiting })))

/-! ### Faults -/

/-- 20_memory.md R78, 42_memory_instr.md R207: an access that fails `AddrCheck` faults after acceptance, the misalignment
test first, with no register changed and no access made. -/
def Obligations.AddressFaults : Prop :=
  ∀ (i : Instr) (s : State) (P : Proc) (t : Nat) (T : Thread) (a : Word),
    Running s P t T → MayRun i.hdr P → accessAddr P.regs i = some a →
    (a.toNat % 4 ≠ 0 →
      exec i s = .next (takeFault s.cur t (.misalignedAccess a) (called s t (acceptedFault i.hdr P)))) ∧
    (a.toNat % 4 = 0 → s.cfg.memSize < a.toNat + 4 →
      exec i s = .next (takeFault s.cur t (.addressOutOfRange a) (called s t (acceptedFault i.hdr P))))

/-- 60_exceptions.md R402, R403: a call reports at most one fault; an instruction the privilege check passes, whose access
is accessible and whose divisor is not 0, raises none, but for the VMExceptions of UNLOCK and JOIN. -/
def Obligations.WhichInstructionsFault : Prop :=
  ∀ (i : Instr) (s s' : State) (P : Proc) (t : Nat) (T : Thread), Running s P t T → exec i s = .next s' →
    (s'.faults = s.faults ∨
      ∃ kind pc info, s'.faults = s.faults ++ [⟨s.clock, s.cur, t, kind, pc, info⟩]) ∧
    (mayFailInVm i = false → s'.pending = s.pending ∧
      (¬ Blocked i.hdr P → (∀ a, accessAddr P.regs i = some a → Accessible s a) →
        dividesByZero P.regs i = false → s'.faults = s.faults))

/-- 49_environment.md R371, R373, 60_exceptions.md R404: what terminating a thread does, and what a thread fault and a
VMException record before they terminate it. -/
def Obligations.ThreadEnds : Prop :=
  ∀ (s : State) (p t : Nat) (P : Proc) (T : Thread),
    s.procs[p]? = some P → s.threads[t]? = some T → t ∉ parked s →
    terminate p t s = ended p t P T s ∧
    (sortIds T.joiners).Pairwise (· < ·) ∧ (∀ u, u ∈ sortIds T.joiners ↔ u ∈ T.joiners) ∧
    (∀ f : ThreadFault, takeFault p t f s = ended p t P T { s with
      faults := s.faults ++ [⟨s.clock, p, t, .thread f, P.regs.pc,
        match f with
        | .misalignedAccess a => a
        | .addressOutOfRange a => a
        | .fetchOutOfRange | .invalid _ | .privilegeViolation | .divideByZero => P.regs.pc⟩] }) ∧
    (∀ (e : VmException) (info : Word), let r : FaultRecord := ⟨s.clock, p, t, .vm e, P.regs.pc - 1, info⟩
      vmFail p t e info s = ended p t P T { s with faults := s.faults ++ [r], pending := s.pending ++ [r] })

/-! ### Caches and bus -/

/-- 47_bus_ops.md R328, R330, 20_memory.md R91, R97: `DataRead` returns the newest value of the word, changes no byte of
memory and nothing but the caches, main memory and the bus; without `COHERENCE_EN` it changes nothing. The host's
read is the one that carries no thread id (49_environment.md R377, 10_state.md R41). -/
def Obligations.DataReadReturnsNewest : Prop :=
  ∀ (s : State) (p : Nat) (tid : Option Nat) (a : Word), Coherent s → p < s.cfg.nproc → Accessible s a →
    let r := dataRead p tid a.toNat s
    r.1 = coherentWord s a.toNat ∧ Coherent r.2 ∧ (∀ b, coherentByte r.2 b = coherentByte s b) ∧
      r.2 = { s with caches := r.2.caches, mem := r.2.mem, bus := r.2.bus } ∧
      (s.cfg.coherence = false → r.2 = s) ∧ (tid = none → hostDataRead p a s = .next r)

/-- 47_bus_ops.md R328, R331, 20_memory.md R91, R97: `DataWrite` changes exactly the four bytes of the word, to the value
written, and nothing else but the caches, main memory and the bus; without `COHERENCE_EN` it changes main memory only.
The host's write is the one that carries no thread id (49_environment.md R377, 10_state.md R41). -/
def Obligations.DataWriteStores : Prop :=
  ∀ (s : State) (p : Nat) (tid : Option Nat) (a v : Word), Coherent s → p < s.cfg.nproc → Accessible s a →
    let s' := dataWrite p tid a.toNat v s
    Coherent s' ∧ (∀ b, coherentByte s' b = storedByte a.toNat v (coherentByte s) b) ∧
      s' = { s with caches := s'.caches, mem := s'.mem, bus := s'.bus } ∧
      (s.cfg.coherence = false → s' = { s with mem := s'.mem }) ∧ (tid = none → hostDataWrite p a v s = .next s')

/-- 46_cache_ops.md R292, 70_reset_and_hazards.md R451: after `FlushAll` main memory holds the newest value of every word,
and nothing but main memory has changed. -/
def Obligations.FlushMakesMemoryCurrent : Prop :=
  ∀ s : State, Coherent s →
    hostFlushAll s = { s with mem := (hostFlushAll s).mem } ∧
    ∀ a, a % 4 = 0 → a + 4 ≤ s.cfg.memSize → memReadWord (hostFlushAll s).mem a = coherentWord s a

/-- 46_cache_ops.md R280, R285, 47_bus_ops.md R330: the local read row of the MESI table, with the bus requests it counts,
which carry the access's processor and thread id (10_state.md R41). -/
def Obligations.LocalReadTransition : Prop :=
  ∀ (s : State) (p : Nat) (tid : Option Nat) (a : Word), Coherent s → s.cfg.coherence = true → p < s.cfg.nproc →
    Accessible s a →
    let la := lineAddr s.cfg a.toNat
    let s' := (dataRead p tid a.toNat s).2
    s.bus.queue <+: s'.bus.queue ∧ (∀ r ∈ s'.bus.queue.drop s.bus.queue.length, r.pid = p ∧ r.tid = tid) ∧
    (lineState s p la ≠ .invalid →
      lineState s' p la = lineState s p la ∧ s'.mem = s.mem ∧ s'.bus = s.bus ∧
        ∀ q, q ≠ p → s'.cacheAt q = s.cacheAt q) ∧
    (lineState s p la = .invalid →
      ((∃ q, q ≠ p ∧ lineState s q la ≠ .invalid) → lineState s' p la = .shared) ∧
      ((∀ q, q ≠ p → lineState s q la = .invalid) → lineState s' p la = .exclusive) ∧
      (∀ q, q ≠ p → lineState s' q la = if lineState s q la = .invalid then .invalid else .shared) ∧
      s'.bus.readRequests = s.bus.readRequests + 1 ∧
      s'.bus.invalidationRequests = s.bus.invalidationRequests)

/-- 46_cache_ops.md R280, R285, 47_bus_ops.md R331: the local write row of the MESI table, with the bus requests it
counts, which carry the access's processor and thread id (10_state.md R41). -/
def Obligations.LocalWriteTransition : Prop :=
  ∀ (s : State) (p : Nat) (tid : Option Nat) (a v : Word), Coherent s → s.cfg.coherence = true → p < s.cfg.nproc →
    Accessible s a →
    let la := lineAddr s.cfg a.toNat
    let s' := dataWrite p tid a.toNat v s
    s.bus.queue <+: s'.bus.queue ∧ (∀ r ∈ s'.bus.queue.drop s.bus.queue.length, r.pid = p ∧ r.tid = tid) ∧
    lineState s' p la = .modified ∧ (∀ q, q ≠ p → lineState s' q la = .invalid) ∧
    (lineState s p la = .exclusive ∨ lineState s p la = .modified → s'.bus = s.bus ∧ s'.mem = s.mem) ∧
    (lineState s p la = .shared →
      s'.bus.invalidationRequests = s.bus.invalidationRequests + 1 ∧
      s'.bus.totalRequests = s.bus.totalRequests + 1 ∧ s'.mem = s.mem) ∧
    (lineState s p la = .invalid →
      s'.bus.readRequests = s.bus.readRequests + 1 ∧
      s'.bus.invalidationRequests = s.bus.invalidationRequests)

/-- 46_cache_ops.md R289, R290, R291, R294: what each bus message returns and the state it leaves the line in. A line
not held, and a MODIFIED line at an invalidate, leave the cache as it is. No message changes an address, a word or a
`last_use` in any slot, touches another line or draws a use number. -/
def Obligations.SnoopTransitions : Prop :=
  ∀ (c : Config) (k : Cache) (la : Nat), c.ok = true → CacheOk c k →
    let st := lineStateIn c k la
    let d := lineDataIn c k la
    let k1 := (handleBusRead c k la).2
    let k2 := (handleBusReadExclusive c k la).2
    let k3 := handleBusInvalidate c k la
    (handleBusRead c k la).1 = (if st = .invalid then none else some (d, decide (st = .modified))) ∧
    lineStateIn c k1 la = (if st = .invalid then .invalid else .shared) ∧
    (handleBusReadExclusive c k la).1 =
      (if st = .invalid then .notHeld else if st = .modified then .heldDirty d else .heldClean) ∧
    lineStateIn c k2 la = .invalid ∧
    lineStateIn c k3 la = (if st = .modified then .modified else .invalid) ∧
    (st = .modified → k3 = k) ∧ (st = .invalid → k1 = k ∧ k2 = k ∧ k3 = k) ∧ lineDataIn c k1 la = d ∧
    (∀ k', k' = k1 ∨ k' = k2 ∨ k' = k3 → CacheOk c k' ∧ k'.useCtr = k.useCtr ∧
      (k'.sets.map fun set => set.map fun sl => (sl.addr, sl.data, sl.lastUse)) =
        (k.sets.map fun set => set.map fun sl => (sl.addr, sl.data, sl.lastUse)) ∧
      ∀ la', lineAddr c la' ≠ lineAddr c la →
        lineStateIn c k' la' = lineStateIn c k la' ∧ lineDataIn c k' la' = lineDataIn c k la')

/-- 46_cache_ops.md R295: the eviction scenario, a 2-set, 1-way cache of line size 8. -/
def Obligations.EvictionScenario : Prop :=
  let c : Config := { Config.vector with memSize := 64, lineSize := 8, numSets := 2, assoc := 1 }
  let r1 := allocate c (Cache.reset c) 0 [0, 0] .exclusive
  let r2 := cacheWrite c r1.2 0 42
  let r3 := allocate c r2.2 8 [0, 0] .exclusive
  let r4 := allocate c r3.2 16 [0, 0] .exclusive
  let r5 := cacheRead c r4.2 0
  let view (k : Cache) (la : Nat) := (lineStateIn c k la, lineDataIn c k la)
  r1.1 = none ∧ view r1.2 0 = (.exclusive, [0, 0]) ∧
  r2.1 = .done ∧ view r2.2 0 = (.modified, [42, 0]) ∧ (slotOf r2.2 0 0).dirty = true ∧
  r3.1 = none ∧ setIndex c 8 = 1 ∧ view r3.2 0 = (.modified, [42, 0]) ∧ view r3.2 8 = (.exclusive, [0, 0]) ∧
  r4.1 = some ⟨0, [42, 0], true, .modified⟩ ∧ setIndex c 16 = 0 ∧
  view r4.2 16 = (.exclusive, [0, 0]) ∧ view r4.2 8 = (.exclusive, [0, 0]) ∧
  r5.1 = none ∧ r5.2 = r4.2

/-- 47_bus_ops.md R321, R322: a request submitted completes on the tick `BUS_LATENCY` after its submission and on no
other, after the requests queued before it, whose completions it does not disturb. -/
def Obligations.BusRequestCompletesAfterLatency : Prop :=
  ∀ (op : BusOp) (la pid : Nat) (tid : Option Nat) (payload : Option (List Word)) (s : State),
    1 ≤ s.cfg.busLatency →
    let r := submit op la pid tid payload s
    let ticks (k : Nat) (b : Bus) : Bus := (fun b => (tick b).2)^[k] b
    ∀ k, (tick (ticks k r.2.bus)).1 =
      (tick (ticks k s.bus)).1 ++
        (if k + 1 = s.cfg.busLatency then [⟨op, la, pid, tid, payload, true, r.1, 0⟩] else []) ∧
      (ticks k r.2.bus).totalRequests = s.bus.totalRequests + 1

/-- 20_memory.md R74, 00_scope.md R12: a word stored lies little-endian, stores no other byte and reads back. -/
def Obligations.MainMemoryIsLittleEndian : Prop :=
  ∀ (m : Memory) (a : Nat) (v : Word), m.wf = true →
    (∀ k < 4, memByte (memWriteWord m a v) (a + k) = v.extractLsb' (8 * k) 8) ∧
    (∀ b, b < a ∨ a + 4 ≤ b → memByte (memWriteWord m a v) b = memByte m b) ∧
    (∀ k < 4, (memReadWord m a).extractLsb' (8 * k) 8 = memByte m (a + k)) ∧
    (memWriteWord m a v).wf = true

/-! ### Scheduling and the end of a step -/

/-- 49_environment.md R355, R358: a switch in loads the whole context and counts; a suspension saves the whole context;
a thread suspended on one processor and switched in on any other has the same registers, PC, FLAGS and level. That a
suspension takes its processor and its thread as two arguments is the model's form (log entry 10). -/
def Obligations.ContextSwitchPreservesRegisters : Prop :=
  ∀ (s : State) (p t : Nat) (P : Proc) (T : Thread), s.procs[p]? = some P → s.threads[t]? = some T →
    switchIn p t s = { s with
      procs := s.procs.set p (switchedIn t T.ctx P)
      threads := s.threads.set t { T with state := .running, proc := some p }
      switches := s.switches + 1 } ∧
    suspend p t s = leaving p t .waiting P s ∧
    ∀ q Q, (suspend p t s).procs[q]? = some Q →
      (switchIn q t (suspend p t s)).procs[q]? = some (switchedIn t P.regs Q)

/-- 49_environment.md R356: the idle processors, in ascending id, take the ready threads first in first out. -/
def Obligations.ScheduleIsFifo : Prop :=
  ∀ s : State, s.procs.length = s.cfg.nproc → (∀ t ∈ s.ready, t < s.threads.length) →
    let s' := scheduleThreads s
    let idle := idleProcs s
    s'.ready = s.ready.drop idle.length ∧ s'.switches = s.switches + min idle.length s.ready.length ∧
    (∀ (n p t : Nat) (P : Proc) (T : Thread), idle[n]? = some p → s.ready[n]? = some t → s.procs[p]? = some P → s.threads[t]? = some T →
      s'.procs[p]? = some (switchedIn t T.ctx P)) ∧
    (∀ p : Nat, p ∉ idle → s'.procs[p]? = s.procs[p]?) ∧
    (∀ n p : Nat, idle[n]? = some p → s.ready.length ≤ n → s'.procs[p]? = s.procs[p]?)

/-- 49_environment.md R351, R372: the end of a step ticks the bus and then surfaces the first pending VMException, else
goes on, else reports deadlock with the WAITING threads, else finishes the VM. That what is raised stands in `out`, and
that the WAITING threads are listed ascending, is the model's form (log entries 17 and 20). -/
def Obligations.StepEnds : Prop :=
  ∀ s : State, let s' := finishStep s
    let stuck := (∀ P ∈ s.procs, P.state ≠ .running) ∧ s.ready = []
    s' = { s with bus := (tick s.bus).2, vm := s'.vm, cur := 0, out := s'.out } ∧
    s'.out.ticked = (tick s.bus).1 ∧ (s'.out.stillRunning = true ↔ s'.vm ≠ .finished) ∧
    (∀ r rs, s.pending = r :: rs → s'.vm = .paused ∧ s'.out.raised = some (.vmException r)) ∧
    (s.pending = [] → ¬ stuck → s'.vm = s.vm ∧ s'.out.raised = none) ∧
    (s.pending = [] → stuck → (∀ T ∈ s.threads, T.state ≠ .waiting) → s'.vm = .finished ∧ s'.out.raised = none) ∧
    (s.pending = [] → stuck → (∃ T ∈ s.threads, T.state = .waiting) → s'.vm = .paused ∧
      ∃ ts : List Nat, s'.out.raised = some (.deadlock ts) ∧ ts.Pairwise (· < ·) ∧
        ∀ t, t ∈ ts ↔ ∃ T, s.threads[t]? = some T ∧ T.state = .waiting)

/-! ### The whole machine -/

/-- 20_memory.md R92, 10_state.md R44: the caches cannot be observed. The machine with caches and the machine with one
flat memory, from states that agree on all a program can see, step to states that agree on it again. -/
def Obligations.CachesAreInvisible : Prop :=
  ∀ s f s' : State, Coherent s → f.mem.wf = true → FlatViewOf s f → step s = .next s' →
    ∃ f', step f = .next f' ∧ FlatViewOf s' f' ∧ f'.mem.wf = true ∧
      f'.out.raised = s'.out.raised ∧ f'.out.stillRunning = s'.out.stillRunning
end

