-- ==== Sys2Proof/Laws/Memory.lean ====
section
/-! SUPPORT. Main memory: what a byte reads as after a write, and that every memory operation keeps the canonical
form. -/

namespace Sys2Proof.Machine

/-- Every address listed is at least `lo`. -/
def listedFrom (lo : Nat) (m : Memory) : Prop := ∀ c ∈ m, lo ≤ c.1

/-- The canonical form, one entry at a time. -/
theorem Memory.wf_cons (a : Nat) (b : Byte) (m : Memory) :
    Memory.wf ((a, b) :: m) = true ↔ b ≠ 0 ∧ listedFrom (a + 1) m ∧ Memory.wf m = true := by
  induction m generalizing a b with
  | nil => simp [Memory.wf, listedFrom]
  | cons c m ih =>
    obtain ⟨a', b'⟩ := c
    constructor
    · intro h
      simp only [Memory.wf, Bool.and_eq_true, bne_iff_ne, decide_eq_true_eq] at h
      obtain ⟨⟨hb, hlt⟩, hm⟩ := h
      refine ⟨hb, ?_, hm⟩
      intro c hc
      rcases List.mem_cons.1 hc with rfl | hc
      · exact hlt
      · have := ((ih a' b').1 hm).2.1 c hc
        omega
    · rintro ⟨hb, hl, hm⟩
      have : a + 1 ≤ a' := hl (a', b') (by simp)
      simp only [Memory.wf, Bool.and_eq_true, bne_iff_ne, decide_eq_true_eq]
      exact ⟨⟨hb, by omega⟩, hm⟩

/-- Below every listed address memory reads as 0. -/
theorem memByte_eq_zero_of_listedFrom {lo a : Nat} {m : Memory} (h : listedFrom lo m) (ha : a < lo) :
    memByte m a = 0 := by
  induction m with
  | nil => rfl
  | cons c m ih =>
    obtain ⟨k, b⟩ := c
    have hk : lo ≤ k := h (k, b) (by simp)
    simp only [memByte]
    rw [if_neg (by omega)]
    exact ih fun c hc => h c (by simp [hc])

/-- Storing a byte lists no new address below the one stored to. -/
theorem listedFrom_memSetByte {lo a : Nat} {b : Byte} {m : Memory} (h : listedFrom lo m) (ha : lo ≤ a) :
    listedFrom lo (memSetByte m a b) := by
  induction m with
  | nil =>
    intro c hc
    simp only [memSetByte] at hc
    split at hc
    · cases hc
    · rw [List.mem_singleton] at hc
      rw [hc]
      exact ha
  | cons e m ih =>
    obtain ⟨k, d⟩ := e
    have hm : listedFrom lo m := fun c hc => h c (by simp [hc])
    have hk : lo ≤ k := h (k, d) (by simp)
    intro c hc
    simp only [memSetByte] at hc
    split at hc
    · split at hc
      · exact h c hc
      · rcases List.mem_cons.1 hc with rfl | hc
        · exact ha
        · exact h c hc
    · split at hc
      · split at hc
        · exact hm c hc
        · rcases List.mem_cons.1 hc with rfl | hc
          · exact ha
          · exact hm c hc
      · rcases List.mem_cons.1 hc with rfl | hc
        · exact hk
        · exact ih hm c hc

/-- Storing a byte keeps the canonical form. -/
theorem memSetByte_wf {m : Memory} (a : Nat) (b : Byte) (h : m.wf = true) : (memSetByte m a b).wf = true := by
  induction m with
  | nil =>
    simp only [memSetByte]
    split
    · rfl
    · rename_i hb
      simpa [Memory.wf] using hb
  | cons e m ih =>
    obtain ⟨k, d⟩ := e
    obtain ⟨hd, hl, hm⟩ := (Memory.wf_cons k d m).1 h
    simp only [memSetByte]
    split
    · rename_i hak
      split
      · exact h
      · rename_i hb
        refine (Memory.wf_cons _ _ _).2 ⟨hb, ?_, h⟩
        intro c hc
        rcases List.mem_cons.1 hc with rfl | hc
        · exact hak
        · have := hl c hc
          omega
    · split
      · rename_i hak
        subst hak
        split
        · exact hm
        · rename_i hb
          exact (Memory.wf_cons _ _ _).2 ⟨hb, hl, hm⟩
      · exact (Memory.wf_cons _ _ _).2 ⟨hd, listedFrom_memSetByte hl (by omega), ih hm⟩

/-- A byte stored is the byte read back. -/
theorem memByte_memSetByte_same {m : Memory} (a : Nat) (b : Byte) (h : m.wf = true) :
    memByte (memSetByte m a b) a = b := by
  induction m with
  | nil =>
    simp only [memSetByte]
    split
    · rename_i hb
      exact hb.symm
    · simp [memByte]
  | cons e m ih =>
    obtain ⟨k, d⟩ := e
    obtain ⟨_, hl, hm⟩ := (Memory.wf_cons k d m).1 h
    simp only [memSetByte]
    split
    · rename_i hak
      split
      · rename_i hb
        subst hb
        simp only [memByte]
        rw [if_neg (by omega)]
        exact memByte_eq_zero_of_listedFrom hl (by omega)
      · simp [memByte]
    · split
      · rename_i hak
        subst hak
        split
        · rename_i hb
          subst hb
          exact memByte_eq_zero_of_listedFrom hl (by omega)
        · simp [memByte]
      · rename_i h1 h2
        simp only [memByte]
        rw [if_neg (fun e => h2 e.symm)]
        exact ih hm

/-- A byte stored leaves every other byte alone. -/
theorem memByte_memSetByte_other (m : Memory) (a a' : Nat) (b : Byte) (h : a' ≠ a) :
    memByte (memSetByte m a b) a' = memByte m a' := by
  induction m with
  | nil =>
    simp only [memSetByte]
    split
    · rfl
    · simp [memByte, Ne.symm h]
  | cons e m ih =>
    obtain ⟨k, d⟩ := e
    simp only [memSetByte]
    split
    · split
      · rfl
      · simp [memByte, Ne.symm h]
    · split
      · rename_i hak
        subst hak
        split <;> simp [memByte, Ne.symm h]
      · simp only [memByte, ih]

/-- `MemWrite` keeps the canonical form. -/
theorem memWrite_wf (n : Nat) : ∀ {m : Memory} (a v : Nat), m.wf = true → (memWrite m a n v).wf = true := by
  induction n with
  | zero => intro m a v h; exact h
  | succ n ih => intro m a v h; exact ih _ _ (memSetByte_wf _ _ h)

/-- Storing a word keeps the canonical form. -/
theorem memWriteWord_wf {m : Memory} (a : Nat) (v : Word) (h : m.wf = true) : (memWriteWord m a v).wf = true :=
  memWrite_wf 4 a _ h

/-- Storing a line keeps the canonical form. -/
theorem memLineWrite_wf (d : List Word) :
    ∀ {m : Memory} (la : Nat), m.wf = true → (memLineWrite m la d).wf = true := by
  induction d with
  | nil => intro m la h; exact h
  | cons v d ih => intro m la h; exact ih _ (memWriteWord_wf _ _ h)

/-- The bytes after `MemWrite`: byte k of the value at a + k, every other byte as before. -/
theorem memByte_memWrite (n : Nat) : ∀ {m : Memory} (a v a' : Nat), m.wf = true →
    memByte (memWrite m a n v) a' =
      if a ≤ a' ∧ a' < a + n then BitVec.ofNat 8 (v / 256 ^ (a' - a)) else memByte m a' := by
  induction n with
  | zero =>
    intro m a v a' _
    rw [if_neg (by omega)]
    rfl
  | succ n ih =>
    intro m a v a' h
    simp only [memWrite]
    rw [ih _ _ _ (memSetByte_wf _ _ h)]
    by_cases h1 : a + 1 ≤ a' ∧ a' < a + 1 + n
    · rw [if_pos h1, if_pos (by omega), Nat.div_div_eq_div_mul]
      have : a' - a = (a' - (a + 1)) + 1 := by omega
      rw [this, Nat.pow_succ, Nat.mul_comm]
    · rw [if_neg h1]
      by_cases h2 : a' = a
      · subst h2
        rw [memByte_memSetByte_same _ _ h, if_pos (by omega)]
        simp
      · rw [memByte_memSetByte_other _ _ _ _ h2, if_neg (by omega)]

/-- `MemRead` sees only the bytes it reads. -/
theorem memRead_congr (n : Nat) : ∀ {m m' : Memory} (a : Nat),
    (∀ k, a ≤ k → k < a + n → memByte m k = memByte m' k) → memRead m a n = memRead m' a n := by
  induction n with
  | zero => intros; rfl
  | succ n ih =>
    intro m m' a h
    simp only [memRead]
    rw [h a (by omega) (by omega), ih (a + 1) fun k h1 h2 => h k (by omega) (by omega)]

/-- A word stored is the word read back. -/
theorem memReadWord_memWriteWord_same {m : Memory} (a : Nat) (v : Word) (h : m.wf = true) :
    memReadWord (memWriteWord m a v) a = v := by
  have hb : ∀ k < 4, (memByte (memWriteWord m a v) (a + k)).toNat = v.toNat / 256 ^ k % 256 := by
    intro k hk
    rw [memWriteWord, memByte_memWrite 4 a _ _ h, if_pos (by omega)]
    simp
  have h0 := hb 0 (by omega)
  have h1 := hb 1 (by omega)
  have h2 := hb 2 (by omega)
  have h3 := hb 3 (by omega)
  have hv := v.isLt
  apply BitVec.eq_of_toNat_eq
  simp only [memReadWord, memRead, BitVec.toNat_ofNat, Nat.add_zero, Nat.add_assoc, Nat.reduceAdd] at *
  rw [h0, h1, h2, h3]
  omega

/-- A word stored leaves every word that shares no byte with it alone. -/
theorem memReadWord_memWriteWord_other {m : Memory} (a a' : Nat) (v : Word) (h : m.wf = true)
    (hd : a' + 4 ≤ a ∨ a + 4 ≤ a') : memReadWord (memWriteWord m a v) a' = memReadWord m a' := by
  simp only [memReadWord]
  congr 1
  apply memRead_congr
  intro k h1 h2
  rw [memWriteWord, memByte_memWrite 4 a _ _ h, if_neg (by omega)]

end Sys2Proof.Machine
end

