-- ==== Sys2Proof/Laws/State.lean ====
section
/-! SUPPORT. The fields of the state after each named update, one lemma per field, so that no proof unfolds a record
update. -/

namespace Sys2Proof.Machine

@[simp] theorem State.modProc_cfg (s : State) (p : Nat) (f : Proc → Proc) : (s.modProc p f).cfg = s.cfg := rfl
@[simp] theorem State.modProc_programs (s : State) (p : Nat) (f : Proc → Proc) : (s.modProc p f).programs = s.programs := rfl
@[simp] theorem State.modProc_procs (s : State) (p : Nat) (f : Proc → Proc) : (s.modProc p f).procs = s.procs.modify p f := rfl
@[simp] theorem State.modProc_caches (s : State) (p : Nat) (f : Proc → Proc) : (s.modProc p f).caches = s.caches := rfl
@[simp] theorem State.modProc_mem (s : State) (p : Nat) (f : Proc → Proc) : (s.modProc p f).mem = s.mem := rfl
@[simp] theorem State.modProc_bus (s : State) (p : Nat) (f : Proc → Proc) : (s.modProc p f).bus = s.bus := rfl
@[simp] theorem State.modProc_threads (s : State) (p : Nat) (f : Proc → Proc) : (s.modProc p f).threads = s.threads := rfl
@[simp] theorem State.modProc_ready (s : State) (p : Nat) (f : Proc → Proc) : (s.modProc p f).ready = s.ready := rfl
@[simp] theorem State.modProc_locks (s : State) (p : Nat) (f : Proc → Proc) : (s.modProc p f).locks = s.locks := rfl
@[simp] theorem State.modProc_barriers (s : State) (p : Nat) (f : Proc → Proc) : (s.modProc p f).barriers = s.barriers := rfl
@[simp] theorem State.modProc_clock (s : State) (p : Nat) (f : Proc → Proc) : (s.modProc p f).clock = s.clock := rfl
@[simp] theorem State.modProc_switches (s : State) (p : Nat) (f : Proc → Proc) : (s.modProc p f).switches = s.switches := rfl
@[simp] theorem State.modProc_threadCounter (s : State) (p : Nat) (f : Proc → Proc) : (s.modProc p f).threadCounter = s.threadCounter := rfl
@[simp] theorem State.modProc_vm (s : State) (p : Nat) (f : Proc → Proc) : (s.modProc p f).vm = s.vm := rfl
@[simp] theorem State.modProc_faults (s : State) (p : Nat) (f : Proc → Proc) : (s.modProc p f).faults = s.faults := rfl
@[simp] theorem State.modProc_pending (s : State) (p : Nat) (f : Proc → Proc) : (s.modProc p f).pending = s.pending := rfl
@[simp] theorem State.modProc_cur (s : State) (p : Nat) (f : Proc → Proc) : (s.modProc p f).cur = s.cur := rfl
@[simp] theorem State.modProc_out (s : State) (p : Nat) (f : Proc → Proc) : (s.modProc p f).out = s.out := rfl

@[simp] theorem State.modThread_cfg (s : State) (t : Nat) (f : Thread → Thread) : (s.modThread t f).cfg = s.cfg := rfl
@[simp] theorem State.modThread_programs (s : State) (t : Nat) (f : Thread → Thread) : (s.modThread t f).programs = s.programs := rfl
@[simp] theorem State.modThread_procs (s : State) (t : Nat) (f : Thread → Thread) : (s.modThread t f).procs = s.procs := rfl
@[simp] theorem State.modThread_caches (s : State) (t : Nat) (f : Thread → Thread) : (s.modThread t f).caches = s.caches := rfl
@[simp] theorem State.modThread_mem (s : State) (t : Nat) (f : Thread → Thread) : (s.modThread t f).mem = s.mem := rfl
@[simp] theorem State.modThread_bus (s : State) (t : Nat) (f : Thread → Thread) : (s.modThread t f).bus = s.bus := rfl
@[simp] theorem State.modThread_threads (s : State) (t : Nat) (f : Thread → Thread) : (s.modThread t f).threads = s.threads.modify t f := rfl
@[simp] theorem State.modThread_ready (s : State) (t : Nat) (f : Thread → Thread) : (s.modThread t f).ready = s.ready := rfl
@[simp] theorem State.modThread_locks (s : State) (t : Nat) (f : Thread → Thread) : (s.modThread t f).locks = s.locks := rfl
@[simp] theorem State.modThread_barriers (s : State) (t : Nat) (f : Thread → Thread) : (s.modThread t f).barriers = s.barriers := rfl
@[simp] theorem State.modThread_clock (s : State) (t : Nat) (f : Thread → Thread) : (s.modThread t f).clock = s.clock := rfl
@[simp] theorem State.modThread_switches (s : State) (t : Nat) (f : Thread → Thread) : (s.modThread t f).switches = s.switches := rfl
@[simp] theorem State.modThread_threadCounter (s : State) (t : Nat) (f : Thread → Thread) : (s.modThread t f).threadCounter = s.threadCounter := rfl
@[simp] theorem State.modThread_vm (s : State) (t : Nat) (f : Thread → Thread) : (s.modThread t f).vm = s.vm := rfl
@[simp] theorem State.modThread_faults (s : State) (t : Nat) (f : Thread → Thread) : (s.modThread t f).faults = s.faults := rfl
@[simp] theorem State.modThread_pending (s : State) (t : Nat) (f : Thread → Thread) : (s.modThread t f).pending = s.pending := rfl
@[simp] theorem State.modThread_cur (s : State) (t : Nat) (f : Thread → Thread) : (s.modThread t f).cur = s.cur := rfl
@[simp] theorem State.modThread_out (s : State) (t : Nat) (f : Thread → Thread) : (s.modThread t f).out = s.out := rfl

@[simp] theorem State.modRegs_cfg (s : State) (p : Nat) (f : RegSet → RegSet) : (s.modRegs p f).cfg = s.cfg := rfl
@[simp] theorem State.modRegs_programs (s : State) (p : Nat) (f : RegSet → RegSet) : (s.modRegs p f).programs = s.programs := rfl
@[simp] theorem State.modRegs_procs (s : State) (p : Nat) (f : RegSet → RegSet) : (s.modRegs p f).procs = s.procs.modify p fun P => { P with regs := f P.regs } := rfl
@[simp] theorem State.modRegs_caches (s : State) (p : Nat) (f : RegSet → RegSet) : (s.modRegs p f).caches = s.caches := rfl
@[simp] theorem State.modRegs_mem (s : State) (p : Nat) (f : RegSet → RegSet) : (s.modRegs p f).mem = s.mem := rfl
@[simp] theorem State.modRegs_bus (s : State) (p : Nat) (f : RegSet → RegSet) : (s.modRegs p f).bus = s.bus := rfl
@[simp] theorem State.modRegs_threads (s : State) (p : Nat) (f : RegSet → RegSet) : (s.modRegs p f).threads = s.threads := rfl
@[simp] theorem State.modRegs_ready (s : State) (p : Nat) (f : RegSet → RegSet) : (s.modRegs p f).ready = s.ready := rfl
@[simp] theorem State.modRegs_locks (s : State) (p : Nat) (f : RegSet → RegSet) : (s.modRegs p f).locks = s.locks := rfl
@[simp] theorem State.modRegs_barriers (s : State) (p : Nat) (f : RegSet → RegSet) : (s.modRegs p f).barriers = s.barriers := rfl
@[simp] theorem State.modRegs_clock (s : State) (p : Nat) (f : RegSet → RegSet) : (s.modRegs p f).clock = s.clock := rfl
@[simp] theorem State.modRegs_switches (s : State) (p : Nat) (f : RegSet → RegSet) : (s.modRegs p f).switches = s.switches := rfl
@[simp] theorem State.modRegs_threadCounter (s : State) (p : Nat) (f : RegSet → RegSet) : (s.modRegs p f).threadCounter = s.threadCounter := rfl
@[simp] theorem State.modRegs_vm (s : State) (p : Nat) (f : RegSet → RegSet) : (s.modRegs p f).vm = s.vm := rfl
@[simp] theorem State.modRegs_faults (s : State) (p : Nat) (f : RegSet → RegSet) : (s.modRegs p f).faults = s.faults := rfl
@[simp] theorem State.modRegs_pending (s : State) (p : Nat) (f : RegSet → RegSet) : (s.modRegs p f).pending = s.pending := rfl
@[simp] theorem State.modRegs_cur (s : State) (p : Nat) (f : RegSet → RegSet) : (s.modRegs p f).cur = s.cur := rfl
@[simp] theorem State.modRegs_out (s : State) (p : Nat) (f : RegSet → RegSet) : (s.modRegs p f).out = s.out := rfl

@[simp] theorem State.putProc_cfg (s : State) (p : Nat) (P : Proc) : (s.putProc p P).cfg = s.cfg := rfl
@[simp] theorem State.putProc_programs (s : State) (p : Nat) (P : Proc) : (s.putProc p P).programs = s.programs := rfl
@[simp] theorem State.putProc_procs (s : State) (p : Nat) (P : Proc) : (s.putProc p P).procs = s.procs.set p P := rfl
@[simp] theorem State.putProc_caches (s : State) (p : Nat) (P : Proc) : (s.putProc p P).caches = s.caches := rfl
@[simp] theorem State.putProc_mem (s : State) (p : Nat) (P : Proc) : (s.putProc p P).mem = s.mem := rfl
@[simp] theorem State.putProc_bus (s : State) (p : Nat) (P : Proc) : (s.putProc p P).bus = s.bus := rfl
@[simp] theorem State.putProc_threads (s : State) (p : Nat) (P : Proc) : (s.putProc p P).threads = s.threads := rfl
@[simp] theorem State.putProc_ready (s : State) (p : Nat) (P : Proc) : (s.putProc p P).ready = s.ready := rfl
@[simp] theorem State.putProc_locks (s : State) (p : Nat) (P : Proc) : (s.putProc p P).locks = s.locks := rfl
@[simp] theorem State.putProc_barriers (s : State) (p : Nat) (P : Proc) : (s.putProc p P).barriers = s.barriers := rfl
@[simp] theorem State.putProc_clock (s : State) (p : Nat) (P : Proc) : (s.putProc p P).clock = s.clock := rfl
@[simp] theorem State.putProc_switches (s : State) (p : Nat) (P : Proc) : (s.putProc p P).switches = s.switches := rfl
@[simp] theorem State.putProc_threadCounter (s : State) (p : Nat) (P : Proc) : (s.putProc p P).threadCounter = s.threadCounter := rfl
@[simp] theorem State.putProc_vm (s : State) (p : Nat) (P : Proc) : (s.putProc p P).vm = s.vm := rfl
@[simp] theorem State.putProc_faults (s : State) (p : Nat) (P : Proc) : (s.putProc p P).faults = s.faults := rfl
@[simp] theorem State.putProc_pending (s : State) (p : Nat) (P : Proc) : (s.putProc p P).pending = s.pending := rfl
@[simp] theorem State.putProc_cur (s : State) (p : Nat) (P : Proc) : (s.putProc p P).cur = s.cur := rfl
@[simp] theorem State.putProc_out (s : State) (p : Nat) (P : Proc) : (s.putProc p P).out = s.out := rfl

@[simp] theorem State.putCache_cfg (s : State) (p : Nat) (k : Cache) : (s.putCache p k).cfg = s.cfg := rfl
@[simp] theorem State.putCache_programs (s : State) (p : Nat) (k : Cache) : (s.putCache p k).programs = s.programs := rfl
@[simp] theorem State.putCache_procs (s : State) (p : Nat) (k : Cache) : (s.putCache p k).procs = s.procs := rfl
@[simp] theorem State.putCache_caches (s : State) (p : Nat) (k : Cache) : (s.putCache p k).caches = s.caches.set p k := rfl
@[simp] theorem State.putCache_mem (s : State) (p : Nat) (k : Cache) : (s.putCache p k).mem = s.mem := rfl
@[simp] theorem State.putCache_bus (s : State) (p : Nat) (k : Cache) : (s.putCache p k).bus = s.bus := rfl
@[simp] theorem State.putCache_threads (s : State) (p : Nat) (k : Cache) : (s.putCache p k).threads = s.threads := rfl
@[simp] theorem State.putCache_ready (s : State) (p : Nat) (k : Cache) : (s.putCache p k).ready = s.ready := rfl
@[simp] theorem State.putCache_locks (s : State) (p : Nat) (k : Cache) : (s.putCache p k).locks = s.locks := rfl
@[simp] theorem State.putCache_barriers (s : State) (p : Nat) (k : Cache) : (s.putCache p k).barriers = s.barriers := rfl
@[simp] theorem State.putCache_clock (s : State) (p : Nat) (k : Cache) : (s.putCache p k).clock = s.clock := rfl
@[simp] theorem State.putCache_switches (s : State) (p : Nat) (k : Cache) : (s.putCache p k).switches = s.switches := rfl
@[simp] theorem State.putCache_threadCounter (s : State) (p : Nat) (k : Cache) : (s.putCache p k).threadCounter = s.threadCounter := rfl
@[simp] theorem State.putCache_vm (s : State) (p : Nat) (k : Cache) : (s.putCache p k).vm = s.vm := rfl
@[simp] theorem State.putCache_faults (s : State) (p : Nat) (k : Cache) : (s.putCache p k).faults = s.faults := rfl
@[simp] theorem State.putCache_pending (s : State) (p : Nat) (k : Cache) : (s.putCache p k).pending = s.pending := rfl
@[simp] theorem State.putCache_cur (s : State) (p : Nat) (k : Cache) : (s.putCache p k).cur = s.cur := rfl
@[simp] theorem State.putCache_out (s : State) (p : Nat) (k : Cache) : (s.putCache p k).out = s.out := rfl

@[simp] theorem countExec_cfg (t : Nat) (s : State) : (countExec t s).cfg = s.cfg := rfl
@[simp] theorem countExec_programs (t : Nat) (s : State) : (countExec t s).programs = s.programs := rfl
@[simp] theorem countExec_procs (t : Nat) (s : State) : (countExec t s).procs = s.procs := rfl
@[simp] theorem countExec_caches (t : Nat) (s : State) : (countExec t s).caches = s.caches := rfl
@[simp] theorem countExec_mem (t : Nat) (s : State) : (countExec t s).mem = s.mem := rfl
@[simp] theorem countExec_bus (t : Nat) (s : State) : (countExec t s).bus = s.bus := rfl
@[simp] theorem countExec_threads (t : Nat) (s : State) : (countExec t s).threads = s.threads.modify t fun T => { T with execCycles := T.execCycles + 1 } := rfl
@[simp] theorem countExec_ready (t : Nat) (s : State) : (countExec t s).ready = s.ready := rfl
@[simp] theorem countExec_locks (t : Nat) (s : State) : (countExec t s).locks = s.locks := rfl
@[simp] theorem countExec_barriers (t : Nat) (s : State) : (countExec t s).barriers = s.barriers := rfl
@[simp] theorem countExec_clock (t : Nat) (s : State) : (countExec t s).clock = s.clock := rfl
@[simp] theorem countExec_switches (t : Nat) (s : State) : (countExec t s).switches = s.switches := rfl
@[simp] theorem countExec_threadCounter (t : Nat) (s : State) : (countExec t s).threadCounter = s.threadCounter := rfl
@[simp] theorem countExec_vm (t : Nat) (s : State) : (countExec t s).vm = s.vm := rfl
@[simp] theorem countExec_faults (t : Nat) (s : State) : (countExec t s).faults = s.faults := rfl
@[simp] theorem countExec_pending (t : Nat) (s : State) : (countExec t s).pending = s.pending := rfl
@[simp] theorem countExec_cur (t : Nat) (s : State) : (countExec t s).cur = s.cur := rfl
@[simp] theorem countExec_out (t : Nat) (s : State) : (countExec t s).out = s.out := rfl

@[simp] theorem called_cfg (s : State) (t : Nat) (Q : Proc) : (called s t Q).cfg = s.cfg := rfl
@[simp] theorem called_programs (s : State) (t : Nat) (Q : Proc) : (called s t Q).programs = s.programs := rfl
@[simp] theorem called_procs (s : State) (t : Nat) (Q : Proc) : (called s t Q).procs = s.procs.set s.cur Q := rfl
@[simp] theorem called_caches (s : State) (t : Nat) (Q : Proc) : (called s t Q).caches = s.caches := rfl
@[simp] theorem called_mem (s : State) (t : Nat) (Q : Proc) : (called s t Q).mem = s.mem := rfl
@[simp] theorem called_bus (s : State) (t : Nat) (Q : Proc) : (called s t Q).bus = s.bus := rfl
@[simp] theorem called_threads (s : State) (t : Nat) (Q : Proc) : (called s t Q).threads = s.threads.modify t countOne := rfl
@[simp] theorem called_ready (s : State) (t : Nat) (Q : Proc) : (called s t Q).ready = s.ready := rfl
@[simp] theorem called_locks (s : State) (t : Nat) (Q : Proc) : (called s t Q).locks = s.locks := rfl
@[simp] theorem called_barriers (s : State) (t : Nat) (Q : Proc) : (called s t Q).barriers = s.barriers := rfl
@[simp] theorem called_clock (s : State) (t : Nat) (Q : Proc) : (called s t Q).clock = s.clock := rfl
@[simp] theorem called_switches (s : State) (t : Nat) (Q : Proc) : (called s t Q).switches = s.switches := rfl
@[simp] theorem called_threadCounter (s : State) (t : Nat) (Q : Proc) : (called s t Q).threadCounter = s.threadCounter := rfl
@[simp] theorem called_vm (s : State) (t : Nat) (Q : Proc) : (called s t Q).vm = s.vm := rfl
@[simp] theorem called_faults (s : State) (t : Nat) (Q : Proc) : (called s t Q).faults = s.faults := rfl
@[simp] theorem called_pending (s : State) (t : Nat) (Q : Proc) : (called s t Q).pending = s.pending := rfl
@[simp] theorem called_cur (s : State) (t : Nat) (Q : Proc) : (called s t Q).cur = s.cur := rfl
@[simp] theorem called_out (s : State) (t : Nat) (Q : Proc) : (called s t Q).out = s.out := rfl

@[simp] theorem takeOff_cfg (p t : Nat) (st : ThreadState) (s : State) : (takeOff p t st s).cfg = s.cfg := rfl
@[simp] theorem takeOff_programs (p t : Nat) (st : ThreadState) (s : State) : (takeOff p t st s).programs = s.programs := rfl
@[simp] theorem takeOff_procs (p t : Nat) (st : ThreadState) (s : State) : (takeOff p t st s).procs = s.procs.modify p fun P => { P with thread := none, state := .idle } := rfl
@[simp] theorem takeOff_caches (p t : Nat) (st : ThreadState) (s : State) : (takeOff p t st s).caches = s.caches := rfl
@[simp] theorem takeOff_mem (p t : Nat) (st : ThreadState) (s : State) : (takeOff p t st s).mem = s.mem := rfl
@[simp] theorem takeOff_bus (p t : Nat) (st : ThreadState) (s : State) : (takeOff p t st s).bus = s.bus := rfl
@[simp] theorem takeOff_threads (p t : Nat) (st : ThreadState) (s : State) : (takeOff p t st s).threads = s.threads.modify t fun T => { T with ctx := s.regsOf p, state := st, proc := none } := rfl
@[simp] theorem takeOff_ready (p t : Nat) (st : ThreadState) (s : State) : (takeOff p t st s).ready = s.ready := rfl
@[simp] theorem takeOff_locks (p t : Nat) (st : ThreadState) (s : State) : (takeOff p t st s).locks = s.locks := rfl
@[simp] theorem takeOff_barriers (p t : Nat) (st : ThreadState) (s : State) : (takeOff p t st s).barriers = s.barriers := rfl
@[simp] theorem takeOff_clock (p t : Nat) (st : ThreadState) (s : State) : (takeOff p t st s).clock = s.clock := rfl
@[simp] theorem takeOff_switches (p t : Nat) (st : ThreadState) (s : State) : (takeOff p t st s).switches = s.switches := rfl
@[simp] theorem takeOff_threadCounter (p t : Nat) (st : ThreadState) (s : State) : (takeOff p t st s).threadCounter = s.threadCounter := rfl
@[simp] theorem takeOff_vm (p t : Nat) (st : ThreadState) (s : State) : (takeOff p t st s).vm = s.vm := rfl
@[simp] theorem takeOff_faults (p t : Nat) (st : ThreadState) (s : State) : (takeOff p t st s).faults = s.faults := rfl
@[simp] theorem takeOff_pending (p t : Nat) (st : ThreadState) (s : State) : (takeOff p t st s).pending = s.pending := rfl
@[simp] theorem takeOff_cur (p t : Nat) (st : ThreadState) (s : State) : (takeOff p t st s).cur = s.cur := rfl
@[simp] theorem takeOff_out (p t : Nat) (st : ThreadState) (s : State) : (takeOff p t st s).out = s.out := rfl

@[simp] theorem unblock_cfg (u : Nat) (s : State) : (unblock u s).cfg = s.cfg := rfl
@[simp] theorem unblock_programs (u : Nat) (s : State) : (unblock u s).programs = s.programs := rfl
@[simp] theorem unblock_procs (u : Nat) (s : State) : (unblock u s).procs = s.procs := rfl
@[simp] theorem unblock_caches (u : Nat) (s : State) : (unblock u s).caches = s.caches := rfl
@[simp] theorem unblock_mem (u : Nat) (s : State) : (unblock u s).mem = s.mem := rfl
@[simp] theorem unblock_bus (u : Nat) (s : State) : (unblock u s).bus = s.bus := rfl
@[simp] theorem unblock_threads (u : Nat) (s : State) : (unblock u s).threads = s.threads.modify u fun T => { T with state := .ready } := rfl
@[simp] theorem unblock_ready (u : Nat) (s : State) : (unblock u s).ready = s.ready ++ [u] := rfl
@[simp] theorem unblock_locks (u : Nat) (s : State) : (unblock u s).locks = s.locks := rfl
@[simp] theorem unblock_barriers (u : Nat) (s : State) : (unblock u s).barriers = s.barriers := rfl
@[simp] theorem unblock_clock (u : Nat) (s : State) : (unblock u s).clock = s.clock := rfl
@[simp] theorem unblock_switches (u : Nat) (s : State) : (unblock u s).switches = s.switches := rfl
@[simp] theorem unblock_threadCounter (u : Nat) (s : State) : (unblock u s).threadCounter = s.threadCounter := rfl
@[simp] theorem unblock_vm (u : Nat) (s : State) : (unblock u s).vm = s.vm := rfl
@[simp] theorem unblock_faults (u : Nat) (s : State) : (unblock u s).faults = s.faults := rfl
@[simp] theorem unblock_pending (u : Nat) (s : State) : (unblock u s).pending = s.pending := rfl
@[simp] theorem unblock_cur (u : Nat) (s : State) : (unblock u s).cur = s.cur := rfl
@[simp] theorem unblock_out (u : Nat) (s : State) : (unblock u s).out = s.out := rfl

@[simp] theorem createThread_cfg (g : Nat) (R : RegSet) (o : Option Nat) (s : State) : (createThread g R o s).cfg = s.cfg := rfl
@[simp] theorem createThread_programs (g : Nat) (R : RegSet) (o : Option Nat) (s : State) : (createThread g R o s).programs = s.programs := rfl
@[simp] theorem createThread_procs (g : Nat) (R : RegSet) (o : Option Nat) (s : State) : (createThread g R o s).procs = s.procs := rfl
@[simp] theorem createThread_caches (g : Nat) (R : RegSet) (o : Option Nat) (s : State) : (createThread g R o s).caches = s.caches := rfl
@[simp] theorem createThread_mem (g : Nat) (R : RegSet) (o : Option Nat) (s : State) : (createThread g R o s).mem = s.mem := rfl
@[simp] theorem createThread_bus (g : Nat) (R : RegSet) (o : Option Nat) (s : State) : (createThread g R o s).bus = s.bus := rfl
@[simp] theorem createThread_threads (g : Nat) (R : RegSet) (o : Option Nat) (s : State) : (createThread g R o s).threads = s.threads ++ [newThread s g R o] := rfl
@[simp] theorem createThread_ready (g : Nat) (R : RegSet) (o : Option Nat) (s : State) : (createThread g R o s).ready = s.ready ++ [s.threadCounter] := rfl
@[simp] theorem createThread_locks (g : Nat) (R : RegSet) (o : Option Nat) (s : State) : (createThread g R o s).locks = s.locks := rfl
@[simp] theorem createThread_barriers (g : Nat) (R : RegSet) (o : Option Nat) (s : State) : (createThread g R o s).barriers = s.barriers := rfl
@[simp] theorem createThread_clock (g : Nat) (R : RegSet) (o : Option Nat) (s : State) : (createThread g R o s).clock = s.clock := rfl
@[simp] theorem createThread_switches (g : Nat) (R : RegSet) (o : Option Nat) (s : State) : (createThread g R o s).switches = s.switches := rfl
@[simp] theorem createThread_threadCounter (g : Nat) (R : RegSet) (o : Option Nat) (s : State) : (createThread g R o s).threadCounter = s.threadCounter + 1 := rfl
@[simp] theorem createThread_vm (g : Nat) (R : RegSet) (o : Option Nat) (s : State) : (createThread g R o s).vm = s.vm := rfl
@[simp] theorem createThread_faults (g : Nat) (R : RegSet) (o : Option Nat) (s : State) : (createThread g R o s).faults = s.faults := rfl
@[simp] theorem createThread_pending (g : Nat) (R : RegSet) (o : Option Nat) (s : State) : (createThread g R o s).pending = s.pending := rfl
@[simp] theorem createThread_cur (g : Nat) (R : RegSet) (o : Option Nat) (s : State) : (createThread g R o s).cur = s.cur := rfl
@[simp] theorem createThread_out (g : Nat) (R : RegSet) (o : Option Nat) (s : State) : (createThread g R o s).out = s.out := rfl

@[simp] theorem readReg_writeReg_same (R : RegSet) (i : Reg) (v : Word) : readReg (writeReg R i v) i = v := by
  simp [readReg, writeReg]

@[simp] theorem readReg_writeReg_other (R : RegSet) (i j : Reg) (v : Word) (h : i ≠ j) :
    readReg (writeReg R i v) j = readReg R j := by
  simp only [readReg, writeReg, Fin.getElem_fin]
  exact Vector.getElem_set_ne _ _ (fun e => h (Fin.ext e))

@[simp] theorem writeReg_pc (R : RegSet) (i : Reg) (v : Word) : (writeReg R i v).pc = R.pc := rfl
@[simp] theorem writeReg_flags (R : RegSet) (i : Reg) (v : Word) : (writeReg R i v).flags = R.flags := rfl
@[simp] theorem writeReg_priv (R : RegSet) (i : Reg) (v : Word) : (writeReg R i v).priv = R.priv := rfl
@[simp] theorem writePc_x (R : RegSet) (v : Word) : (writePc R v).x = R.x := rfl
@[simp] theorem writePc_pc (R : RegSet) (v : Word) : (writePc R v).pc = v := rfl
@[simp] theorem writePc_flags (R : RegSet) (v : Word) : (writePc R v).flags = R.flags := rfl
@[simp] theorem writePc_priv (R : RegSet) (v : Word) : (writePc R v).priv = R.priv := rfl

/-- The registers of a processor that exists. -/
theorem State.regsOf_eq {s : State} {p : Nat} {P : Proc} (h : s.procs[p]? = some P) : s.regsOf p = P.regs := by
  simp [State.regsOf, h]

end Sys2Proof.Machine
end

