-- ==== Sys2Proof/Laws/Bus.lean ====
section
/-! SUPPORT. The caches, the bus and the coherent paths: what each operation leaves alone, and that each keeps the
canonical form of main memory and the number of caches. -/

namespace Sys2Proof.Machine

/-- s' differs from s in the caches, main memory and the bus only. -/
def MemoryOnly (s s' : State) : Prop := s' = { s with caches := s'.caches, mem := s'.mem, bus := s'.bus }

theorem MemoryOnly.refl (s : State) : MemoryOnly s s := rfl

theorem MemoryOnly.trans {s s' s'' : State} (h : MemoryOnly s s') (h' : MemoryOnly s' s'') : MemoryOnly s s'' := by
  unfold MemoryOnly at *
  rw [h', h]

/-- What a memory operation has kept: everything but the caches, main memory and the bus, the canonical form of main
memory and the number of caches. -/
structure MemoryStep (s s' : State) : Prop where
  only   : MemoryOnly s s'
  wf     : s.mem.wf = true → s'.mem.wf = true
  caches : s'.caches.length = s.caches.length

theorem MemoryStep.refl (s : State) : MemoryStep s s := ⟨.refl s, id, rfl⟩

theorem MemoryStep.trans {s s' s'' : State} (h : MemoryStep s s') (h' : MemoryStep s' s'') : MemoryStep s s'' :=
  ⟨h.only.trans h'.only, fun w => h'.wf (h.wf w), h'.caches.trans h.caches⟩

/-- A memory operation leaves the configuration alone. -/
theorem MemoryStep.cfg {s s' : State} (h : MemoryStep s s') : s'.cfg = s.cfg := by rw [h.only]

/-- A memory operation leaves the processors alone. -/
theorem MemoryStep.procs {s s' : State} (h : MemoryStep s s') : s'.procs = s.procs := by rw [h.only]

/-- A memory operation leaves the threads alone. -/
theorem MemoryStep.threads {s s' : State} (h : MemoryStep s s') : s'.threads = s.threads := by rw [h.only]

/-- A memory operation leaves the Programs alone. -/
theorem MemoryStep.programs {s s' : State} (h : MemoryStep s s') : s'.programs = s.programs := by rw [h.only]

/-! ### One cache -/

@[simp] theorem putSlot_useCtr (k : Cache) (si w : Nat) (sl : CacheSlot) : (putSlot k si w sl).useCtr = k.useCtr := rfl

@[simp] theorem putSlot_sets_length (k : Cache) (si w : Nat) (sl : CacheSlot) :
    (putSlot k si w sl).sets.length = k.sets.length := by
  simp [putSlot]

/-- Set si' of a cache after slot w of set si was replaced. -/
theorem setOf_putSlot (k : Cache) (si si' w : Nat) (sl : CacheSlot) :
    setOf (putSlot k si w sl) si' = if si' = si then (setOf k si).set w sl else setOf k si' := by
  simp only [setOf, putSlot, List.getD_eq_getElem?_getD, List.getElem?_modify]
  rcases eq_or_ne si si' with rfl | h
  · cases k.sets[si]? <;> simp
  · simp [h, Ne.symm h]

/-- Every set keeps its number of ways. -/
theorem setOf_putSlot_length (k : Cache) (si si' w : Nat) (sl : CacheSlot) :
    (setOf (putSlot k si w sl) si').length = (setOf k si').length := by
  rw [setOf_putSlot]
  split
  · subst_vars
    simp
  · rfl

/-- The way `Lookup` answers exists and holds the line (46_cache_ops.md R281). -/
theorem lookup_some {c : Config} {k : Cache} {a w : Nat} (h : lookup c k a = some w) :
    ∃ hw : w < (setOf k (setIndex c a)).length,
      (setOf k (setIndex c a))[w].state ≠ .invalid ∧ (setOf k (setIndex c a))[w].addr = lineAddr c a := by
  obtain ⟨hw, hl, _⟩ := List.findIdx?_eq_some_iff_getElem.1 h
  refine ⟨hw, ?_⟩
  simpa [holdsLine] using hl

/-- When `Lookup` finds nothing, no slot of the line's set holds it (46_cache_ops.md R281). -/
theorem lookup_none {c : Config} {k : Cache} {a : Nat} (h : lookup c k a = none) :
    ∀ sl ∈ setOf k (setIndex c a), sl.state = .invalid ∨ sl.addr ≠ lineAddr c a := by
  intro sl hs
  have := (List.findIdx?_eq_none_iff.1 h) sl hs
  simp only [holdsLine, Bool.and_eq_false_iff, bne_eq_false_iff_eq, beq_eq_false_iff_ne] at this
  exact this

/-- The slot read at a way that exists. -/
theorem slotOf_eq {k : Cache} {si w : Nat} (h : w < (setOf k si).length) : slotOf k si w = (setOf k si)[w] := by
  simp [slotOf, List.getD_eq_getElem?_getD, h]

/-- `Lookup` depends on the line only. -/
theorem lookup_congr {c : Config} {k : Cache} {a b : Nat} (hs : setIndex c a = setIndex c b)
    (hl : lineAddr c a = lineAddr c b) : lookup c k a = lookup c k b := by
  simp [lookup, hs, hl]

/-! ### Snoops and the bus side of a request -/

@[simp] theorem snoopRead_length (c : Config) (la pid : Nat) (ks : List Cache) :
    ∀ (q : Nat) (acc : SnoopAcc), (snoopRead c la pid q ks acc).1.length = ks.length := by
  induction ks with
  | nil => intros; rfl
  | cons k ks ih => intro q acc; simp only [snoopRead]; split <;> simp [ih]

@[simp] theorem snoopExclusive_length (c : Config) (la pid : Nat) (ks : List Cache) :
    ∀ (q : Nat) (acc : Memory × Option (List Word)), (snoopExclusive c la pid q ks acc).1.length = ks.length := by
  induction ks with
  | nil => intros; rfl
  | cons k ks ih => intro q acc; simp only [snoopExclusive]; split <;> simp [ih]

@[simp] theorem snoopInvalidate_length (c : Config) (la pid : Nat) (ks : List Cache) :
    ∀ q : Nat, (snoopInvalidate c la pid q ks).length = ks.length := by
  induction ks with
  | nil => intros; rfl
  | cons k ks ih => intro q; simp [snoopInvalidate, ih]

/-- Folding one reply into a READ_SHARED keeps the canonical form of main memory. -/
theorem snoopReadReply_wf {la : Nat} {acc : SnoopAcc} (r : Option (List Word × Bool)) (h : acc.mem.wf = true) :
    (snoopReadReply la acc r).mem.wf = true := by
  rcases r with _ | ⟨d, b⟩
  · exact h
  · cases b
    · exact h
    · exact memLineWrite_wf d la h

/-- The snoops of READ_SHARED keep the canonical form of main memory. -/
theorem snoopRead_wf (c : Config) (la pid : Nat) (ks : List Cache) :
    ∀ (q : Nat) (acc : SnoopAcc), acc.mem.wf = true → (snoopRead c la pid q ks acc).2.mem.wf = true := by
  induction ks with
  | nil => intro _ _ h; exact h
  | cons k ks ih =>
    intro q acc h
    simp only [snoopRead]
    split
    · exact ih _ _ h
    · exact ih _ _ (snoopReadReply_wf _ h)

/-- Folding one reply into a READ_EXCLUSIVE keeps the canonical form of main memory. -/
theorem snoopExclusiveReply_wf {la : Nat} {acc : Memory × Option (List Word)} (r : ExclusiveReply)
    (h : acc.1.wf = true) : (snoopExclusiveReply la acc r).1.wf = true := by
  cases r with
  | notHeld => exact h
  | heldClean => exact h
  | heldDirty d => exact memLineWrite_wf d la h

/-- The snoops of READ_EXCLUSIVE keep the canonical form of main memory. -/
theorem snoopExclusive_wf (c : Config) (la pid : Nat) (ks : List Cache) :
    ∀ (q : Nat) (acc : Memory × Option (List Word)), acc.1.wf = true →
      (snoopExclusive c la pid q ks acc).2.1.wf = true := by
  induction ks with
  | nil => intro _ _ h; exact h
  | cons k ks ih =>
    intro q acc h
    simp only [snoopExclusive]
    split
    · exact ih _ _ h
    · exact ih _ _ (snoopExclusiveReply_wf _ h)

/-- The bus side of any request is a memory operation. -/
theorem busSide_step (op : BusOp) (la pid : Nat) (payload : Option (List Word)) (s : State) :
    MemoryStep s (busSide op la pid payload s).2 := by
  cases op with
  | readShared => exact ⟨rfl, fun h => snoopRead_wf _ _ _ _ _ _ h, by simp [busSide, busReadShared]⟩
  | readExclusive => exact ⟨rfl, fun h => snoopExclusive_wf _ _ _ _ _ _ h, by simp [busSide, busReadExclusive]⟩
  | writeBack =>
    cases payload with
    | none => exact .refl s
    | some d => exact ⟨rfl, fun h => memLineWrite_wf d la h, rfl⟩
  | invalidate => exact ⟨rfl, id, by simp [busSide, busInvalidate]⟩

/-- No request touches the bus but by its own submission. -/
@[simp] theorem busSide_bus (op : BusOp) (la pid : Nat) (payload : Option (List Word)) (s : State) :
    (busSide op la pid payload s).2.bus = s.bus := by
  cases op with
  | writeBack => cases payload <;> rfl
  | _ => rfl

/-- A submission is a memory operation. -/
theorem submit_step (op : BusOp) (la pid : Nat) (tid : Option Nat) (payload : Option (List Word)) (s : State) :
    MemoryStep s (submit op la pid tid payload s).2 := by
  have h := busSide_step op la pid payload { s with bus := countRequest op s.bus }
  refine ⟨?_, h.wf, h.caches⟩
  have := h.only
  simp only [MemoryOnly, submit] at *
  rw [this]

/-- The bus after a submission: the request counted and queued (47_bus_ops.md R321, R326). -/
theorem submit_bus (op : BusOp) (la pid : Nat) (tid : Option Nat) (payload : Option (List Word)) (s : State) :
    (submit op la pid tid payload s).2.bus =
      { countRequest op s.bus with
        queue := s.bus.queue ++
          [⟨op, la, pid, tid, payload, false, (submit op la pid tid payload s).1, s.cfg.busLatency⟩] } := by
  simp only [submit, busSide_bus]
  cases op <;> rfl

/-! ### The coherent paths -/

theorem putCache_step (s : State) (p : Nat) (k : Cache) : MemoryStep s (s.putCache p k) :=
  ⟨rfl, id, by simp [State.putCache]⟩

theorem install_step (p la : Nat) (data : List Word) (st : Mesi) (tid : Option Nat) (s : State) :
    MemoryStep s (install p la data st tid s) := by
  simp only [install]
  split
  · split
    · exact (putCache_step _ _ _).trans (submit_step _ _ _ _ _ _)
    · exact putCache_step _ _ _
  · exact putCache_step _ _ _

theorem writeLooked_step (p a : Nat) (f : Cache → Nat → CacheSlot → Cache) (s : State) :
    MemoryStep s (writeLooked p a f s) := by
  simp only [writeLooked]
  split
  · exact putCache_step _ _ _
  · exact .refl s

/-- `DataRead` is a memory operation. -/
theorem dataRead_step (p : Nat) (tid : Option Nat) (a : Nat) (s : State) : MemoryStep s (dataRead p tid a s).2 := by
  simp only [dataRead]
  split
  · simp only [coherentRead]
    split
    · exact putCache_step _ _ _
    · exact (submit_step _ _ _ _ _ _).trans (install_step _ _ _ _ _ _)
  · exact .refl s

/-- `DataWrite` is a memory operation. -/
theorem dataWrite_step (p : Nat) (tid : Option Nat) (a : Nat) (v : Word) (s : State) :
    MemoryStep s (dataWrite p tid a v s) := by
  simp only [dataWrite]
  split
  · simp only [coherentWrite]
    split
    · exact putCache_step _ _ _
    · exact (submit_step _ _ _ _ _ _).trans (writeLooked_step _ _ _ _)
    · exact ((submit_step _ _ _ _ _ _).trans (install_step _ _ _ _ _ _)).trans (writeLooked_step _ _ _ _)
  · exact ⟨rfl, fun h => memWriteWord_wf _ _ h, rfl⟩

/-- Writing back one slot keeps the canonical form of main memory. -/
theorem flushSlot_wf {m : Memory} (sl : CacheSlot) (h : m.wf = true) : (flushSlot m sl).wf = true := by
  simp only [flushSlot]
  split
  · exact memLineWrite_wf _ _ h
  · exact h

/-- Writing back one cache keeps the canonical form of main memory. -/
theorem flushCache_wf {m : Memory} (k : Cache) (h : m.wf = true) : (flushCache m k).wf = true := by
  have hset : ∀ (set : List CacheSlot) (m : Memory), m.wf = true → (set.foldl flushSlot m).wf = true := by
    intro set
    induction set with
    | nil => intro m h; exact h
    | cons sl set ih => intro m h; exact ih _ (flushSlot_wf sl h)
  simp only [flushCache]
  generalize k.sets = sets
  induction sets generalizing m with
  | nil => exact h
  | cons set sets ih => exact ih (hset set m h)

/-- `FlushAll` is a memory operation. -/
theorem flushAll_step (s : State) : MemoryStep s (flushAll s) := by
  simp only [flushAll]
  split
  · refine ⟨rfl, fun h => ?_, rfl⟩
    show (s.caches.foldl flushCache s.mem).wf = true
    generalize s.mem = m at h ⊢
    induction s.caches generalizing m with
    | nil => exact h
    | cons k ks ih => exact ih _ (flushCache_wf k h)
  · exact .refl s

/-! ### The tick (47_bus_ops.md R322) -/

/-- The queue after a tick of a queue in two parts. -/
theorem tick_append (b : Bus) (q q' : List BusRequest) :
    (tick { b with queue := q ++ q' }).1 = (tick { b with queue := q }).1 ++ (tick { b with queue := q' }).1 ∧
      (tick { b with queue := q ++ q' }).2.queue =
        (tick { b with queue := q }).2.queue ++ (tick { b with queue := q' }).2.queue := by
  simp [tick]

/-- A tick touches no statistic. -/
theorem tick_counts (b : Bus) :
    (tick b).2.totalRequests = b.totalRequests ∧ (tick b).2.readRequests = b.readRequests ∧
      (tick b).2.writeRequests = b.writeRequests ∧ (tick b).2.invalidationRequests = b.invalidationRequests :=
  ⟨rfl, rfl, rfl, rfl⟩

end Sys2Proof.Machine
end

