-- ==== Sys2Proof/Laws/Exec.lean ====
section
/-! SUPPORT. One call on the processor `cur`: every instruction is `issue` of its rule, what `issue` answers, and what
an accepting call that emits its effects gives. -/

namespace Sys2Proof.Machine

/-- The rule an instruction dispatches to. -/
def ruleOf : Instr → CallEnv → Proc → Dispatch
  | .add _ rd a b => computeRule aluAdd rd a b
  | .sub _ rd a b => computeRule aluSub rd a b
  | .mul _ rd a b => computeRule aluMul rd a b
  | .div _ rd a b => divRule rd a b
  | .and _ rd a b => computeRule aluAnd rd a b
  | .or _ rd a b => computeRule aluOr rd a b
  | .xor _ rd a b => computeRule aluXor rd a b
  | .shl _ rd a b => computeRule aluShl rd a b
  | .shr _ rd a b => computeRule aluShr rd a b
  | .load _ rd src => loadRule rd src
  | .store _ rs a => storeRule rs a
  | .push _ rs => pushRule rs
  | .pop _ rd => popRule rd
  | .jmp _ t => transfer .jmp t
  | .jz _ t => branchRule .jz flagZero t
  | .jnz _ t => branchRule .jnz (fun f => !flagZero f) t
  | .call _ t => callRule t
  | .ret _ => retRule
  | .lock _ l => emitRule fun r => [.syncLock (srcValue r l)]
  | .unlock _ l => emitRule fun r => [.syncUnlock (srcValue r l)]
  | .fence _ => emitRule fun _ => [.fence]
  | .cas _ a e n rd => casRule a e n rd
  | .barrier _ b n => emitRule fun r => [.barrier (srcValue r b) (srcValue r n)]
  | .halt _ => emitRule fun _ => [.halt]
  | .yield _ => emitRule fun _ => [.yield]
  | .syscall _ n => emitRule fun r => [.syscall (srcValue r n)]
  | .nop _ => emitRule fun _ => []
  | .spawn _ f a rd => emitRule fun r => [.spawn f (spawnArgValue r a) rd]
  | .join _ t => joinRule t

/-- Every instruction is `issue` of its rule. -/
theorem exec_eq_issue (i : Instr) (s : State) : exec i s = issue i.hdr (ruleOf i) s := by
  cases i <;> rfl

/-- The privilege check refuses exactly the blocked records (40_pipeline.md R153). -/
theorem privBlocked_iff (h : Hdr) (P : Proc) : privBlocked h P = true ↔ Blocked h P := by
  cases hp : P.regs.priv <;> simp [privBlocked, Blocked, privilegeCode, hp]

/-- A record that may run is not blocked. -/
theorem privBlocked_of_mayRun {h : Hdr} {P : Proc} (m : MayRun h P) : privBlocked h P = false := by
  rw [← Bool.not_eq_true, privBlocked_iff]
  rintro ⟨h1, h2, h3⟩
  exact h3 (m.2 h1 h2)

/-- All that `issue` can answer with a next state: the privilege fault, or the dispatch of the rule. -/
theorem issue_next {h : Hdr} {rule : CallEnv → Proc → Dispatch} {s s' : State} (e : issue h rule s = .next s') :
    ∃ P t T, Running s P t T ∧ h.lat ≠ 0 ∧
      ((Blocked h P ∧ s' = takeFault s.cur t .privilegeViolation (s.putProc s.cur (silent P))) ∨
        (¬ Blocked h P ∧ s' = dispatchOn h rule P t s)) := by
  simp only [issue] at e
  split at e
  · cases e
  rename_i P hP
  split at e
  · cases e
  rename_i t ht
  split at e
  · cases e
  rename_i T hT
  refine ⟨P, t, T, ⟨hP, ht, hT⟩, ?_⟩
  split at e
  · cases e
  rename_i hl
  refine ⟨hl, ?_⟩
  split at e
  · rename_i hb
    exact .inl ⟨(privBlocked_iff h P).1 hb, (Host.Outcome.next.inj e).symm⟩
  · rename_i hb
    exact .inr ⟨fun b => hb ((privBlocked_iff h P).2 b), (Host.Outcome.next.inj e).symm⟩

/-- An accepted call dispatches its rule. -/
theorem issue_accepted {h : Hdr} (rule : CallEnv → Proc → Dispatch) {s : State} {P : Proc} {t : Nat} {T : Thread}
    (r : Running s P t T) (m : MayRun h P) : issue h rule s = .next (dispatchOn h rule P t s) := by
  have hl : h.lat ≠ 0 := by have := m.1; omega
  simp [issue, r.proc, r.thread, r.record, hl, privBlocked_of_mayRun m]

/-- A refused call takes the privilege fault and nothing else. -/
theorem issue_blocked {h : Hdr} (rule : CallEnv → Proc → Dispatch) {s : State} {P : Proc} {t : Nat} {T : Thread}
    (r : Running s P t T) (hl : h.lat ≠ 0) (b : Blocked h P) :
    issue h rule s = .next (takeFault s.cur t .privilegeViolation (s.putProc s.cur (silent P))) := by
  simp [issue, r.proc, r.thread, r.record, hl, (privBlocked_iff h P).2 b]

/-- Dispatch of a rule that completes: the processor as the rule and the call leave it, the accepted instruction
counted, then the effects. -/
theorem dispatchOn_done {h : Hdr} {rule : CallEnv → Proc → Dispatch} {s : State} {P Q : Proc} {t : Nat} {next : Word}
    {es : List Effect} (e : rule (callEnv s t) (accept h P) = .done Q next es) :
    dispatchOn h rule P t s = resolveAll s.cur t es (called s t (finishCall Q next es)) := by
  simp only [dispatchOn, e, called, countExec, State.putProc, State.modThread]
  congr 1
  simp only [List.set_set]
  rfl

/-- Dispatch of a rule that faults. -/
theorem dispatchOn_raise {h : Hdr} {rule : CallEnv → Proc → Dispatch} {s : State} {P : Proc} {t : Nat}
    {f : ThreadFault} (e : rule (callEnv s t) (accept h P) = .raise f) :
    dispatchOn h rule P t s = takeFault s.cur t f (called s t (acceptedFault h P)) := by
  simp only [dispatchOn, e]
  rfl

/-- What `AddrCheck` answers (20_memory.md R78). -/
theorem addrCheck_eq_none {m : Nat} {a : Word} : addrCheck m a = none ↔ a.toNat % 4 = 0 ∧ a.toNat + 4 ≤ m := by
  simp only [addrCheck]
  split
  · simp_all
  · split <;> simp_all

/-- An accessible address passes the check. -/
theorem addrCheck_of_accessible {s : State} {a : Word} (h : Accessible s a) : addrCheck s.cfg.memSize a = none :=
  addrCheck_eq_none.2 h

end Sys2Proof.Machine
end

