-- ==== Sys2Proof/Laws/Ops.lean ====
section
/-! SUPPORT. The shared operations over processors, threads and locks: what each gives, in the terms of Safety.lean. -/

namespace Sys2Proof.Machine

/-! ### Ascending lists of thread ids -/

@[simp] theorem mem_insertId (t u : Nat) (us : List Nat) : u ∈ insertId t us ↔ u = t ∨ u ∈ us := by
  induction us with
  | nil => simp [insertId]
  | cons v vs ih =>
    simp only [insertId]
    split
    · simp
    · split
      · subst_vars
        simp
      · simp only [List.mem_cons, ih]
        tauto

@[simp] theorem mem_sortIds (u : Nat) (us : List Nat) : u ∈ sortIds us ↔ u ∈ us := by
  induction us with
  | nil => simp [sortIds]
  | cons v vs ih =>
    simp only [sortIds, List.foldr_cons] at ih ⊢
    simp [ih]

/-- Insertion keeps a list ascending. -/
theorem insertId_ascending {t : Nat} {us : List Nat} (h : us.Pairwise (· < ·)) :
    (insertId t us).Pairwise (· < ·) := by
  induction us with
  | nil => simp [insertId]
  | cons v vs ih =>
    obtain ⟨hv, hvs⟩ := List.pairwise_cons.1 h
    simp only [insertId]
    split
    · rename_i htv
      exact List.pairwise_cons.2 ⟨fun x hx => by
        rcases List.mem_cons.1 hx with rfl | hx
        · exact htv
        · exact htv.trans (hv x hx), h⟩
    · split
      · exact h
      · rename_i h1 h2
        refine List.pairwise_cons.2 ⟨fun x hx => ?_, ih hvs⟩
        rcases (mem_insertId t x vs).1 hx with rfl | hx
        · omega
        · exact hv x hx

/-- Inserting an id that is not there adds one entry. -/
theorem insertId_perm {t : Nat} {us : List Nat} (h : t ∉ us) : (insertId t us).Perm (t :: us) := by
  induction us with
  | nil => simp [insertId]
  | cons v vs ih =>
    simp only [List.mem_cons, not_or] at h
    simp only [insertId]
    split
    · exact List.Perm.refl _
    · rw [if_neg h.1]
      exact ((ih h.2).cons v).trans (List.Perm.swap t v vs)

/-! ### Leaving a processor, waking, switching in -/

/-- What taking a thread off its processor gives. -/
theorem takeOff_eq_leaving {s : State} {p : Nat} {P : Proc} (h : s.procs[p]? = some P) (t : Nat) (st : ThreadState) :
    takeOff p t st s = leaving p t st P s := by
  obtain ⟨hp, rfl⟩ := List.getElem?_eq_some_iff.1 h
  simp [takeOff, leaving, State.modThread, State.modProc, State.regsOf_eq h, List.modify_eq_set_getElem?, h]

/-- Waking nobody. -/
@[simp] theorem woken_nil (ts : List Thread) : woken [] ts = ts := by
  apply List.ext_getElem?
  intro u
  simp [woken, List.getElem?_mapIdx]

/-- Entry u of the thread table after the threads us became READY. -/
theorem woken_getElem? (us : List Nat) (ts : List Thread) (u : Nat) :
    (woken us ts)[u]? = ts[u]?.map fun U => if u ∈ us then { U with state := .ready } else U := by
  simp [woken, List.getElem?_mapIdx]

@[simp] theorem woken_length (us : List Nat) (ts : List Thread) : (woken us ts).length = ts.length := by
  simp [woken]

/-- What `unblock` gives. -/
theorem unblock_eq (u : Nat) (s : State) :
    unblock u s = { s with threads := woken [u] s.threads, ready := s.ready ++ [u] } := by
  simp only [unblock, State.modThread, State.mk.injEq, true_and, and_true]
  apply List.ext_getElem?
  intro v
  rw [woken_getElem?, List.getElem?_modify]
  rcases eq_or_ne u v with rfl | h
  · simp
  · simp [h, Ne.symm h]

/-- Waking in two goes. -/
theorem woken_woken (us vs : List Nat) (ts : List Thread) : woken vs (woken us ts) = woken (us ++ vs) ts := by
  apply List.ext_getElem?
  intro u
  rw [woken_getElem?, woken_getElem?, woken_getElem?]
  cases ts[u]? with
  | none => rfl
  | some U => by_cases h1 : u ∈ us <;> by_cases h2 : u ∈ vs <;> simp [h1, h2]

/-- What unblocking a list of threads gives. -/
theorem unblockAll_eq (us : List Nat) (s : State) :
    unblockAll us s = { s with threads := woken us s.threads, ready := s.ready ++ us } := by
  induction us generalizing s with
  | nil => simp [unblockAll]
  | cons u us ih =>
    have : unblockAll (u :: us) s = unblockAll us (unblock u s) := rfl
    rw [this, ih, unblock_eq]
    simp [woken_woken]

/-- A thread that does not exist is not switched in. -/
theorem switchIn_none {s : State} {t : Nat} (h : s.threads[t]? = none) (p : Nat) : switchIn p t s = s := by
  simp [switchIn, h]

/-- Switching in changes the processor, the thread's record and the switch counter only. -/
theorem switchIn_some {s : State} {t : Nat} {T : Thread} (h : s.threads[t]? = some T) (p : Nat) :
    switchIn p t s = { s with
      procs := s.procs.modify p (switchedIn t T.ctx)
      threads := s.threads.modify t fun T => { T with state := .running, proc := some p }
      switches := s.switches + 1 } := by
  simp only [switchIn, h, State.modProc, State.modThread]
  rfl

/-! ### Locks -/

/-- What releasing every lock t holds gives: the table, and the threads handed a lock. -/
theorem releaseHeld_eq (t : Nat) (ls : List Lock) : releaseHeld t ls = (ls.map (passedOn t), handoffs t ls) := by
  induction ls with
  | nil => simp [releaseHeld, handoffs]
  | cons l ls ih =>
    simp only [releaseHeld, ih, handoffs, List.map_cons, passedOn]
    by_cases h : l.holder = some t
    · obtain ⟨id, hd, q⟩ := l
      simp only at h
      subst h
      cases q with
      | nil => simp [releaseLock]
      | cons n q => simp [releaseLock]
    · simp [h]

/-- The lock put is the lock found. -/
theorem findLock_putLock_same (l : Lock) (ls : List Lock) : findLock l.id (putLock l ls) = some l := by
  induction ls with
  | nil => simp [putLock, findLock]
  | cons k ks ih =>
    simp only [putLock]
    split
    · simp [findLock]
    · split
      · simp [findLock]
      · rename_i h
        simp only [findLock, List.find?_cons] at ih ⊢
        rw [show (k.id == l.id) = false by simpa using fun e => h e.symm]
        exact ih

/-- Putting a lock leaves the lock with any other id alone. -/
theorem findLock_putLock_other {l : Lock} {id : Word} (h : id ≠ l.id) (ls : List Lock) :
    findLock id (putLock l ls) = findLock id ls := by
  have hl : (l.id == id) = false := by simpa using fun e => h e.symm
  induction ls with
  | nil => simp [putLock, findLock, hl]
  | cons k ks ih =>
    simp only [putLock]
    split
    · simp [findLock, hl]
    · split
      · rename_i e
        have hk : (k.id == id) = false := by rw [← e]; exact hl
        simp [findLock, hl, hk]
      · simp only [findLock, List.find?_cons] at ih ⊢
        rw [ih]

/-- The barrier put is the barrier found. -/
theorem findBarrier_putBarrier_same (b : Barrier) (bs : List Barrier) :
    findBarrier b.id (putBarrier b bs) = some b := by
  induction bs with
  | nil => simp [putBarrier, findBarrier]
  | cons k ks ih =>
    simp only [putBarrier]
    split
    · simp [findBarrier]
    · split
      · simp [findBarrier]
      · rename_i h
        simp only [findBarrier, List.find?_cons] at ih ⊢
        rw [show (k.id == b.id) = false by simpa using fun e => h e.symm]
        exact ih

/-- Putting a barrier leaves the barrier with any other id alone. -/
theorem findBarrier_putBarrier_other {b : Barrier} {id : Word} (h : id ≠ b.id) (bs : List Barrier) :
    findBarrier id (putBarrier b bs) = findBarrier id bs := by
  have hb : (b.id == id) = false := by simpa using fun e => h e.symm
  induction bs with
  | nil => simp [putBarrier, findBarrier, hb]
  | cons k ks ih =>
    simp only [putBarrier]
    split
    · simp [findBarrier, hb]
    · split
      · rename_i e
        have hk : (k.id == id) = false := by rw [← e]; exact hb
        simp [findBarrier, hb, hk]
      · simp only [findBarrier, List.find?_cons] at ih ⊢
        rw [ih]

/-- A lock found has the id asked for. -/
theorem findLock_id {id : Word} {ls : List Lock} {l : Lock} (h : findLock id ls = some l) : l.id = id := by
  simpa using List.find?_some h

/-- A barrier found has the id asked for. -/
theorem findBarrier_id {id : Word} {bs : List Barrier} {b : Barrier} (h : findBarrier id bs = some b) : b.id = id := by
  simpa using List.find?_some h

/-! ### Termination -/

/-- The threads a termination of t wakes, in their order. -/
def wakes (t : Nat) (s : State) : List Nat := handoffs t s.locks ++ joinersOf t s

/-- What terminating a thread gives, one operation after the other. -/
theorem terminate_eq {s : State} {p : Nat} {P : Proc} (h : s.procs[p]? = some P) (t : Nat) :
    terminate p t s =
      State.modThread
        { leaving p t .terminated P s with
          threads := woken (wakes t s) (leaving p t .terminated P s).threads
          ready := s.ready ++ wakes t s
          locks := s.locks.map (passedOn t) }
        t fun T => { T with joiners := [] } := by
  have hj : ∀ u : List Nat, joinersOf t (unblockAll u { leaving p t .terminated P s with
      locks := s.locks.map (passedOn t) }) = joinersOf t s := by
    intro u
    simp only [joinersOf, unblockAll_eq, woken_getElem?, leaving, List.getElem?_modify]
    cases s.threads[t]? with
    | none => simp
    | some T => by_cases ht : t ∈ u <;> simp [ht]
  have hl : (leaving p t .terminated P s).locks = s.locks := rfl
  simp only [terminate, takeOff_eq_leaving h, releaseHeld_eq, hl, hj]
  simp only [unblockAll_eq, woken_woken, wakes, State.modThread, leaving, List.append_assoc]

end Sys2Proof.Machine
end

