-- ==== Sys2Proof/Laws/Driver.lean ====
section
/-! SUPPORT. One turn and one step: every way they can give a next state, what a call leaves alone, and the inductions
over the scheduler and over the turns packaged once. -/

namespace Sys2Proof.Machine

/-! ### What one call leaves alone -/

/-- s' comes from s by operations of one call on processor p: the configuration, the Programs, the clock, the switch
counter, the VM state and every other processor are as before, and main memory keeps its form. -/
structure CallStep (p : Nat) (s s' : State) : Prop where
  cfg      : s'.cfg = s.cfg
  programs : s'.programs = s.programs
  clock    : s'.clock = s.clock
  switches : s'.switches = s.switches
  vm       : s'.vm = s.vm
  cur      : s'.cur = s.cur
  out      : s'.out = s.out
  wf       : s.mem.wf = true → s'.mem.wf = true
  caches   : s'.caches.length = s.caches.length
  length   : s'.procs.length = s.procs.length
  others   : ∀ q, q ≠ p → s'.procs[q]? = s.procs[q]?

theorem CallStep.refl (p : Nat) (s : State) : CallStep p s s := by
  constructor <;> first | rfl | exact id | exact fun _ _ => rfl

theorem CallStep.trans {p : Nat} {s s' s'' : State} (h : CallStep p s s') (h' : CallStep p s' s'') :
    CallStep p s s'' where
  cfg := h'.cfg.trans h.cfg
  programs := h'.programs.trans h.programs
  clock := h'.clock.trans h.clock
  switches := h'.switches.trans h.switches
  vm := h'.vm.trans h.vm
  cur := h'.cur.trans h.cur
  out := h'.out.trans h.out
  wf w := h'.wf (h.wf w)
  caches := h'.caches.trans h.caches
  length := h'.length.trans h.length
  others q hq := (h'.others q hq).trans (h.others q hq)

/-- A memory operation is one a call may make. -/
theorem MemoryStep.call {s s' : State} (h : MemoryStep s s') (p : Nat) : CallStep p s s' := by
  obtain ⟨only, wf, caches⟩ := h
  rw [only] at wf ⊢
  exact ⟨rfl, rfl, rfl, rfl, rfl, rfl, rfl, wf, by simpa using caches, rfl, fun _ _ => rfl⟩

/-- Changing processor p, threads, queues and logs is what a call may do. -/
theorem callStep_of {p : Nat} {s s' : State} (h : s' = { s with
      procs := s'.procs, threads := s'.threads, ready := s'.ready, locks := s'.locks, barriers := s'.barriers
      threadCounter := s'.threadCounter, faults := s'.faults, pending := s'.pending })
    (hl : s'.procs.length = s.procs.length) (ho : ∀ q, q ≠ p → s'.procs[q]? = s.procs[q]?) : CallStep p s s' := by
  rw [h]
  exact ⟨rfl, rfl, rfl, rfl, rfl, rfl, rfl, id, rfl, hl, ho⟩

theorem modProc_call (p : Nat) (f : Proc → Proc) (s : State) : CallStep p s (s.modProc p f) :=
  callStep_of rfl (by simp) fun q hq => by simp [Ne.symm hq]

theorem modRegs_call (p : Nat) (f : RegSet → RegSet) (s : State) : CallStep p s (s.modRegs p f) := modProc_call p _ s

theorem modThread_call (p t : Nat) (f : Thread → Thread) (s : State) : CallStep p s (s.modThread t f) :=
  callStep_of rfl rfl fun _ _ => rfl

theorem putProc_call (p : Nat) (P : Proc) (s : State) : CallStep p s (s.putProc p P) :=
  callStep_of rfl (by simp) fun q hq => by simp [Ne.symm hq]

theorem takeOff_call (p t : Nat) (st : ThreadState) (s : State) : CallStep p s (takeOff p t st s) :=
  (modThread_call p t _ s).trans (modProc_call p _ _)

theorem unblockAll_call (p : Nat) (us : List Nat) (s : State) : CallStep p s (unblockAll us s) := by
  rw [unblockAll_eq]
  exact callStep_of rfl rfl fun _ _ => rfl

theorem terminate_call (p t : Nat) (s : State) : CallStep p s (terminate p t s) := by
  simp only [terminate]
  refine ((((takeOff_call p t .terminated s).trans ?_).trans (unblockAll_call p _ _)).trans
    (unblockAll_call p _ _)).trans (modThread_call p t _ _)
  exact callStep_of rfl rfl fun _ _ => rfl

theorem takeFault_call (p t : Nat) (f : ThreadFault) (s : State) : CallStep p s (takeFault p t f s) := by
  simp only [takeFault]
  refine CallStep.trans ?_ (terminate_call p t _)
  exact callStep_of rfl rfl fun _ _ => rfl

theorem vmFail_call (p t : Nat) (e : VmException) (info : Word) (s : State) : CallStep p s (vmFail p t e info s) := by
  simp only [vmFail]
  refine CallStep.trans ?_ (terminate_call p t _)
  exact callStep_of rfl rfl fun _ _ => rfl

theorem resolveReadPc_call (p t : Nat) (a : Word) (s : State) : CallStep p s (resolveReadPc p t a s) :=
  ((dataRead_step p _ a.toNat s).call p).trans (modProc_call p _ _)

theorem resolveCas_call (p : Nat) (a e n : Word) (r : Reg) (s : State) : CallStep p s (resolveCas p a e n r s) := by
  simp only [resolveCas]
  split
  · exact (((dataRead_step p _ a.toNat s).call p).trans ((dataWrite_step p _ _ n _).call p)).trans (modRegs_call p _ _)
  · exact ((dataRead_step p _ a.toNat s).call p).trans (modRegs_call p _ _)

theorem resolveLock_call (p t : Nat) (id : Word) (s : State) : CallStep p s (resolveLock p t id s) := by
  simp only [resolveLock]
  split
  · exact callStep_of rfl rfl fun _ _ => rfl
  · refine CallStep.trans ?_ (takeOff_call p t _ _)
    exact callStep_of rfl rfl fun _ _ => rfl

theorem resolveUnlock_call (p t : Nat) (id : Word) (s : State) : CallStep p s (resolveUnlock p t id s) := by
  simp only [resolveUnlock]
  split
  · exact vmFail_call _ _ _ _ _
  · split
    · refine CallStep.trans ?_ (unblockAll_call p _ _)
      exact callStep_of rfl rfl fun _ _ => rfl
    · exact vmFail_call _ _ _ _ _

theorem resolveBarrier_call (p t : Nat) (id n : Word) (s : State) : CallStep p s (resolveBarrier p t id n s) := by
  simp only [resolveBarrier]
  split
  · refine CallStep.trans ?_ (unblockAll_call p _ _)
    exact callStep_of rfl rfl fun _ _ => rfl
  · refine CallStep.trans ?_ (takeOff_call p t _ _)
    exact callStep_of rfl rfl fun _ _ => rfl

theorem resolveJoin_call (p t : Nat) (j : Word) (s : State) : CallStep p s (resolveJoin p t j s) := by
  simp only [resolveJoin]
  split
  · exact vmFail_call _ _ _ _ _
  · split
    · exact modProc_call p _ s
    · exact (modThread_call p _ _ s).trans (takeOff_call p t _ _)

theorem resolveSpawn_call (p t : Nat) (f arg : Word) (r : Reg) (s : State) :
    CallStep p s (resolveSpawn p t f arg r s) := by
  simp only [resolveSpawn]
  refine CallStep.trans ?_ (modRegs_call p _ _)
  exact callStep_of rfl rfl fun _ _ => rfl

/-- The resolution of any effect is what a call may do. -/
theorem resolve_call (p t : Nat) (e : Effect) (s : State) : CallStep p s (resolve p t e s) := by
  cases e with
  | registersModified rs => exact .refl p s
  | memoryRead a d =>
    cases d with
    | reg r =>
      simp only [resolve, resolveReadReg]
      exact ((dataRead_step p _ a.toNat s).call p).trans (modRegs_call p _ _)
    | pc => exact resolveReadPc_call p t a s
  | memoryWrite a v => exact (dataWrite_step p _ a.toNat v s).call p
  | ret => exact .refl p s
  | syncLock id => exact resolveLock_call p t id s
  | syncUnlock id => exact resolveUnlock_call p t id s
  | fence => exact .refl p s
  | cas a e n r => exact resolveCas_call p a e n r s
  | barrier id n => exact resolveBarrier_call p t id n s
  | halt => exact terminate_call p t s
  | yield =>
    have h : CallStep p (suspend p t s) (unblock t (suspend p t s)) := unblockAll_call p [t] (suspend p t s)
    exact (takeOff_call p t .waiting s).trans h
  | syscall n => exact .refl p s
  | spawn f a r => exact resolveSpawn_call p t f a r s
  | join j => exact resolveJoin_call p t j s

/-- The resolution of a list of effects is what a call may do. -/
theorem resolveAll_call (p t : Nat) (es : List Effect) (s : State) : CallStep p s (resolveAll p t es s) := by
  induction es generalizing s with
  | nil => exact .refl p s
  | cons e es ih => exact (resolve_call p t e s).trans (ih _)

/-- Dispatch of any rule is what a call may do. -/
theorem dispatchOn_call (h : Hdr) (rule : CallEnv → Proc → Dispatch) (P : Proc) (t : Nat) (s : State) :
    CallStep s.cur s (dispatchOn h rule P t s) := by
  simp only [dispatchOn]
  split
  · exact ((putProc_call s.cur _ s).trans (modThread_call s.cur t _ _)).trans (takeFault_call s.cur t _ _)
  · exact (((putProc_call s.cur _ s).trans (modThread_call s.cur t _ _)).trans (putProc_call s.cur _ _)).trans
      (resolveAll_call s.cur t _ _)

/-- An accepting call. -/
theorem issue_call {h : Hdr} {rule : CallEnv → Proc → Dispatch} {s s' : State} (e : issue h rule s = .next s') :
    CallStep s.cur s s' := by
  obtain ⟨P, t, T, _, _, ⟨_, rfl⟩ | ⟨_, rfl⟩⟩ := issue_next e
  · exact (putProc_call s.cur _ s).trans (takeFault_call s.cur t _ _)
  · exact dispatchOn_call h rule P t s

/-- An instruction. -/
theorem exec_call {i : Instr} {s s' : State} (e : exec i s = .next s') : CallStep s.cur s s' := by
  rw [exec_eq_issue] at e
  exact issue_call e

/-! ### One turn -/

/-- Every way a turn can give a next state (49_environment.md R351, 40_pipeline.md R160): the processor is not RUNNING; a
stall cycle; a fetch beyond the Program; an instruction; an invalid word. -/
theorem turn_next {p : Nat} {s s' : State} (e : turn p s = .next s') :
    (s' = s ∧ ∀ P, s.procs[p]? = some P → P.state ≠ .running) ∨
    ∃ P, s.procs[p]? = some P ∧ P.state = .running ∧
      ((0 < P.stall ∧ s' = { s with cur := p, procs := s.procs.set p (stallCycle P) }) ∨
       ∃ t T, P.stall = 0 ∧ Running { s with cur := p } P t T ∧
        ((progFetch s t P.regs.pc = none ∧
            s' = takeFault p t .fetchOutOfRange { s with cur := p, procs := s.procs.set p (silent P) }) ∨
         ∃ w, progFetch s t P.regs.pc = some w ∧
          ((∃ i, decode w = .ok i ∧ exec i { s with cur := p } = .next s') ∨
            ∃ d, decode w = .error d ∧ issueInvalid (rawHdr (unpack w)) d { s with cur := p } = .next s'))) := by
  simp only [turn] at e
  split at e
  · rename_i h
    exact .inl ⟨(Host.Outcome.next.inj e).symm, fun P hP => by rw [h] at hP; cases hP⟩
  rename_i P hP
  split at e
  swap
  · rename_i h
    exact .inl ⟨(Host.Outcome.next.inj e).symm, fun Q hQ => by rw [hP] at hQ; cases hQ; exact h⟩
  rename_i hr
  refine .inr ⟨P, hP, hr, ?_⟩
  simp only [cycle] at e
  split at e
  · rename_i hs
    exact .inl ⟨hs, (Host.Outcome.next.inj e).symm⟩
  rename_i hs
  split at e
  · cases e
  rename_i t ht
  split at e
  · cases e
  rename_i T hT
  refine .inr ⟨t, T, by omega, ⟨hP, ht, hT⟩, ?_⟩
  split at e
  · rename_i hf
    exact .inl ⟨hf, (Host.Outcome.next.inj e).symm⟩
  rename_i w hf
  refine .inr ⟨w, hf, ?_⟩
  simp only [runWord] at e
  split at e
  · rename_i i hd
    exact .inl ⟨i, hd, e⟩
  · rename_i d hd
    exact .inr ⟨d, hd, e⟩

/-! ### Inductions over the scheduler and the turns -/

/-- What `f` goes on with after a next state. -/
theorem andThen_next {o : Host.Outcome State Fault Refusal} {f : State → Host.Outcome State Fault Refusal} {s' : State}
    (e : andThen o f = .next s') : ∃ s, o = .next s ∧ f s = .next s' := by
  cases o with
  | next s => exact ⟨s, rfl, e⟩
  | fault r => cases e
  | refused r => cases e

/-- What every turn keeps, the turns keep. -/
theorem turns_keep {R : State → Prop} (ps : List Nat)
    (h : ∀ p ∈ ps, ∀ s s', R s → turn p s = .next s' → R s') :
    ∀ s s', R s → turns ps s = .next s' → R s' := by
  induction ps with
  | nil =>
    intro s s' hs e
    cases e
    exact hs
  | cons p ps ih =>
    intro s s' hs e
    obtain ⟨s1, e1, e2⟩ := andThen_next e
    exact ih (fun q hq => h q (by simp [hq])) s1 s' (h p (by simp) s s1 hs e1) e2

/-- The scheduler at one processor: nothing, or the head of the ready queue is switched in (49_environment.md R356). -/
theorem scheduleOn_cases (s : State) (p : Nat) :
    scheduleOn s p = s ∨ ∃ P t ts, s.procs[p]? = some P ∧ P.state = .idle ∧ s.ready = t :: ts ∧
      scheduleOn s p = switchIn p t { s with ready := ts } := by
  simp only [scheduleOn]
  split
  · exact .inl rfl
  rename_i P hP
  split
  swap
  · exact .inl rfl
  rename_i hi
  split
  · exact .inl rfl
  rename_i t ts hr
  exact .inr ⟨P, t, ts, hP, hi, hr, rfl⟩

/-- What the scheduler keeps at one processor, it keeps. -/
theorem scheduleThreads_keep {R : State → Prop} (h : ∀ p s, R s → R (scheduleOn s p)) (s : State) (hs : R s) :
    R (scheduleThreads s) := by
  simp only [scheduleThreads]
  generalize List.range s.cfg.nproc = ps
  induction ps generalizing s with
  | nil => exact hs
  | cons p ps ih => exact ih _ (h p s hs)

/-- The scheduler leaves the configuration alone. -/
@[simp] theorem scheduleOn_cfg (s : State) (p : Nat) : (scheduleOn s p).cfg = s.cfg := by
  rcases scheduleOn_cases s p with h | ⟨P, t, ts, _, _, _, h⟩
  · rw [h]
  · rw [h]
    simp only [switchIn]
    split <;> rfl

/-- The begin of a step leaves the configuration alone. -/
@[simp] theorem beginStep_cfg (s : State) : (beginStep s).cfg = s.cfg :=
  scheduleThreads_keep (R := fun s' => s'.cfg = s.cfg) (fun p s' h => (scheduleOn_cfg s' p).trans h) _ rfl

/-- Every way a step can give a next state (49_environment.md R351). -/
theorem step_next {s s' : State} (e : step s = .next s') :
    (s.vm = .finished ∧ s' = { s with out := { raised := none, stillRunning := false, ticked := [] } }) ∨
    (s.vm ≠ .finished ∧ ∃ s1, turns (List.range s.cfg.nproc) (beginStep s) = .next s1 ∧ s' = finishStep s1) := by
  simp only [step, driverStep] at e
  split at e
  · rename_i h
    exact .inl ⟨h, (Host.Outcome.next.inj e).symm⟩
  · rename_i h
    obtain ⟨s1, e1, e2⟩ := andThen_next e
    exact .inr ⟨h, s1, e1, (Host.Outcome.next.inj e2).symm⟩

/-- What the parts of a step keep, a step keeps. -/
theorem step_keeps {R : State → Prop}
    (hbegin : ∀ s vm clock, R s → R { s with vm := vm, clock := clock })
    (hsched : ∀ p s, R s → R (scheduleOn s p))
    (hturn : ∀ p s s', R s → turn p s = .next s' → R s')
    (hend : ∀ s, R s → R (finishStep s))
    (hout : ∀ s out, R s → R { s with out := out })
    {s s' : State} (hs : R s) (e : step s = .next s') : R s' := by
  obtain ⟨_, rfl⟩ | ⟨_, s1, e1, rfl⟩ := step_next e
  · exact hout s _ hs
  · refine hend _ (turns_keep _ (fun p _ => hturn p) _ _ ?_ e1)
    exact scheduleThreads_keep hsched _ (hbegin s _ _ hs)

end Sys2Proof.Machine
end

