-- ==== Sys2Proof/Laws/Encoding.lean ====
section
/-! SUPPORT. The fields of an instruction word: what is packed is what is unpacked, and the numbers of the opcode table
are distinct. -/

namespace Sys2Proof

/-- A field that lies in the low part of a concatenation. -/
theorem extract_append_low {m n : Nat} (x : BitVec m) (y : BitVec n) (s l : Nat) (h : s + l ≤ n) :
    (x ++ y).extractLsb' s l = y.extractLsb' s l := by
  ext i hi
  simp [BitVec.getElem_extractLsb', BitVec.getLsbD_append, show s + i < n by omega]

/-- A field that lies in the high part of a concatenation. -/
theorem extract_append_high {m n : Nat} (x : BitVec m) (y : BitVec n) (s l : Nat) (h : n ≤ s) :
    (x ++ y).extractLsb' s l = x.extractLsb' (s - n) l := by
  ext i hi
  simp [BitVec.getElem_extractLsb', BitVec.getLsbD_append, show ¬ (s + i < n) by omega,
    show s + i - n = s - n + i by omega]

/-- A whole vector is its own field. -/
theorem extract_all {n : Nat} (x : BitVec n) : x.extractLsb' 0 n = x := by
  ext i hi
  simp

/-- The fields of a packed word are the fields packed (30_encoding.md R122). -/
@[simp] theorem unpack_pack (r : RawWord) : unpack (pack r) = r := by
  obtain ⟨op, it, pr, no, la, k0, k1, k2, k3, v0, v1, v2, v3⟩ := r
  simp only [unpack, pack, RawWord.mk.injEq]
  refine ⟨?_, ?_, ?_, ?_, ?_, ?_, ?_, ?_, ?_, ?_, ?_, ?_, ?_⟩
  · iterate 2 rw [extract_append_low _ _ _ _ (by omega)]
    exact extract_all op
  · iterate 1 rw [extract_append_low _ _ _ _ (by omega)]
    rw [extract_append_high _ op _ _ (by omega), extract_append_low _ _ _ _ (by omega)]
    exact extract_all it
  · iterate 1 rw [extract_append_low _ _ _ _ (by omega)]
    rw [extract_append_high _ op _ _ (by omega), extract_append_high _ it _ _ (by omega),
      extract_append_low _ _ _ _ (by omega)]
    exact extract_all pr
  · iterate 1 rw [extract_append_low _ _ _ _ (by omega)]
    rw [extract_append_high _ op _ _ (by omega), extract_append_high _ it _ _ (by omega),
      extract_append_high _ pr _ _ (by omega), extract_append_low _ _ _ _ (by omega)]
    exact extract_all no
  · iterate 1 rw [extract_append_low _ _ _ _ (by omega)]
    rw [extract_append_high _ op _ _ (by omega), extract_append_high _ it _ _ (by omega),
      extract_append_high _ pr _ _ (by omega), extract_append_high _ no _ _ (by omega),
      extract_append_low _ _ _ _ (by omega)]
    exact extract_all la
  · iterate 1 rw [extract_append_low _ _ _ _ (by omega)]
    rw [extract_append_high _ op _ _ (by omega), extract_append_high _ it _ _ (by omega),
      extract_append_high _ pr _ _ (by omega), extract_append_high _ no _ _ (by omega),
      extract_append_high _ la _ _ (by omega), extract_append_low _ _ _ _ (by omega)]
    exact extract_all k0
  · iterate 1 rw [extract_append_low _ _ _ _ (by omega)]
    rw [extract_append_high _ op _ _ (by omega), extract_append_high _ it _ _ (by omega),
      extract_append_high _ pr _ _ (by omega), extract_append_high _ no _ _ (by omega),
      extract_append_high _ la _ _ (by omega), extract_append_high _ k0 _ _ (by omega),
      extract_append_low _ _ _ _ (by omega)]
    exact extract_all k1
  · iterate 1 rw [extract_append_low _ _ _ _ (by omega)]
    rw [extract_append_high _ op _ _ (by omega), extract_append_high _ it _ _ (by omega),
      extract_append_high _ pr _ _ (by omega), extract_append_high _ no _ _ (by omega),
      extract_append_high _ la _ _ (by omega), extract_append_high _ k0 _ _ (by omega),
      extract_append_high _ k1 _ _ (by omega), extract_append_low _ _ _ _ (by omega)]
    exact extract_all k2
  · iterate 1 rw [extract_append_low _ _ _ _ (by omega)]
    rw [extract_append_high _ op _ _ (by omega), extract_append_high _ it _ _ (by omega),
      extract_append_high _ pr _ _ (by omega), extract_append_high _ no _ _ (by omega),
      extract_append_high _ la _ _ (by omega), extract_append_high _ k0 _ _ (by omega),
      extract_append_high _ k1 _ _ (by omega), extract_append_high _ k2 _ _ (by omega)]
    exact extract_all k3
  · rw [extract_append_high _ _ _ _ (by omega), extract_append_low _ _ _ _ (by omega)]
    exact extract_all v0
  · rw [extract_append_high _ _ _ _ (by omega), extract_append_high _ v0 _ _ (by omega),
      extract_append_low _ _ _ _ (by omega)]
    exact extract_all v1
  · rw [extract_append_high _ _ _ _ (by omega), extract_append_high _ v0 _ _ (by omega),
      extract_append_high _ v1 _ _ (by omega), extract_append_low _ _ _ _ (by omega)]
    exact extract_all v2
  · rw [extract_append_high _ _ _ _ (by omega), extract_append_high _ v0 _ _ (by omega),
      extract_append_high _ v1 _ _ (by omega), extract_append_high _ v2 _ _ (by omega)]
    exact extract_all v3

/-- Every opcode is found by its number (30_encoding.md R129). -/
@[simp] theorem opOf_code (o : Op) : opOf o.code = some o := by cases o <;> decide

/-- No two opcodes share a number (30_encoding.md R129). -/
theorem codes_distinct : (Op.all.map Op.code).Pairwise (· ≠ ·) := by decide

/-- `opcode[7:4]` is the instruction type (30_encoding.md R129). -/
theorem code_high (o : Op) : (o.code.extractLsb' 4 4).toNat = o.itype.toNat := by cases o <;> decide

@[simp] theorem regOf_regSlot (r : Reg) : regOf (regSlot r) = some r := by
  have : r.val < 18 := r.isLt
  simp [regOf, regSlot, Nat.mod_eq_of_lt (show r.val < 4294967296 by omega)]

@[simp] theorem immOf_immSlot (v : Word) : immOf (immSlot v) = some v := rfl
@[simp] theorem regOf_immSlot (v : Word) : regOf (immSlot v) = none := rfl
@[simp] theorem addrOf_addrSlot (a : Word) : addrOf (addrSlot a) = some a := rfl
@[simp] theorem addrOf_immSlot (v : Word) : addrOf (immSlot v) = none := rfl
@[simp] theorem addrOf_regSlot (r : Reg) : addrOf (regSlot r) = none := rfl

@[simp] theorem srcOf_srcSlot (o : Src) : srcOf (srcSlot o) = some o := by
  cases o <;> simp [srcOf, srcSlot]

@[simp] theorem loadSrcOf_loadSrcSlot (o : LoadSrc) : loadSrcOf (loadSrcSlot o) = some o := by
  cases o <;> simp [loadSrcOf, loadSrcSlot]

@[simp] theorem spawnArgOf_spawnArgSlot (o : SpawnArg) : spawnArgOf (spawnArgSlot o) = some o := by
  cases o <;> simp [spawnArgOf, spawnArgSlot]

end Sys2Proof
end

