-- ==== Sys2Proof/Laws/PerInstr.lean ====
section
/-! SUPPORT. Per instruction: the control fields of its word are those of its row of the opcode map
(30_encoding.md R129). -/

namespace Sys2Proof.Laws.ControlFields

open Sys2Proof Sys2Proof.Machine

/-- The opcode, the type and the operand count of the word of i are those of one row of `kindTable`. -/
def Statement (i : Instr) : Prop :=
  ∃ row ∈ kindTable, ((encode i).extractLsb' 0 8).toNat = row.1 ∧
    ((encode i).extractLsb' 8 3).toNat = row.1 / 16 ∧ ((encode i).extractLsb' 12 4).toNat = row.2.length

/-- The control fields of a packed record. -/
theorem of_op {i : Instr} {op : Op} {h : Hdr} {o0 o1 o2 o3 : RawOperand} (e : toRaw i = rawOf op h o0 o1 o2 o3)
    (t : ∃ row ∈ kindTable, op.code.toNat = row.1 ∧ op.itype.toNat = row.1 / 16 ∧ op.nops.toNat = row.2.length) :
    Statement i := by
  have hu : unpack (encode i) = rawOf op h o0 o1 o2 o3 := by rw [encode, unpack_pack, e]
  obtain ⟨row, hr, h1, h2, h3⟩ := t
  refine ⟨row, hr, ?_, ?_, ?_⟩
  · exact (congrArg (fun r => r.opcode.toNat) hu).trans h1
  · exact (congrArg (fun r => r.itype.toNat) hu).trans h2
  · exact (congrArg (fun r => r.nops.toNat) hu).trans h3

theorem add (h : Hdr) (rd : Reg) (a : Src) (b : Src) : Statement (.add h rd a b) := of_op (op := .add) rfl (by decide)
theorem sub (h : Hdr) (rd : Reg) (a : Src) (b : Src) : Statement (.sub h rd a b) := of_op (op := .sub) rfl (by decide)
theorem mul (h : Hdr) (rd : Reg) (a : Src) (b : Src) : Statement (.mul h rd a b) := of_op (op := .mul) rfl (by decide)
theorem div (h : Hdr) (rd : Reg) (a : Src) (b : Src) : Statement (.div h rd a b) := of_op (op := .div) rfl (by decide)
theorem and (h : Hdr) (rd : Reg) (a : Src) (b : Src) : Statement (.and h rd a b) := of_op (op := .and) rfl (by decide)
theorem or (h : Hdr) (rd : Reg) (a : Src) (b : Src) : Statement (.or h rd a b) := of_op (op := .or) rfl (by decide)
theorem xor (h : Hdr) (rd : Reg) (a : Src) (b : Src) : Statement (.xor h rd a b) := of_op (op := .xor) rfl (by decide)
theorem shl (h : Hdr) (rd : Reg) (a : Src) (b : Src) : Statement (.shl h rd a b) := of_op (op := .shl) rfl (by decide)
theorem shr (h : Hdr) (rd : Reg) (a : Src) (b : Src) : Statement (.shr h rd a b) := of_op (op := .shr) rfl (by decide)
theorem load (h : Hdr) (rd : Reg) (src : LoadSrc) : Statement (.load h rd src) := of_op (op := .load) rfl (by decide)
theorem store (h : Hdr) (rs : Reg) (a : Word) : Statement (.store h rs a) := of_op (op := .store) rfl (by decide)
theorem push (h : Hdr) (rs : Reg) : Statement (.push h rs) := of_op (op := .push) rfl (by decide)
theorem pop (h : Hdr) (rd : Reg) : Statement (.pop h rd) := of_op (op := .pop) rfl (by decide)
theorem jmp (h : Hdr) (target : Word) : Statement (.jmp h target) := of_op (op := .jmp) rfl (by decide)
theorem jz (h : Hdr) (target : Word) : Statement (.jz h target) := of_op (op := .jz) rfl (by decide)
theorem jnz (h : Hdr) (target : Word) : Statement (.jnz h target) := of_op (op := .jnz) rfl (by decide)
theorem call (h : Hdr) (target : Word) : Statement (.call h target) := of_op (op := .call) rfl (by decide)
theorem ret (h : Hdr) : Statement (.ret h) := of_op (op := .ret) rfl (by decide)
theorem lock (h : Hdr) (id : Src) : Statement (.lock h id) := of_op (op := .lock) rfl (by decide)
theorem unlock (h : Hdr) (id : Src) : Statement (.unlock h id) := of_op (op := .unlock) rfl (by decide)
theorem fence (h : Hdr) : Statement (.fence h) := of_op (op := .fence) rfl (by decide)
theorem cas (h : Hdr) (a : Word) (e : Src) (n : Src) (rd : Reg) : Statement (.cas h a e n rd) :=
  of_op (op := .cas) rfl (by decide)
theorem barrier (h : Hdr) (id : Src) (parties : Src) : Statement (.barrier h id parties) :=
  of_op (op := .barrier) rfl (by decide)
theorem halt (h : Hdr) : Statement (.halt h) := of_op (op := .halt) rfl (by decide)
theorem yield (h : Hdr) : Statement (.yield h) := of_op (op := .yield) rfl (by decide)
theorem syscall (h : Hdr) (number : Src) : Statement (.syscall h number) := of_op (op := .syscall) rfl (by decide)
theorem nop (h : Hdr) : Statement (.nop h) := of_op (op := .nop) rfl (by decide)
theorem spawn (h : Hdr) (func : Word) (arg : SpawnArg) (rd : Reg) : Statement (.spawn h func arg rd) :=
  of_op (op := .spawn) rfl (by decide)
theorem join (h : Hdr) (tid : Src) : Statement (.join h tid) := of_op (op := .join) rfl (by decide)

end Sys2Proof.Laws.ControlFields
end

