-- ==== Sys2Proof/Tests/Slice0.lean ====
section
/-! SUPPORT. Small checks of the model: ill-formed records, words written out by the spec, one step per instruction on a
small machine, and for each statement with hypotheses a state that meets them. -/

namespace Sys2Proof.Tests

open Sys2Proof Sys2Proof.Machine

/-- An unprivileged record of latency 1. -/
def one : Hdr := ⟨false, 1⟩

/-- A privileged record of latency 1. -/
def guarded : Hdr := ⟨true, 1⟩

/-! ### Well-formed records (30_encoding.md R122, R132) -/

theorem test_latency_zero_is_ill_formed : (Instr.nop ⟨false, 0⟩).wellFormed = false := by decide
theorem test_latency_256_is_ill_formed : (Instr.add ⟨true, 256⟩ 1 (.reg 2) (.imm 3)).wellFormed = false := by decide
theorem test_latencies_1_and_255_are_well_formed :
    (Instr.nop one).wellFormed = true ∧ (Instr.halt ⟨true, 255⟩).wellFormed = true := by decide

/-! ### A small machine

Two processors, 64 bytes of memory, lines of 8 bytes, two sets of one way. Line 0 is SHARED in both caches, line 8 is
MODIFIED in cache 0 with words 42 and 7, line 24 is EXCLUSIVE in cache 1; the other lines are held nowhere. -/

def demoConfig : Config where
  nproc := 2
  memSize := 64
  lineSize := 8
  numSets := 2
  assoc := 1
  coherence := true
  busLatency := 1
  enforce := []
  victim := .lru

/-- The registers of thread 0: R1 = 5, R2 = 7, SP = 12, CARRY, OVERFLOW and INTERRUPT set. -/
def demoRegs : RegSet where
  x := ((RegSet.reset.x.set 1 5).set 2 7).set 16 12
  pc := 0
  flags := 0x1C
  priv := .user

/-- Processor 0 runs thread 0; processor 1 is in a stall cycle of thread 1. -/
def demoProcs : List Proc :=
  [{ Proc.reset true with regs := demoRegs, state := .running, thread := some 0 },
   { Proc.reset true with regs := { demoRegs with pc := 9 }, state := .running, thread := some 1, stall := 2 }]

/-- A thread of Program 0. -/
def demoThread (id : Nat) (st : ThreadState) (proc : Option Nat) : Thread where
  id := id
  prog := 0
  ctx := RegSet.reset
  softStack := []
  state := st
  proc := proc
  parent := none
  created := 0
  execCycles := 0
  joiners := []

/-- Thread 2 waits for lock 1, thread 3 has terminated, thread 4 waits at barrier 7, thread 5 is READY, thread 6 waits
in JOIN for thread 0. -/
def demoThreads : List Thread :=
  [{ demoThread 0 .running (some 0) with joiners := [6] }, demoThread 1 .running (some 1),
   demoThread 2 .waiting none, demoThread 3 .terminated none, demoThread 4 .waiting none,
   demoThread 5 .ready none, demoThread 6 .waiting none]

def demoSlot (addr : Nat) (data : List Word) (st : Mesi) : CacheSlot := ⟨addr, data, st, st == .modified, 1⟩

/-- The machine, running `code` as Program 0. -/
def demoOf (code : List InstrWord) : State where
  cfg := demoConfig
  programs := [⟨code, 0⟩]
  procs := demoProcs
  caches :=
    [⟨[[demoSlot 0 [0, 0] .shared], [demoSlot 8 [42, 7] .modified]], 2⟩,
     ⟨[[demoSlot 0 [0, 0] .shared], [demoSlot 24 [0, 0] .exclusive]], 2⟩]
  mem := []
  bus := Bus.reset
  threads := demoThreads
  ready := [5]
  locks := [⟨1, some 0, [2]⟩, ⟨2, some 0, []⟩, ⟨3, some 1, []⟩, ⟨4, none, []⟩]
  barriers := [⟨7, 2, [4], false, 0⟩]
  clock := 3
  switches := 2
  threadCounter := 7
  vm := .running
  faults := []
  pending := []
  cur := 0
  out := { raised := none, stillRunning := true, ticked := [] }

/-- `ADD/3 R3, R1, R2`, `NOP` and a word of an unknown type. -/
def demoCode : List InstrWord := [0x0000000000000002000000010000000300033000, 0x10550, 0x10600]

def demo : State := demoOf demoCode

def demoProc : Proc := { Proc.reset true with regs := demoRegs, state := .running, thread := some 0 }

theorem demo_running : Running demo demoProc 0 { demoThread 0 .running (some 0) with joiners := [6] } :=
  ⟨rfl, rfl, rfl⟩

theorem demo_caches_ok : ∀ k ∈ demo.caches, CacheOk demo.cfg k := by
  intro k hk
  rcases List.mem_cons.1 hk with rfl | hk
  · decide
  · rw [List.mem_singleton.1 hk]
    decide

theorem demo_coherent : Coherent demo :=
  ⟨by decide, by decide, by decide, by decide, demo_caches_ok, by decide, by decide⟩

theorem demo_scheduled : Scheduled demo := by decide

/-! ### Decoding: words the spec writes out (95_test_vectors.md 2.1 and the examples of the rules of 41 to 45) -/

theorem test_decode_add : decode 0x0000000000000002000000010000000300013000 = .ok (.add one 3 (.reg 1) (.reg 2)) := by
  decide
theorem test_decode_add_latency : decode 0x0000000000000001000000010000000110033000 =
    .ok (.add ⟨false, 3⟩ 1 (.reg 1) (.imm 1)) := by decide
theorem test_decode_sub : decode 0x00000000000000020000000A0000000304013001 = .ok (.sub one 3 (.imm 10) (.reg 2)) := by
  decide
theorem test_decode_mul : decode 0x0000000000008000000000010000000310013002 =
    .ok (.mul one 3 (.reg 1) (.imm 0x8000)) := by decide
theorem test_decode_div : decode 0x0000000000000002000000010000000300013003 = .ok (.div one 3 (.reg 1) (.reg 2)) := by
  decide
theorem test_decode_and : decode 0x00000000000000FF000000010000000310013004 = .ok (.and one 3 (.reg 1) (.imm 0xFF)) := by
  decide
theorem test_decode_or : decode 0x0000000000000002000000010000000300013005 = .ok (.or one 3 (.reg 1) (.reg 2)) := by
  decide
theorem test_decode_xor : decode 0x0000000000000001000000010000000100013006 = .ok (.xor one 1 (.reg 1) (.reg 1)) := by
  decide
theorem test_decode_shl : decode 0x0000000000000004000000010000000310013007 = .ok (.shl one 3 (.reg 1) (.imm 4)) := by
  decide
theorem test_decode_shr : decode 0x000000000000001F000000010000000310013008 = .ok (.shr one 3 (.reg 1) (.imm 31)) := by
  decide
theorem test_decode_load_memory : decode 0x0000000000000000000000400000000108012110 = .ok (.load one 1 (.addr 0x40)) := by
  decide
theorem test_decode_load_immediate : decode 0x0000000000000000000002000000001004012110 =
    .ok (.load one Reg.sp (.imm 0x200)) := by decide
theorem test_decode_store : decode 0x0000000000000000000000440000000108012111 = .ok (.store one 1 0x44) := by decide
theorem test_decode_push : decode 0x0000000000000000000000000000001100011112 = .ok (.push one Reg.fp) := by decide
theorem test_decode_pop : decode 0x0000000000000000000000000000001000011113 = .ok (.pop one Reg.sp) := by decide
theorem test_decode_jmp : decode 0x0000000000000000000000000000000202011220 = .ok (.jmp one 2) := by decide
theorem test_decode_jz : decode 0x0000000000000000000000000000000702011221 = .ok (.jz one 7) := by decide
theorem test_decode_jnz : decode 0x0000000000000000000000000000000202011222 = .ok (.jnz one 2) := by decide
theorem test_decode_call : decode 0x0000000000000000000000000000000502011223 = .ok (.call one 5) := by decide
theorem test_decode_ret : decode 0x0000000000000000000000000000000000010224 = .ok (.ret one) := by decide
theorem test_decode_lock : decode 0x0000000000000000000000000000000400011330 = .ok (.lock one (.reg 4)) := by decide
theorem test_decode_unlock : decode 0x0000000000000000000000000000000101011331 = .ok (.unlock one (.imm 1)) := by decide
theorem test_decode_fence : decode 0x0000000000000000000000000000000000010332 = .ok (.fence one) := by decide
theorem test_decode_cas : decode 0x0000000500000002000000010000008002014333 =
    .ok (.cas one 0x80 (.reg 1) (.reg 2) 5) := by decide
theorem test_decode_barrier : decode 0x0000000000000000000000020000000705012334 =
    .ok (.barrier one (.imm 7) (.imm 2)) := by decide
theorem test_decode_halt : decode 0x0000000000000000000000000000000000010440 = .ok (.halt one) := by decide
theorem test_decode_yield : decode 0x0000000000000000000000000000000000010441 = .ok (.yield one) := by decide
theorem test_decode_syscall : decode 0x0000000000000000000000000000000301011C42 = .ok (.syscall guarded (.imm 3)) := by
  decide
theorem test_decode_nop_255 : decode 0x00FF0550 = .ok (.nop ⟨false, 255⟩) := by decide
theorem test_decode_spawn : decode 0x0000000000000003000000050000000606013551 = .ok (.spawn one 6 (.imm 5) 3) := by decide
theorem test_decode_join : decode 0x0000000000000000000000000000000200011552 = .ok (.join one (.reg 2)) := by decide

/-- Junk in unused operand slots is ignored. -/
theorem test_decode_unused_slots : decode 0xFFFFFFFFFFFFFFFFFFFFFFFFFFFFFFFFFF010550 = .ok (.nop one) := by decide

/-- The invalid words of 95_test_vectors.md 2.1, each for the first test it breaks. -/
theorem test_decode_invalid_words :
    decode 0x10600 = .error .unknownType ∧ decode 0x10700 = .error .unknownType ∧
    decode 0x0000000000000002000000010000000300013009 = .error .badOpcode ∧
    decode 0x0000000000000000000000050000000104012010 = .error .badOpcode ∧
    decode 0x0000000000000000000000010000000300012000 = .error .operandCount ∧
    decode 0x15550 = .error .operandCount ∧
    decode 0x0000000000000002000000010000000301013000 = .error .operandKind ∧
    decode 0x000000000000000200000001000000030C013000 = .error .operandKind ∧
    decode 0x0000000000000002000000400000000308013000 = .error .operandKind ∧
    decode 0x0000000000000002000000010000001200013000 = .error .operandKind ∧
    decode 0x0000000000000000000000000000000201011220 = .error .operandKind ∧
    decode 0x0000000000000000000000020000000100012111 = .error .operandKind ∧
    decode 0x0000000000000002000000010000000300012009 = .error .badOpcode := by decide

/-- The encoder writes the spec's words. -/
theorem test_encode_words :
    encode (.cas one 0x20 (.imm 0) (.imm 9) 1) = 0x0000000100000009000000000000002016014333 ∧
    encode (.spawn one 6 (.addr 0x100) 2) = 0x000000000000000200000100000000060A013551 ∧
    encode (.mul ⟨false, 4⟩ 1 (.reg 1) (.imm 3)) = 0x0000000000000003000000010000000110043002 ∧
    encode (.syscall guarded (.imm 3)) = 0x0000000000000000000000000000000301011C42 := by decide

/-! ### One step per instruction on the small machine (expected values worked out from the rules) -/

/-- What f sees after the instruction. -/
def seen {α : Type} (f : State → α) (i : Instr) (s : State) : Option α :=
  match exec i s with
  | .next s' => some (f s')
  | .fault _ => none
  | .refused _ => none

/-- Register r, PC and FLAGS of processor 0. -/
def regs0 (r : Reg) (s : State) : Word × Word × Word := ((s.regsOf 0).x[r], (s.regsOf 0).pc, (s.regsOf 0).flags)

/-- demo with R1 and R2 of processor 0 replaced. -/
def withR (a b : Word) : State := demo.modRegs 0 fun R => writeReg (writeReg R 1 a) 2 b

theorem test_add_wraps : seen (regs0 1) (.add one 1 (.reg 1) (.imm 1)) (withR 0xFFFFFFFF 0) = some (0, 1, 0x1D) := by decide
theorem test_add_negative : seen (regs0 1) (.add one 1 (.reg 1) (.imm 1)) (withR 0x7FFFFFFF 0) =
    some (0x80000000, 1, 0x1E) := by decide
theorem test_sub_borrows : seen (regs0 1) (.sub one 1 (.reg 1) (.imm 1)) (withR 0 0) = some (0xFFFFFFFF, 1, 0x1E) := by decide
theorem test_sub_order : seen (regs0 3) (.sub one 3 (.imm 10) (.reg 2)) (withR 0 3) = some (7, 1, 0x1C) := by decide
theorem test_mul_low_half : seen (regs0 3) (.mul one 3 (.reg 1) (.imm 0x8000)) (withR 0x10001 0) =
    some (0x80008000, 1, 0x1E) := by decide
theorem test_div_unsigned : seen (regs0 3) (.div one 3 (.reg 1) (.reg 2)) (withR 0x80000000 0xFFFFFFFF) =
    some (0, 1, 0x1D) := by decide
theorem test_div_by_zero : seen (fun s => (regs0 3 s, s.faults.map fun r => (faultClass r.kind, faultSub r.kind, r.pc)))
    (.div one 3 (.reg 1) (.imm 0)) demo = some ((0, 0, 0x1C), [(3, 1, 0)]) := by decide
theorem test_and : seen (regs0 3) (.and one 3 (.reg 1) (.reg 2)) (withR 0x80000001 0x80000000) =
    some (0x80000000, 1, 0x1E) := by decide
theorem test_or : seen (regs0 3) (.or one 3 (.reg 1) (.reg 2)) (withR 0xF0 0x0F) = some (0xFF, 1, 0x1C) := by decide
theorem test_xor : seen (regs0 3) (.xor one 3 (.reg 1) (.imm 0xFFFFFFFF)) (withR 0xFFFF 0) =
    some (0xFFFF0000, 1, 0x1E) := by decide
theorem test_shl_31 : seen (regs0 3) (.shl one 3 (.reg 1) (.imm 31)) (withR 3 0) = some (0x80000000, 1, 0x1E) := by decide
theorem test_shl_32 : seen (regs0 3) (.shl one 3 (.reg 1) (.imm 32)) (withR 0xFFFFFFFF 0) = some (0, 1, 0x1D) := by decide
theorem test_shr_31 : seen (regs0 3) (.shr one 3 (.reg 1) (.imm 31)) (withR 0x80000000 0) = some (1, 1, 0x1C) := by decide
theorem test_shr_huge_count : seen (regs0 3) (.shr one 3 (.reg 1) (.reg 2)) (withR 5 0xFFFFFFFF) = some (0, 1, 0x1D) := by
  decide
theorem test_load_immediate_sets_no_flag : seen (regs0 1) (.load one 1 (.imm 0)) demo = some (0, 1, 0x1C) := by decide

/-- A read of a line another cache holds MODIFIED: the newest word, both lines SHARED, main memory written. -/
theorem test_load_from_other_cache :
    seen (fun s => ((s.regsOf 1).x[3], lineState s 0 8, lineState s 1 8, memReadWord s.mem 8, s.bus.readRequests))
      (.load one 3 (.addr 12)) { demo with cur := 1 } = some (7, .shared, .shared, 42, 1) := by decide

/-- A write to a SHARED line invalidates the other copy and leaves main memory alone. -/
theorem test_store_to_shared_line :
    seen (fun s => (lineState s 0 0, lineState s 1 0, lineDataIn s.cfg (s.cacheAt 0) 0, s.mem.length))
      (.store one 1 4) demo = some (.modified, .invalid, [0, 5], 0) := by decide

/-- A write miss that evicts a MODIFIED line writes it back. -/
theorem test_store_evicts_and_writes_back :
    seen (fun s => (lineState s 0 8, lineDataIn s.cfg (s.cacheAt 0) 40, memReadWord s.mem 8, s.bus.writeRequests))
      (.store one 1 40) demo = some (.invalid, [5, 0], 42, 1) := by decide
theorem test_push_sp : seen (fun s => (regs0 Reg.sp s, coherentWord s 8)) (.push one Reg.sp) demo =
    some ((8, 1, 0x1C), 12) := by decide
theorem test_pop_sp : seen (regs0 Reg.sp) (.pop one Reg.sp) demo = some (7, 1, 0x1C) := by decide
theorem test_pop : seen (fun s => (regs0 3 s, (s.regsOf 0).x[Reg.sp])) (.pop one 3) demo = some ((7, 1, 0x1C), 16) := by decide

/-- The control-flow log of processor 0. -/
def log0 (s : State) : Option (List CfRecord) := s.procs[0]?.map fun P => P.cflog

theorem test_jmp_beyond_the_program : seen (fun s => ((s.regsOf 0).pc, log0 s)) (.jmp one 3) demo =
    some (3, some [⟨.jmp, 0, 3, false⟩]) := by decide
theorem test_jz_not_taken : seen (fun s => ((s.regsOf 0).pc, log0 s)) (.jz one 2) demo = some (1, some []) := by decide
theorem test_jnz_taken : seen (fun s => ((s.regsOf 0).pc, log0 s)) (.jnz one 2) demo =
    some (2, some [⟨.jnz, 0, 2, true⟩]) := by decide
theorem test_call : seen (fun s => (regs0 Reg.sp s, coherentWord s 8, log0 s)) (.call one 2) demo =
    some ((8, 2, 0x1C), 1, some [⟨.call, 0, 2, true⟩]) := by decide
theorem test_ret : seen (fun s => (regs0 Reg.sp s, log0 s)) (.ret one) demo =
    some ((16, 7, 0x1C), some [⟨.ret, 0, 7, false⟩]) := by decide
theorem test_lock_free : seen (fun s => (findLock 4 s.locks, (s.regsOf 0).pc)) (.lock one (.imm 4)) demo =
    some (some ⟨4, some 0, []⟩, 1) := by decide
theorem test_lock_own_lock_waits : seen (fun s => (findLock 1 s.locks, s.threadOn 0)) (.lock one (.imm 1)) demo =
    some (some ⟨1, some 0, [2, 0]⟩, none) := by decide
theorem test_unlock_hands_over : seen (fun s => (findLock 1 s.locks, s.ready)) (.unlock one (.imm 1)) demo =
    some (some ⟨1, some 2, []⟩, [5, 2]) := by decide
theorem test_unlock_not_held : seen (fun s => (s.pending.map fun r => (faultSub r.kind, r.pc, r.info), s.threadOn 0))
    (.unlock one (.imm 3)) demo = some ([(2, 0, 3)], none) := by decide
theorem test_fence : seen (regs0 1) (.fence one) demo = some (5, 1, 0x1C) := by decide
theorem test_cas_hit : seen (fun s => (regs0 3 s, coherentWord s 8)) (.cas one 8 (.imm 42) (.reg 1) 3) demo =
    some ((1, 1, 0x1C), 5) := by decide
theorem test_cas_miss : seen (fun s => (regs0 3 s, coherentWord s 8)) (.cas one 8 (.imm 41) (.reg 1) 3) demo =
    some ((0, 1, 0x1C), 42) := by decide
theorem test_barrier_trips : seen (fun s => (findBarrier 7 s.barriers, s.ready, s.threadOn 0))
    (.barrier one (.imm 7) (.imm 2)) demo = some (some ⟨7, 2, [], true, 1⟩, [5, 4], some 0) := by decide
theorem test_barrier_of_zero_parties_waits : seen (fun s => (findBarrier 8 s.barriers, s.threadOn 0))
    (.barrier one (.imm 8) (.imm 0)) demo = some (some ⟨8, 0, [0], false, 0⟩, none) := by decide
theorem test_halt_releases_and_wakes : seen (fun s => (s.locks, s.ready, s.threads[0]?.map fun T => (T.state, T.ctx.pc)))
    (.halt one) demo = some ([⟨1, some 2, []⟩, ⟨2, none, []⟩, ⟨3, some 1, []⟩, ⟨4, none, []⟩], [5, 2, 6],
      some (.terminated, 1)) := by decide
theorem test_yield : seen (fun s => (s.ready, s.threads[0]?.map fun T => (T.state, T.ctx.pc, T.proc)))
    (.yield one) demo = some ([5, 0], some (.ready, 1, none)) := by decide
theorem test_privileged_syscall_at_user : seen (fun s => (s.faults.map fun r => (faultClass r.kind, r.pc),
    s.procs[0]?.map fun P => P.cycles)) (.syscall guarded (.imm 3)) demo = some ([(2, 0)], some 0) := by decide
theorem test_syscall_advances : seen (regs0 1) (.syscall one (.imm 3)) demo = some (5, 1, 0x1C) := by decide
theorem test_nop_latency : seen (fun s => s.procs[0]?.map fun P => (P.stall, P.cycles, P.completed)) (.nop ⟨false, 4⟩) demo =
    some (some (3, 1, false)) := by decide
theorem test_spawn : seen (fun s => (regs0 2 s, s.threads[7]?.map fun T => (T.ctx.pc, T.ctx.x[0], T.parent)))
    (.spawn one 6 (.addr 0x100) 2) demo = some ((7, 1, 0x1C), some (6, 0x100, some 0)) := by decide
theorem test_join_terminated : seen (fun s => s.procs[0]?.map fun P => P.state) (.join one (.imm 3)) demo =
    some (some .running) := by decide
theorem test_join_waits : seen (fun s => (s.procs[0]?.map fun P => P.state, s.threads[1]?.map fun T => T.joiners))
    (.join one (.imm 1)) demo = some (some .idle, some [0]) := by decide

/-! ### Witnesses: for each statement with hypotheses, a state and operands that meet them

The name of a witness is that of its statement; where the statement has several clauses, each clause has its own case,
at a boundary value where its range has one. -/

/-- A step of demo gives a next state. -/
theorem demo_steps : (match step demo with
    | .next s => s.vm != .finished
    | .fault _ => false
    | .refused _ => false) = true := by decide

/-- The state after a step of s, or s. -/
def stepped (s : State) : State :=
  match step s with
  | .next s' => s'
  | .fault _ => s
  | .refused _ => s

/-- The state after an instruction on s, or s. -/
def after (i : Instr) (s : State) : State :=
  match exec i s with
  | .next s' => s'
  | .fault _ => s
  | .refused _ => s

theorem demo_step : step demo = .next (stepped demo) := by
  have h := demo_steps
  unfold stepped
  revert h
  cases step demo <;> simp

/-- demo with thread 1 gone, so that processor 0 alone runs. -/
def solo : State :=
  { demo with
    procs := [demoProc, Proc.reset true]
    threads := demoThreads.set 1 (demoThread 1 .terminated none)
    ready := [] }

/-- A FINISHED machine. -/
def finished : State := { solo with vm := .finished }

theorem witness_DecodeOfEncode : (Instr.cas ⟨true, 255⟩ 8 (.reg 17) (.imm 0xFFFFFFFF) 0).wellFormed = true := by decide

theorem witness_EncodeOfDecode : decode 0xFFFFFFFFFFFFFFFFFFFFFFFFFFFFFFFFFF010550 = .ok (.nop one) := by decide

theorem witness_UnusedOperandSlotsAreIgnored :
    let w : InstrWord := 0x0000000000000000000000000000001100011112
    let w' : InstrWord := 0xFFFFFFFF00000000000000050000001104011112
    w.extractLsb' 0 24 = w'.extractLsb' 0 24 ∧
    (∀ j < 4, j < (w.extractLsb' 12 4).toNat → slotKind w j = slotKind w' j ∧ slotValue w j = slotValue w' j) ∧
    ((encode (.push one 17)).extractLsb' 12 4).toNat ≤ 1 := by decide

theorem witness_ResetValues : Config.vector.ok = true ∧
    (State.resetWith Config.vector []).procs[1]? = some (Proc.reset true) := by decide

theorem witness_LoadProgramAndCreateThread :
    (∃ w ∈ [(0x550 : InstrWord)], w.extractLsb' 16 8 = 0) ∧ (∀ w ∈ demoCode, w.extractLsb' 16 8 ≠ 0) ∧
    demo.programs.length ≤ 1 ∧ demo.programs[0]? = some ⟨demoCode, 0⟩ :=
  ⟨⟨0x550, by simp, rfl⟩, by simp [demoCode], by decide, rfl⟩

theorem witness_StepKeepsCoherence : Coherent demo ∧ step demo = .next (stepped demo) := ⟨demo_coherent, demo_step⟩

/-- Each host call completes: at the ends of memory, for a held line and for a line no cache holds. -/
theorem witness_HostCallsKeepCoherence : Coherent demo ∧
    (match hostDataRead 1 60 demo with | .next _ => true | .fault _ => false | .refused _ => false) = true ∧
    (match hostDataWrite 1 0 5 demo with | .next _ => true | .fault _ => false | .refused _ => false) = true ∧
    (match hostEvict 0 8 demo with | .next _ => true | .fault _ => false | .refused _ => false) = true ∧
    (match hostMemWrite 56 8 5 demo with | .next _ => true | .fault _ => false | .refused _ => false) = true ∧
    (match hostSubmit .invalidate 56 0 none none demo with
      | .next _ => true | .fault _ => false | .refused _ => false) = true := ⟨demo_coherent, by decide⟩

/-- Class and sub-code of ExecutionLimitException and Deadlock, from the table of 60_exceptions.md R401. -/
theorem test_host_condition_codes :
    (hostConditionClass (.executionLimit 7), hostConditionSub (.executionLimit 7)) = (5, 0) ∧
    (hostConditionClass (.deadlock [0, 1]), hostConditionSub (.deadlock [0, 1])) = (6, 0) := by decide

/-- 20_memory.md R97: without coherence no BusRequest is ever submitted, so a raw one is refused. -/
theorem test_raw_submit_without_coherence_refused :
    hostSubmit .readShared 0 0 none none { demo with cfg := { demo.cfg with coherence := false } } =
      .refused .busNotInUse := rfl

/-- 47_bus_ops.md section 3: a request of the host's read carries no thread id, also where a thread runs on the
processor; the line read takes the place of the MODIFIED line 8, which is written back. -/
theorem test_host_read_request_has_no_thread :
    (match hostDataRead 0 56 demo with
      | .next r => (r.2.bus.queue.drop demo.bus.queue.length).map fun q => (q.op, q.pid, q.tid)
      | .fault _ => []
      | .refused _ => []) =
        [(.readShared, 0, none), (.writeBack, 0, none)] ∧ demo.threadOn 0 = some 0 := by decide

/-- 47_bus_ops.md section 3: a request of an instruction's read carries the thread of its processor. -/
theorem test_load_request_has_the_thread :
    seen (fun s => (s.bus.queue.drop demo.bus.queue.length).map fun q => (q.op, q.pid, q.tid))
      (.load one 1 (.addr 56)) demo =
      some [(.readShared, 0, some 0), (.writeBack, 0, some 0)] := by decide

theorem witness_StepKeepsSchedule : Scheduled demo ∧ step demo = .next (stepped demo) := ⟨demo_scheduled, demo_step⟩

theorem witness_TerminatedThreadsStay : Scheduled demo ∧ step demo = .next (stepped demo) ∧
    demo.threads[3]? = some (demoThread 3 .terminated none) := ⟨demo_scheduled, demo_step, rfl⟩

theorem witness_StepKeepsConfiguration : step demo = .next (stepped demo) := demo_step

theorem witness_CountersOnlyCountUp : step demo = .next (stepped demo) ∧ demo.vm ≠ .finished ∧
    StatisticsAdd demo.bus ∧ demo.procs[0]? = some demoProc := ⟨demo_step, by decide⟩

theorem witness_StepKeepsStallRange : StallsBounded demo ∧ step demo = .next (stepped demo) := ⟨by decide, demo_step⟩

theorem witness_InstructionTouchesItsOwnProcessor : exec (.nop one) demo = .next (after (.nop one) demo) ∧
    Running demo demoProc 0 { demoThread 0 .running (some 0) with joiners := [6] } ∧
    demo.threads[5]? = some (demoThread 5 .ready none) := ⟨rfl, demo_running, rfl⟩

/-- For an instruction that is not COMPUTE, and for one that is. -/
theorem witness_InstructionFlagFrame :
    Running demo demoProc 0 { demoThread 0 .running (some 0) with joiners := [6] } ∧
    exec (.nop one) demo = .next (after (.nop one) demo) ∧ ((after (.nop one) demo).procs[0]?).isSome = true ∧
    computeDest (.nop one) = none ∧
    exec (.add one 3 (.reg 1) (.reg 2)) demo = .next (after (.add one 3 (.reg 1) (.reg 2)) demo) :=
  ⟨demo_running, rfl, by decide, rfl, rfl⟩

theorem witness_StallCycleTouchesOnlyTheCounter : ∃ P, demo.procs[1]? = some P ∧ P.state = .running ∧ 0 < P.stall :=
  ⟨_, rfl, rfl, by decide⟩

/-- An instruction to fetch, a processor that is not RUNNING, and a FINISHED machine. -/
theorem witness_StepRunsTheDecodedInstruction :
    Running { demo with cur := 0 } demoProc 0 { demoThread 0 .running (some 0) with joiners := [6] } ∧
    demoProc.state = .running ∧ demoProc.stall = 0 ∧ (demo.codeOf 0)[demoProc.regs.pc.toNat]? = some
      0x0000000000000002000000010000000300033000 ∧
    decode 0x0000000000000002000000010000000300033000 = .ok (.add ⟨false, 3⟩ 3 (.reg 1) (.reg 2)) ∧
    (∀ P, solo.procs[1]? = some P → P.state ≠ .running) ∧ demo.vm ≠ .finished ∧ finished.vm = .finished :=
  ⟨⟨rfl, rfl, rfl⟩, rfl, rfl, rfl, by decide, by rintro P ⟨⟩; decide, by decide, rfl⟩

theorem witness_StepOfOneRunningProcessor :
    solo.vm ≠ .finished ∧ 0 < solo.cfg.nproc ∧
    Running { beginStep solo with cur := 0 } demoProc 0 { demoThread 0 .running (some 0) with joiners := [6] } ∧
    demoProc.state = .running ∧ demoProc.stall = 0 ∧
    (∀ q Q, q ≠ 0 → (beginStep solo).procs[q]? = some Q → Q.state ≠ .running) ∧
    ((beginStep solo).codeOf 0)[demoProc.regs.pc.toNat]? = some 0x0000000000000002000000010000000300033000 ∧
    decode 0x0000000000000002000000010000000300033000 = .ok (.add ⟨false, 3⟩ 3 (.reg 1) (.reg 2)) := by
  refine ⟨by decide, by decide, ⟨rfl, rfl, rfl⟩, rfl, rfl, ?_, rfl, by decide⟩
  intro q Q hq hQ
  rcases q with _ | _ | q
  · exact absurd rfl hq
  · cases hQ
    decide
  · cases hQ

theorem witness_LatencyLaw : ∃ P', Running demo demoProc 0 { demoThread 0 .running (some 0) with joiners := [6] } ∧
    demoProc.state = .running ∧ exec (.nop ⟨false, 255⟩) demo = .next (after (.nop ⟨false, 255⟩) demo) ∧
    (after (.nop ⟨false, 255⟩) demo).procs[demo.cur]? = some P' ∧ P'.state = .running :=
  ⟨_, demo_running, rfl, rfl, rfl, rfl⟩

/-- demo with processor 0 at another index, and at another level. -/
def demoAt (pc : Word) (level : Privilege) : State :=
  demo.modRegs 0 fun R => { R with pc := pc, priv := level }

def demoProcAt (pc : Word) (level : Privilege) : Proc :=
  { demoProc with regs := { demoProc.regs with pc := pc, priv := level } }

/-- The first index beyond the Program, an invalid word, and the same word marked privileged at USER. -/
theorem witness_InvalidFetchFaults :
    Running { demoAt 3 .user with cur := 0 } (demoProcAt 3 .user) 0
      { demoThread 0 .running (some 0) with joiners := [6] } ∧
    (demoAt 3 .user).plen 0 ≤ (demoProcAt 3 .user).regs.pc.toNat ∧
    Running { demoAt 2 .user with cur := 0 } (demoProcAt 2 .user) 0
      { demoThread 0 .running (some 0) with joiners := [6] } ∧
    ((demoAt 2 .user).codeOf 0)[(demoProcAt 2 .user).regs.pc.toNat]? = some 0x10600 ∧
    decode 0x10600 = .error .unknownType ∧ MayRun one (demoProcAt 2 .user) ∧
    decode 0x10E00 = .error .unknownType ∧ (1 ≤ guarded.lat ∧ Blocked guarded (demoProcAt 2 .user)) :=
  ⟨⟨rfl, rfl, rfl⟩, by decide, ⟨rfl, rfl, rfl⟩, rfl, by decide, by decide, by decide, by decide⟩

/-- At USER, and at SUPERVISOR, which is below KERNEL too. -/
theorem witness_PrivilegeCheckAndAcceptance :
    Running demo demoProc 0 { demoThread 0 .running (some 0) with joiners := [6] } ∧ 1 ≤ guarded.lat ∧
    Blocked guarded demoProc ∧ Blocked guarded (demoProcAt 0 .supervisor) ∧
    ¬ Blocked guarded (demoProcAt 0 .kernel) := ⟨demo_running, by decide⟩

/-- The hypotheses of AddSubMulResults, BitwiseResults, ShiftResults, LoadResult's first clause, JumpResults, LockResult,
PlainAdvance, YieldResult and SpawnResult: an unprivileged record at USER, and a privileged one at KERNEL. -/
theorem witness_Running_MayRun :
    Running demo demoProc 0 { demoThread 0 .running (some 0) with joiners := [6] } ∧ MayRun one demoProc ∧
    Running (demoAt 0 .kernel) (demoProcAt 0 .kernel) 0 { demoThread 0 .running (some 0) with joiners := [6] } ∧
    MayRun guarded (demoProcAt 0 .kernel) :=
  ⟨demo_running, by decide, ⟨rfl, rfl, rfl⟩, by decide⟩

/-- The counts 31 and 32 at which the clauses of ShiftResults meet, and the divisors 1 and 0 of DivisionResult. -/
theorem witness_ShiftResults_DivisionResult :
    (srcValue demoRegs (.imm 31)).toNat < 32 ∧ ¬ (srcValue demoRegs (.imm 32)).toNat < 32 ∧
    (srcValue demoRegs (.imm 1)).toNat ≠ 0 ∧ (srcValue demoRegs (.reg 0)).toNat = 0 := by decide

theorem witness_FlagsAfterCompute : computeDest (.xor one 3 (.reg 1) (.reg 1)) = some 3 ∧
    exec (.xor one 3 (.reg 1) (.reg 1)) demo = .next (after (.xor one 3 (.reg 1) (.reg 1)) demo) ∧
    (after (.xor one 3 (.reg 1) (.reg 1)) demo).faults = demo.faults := ⟨rfl, rfl, rfl⟩

/-- The hypotheses of LoadResult, StoreResult and CasResult: the first and the last word of memory; a CAS that hits and
one that misses. -/
theorem witness_LoadResult_StoreResult_CasResult : Coherent demo ∧ Accessible demo 0 ∧ Accessible demo 60 ∧
    MayRun one demoProc ∧ coherentWord demo (8 : Word).toNat = srcValue demoRegs (.imm 42) ∧
    coherentWord demo (8 : Word).toNat ≠ srcValue demoRegs (.imm 41) := ⟨demo_coherent, by decide⟩

/-- The hypotheses of PushResult, CallResult, PopResult and RetResult. -/
theorem witness_PushResult_CallResult_PopResult_RetResult : Coherent demo ∧ MayRun one demoProc ∧
    Accessible demo (demoProc.regs.x[Reg.sp] - 4) ∧ Accessible demo demoProc.regs.x[Reg.sp] :=
  ⟨demo_coherent, by decide⟩

/-- A lock that is new, free, held by another thread, and held by the thread itself. -/
theorem witness_LockResult :
    findLock 9 demo.locks = none ∧ (findLock 4 demo.locks).map (fun l => l.holder) = some none ∧
    (findLock 3 demo.locks).map (fun l => l.holder) = some (some 1) ∧
    (findLock 1 demo.locks).map (fun l => l.holder) = some (some 0) := by decide

/-- A lock the thread holds with and without a waiter, one another thread holds, one that is free, one never used. -/
theorem witness_UnlockResult :
    findLock 1 demo.locks = some ⟨1, some 0, [2]⟩ ∧ findLock 2 demo.locks = some ⟨2, some 0, []⟩ ∧
    findLock 3 demo.locks = some ⟨3, some 1, []⟩ ∧ findLock 4 demo.locks = some ⟨4, none, []⟩ ∧
    findLock 9 demo.locks = none := by decide

/-- Barrier 7 trips at 2 parties and waits at 3; a new barrier trips at 1 and waits at 0. -/
theorem witness_BarrierResult :
    findBarrier 7 demo.barriers = some ⟨7, 2, [4], false, 0⟩ ∧ 0 ∉ [4] ∧ [4].Pairwise (· < ·) ∧
    [4].length + 1 = (2 : Word).toNat ∧ [4].length + 1 ≠ (3 : Word).toNat ∧
    findBarrier 8 demo.barriers = none ∧ ([] : List Nat).length + 1 = (1 : Word).toNat ∧
    ([] : List Nat).length + 1 ≠ (0 : Word).toNat := by decide

theorem witness_HaltResult : MayRun one demoProc ∧ 0 ∉ parked demo := by decide

/-- JOIN on a terminated thread, on a waiting one, on the thread itself, on the first id no thread has. -/
theorem witness_JoinResult :
    demo.threads[(3 : Word).toNat]?.map (fun J => J.state) = some .terminated ∧
    demo.threads[(2 : Word).toNat]?.map (fun J => J.state) = some .waiting ∧
    demo.threads[(0 : Word).toNat]?.map (fun J => J.state) = some .running ∧
    demo.threads.length ≤ (7 : Word).toNat := by decide

/-- Misaligned by one, misaligned beyond the end, and the first word beyond the end, for each form that accesses. -/
theorem witness_AddressFaults :
    accessAddr demoRegs (.load one 3 (.addr 1)) = some 1 ∧ (1 : Word).toNat % 4 ≠ 0 ∧
    accessAddr demoRegs (.store one 3 66) = some 66 ∧ (66 : Word).toNat % 4 ≠ 0 ∧
    accessAddr demoRegs (.cas one 64 (.imm 0) (.imm 0) 3) = some 64 ∧ (64 : Word).toNat % 4 = 0 ∧
    demo.cfg.memSize < (64 : Word).toNat + 4 ∧
    accessAddr RegSet.reset (.push one 0) = some 0xFFFFFFFC ∧ accessAddr RegSet.reset (.call one 0) = some 0xFFFFFFFC ∧
    accessAddr (writeReg RegSet.reset Reg.sp 2) (.pop one 0) = some 2 ∧
    accessAddr (writeReg RegSet.reset Reg.sp 64) (.ret one) = some 64 := by decide

theorem witness_WhichInstructionsFault : exec (.load one 3 (.addr 60)) demo = .next (after (.load one 3 (.addr 60)) demo) ∧
    mayFailInVm (.load one 3 (.addr 60)) = false ∧ ¬ Blocked one demoProc ∧ Accessible demo 60 ∧
    dividesByZero demoRegs (.load one 3 (.addr 60)) = false := ⟨rfl, by decide⟩

theorem witness_ThreadEnds : demo.procs[0]? = some demoProc ∧
    demo.threads[0]? = some { demoThread 0 .running (some 0) with joiners := [6] } ∧ 0 ∉ parked demo :=
  ⟨rfl, rfl, by decide⟩

/-- The hypotheses of DataReadReturnsNewest, DataWriteStores, LocalReadTransition and LocalWriteTransition, with every
state a line can be in at the processor that makes the access; the thread id an access carries is unconstrained. -/
theorem witness_DataAccess : Coherent demo ∧ demo.cfg.coherence = true ∧ 1 < demo.cfg.nproc ∧
    Accessible demo 0 ∧ lineState demo 0 0 = .shared ∧ Accessible demo 12 ∧ lineState demo 0 8 = .modified ∧
    lineState demo 1 8 = .invalid ∧ Accessible demo 24 ∧ lineState demo 1 24 = .exclusive ∧
    Accessible demo 60 ∧ lineState demo 0 56 = .invalid ∧ lineState demo 1 56 = .invalid :=
  ⟨demo_coherent, by decide⟩

/-- A machine with no caches in use. -/
def flat : State :=
  { demo with cfg := { demoConfig with coherence := false }, mem := memWriteWord (memWriteWord [] 8 42) 12 7 }

/-- The clause of CountersOnlyCountUp on a machine without coherence. -/
theorem witness_CountersWithoutCoherence : step flat = .next (stepped flat) ∧ flat.cfg.coherence = false ∧
    flat.threads[3]? = some (demoThread 3 .terminated none) := ⟨rfl, rfl, rfl⟩

theorem flat_coherent : Coherent flat :=
  ⟨by decide, by decide, by decide, by decide, demo_caches_ok, by decide, by decide⟩

theorem witness_FlushMakesMemoryCurrent : Coherent demo ∧ (8 % 4 = 0 ∧ 8 + 4 ≤ demo.cfg.memSize) ∧
    (60 % 4 = 0 ∧ 60 + 4 ≤ demo.cfg.memSize) := ⟨demo_coherent, by decide⟩

theorem witness_SnoopTransitions : demoConfig.ok = true ∧ CacheOk demoConfig (demo.cacheAt 0) ∧
    lineStateIn demoConfig (demo.cacheAt 0) 0 = .shared ∧ lineStateIn demoConfig (demo.cacheAt 0) 8 = .modified ∧
    lineStateIn demoConfig (demo.cacheAt 0) 16 = .invalid ∧ lineStateIn demoConfig (demo.cacheAt 1) 24 = .exclusive ∧
    lineAddr demoConfig 8 ≠ lineAddr demoConfig 7 := by decide

theorem witness_BusRequestCompletesAfterLatency : 1 ≤ demo.cfg.busLatency ∧ 2 ≤ Config.vector.busLatency := by decide

theorem witness_MainMemoryIsLittleEndian : Memory.wf (memWriteWord [] 8 42) = true := by decide

theorem witness_ContextSwitchPreservesRegisters : demo.procs[0]? = some demoProc ∧
    demo.threads[0]? = some { demoThread 0 .running (some 0) with joiners := [6] } ∧
    ((suspend 0 0 demo).procs[1]?).isSome = true := ⟨rfl, rfl, by decide⟩

/-- One idle processor and no ready thread; two idle processors and one ready thread. -/
theorem witness_ScheduleIsFifo : solo.procs.length = solo.cfg.nproc ∧ (∀ t ∈ solo.ready, t < solo.threads.length) ∧
    idleProcs solo = [1] ∧ solo.ready.length ≤ 0 ∧
    let s := { solo with procs := [Proc.reset true, Proc.reset true], ready := [5] }
    s.procs.length = s.cfg.nproc ∧ (∀ t ∈ s.ready, t < s.threads.length) ∧ (idleProcs s)[0]? = some 0 ∧
      s.ready[0]? = some 5 ∧ (idleProcs s)[1]? = some 1 ∧ s.ready.length ≤ 1 := by decide

/-- A pending exception, a running processor, a machine with nothing left, a machine in which only waiters are left. -/
theorem witness_StepEnds :
    let r : FaultRecord := ⟨3, 0, 0, .vm .lockInconsistency, 0, 9⟩
    let idle : State := { solo with procs := [Proc.reset true, Proc.reset true] }
    { demo with pending := [r] }.pending = r :: [] ∧
    (demo.pending = [] ∧ ¬ ((∀ P ∈ demo.procs, P.state ≠ .running) ∧ demo.ready = [])) ∧
    (idle.pending = [] ∧ ((∀ P ∈ idle.procs, P.state ≠ .running) ∧ idle.ready = []) ∧
      ∃ T ∈ idle.threads, T.state = .waiting) ∧
    let done : State := { idle with threads := [demoThread 0 .terminated none] }
    done.pending = [] ∧ ((∀ P ∈ done.procs, P.state ≠ .running) ∧ done.ready = []) ∧
      ∀ T ∈ done.threads, T.state ≠ .waiting := by decide

theorem witness_CachesAreInvisible : Coherent demo ∧ flat.mem.wf = true ∧ FlatViewOf demo flat ∧
    step demo = .next (stepped demo) := by
  refine ⟨demo_coherent, by decide, ⟨rfl, rfl, rfl, rfl, rfl, rfl, rfl, rfl, rfl, rfl, rfl, rfl, rfl, rfl, ?_⟩, demo_step⟩
  have h : ∀ k < 16, memReadWord flat.mem (4 * k) = coherentWord demo (4 * k) := by decide
  intro a h4 hm
  have hk := h (a / 4) (by have : demo.cfg.memSize = 64 := rfl; omega)
  rwa [Nat.mul_div_cancel' (Nat.dvd_of_mod_eq_zero h4)] at hk

/-! ### The machine right after a word is placed -/

/-- A placed `LOAD R1, #5` is the first instruction the next step runs. -/
theorem test_placed_word_runs :
    (match step (State.reset.withFetchWord 160 0x0000000000000000000000050000000104012110) with
      | .next s => some ((s.regsOf 0).x[1], (s.regsOf 0).pc, s.clock)
      | .fault _ => none
      | .refused _ => none) = some (5, 1, 1) := by decide

/-- A record of latency 0 is refused (30_encoding.md R132). -/
theorem test_placed_latency_zero_is_refused :
    (match step (State.reset.withFetchWord 11 0x550) with
      | .refused .latencyZero => true
      | .next _ => false
      | .fault _ => false
      | .refused _ => false) = true := by decide

end Sys2Proof.Tests
end

section
/-! SUPPORT. Lines: words of main memory by the line, and the arithmetic of line addresses (46_cache_ops.md R281). -/

namespace Sys2Proof.Machine

/-! ### Lines of main memory -/

@[simp] theorem memLineRead_length (m : Memory) (n : Nat) : ∀ la, (memLineRead m la n).length = n := by
  induction n with
  | zero => intro _; rfl
  | succ n ih => intro la; simp [memLineRead, ih]

/-- Storing a line leaves every word outside it alone. -/
theorem memReadWord_memLineWrite_other (d : List Word) : ∀ {m : Memory} (la a : Nat), m.wf = true →
    (a + 4 ≤ la ∨ la + 4 * d.length ≤ a) → memReadWord (memLineWrite m la d) a = memReadWord m a := by
  induction d with
  | nil => intros; rfl
  | cons v d ih =>
    intro m la a hm h
    rw [List.length_cons] at h
    rw [memLineWrite, ih _ _ (memWriteWord_wf la v hm) (by omega)]
    exact memReadWord_memWriteWord_other la a v hm (by omega)

/-- A line stored is the line read back. -/
theorem memLineRead_memLineWrite_same (d : List Word) : ∀ {m : Memory} (la : Nat), m.wf = true →
    memLineRead (memLineWrite m la d) la d.length = d := by
  induction d with
  | nil => intros; rfl
  | cons v d ih =>
    intro m la hm
    have hw := memWriteWord_wf la v hm
    rw [memLineWrite, List.length_cons, memLineRead, ih _ hw,
      memReadWord_memLineWrite_other d _ la hw (.inl (Nat.le_refl _)), memReadWord_memWriteWord_same la v hm]

/-- Storing a line leaves every line that shares no byte with it alone. -/
theorem memLineRead_memLineWrite_other {m : Memory} {d : List Word} {la : Nat} (hm : m.wf = true) (n : Nat) :
    ∀ a, (a + 4 * n ≤ la ∨ la + 4 * d.length ≤ a) →
      memLineRead (memLineWrite m la d) a n = memLineRead m a n := by
  induction n with
  | zero => intros; rfl
  | succ n ih =>
    intro a h
    rw [memLineRead, memLineRead, memReadWord_memLineWrite_other d la a hm (by omega), ih (a + 4) (by omega)]

/-! ### Line addresses -/

/-- The constraints of 00_scope.md R9, one by one. -/
theorem Config.ok_iff (c : Config) : c.ok = true ↔
    c.lineSize % 4 = 0 ∧ 4 ≤ c.lineSize ∧ c.memSize % c.lineSize = 0 ∧ c.memSize ≤ 2 ^ 32 ∧
      1 ≤ c.busLatency ∧ 1 ≤ c.nproc ∧ 1 ≤ c.numSets ∧ 1 ≤ c.assoc := by
  simp only [Config.ok, Bool.and_eq_true, beq_iff_eq, decide_eq_true_eq, and_assoc]

/-- A line is a whole number of words. -/
theorem four_mul_lineWords {c : Config} (h : c.ok = true) : 4 * c.lineWords = c.lineSize :=
  Nat.mul_div_cancel' (Nat.dvd_of_mod_eq_zero ((Config.ok_iff c).1 h).1)

/-- `la` is a line address of main memory. -/
structure LineInRange (c : Config) (la : Nat) : Prop where
  aligned : la % c.lineSize = 0
  inside  : la + c.lineSize ≤ c.memSize

theorem lineAddr_eq_mul (c : Config) (a : Nat) : lineAddr c a = c.lineSize * (a / c.lineSize) := by
  have := Nat.div_add_mod a c.lineSize
  rw [lineAddr]
  omega

/-- A line address is its own line. -/
theorem lineAddr_of_aligned {c : Config} {la : Nat} (h : la % c.lineSize = 0) : lineAddr c la = la := by
  rw [lineAddr, h, Nat.sub_zero]

@[simp] theorem lineAddr_mod (c : Config) (a : Nat) : lineAddr c a % c.lineSize = 0 := by
  rw [lineAddr_eq_mul, Nat.mul_mod_right]

/-- An address and its line lie in the same set. -/
@[simp] theorem setIndex_lineAddr {c : Config} (h : c.ok = true) (a : Nat) :
    setIndex c (lineAddr c a) = setIndex c a := by
  have hl : 0 < c.lineSize := by have := ((Config.ok_iff c).1 h).2.1; omega
  rw [setIndex, setIndex, lineAddr_eq_mul, Nat.mul_div_cancel_left _ hl]

/-- The line of an address in range is in range. -/
theorem lineAddr_inRange {c : Config} (h : c.ok = true) {a : Nat} (ha : a < c.memSize) :
    LineInRange c (lineAddr c a) := by
  obtain ⟨-, h4, hm, -⟩ := (Config.ok_iff c).1 h
  refine ⟨lineAddr_mod c a, ?_⟩
  have hlt : a / c.lineSize < c.memSize / c.lineSize := by
    rw [Nat.div_lt_iff_lt_mul (by omega), Nat.div_mul_cancel (Nat.dvd_of_mod_eq_zero hm)]
    exact ha
  calc lineAddr c a + c.lineSize = c.lineSize * (a / c.lineSize + 1) := by rw [lineAddr_eq_mul, Nat.mul_succ]
    _ ≤ c.lineSize * (c.memSize / c.lineSize) := Nat.mul_le_mul_left _ hlt
    _ = c.memSize := Nat.mul_div_cancel' (Nat.dvd_of_mod_eq_zero hm)

/-- The set of a line exists. -/
theorem setIndex_lt {c : Config} (h : c.ok = true) (a : Nat) : setIndex c a < c.numSets := by
  have := ((Config.ok_iff c).1 h).2.2.2.2.2.2.1
  exact Nat.mod_lt _ (by omega)

/-- Two lines share no byte. -/
theorem lines_disjoint {L a b : Nat} (ha : a % L = 0) (hb : b % L = 0) (h : a ≠ b) : a + L ≤ b ∨ b + L ≤ a := by
  obtain ⟨i, rfl⟩ := Nat.dvd_of_mod_eq_zero ha
  obtain ⟨j, rfl⟩ := Nat.dvd_of_mod_eq_zero hb
  have hij : i ≠ j := fun e => h (by rw [e])
  rcases Nat.lt_or_gt_of_ne hij with hlt | hlt
  · exact .inl (by rw [← Nat.mul_succ]; exact Nat.mul_le_mul_left L hlt)
  · exact .inr (by rw [← Nat.mul_succ]; exact Nat.mul_le_mul_left L hlt)

end Sys2Proof.Machine
end

section
/-! SUPPORT. The slots of a cache after one of them was replaced, and that the shape and the placing of 10_state.md
R40 I4 and I5 are kept. -/

namespace Sys2Proof.Machine

theorem mem_slots {k : Cache} {sl : CacheSlot} : sl ∈ slots k ↔ ∃ si < k.sets.length, sl ∈ setOf k si := by
  simp only [slots, List.mem_flatten]
  constructor
  · rintro ⟨set, hset, hsl⟩
    obtain ⟨si, hlt, rfl⟩ := List.mem_iff_getElem.1 hset
    exact ⟨si, hlt, by simpa [setOf, List.getD_eq_getElem?_getD, hlt] using hsl⟩
  · rintro ⟨si, hlt, hsl⟩
    exact ⟨k.sets[si], List.getElem_mem hlt, by simpa [setOf, List.getD_eq_getElem?_getD, hlt] using hsl⟩

/-- A slot of a set is a slot of the cache. -/
theorem mem_slots_of_mem_setOf {k : Cache} {si : Nat} {sl : CacheSlot} (h : sl ∈ setOf k si) : sl ∈ slots k := by
  refine mem_slots.2 ⟨si, ?_, h⟩
  by_contra hn
  simp [setOf, List.getD_eq_getElem?_getD, List.getElem?_eq_none (Nat.le_of_not_lt hn)] at h

/-- A valid slot read at a way is a way that exists. -/
theorem slotOf_valid {k : Cache} {si w : Nat} (h : (slotOf k si w).state ≠ .invalid) :
    w < (setOf k si).length := by
  by_contra hn
  simp [slotOf, List.getD_eq_getElem?_getD, List.getElem?_eq_none (Nat.le_of_not_lt hn), noSlot, resetSlot] at h

theorem DistinctLines.symm {a b : CacheSlot} (h : DistinctLines a b) : DistinctLines b a :=
  fun hb ha e => h ha hb e.symm

/-- Replacing an entry of a list whose entries are pairwise in a symmetric relation. -/
theorem pairwise_set {α : Type} {R : α → α → Prop} (hsymm : ∀ a b, R a b → R b a) {l : List α} {w : Nat} {x : α}
    (h : l.Pairwise R) (hx : ∀ i (hi : i < l.length), i ≠ w → R l[i] x) : (l.set w x).Pairwise R := by
  rw [List.pairwise_iff_getElem] at h ⊢
  intro i j hi hj hij
  have hi' : i < l.length := by simpa using hi
  have hj' : j < l.length := by simpa using hj
  simp only [List.getElem_set]
  split
  · subst_vars
    rw [if_neg (by omega)]
    exact hsymm _ _ (hx j hj' (by omega))
  · split
    · exact hx i hi' (by omega)
    · exact h i j hi' hj' hij

/-- Two entries of such a list. -/
theorem pairwise_getElem {α : Type} {R : α → α → Prop} (hsymm : ∀ a b, R a b → R b a) {l : List α}
    (h : l.Pairwise R) {i j : Nat} (hi : i < l.length) (hj : j < l.length) (hne : i ≠ j) : R l[i] l[j] := by
  rw [List.pairwise_iff_getElem] at h
  rcases Nat.lt_or_gt_of_ne hne with hlt | hlt
  · exact h i j hi hj hlt
  · exact hsymm _ _ (h j i hj hi hlt)

/-- x may stand in way w of set si: it is placed there, dirty exactly in MODIFIED, and no other way of the set holds
its line. -/
structure SlotFits (c : Config) (k : Cache) (si w : Nat) (x : CacheSlot) : Prop where
  placed   : SlotPlaced c si x
  dirty    : x.dirty = decide (x.state = .modified)
  distinct : ∀ i (hi : i < (setOf k si).length), i ≠ w → DistinctLines (setOf k si)[i] x

/-- A valid slot stands in the set of its line. -/
theorem setIndex_of_mem_setOf {c : Config} {k : Cache} (hk : CacheOk c k) {si : Nat} {sl : CacheSlot}
    (h : sl ∈ setOf k si) (hv : sl.state ≠ .invalid) : si < c.numSets ∧ setIndex c sl.addr = si := by
  obtain ⟨hlen, hsets, -⟩ := hk
  have hsi : si < c.numSets := by
    by_contra hn
    simp [setOf, List.getD_eq_getElem?_getD, List.getElem?_eq_none (show k.sets.length ≤ si by omega)] at h
  exact ⟨hsi, ((hsets si hsi).2.1 sl h hv).2.2.1⟩

/-- Two ways of the cache that are not the same way hold different lines. -/
theorem distinct_of_ways {c : Config} {k : Cache} (hk : CacheOk c k) {si sj i : Nat} (hi : i < (setOf k sj).length)
    {w : Nat} (h : ¬ (sj = si ∧ i = w)) : DistinctLines (setOf k sj)[i] (slotOf k si w) := by
  intro hv hv' e
  have hw := slotOf_valid hv'
  rw [slotOf_eq hw] at hv' e
  obtain ⟨hsj, hset⟩ := setIndex_of_mem_setOf hk (List.getElem_mem hi) hv
  obtain ⟨-, hset'⟩ := setIndex_of_mem_setOf hk (List.getElem_mem hw) hv'
  rw [e, hset'] at hset
  subst hset
  have hne : i ≠ w := fun e => h ⟨rfl, e⟩
  exact pairwise_getElem (fun _ _ => DistinctLines.symm) (hk.2.1 _ hsj).2.2 hi hw hne hv hv' e

/-- The slots after a replacement: the new one, and old ones that hold another line than the one replaced. -/
theorem mem_slots_putSlot {c : Config} {k : Cache} (hk : CacheOk c k) {si w : Nat} {x sl : CacheSlot}
    (h : sl ∈ slots (putSlot k si w x)) : sl = x ∨ (sl ∈ slots k ∧ DistinctLines sl (slotOf k si w)) := by
  obtain ⟨sj, -, hsl⟩ := mem_slots.1 h
  rw [setOf_putSlot] at hsl
  split at hsl
  · subst_vars
    obtain ⟨i, hi, rfl⟩ := List.mem_iff_getElem.1 hsl
    rw [List.length_set] at hi
    rw [List.getElem_set]
    split
    · exact .inl rfl
    · rename_i hne
      exact .inr ⟨mem_slots_of_mem_setOf (List.getElem_mem hi), distinct_of_ways hk hi fun e => hne e.2.symm⟩
  · rename_i hne
    obtain ⟨i, hi, rfl⟩ := List.mem_iff_getElem.1 hsl
    exact .inr ⟨mem_slots_of_mem_setOf hsl, distinct_of_ways hk hi fun e => hne e.1⟩

/-- Two valid slots of a cache that hold the same line are one. -/
theorem slot_unique {c : Config} {k : Cache} (hk : CacheOk c k) {a b : CacheSlot} (ha : a ∈ slots k)
    (hb : b ∈ slots k) (hva : a.state ≠ .invalid) (hvb : b.state ≠ .invalid) (e : a.addr = b.addr) : a = b := by
  obtain ⟨si, -, ha⟩ := mem_slots.1 ha
  obtain ⟨sj, -, hb⟩ := mem_slots.1 hb
  obtain ⟨i, hi, rfl⟩ := List.mem_iff_getElem.1 ha
  obtain ⟨j, hj, rfl⟩ := List.mem_iff_getElem.1 hb
  by_contra hne
  have hd : DistinctLines (setOf k si)[i] (slotOf k sj j) := distinct_of_ways hk hi (by
    rintro ⟨rfl, rfl⟩
    exact hne rfl)
  rw [slotOf_eq hj] at hd
  exact hd hva hvb e

/-- A slot that fits leaves a cache in order. -/
theorem cacheOk_putSlot {c : Config} {k : Cache} (hk : CacheOk c k) {si w : Nat} {x : CacheSlot}
    (hx : SlotFits c k si w x) : CacheOk c (putSlot k si w x) := by
  obtain ⟨hlen, hsets, hdirty⟩ := id hk
  refine ⟨by rw [putSlot_sets_length, hlen], fun sj hsj => ?_, fun sl hsl => ?_⟩
  · obtain ⟨hl, hp, hd⟩ := hsets sj hsj
    refine ⟨by rw [setOf_putSlot_length, hl], ?_⟩
    rw [setOf_putSlot]
    split
    · subst_vars
      refine ⟨fun sl hsl => ?_, pairwise_set (fun _ _ => DistinctLines.symm) hd hx.distinct⟩
      rcases List.mem_or_eq_of_mem_set hsl with hsl | rfl
      · exact hp sl hsl
      · exact hx.placed
    · exact ⟨hp, hd⟩
  · rcases mem_slots_putSlot hk hsl with rfl | ⟨hsl, -⟩
    · exact hx.dirty
    · exact hdirty sl hsl

/-- No slot of the cache holds line `la`. -/
def NoHolder (k : Cache) (la : Nat) : Prop := ∀ sl ∈ slots k, sl.state ≠ .invalid → sl.addr ≠ la

/-- When `Lookup` finds nothing, no slot of the cache holds the line. -/
theorem noHolder_of_lookup_none {c : Config} {k : Cache} (hc : c.ok = true) (hk : CacheOk c k) {a : Nat}
    (h : lookup c k a = none) : NoHolder k (lineAddr c a) := by
  obtain ⟨hlen, hsets, -⟩ := hk
  intro sl hsl hv e
  obtain ⟨si, hsi, hm⟩ := mem_slots.1 hsl
  have hset : setIndex c sl.addr = si := ((hsets si (hlen ▸ hsi)).2.1 sl hm hv).2.2.1
  rw [e, setIndex_lineAddr hc] at hset
  subst hset
  rcases lookup_none h sl hm with h | h
  · exact hv h
  · exact h e

/-- The slot `Lookup` answers: a slot of the cache, valid, in its place and holding the line. -/
theorem lookup_slot {c : Config} {k : Cache} (hc : c.ok = true) (hk : CacheOk c k) {a w : Nat}
    (h : lookup c k a = some w) :
    let sl := slotOf k (setIndex c a) w
    sl ∈ slots k ∧ sl.state ≠ .invalid ∧ sl.addr = lineAddr c a ∧ SlotPlaced c (setIndex c a) sl ∧
      sl.dirty = decide (sl.state = .modified) := by
  obtain ⟨hw, hv, ha⟩ := lookup_some h
  obtain ⟨-, hsets, hdirty⟩ := hk
  have hm := List.getElem_mem hw
  have hs := mem_slots_of_mem_setOf hm
  rw [slotOf_eq hw]
  exact ⟨hs, hv, ha, (hsets _ (setIndex_lt hc a)).2.1 _ hm, hdirty _ hs⟩

/-- A slot with the line of the way it replaces fits there. -/
theorem slotFits_of_lookup {c : Config} {k : Cache} (hc : c.ok = true) (hk : CacheOk c k) {a w : Nat}
    {x : CacheSlot} (h : lookup c k a = some w) (haddr : x.addr = lineAddr c a)
    (hlen : x.state ≠ .invalid → x.data.length = c.lineWords) (hdirty : x.dirty = decide (x.state = .modified)) :
    SlotFits c k (setIndex c a) w x := by
  obtain ⟨-, hv, ha, hp, -⟩ := lookup_slot hc hk h
  obtain ⟨h1, h2, h3, -⟩ := hp hv
  rw [ha, ← haddr] at h1 h2 h3
  refine ⟨fun hx => ⟨h1, h2, h3, hlen hx⟩, hdirty, fun i hi hne hvi _ e => ?_⟩
  exact distinct_of_ways hk hi (fun e => hne e.2) hvi hv (by rw [e, haddr, ha])

/-- Where no way holds the line, a slot of the line fits in any way of its set. -/
theorem slotFits_of_lookup_none {c : Config} {k : Cache} {la : Nat} (hla : LineInRange c la)
    {w : Nat} {x : CacheSlot} (h : lookup c k la = none) (haddr : x.addr = la)
    (hlen : x.data.length = c.lineWords) (hdirty : x.dirty = decide (x.state = .modified)) :
    SlotFits c k (setIndex c la) w x := by
  refine ⟨fun _ => ⟨haddr ▸ hla.aligned, haddr ▸ hla.inside, by rw [haddr], hlen⟩, hdirty, ?_⟩
  intro i hi _ hv _ e
  rcases lookup_none h _ (List.getElem_mem hi) with h | h
  · exact hv h
  · exact h (by rw [e, haddr, lineAddr_of_aligned hla.aligned])

end Sys2Proof.Machine
end

section
/-! SUPPORT. The invariants of the cache system (10_state.md R40) under the two changes every memory operation is made
of: one slot of one cache replaced, and one line of main memory written. -/

namespace Sys2Proof.Machine

/-! ### What Coherent says of one cache and of two -/

theorem Coherent.configOk {s : State} (h : Coherent s) : s.cfg.ok = true := h.1

theorem Coherent.memWf {s : State} (h : Coherent s) : s.mem.wf = true := h.2.1

theorem Coherent.caches_length {s : State} (h : Coherent s) : s.caches.length = s.procs.length :=
  h.2.2.2.1.trans h.2.2.1.symm

theorem Coherent.cacheOk {s : State} (h : Coherent s) {q : Nat} {k : Cache} (hq : s.caches[q]? = some k) :
    CacheOk s.cfg k := h.2.2.2.2.1 k (List.mem_of_getElem? hq)

theorem Coherent.clean {s : State} (h : Coherent s) (hc : s.cfg.coherence = true) {q : Nat} {k : Cache}
    (hq : s.caches[q]? = some k) : ∀ sl ∈ slots k, CleanMatches s sl :=
  h.2.2.2.2.2.2 hc k (List.mem_of_getElem? hq)

theorem ShareOnly.symm {k k' : Cache} (h : ShareOnly k k') : ShareOnly k' k :=
  fun a ha b hb hva hvb e => (h b hb a ha hvb hva e.symm).symm

theorem Coherent.share {s : State} (h : Coherent s) {p q : Nat} {k k' : Cache} (hp : s.caches[p]? = some k)
    (hq : s.caches[q]? = some k') (hne : p ≠ q) : ShareOnly k k' := by
  obtain ⟨hlp, rfl⟩ := List.getElem?_eq_some_iff.1 hp
  obtain ⟨hlq, rfl⟩ := List.getElem?_eq_some_iff.1 hq
  exact pairwise_getElem (fun _ _ => ShareOnly.symm) h.2.2.2.2.2.1 hlp hlq hne

/-- The invariants are about the configuration, main memory, the caches and the number of processors. -/
theorem Coherent.congr {s s' : State} (h : Coherent s) (hcfg : s'.cfg = s.cfg) (hmem : s'.mem = s.mem)
    (hcaches : s'.caches = s.caches) (hprocs : s'.procs.length = s.procs.length) : Coherent s' := by
  unfold Coherent CleanMatches at *
  rw [hcfg, hmem, hcaches, hprocs]
  exact h

/-- A line that some cache holds MODIFIED is held by no other slot (10_state.md R40 I1, I4). -/
theorem Coherent.holder_of_modified {s : State} (h : Coherent s) {p q : Nat} {k k' : Cache}
    (hp : s.caches[p]? = some k) (hq : s.caches[q]? = some k') {a b : CacheSlot} (ha : a ∈ slots k)
    (hb : b ∈ slots k') (hm : a.state = .modified) (hv : b.state ≠ .invalid) (e : b.addr = a.addr) :
    q = p ∧ b = a := by
  have hva : a.state ≠ .invalid := by simp [hm]
  rcases eq_or_ne p q with rfl | hne
  · obtain rfl : k = k' := Option.some.inj (hp.symm.trans hq)
    exact ⟨rfl, slot_unique (h.cacheOk hp) hb ha hv hva e⟩
  · have := (h.share hp hq hne a ha b hb hva hv e.symm).1
    simp [hm] at this

/-! ### One slot replaced -/

/-- Beside the other caches and main memory, x may stand in cache p: a line another cache holds is SHARED in both, and
a clean line is main memory's. -/
structure SlotAllowed (s : State) (p : Nat) (x : CacheSlot) : Prop where
  alone : x.state ≠ .invalid → ∀ q k, q ≠ p → s.caches[q]? = some k → ∀ b ∈ slots k, b.state ≠ .invalid →
    b.addr = x.addr → x.state = .shared ∧ b.state = .shared
  clean : s.cfg.coherence = true → CleanMatches s x

/-- The slots of a coherent state are allowed. -/
theorem Coherent.slotAllowed {s : State} (h : Coherent s) {p : Nat} {k : Cache} (hp : s.caches[p]? = some k)
    {sl : CacheSlot} (hs : sl ∈ slots k) : SlotAllowed s p sl where
  alone hv _ _ hne hq b hb hvb e := (h.share hp hq (Ne.symm hne)) sl hs b hb hv hvb e.symm
  clean hc := h.clean hc hp sl hs

/-- A slot that is INVALID is allowed. -/
theorem slotAllowed_of_invalid {s : State} {p : Nat} {x : CacheSlot} (hx : x.state = .invalid) : SlotAllowed s p x where
  alone hv := absurd hx hv
  clean _ h := by simp [hx] at h

/-- What is allowed does not hang on `lastUse`. -/
theorem SlotAllowed.touch {s : State} {p : Nat} {x : CacheSlot} (h : SlotAllowed s p x) (n : Nat) :
    SlotAllowed s p { x with lastUse := n } := ⟨h.alone, h.clean⟩

theorem SlotFits.touch {c : Config} {k : Cache} {si w : Nat} {x : CacheSlot} (h : SlotFits c k si w x) (n : Nat) :
    SlotFits c k si w { x with lastUse := n } := ⟨h.placed, h.dirty, h.distinct⟩

/-- The order of a cache does not hang on the use counter. -/
theorem cacheOk_of_sets {c : Config} {k k' : Cache} (h : CacheOk c k) (e : k'.sets = k.sets) : CacheOk c k' := by
  obtain ⟨sets, n⟩ := k'
  subst e
  exact h

/-- Replacing a slot by one that fits and is allowed keeps the invariants, whatever the use counter. -/
theorem coherent_putSlot {s : State} (h : Coherent s) {p : Nat} {k : Cache} (hp : s.caches[p]? = some k) {si w : Nat}
    {x : CacheSlot} (hfit : SlotFits s.cfg k si w x) (hallow : SlotAllowed s p x) {k' : Cache}
    (hsets : k'.sets = (putSlot k si w x).sets) : Coherent (s.putCache p k') := by
  have hk := h.cacheOk hp
  have hsl : ∀ sl ∈ slots k', SlotAllowed s p sl := by
    intro sl hsl
    rw [slots, hsets] at hsl
    rcases mem_slots_putSlot hk hsl with rfl | ⟨hm, -⟩
    · exact hallow
    · exact h.slotAllowed hp hm
  obtain ⟨hok, hwf, hpl, hcl, hks, hsh, hclean⟩ := h
  refine ⟨hok, hwf, hpl, by simpa using hcl, fun j hj => ?_, ?_, fun hc j hj sl hm => ?_⟩
  · rcases List.mem_or_eq_of_mem_set hj with hj | rfl
    · exact hks j hj
    · exact cacheOk_of_sets (cacheOk_putSlot hk hfit) hsets
  · refine pairwise_set (fun _ _ => ShareOnly.symm) hsh fun i hi hne => ?_
    intro b hb a ha hvb hva e
    exact ((hsl a ha).alone hva i _ hne (List.getElem?_eq_getElem hi) b hb hvb e).symm
  · rcases List.mem_or_eq_of_mem_set hj with hj | rfl
    · exact hclean hc j hj sl hm
    · exact (hsl sl hm).clean hc

/-- Replacing and touching a slot. -/
theorem coherent_putTouched {s : State} (h : Coherent s) {p : Nat} {k : Cache} (hp : s.caches[p]? = some k)
    {si w : Nat} {x : CacheSlot} (hfit : SlotFits s.cfg k si w x) (hallow : SlotAllowed s p x) :
    Coherent (s.putCache p (putTouched k si w x)) :=
  coherent_putSlot h hp (hfit.touch (k.useCtr + 1)) (hallow.touch (k.useCtr + 1)) rfl

/-! ### One line of main memory written -/

/-- Writing a line that no cache holds clean keeps the invariants. -/
theorem coherent_writeLine {s : State} (h : Coherent s) {la : Nat} {d : List Word} (hla : la % s.cfg.lineSize = 0)
    (hd : d.length = s.cfg.lineWords)
    (hno : ∀ k ∈ s.caches, ∀ sl ∈ slots k, sl.state = .shared ∨ sl.state = .exclusive → sl.addr ≠ la) :
    Coherent { s with mem := memLineWrite s.mem la d } := by
  obtain ⟨hok, hwf, hpl, hcl, hks, hsh, hclean⟩ := h
  refine ⟨hok, memLineWrite_wf d la hwf, hpl, hcl, hks, hsh, fun hc k hk sl hsl hst => ?_⟩
  obtain ⟨hlen, hsets, -⟩ := hks k hk
  obtain ⟨si, hsi, hm⟩ := mem_slots.1 hsl
  have hv : sl.state ≠ .invalid := by rcases hst with e | e <;> simp [e]
  have hal : sl.addr % s.cfg.lineSize = 0 := ((hsets si (hlen ▸ hsi)).2.1 sl hm hv).1
  rw [hclean hc k hk sl hsl hst]
  have h4 := four_mul_lineWords hok
  have hdis := lines_disjoint hal hla (hno k hk sl hsl hst)
  exact (memLineRead_memLineWrite_other hwf s.cfg.lineWords sl.addr (by rw [hd, h4]; exact hdis)).symm

/-- Writing back the line of a MODIFIED slot keeps the invariants. -/
theorem coherent_writeBack {s : State} (h : Coherent s) {p : Nat} {k : Cache} (hp : s.caches[p]? = some k)
    {sl : CacheSlot} (hs : sl ∈ slots k) (hm : sl.state = .modified) :
    Coherent { s with mem := memLineWrite s.mem sl.addr sl.data } := by
  obtain ⟨hlen, hsets, -⟩ := h.cacheOk hp
  obtain ⟨si, hsi, hmem⟩ := mem_slots.1 hs
  obtain ⟨hal, -, -, hd⟩ := (hsets si (hlen ▸ hsi)).2.1 sl hmem (by simp [hm])
  refine coherent_writeLine h hal hd fun k' hk' b hb hst e => ?_
  obtain ⟨q, hq⟩ := List.mem_iff_getElem?.1 hk'
  have hv : b.state ≠ .invalid := by rcases hst with e | e <;> simp [e]
  obtain ⟨-, rfl⟩ := h.holder_of_modified hp hq hs hb hm hv e
  simp [hm] at hst

end Sys2Proof.Machine
end

section
/-! SUPPORT. The snoops of a bus request (47_bus_ops.md R333 to R335), one cache at a time: each keeps the invariants
of the cache system. -/

namespace Sys2Proof.Machine

/-! ### The three snoops are one fold -/

/-- A snoop over the caches from processor id q on, the requester `pid` skipped: f is what one cache and what was
gathered become. -/
def snoopAll {β : Type} (f : Cache → β → Cache × β) (pid : Nat) : Nat → List Cache → β → List Cache × β
  | _, [], acc => ([], acc)
  | q, k :: ks, acc =>
    if q = pid then
      let r := snoopAll f pid (q + 1) ks acc
      (k :: r.1, r.2)
    else
      let r := snoopAll f pid (q + 1) ks (f k acc).2
      ((f k acc).1 :: r.1, r.2)

theorem snoopRead_eq_snoopAll (c : Config) (la pid : Nat) (ks : List Cache) : ∀ (q : Nat) (acc : SnoopAcc),
    snoopRead c la pid q ks acc = snoopAll
      (fun k acc => ((handleBusRead c k la).2, snoopReadReply la acc (handleBusRead c k la).1)) pid q ks acc := by
  induction ks with
  | nil => intros; rfl
  | cons k ks ih => intro q acc; simp only [snoopRead, snoopAll, ih]

theorem snoopExclusive_eq_snoopAll (c : Config) (la pid : Nat) (ks : List Cache) :
    ∀ (q : Nat) (acc : Memory × Option (List Word)), snoopExclusive c la pid q ks acc = snoopAll
      (fun k acc => ((handleBusReadExclusive c k la).2,
        snoopExclusiveReply la acc (handleBusReadExclusive c k la).1)) pid q ks acc := by
  induction ks with
  | nil => intros; rfl
  | cons k ks ih => intro q acc; simp only [snoopExclusive, snoopAll, ih]

theorem snoopInvalidate_eq_snoopAll (c : Config) (la pid : Nat) (ks : List Cache) : ∀ q : Nat,
    snoopInvalidate c la pid q ks =
      (snoopAll (fun k (_ : Unit) => (handleBusInvalidate c k la, ())) pid q ks ()).1 := by
  induction ks with
  | nil => intros; rfl
  | cons k ks ih => intro q; simp only [snoopInvalidate, snoopAll, ih]; split <;> rfl

/-- What the snoop of each cache keeps of the machine (`I`), the whole snoop keeps; what it makes of the cache snooped
(`D`) and the later ones do not undo, holds of every cache but the requester's. -/
theorem snoopAll_keeps {β : Type} {f : Cache → β → Cache × β} {pid : Nat} {I : List Cache → β → Prop}
    {D : Cache → β → Prop}
    (hstep : ∀ ks acc q k, q ≠ pid → ks[q]? = some k → I ks acc →
      I (ks.set q (f k acc).1) (f k acc).2 ∧ D (f k acc).1 (f k acc).2)
    (hmono : ∀ k acc j, D j acc → D j (f k acc).2) (ks : List Cache) :
    ∀ (pre : List Cache) (acc : β), I (pre ++ ks) acc → (∀ i j, i ≠ pid → pre[i]? = some j → D j acc) →
      let r := snoopAll f pid pre.length ks acc
      I (pre ++ r.1) r.2 ∧ ∀ i j, i ≠ pid → (pre ++ r.1)[i]? = some j → D j r.2 := by
  induction ks with
  | nil =>
    intro pre acc hI hD
    exact ⟨hI, by simpa [snoopAll] using hD⟩
  | cons k ks ih =>
    intro pre acc hI hD
    have hlast : ∀ (x : Cache) (acc' : β), (∀ j, D j acc → D j acc') → (pre.length ≠ pid → D x acc') →
        ∀ i j, i ≠ pid → (pre ++ [x])[i]? = some j → D j acc' := by
      intro x acc' hm hx i j hi hj
      rcases Nat.lt_or_ge i pre.length with hlt | hge
      · rw [List.getElem?_append_left hlt] at hj
        exact hm j (hD i j hi hj)
      · rw [List.getElem?_append_right hge, List.getElem?_singleton] at hj
        split at hj
        · cases hj
          exact hx (by omega)
        · cases hj
    simp only [snoopAll]
    split
    · rename_i hpid
      simpa using ih (pre ++ [k]) acc (by simpa using hI) (hlast k acc (fun _ h => h) fun h => absurd hpid h)
    · rename_i hpid
      obtain ⟨h1, h2⟩ := hstep _ acc pre.length k hpid (by simp) hI
      simpa using ih (pre ++ [(f k acc).1]) (f k acc).2 (by simpa using h1)
        (hlast _ _ (fun j => hmono k acc j) fun _ => h2)

/-- The same for the whole list of caches. -/
theorem snoopAll_keeps_all {β : Type} {f : Cache → β → Cache × β} {pid : Nat} {I : List Cache → β → Prop}
    {D : Cache → β → Prop}
    (hstep : ∀ ks acc q k, q ≠ pid → ks[q]? = some k → I ks acc →
      I (ks.set q (f k acc).1) (f k acc).2 ∧ D (f k acc).1 (f k acc).2)
    (hmono : ∀ k acc j, D j acc → D j (f k acc).2) {ks : List Cache} {acc : β} (h : I ks acc) :
    let r := snoopAll f pid 0 ks acc
    I r.1 r.2 ∧ ∀ i j, i ≠ pid → r.1[i]? = some j → D j r.2 := by
  simpa using snoopAll_keeps hstep hmono ks [] acc (by simpa using h) (by simp)

/-! ### The line of one cache, written back, shared or cleared -/

/-- Writing back a slot, where it is MODIFIED, keeps the invariants. -/
theorem coherent_flushSlot {s : State} (h : Coherent s) {q : Nat} {k : Cache} (hq : s.caches[q]? = some k)
    {sl : CacheSlot} (hs : sl ∈ slots k) : Coherent { s with mem := flushSlot s.mem sl } := by
  by_cases hm : sl.state = .modified
  · rw [flushSlot, if_pos hm]
    exact coherent_writeBack h hq hs hm
  · rw [flushSlot, if_neg hm]
    exact h

/-- After that, main memory holds the line. -/
theorem flushSlot_current {s : State} (h : Coherent s) (hc : s.cfg.coherence = true) {q : Nat} {k : Cache}
    (hq : s.caches[q]? = some k) {sl : CacheSlot} (hs : sl ∈ slots k) (hv : sl.state ≠ .invalid) :
    sl.data = memLineRead (flushSlot s.mem sl) sl.addr s.cfg.lineWords := by
  by_cases hm : sl.state = .modified
  · obtain ⟨hlen, hsets, -⟩ := h.cacheOk hq
    obtain ⟨si, hsi, hmem⟩ := mem_slots.1 hs
    obtain ⟨-, -, -, hd⟩ := (hsets si (hlen ▸ hsi)).2.1 sl hmem hv
    rw [flushSlot, if_pos hm, ← hd, memLineRead_memLineWrite_same _ _ h.memWf]
  · rw [flushSlot, if_neg hm]
    refine h.clean hc hq sl hs ?_
    cases e : sl.state with
    | invalid => exact absurd e hv
    | shared => exact .inl rfl
    | exclusive => exact .inr rfl
    | modified => exact absurd e hm

/-- The way a bus read leaves a line it finds (46_cache_ops.md R289). -/
def sharedSlot (sl : CacheSlot) : CacheSlot := { sl with state := .shared, dirty := false }

/-- Making a line SHARED that main memory holds keeps the invariants. -/
theorem coherent_sharedSlot {s : State} (h : Coherent s) {q : Nat} {k : Cache} (hq : s.caches[q]? = some k)
    {la w : Nat} (hl : lookup s.cfg k la = some w)
    (hcl : (slotOf k (setIndex s.cfg la) w).data =
      memLineRead s.mem (slotOf k (setIndex s.cfg la) w).addr s.cfg.lineWords) :
    Coherent (s.putCache q
      (putSlot k (setIndex s.cfg la) w (sharedSlot (slotOf k (setIndex s.cfg la) w)))) := by
  have hk := h.cacheOk hq
  obtain ⟨hs, hv, ha, hp, -⟩ := lookup_slot h.configOk hk hl
  refine coherent_putSlot h hq (slotFits_of_lookup (x := sharedSlot _) h.configOk hk hl ha
    (fun _ => (hp hv).2.2.2) rfl) ⟨?_, ?_⟩ rfl
  · intro _ q' k' hne hq' b hb hvb e
    exact ⟨rfl, (h.share hq hq' hne.symm _ hs b hb hv hvb e.symm).2⟩
  · exact fun _ _ => hcl

/-- Clearing a line keeps the invariants. -/
theorem coherent_clearedSlot {s : State} (h : Coherent s) {q : Nat} {k : Cache} (hq : s.caches[q]? = some k)
    {la w : Nat} (hl : lookup s.cfg k la = some w) :
    Coherent (s.putCache q
      (putSlot k (setIndex s.cfg la) w (clearedSlot (slotOf k (setIndex s.cfg la) w)))) := by
  have hk := h.cacheOk hq
  obtain ⟨-, -, ha, -, -⟩ := lookup_slot h.configOk hk hl
  exact coherent_putSlot h hq (slotFits_of_lookup (x := clearedSlot _) h.configOk hk hl ha
    (fun e => absurd rfl e) rfl)
    (slotAllowed_of_invalid rfl) rfl

/-- Of the slots of a cache in which the way that holds a line was replaced, the new one alone may hold that line. -/
theorem eq_of_mem_slots_putSlot {c : Config} {k : Cache} (hc : c.ok = true) (hk : CacheOk c k) {a w : Nat}
    {x sl : CacheSlot} (hl : lookup c k a = some w) (hsl : sl ∈ slots (putSlot k (setIndex c a) w x))
    (hv : sl.state ≠ .invalid) (e : sl.addr = lineAddr c a) : sl = x := by
  obtain ⟨-, hvo, ha, -, -⟩ := lookup_slot hc hk hl
  rcases mem_slots_putSlot hk hsl with rfl | ⟨-, hd⟩
  · rfl
  · exact absurd (e.trans ha.symm) (hd hv hvo)

/-- After clearing a line the cache does not hold it. -/
theorem noHolder_clearedSlot {c : Config} {k : Cache} (hc : c.ok = true) (hk : CacheOk c k) {a w : Nat}
    (hl : lookup c k a = some w) :
    NoHolder (putSlot k (setIndex c a) w (clearedSlot (slotOf k (setIndex c a) w))) (lineAddr c a) := by
  intro sl hsl hv e
  rw [eq_of_mem_slots_putSlot hc hk hl hsl hv e] at hv
  exact hv rfl

/-- Putting back the entry that is there. -/
theorem set_of_getElem? {α : Type} {l : List α} {q : Nat} {x : α} (hq : l[q]? = some x) : l.set q x = l := by
  obtain ⟨hlt, rfl⟩ := List.getElem?_eq_some_iff.1 hq
  exact List.set_getElem_self hlt

/-! ### READ_SHARED -/

theorem handleBusRead_none {c : Config} {k : Cache} {la : Nat} (h : lookup c k la = none) :
    handleBusRead c k la = (none, k) := by
  simp [handleBusRead, h]

theorem handleBusRead_some {c : Config} {k : Cache} {la w : Nat} (h : lookup c k la = some w) :
    handleBusRead c k la =
      (some ((slotOf k (setIndex c la) w).data, (slotOf k (setIndex c la) w).state == .modified),
        putSlot k (setIndex c la) w (sharedSlot (slotOf k (setIndex c la) w))) := by
  simp [handleBusRead, h, sharedSlot]

theorem snoopReadReply_held {la : Nat} {acc : SnoopAcc} {r : Option (List Word × Bool)} (h : acc.held = true) :
    (snoopReadReply la acc r).held = true := by
  rcases r with _ | ⟨d, _ | _⟩ <;> simp [snoopReadReply, h]

/-- The reply of a slot that is held, folded in. -/
theorem snoopReadReply_slot (acc : SnoopAcc) (sl : CacheSlot) :
    snoopReadReply sl.addr acc (some (sl.data, sl.state == .modified)) =
      { mem := flushSlot acc.mem sl
        data := some (if sl.state = .modified then sl.data else acc.data.getD sl.data)
        held := true } := by
  by_cases hm : sl.state = .modified
  · simp [snoopReadReply, flushSlot, hm]
  · have : (sl.state == Mesi.modified) = false := by simpa using hm
    simp [snoopReadReply, flushSlot, hm, this]

/-- What the snoops of a READ_SHARED of line `la` keep: the invariants, and that the data gathered are main memory's. -/
def ReadKeeps (s : State) (la : Nat) (ks : List Cache) (acc : SnoopAcc) : Prop :=
  Coherent { s with caches := ks, mem := acc.mem } ∧
    ∀ d, acc.data = some d → d = memLineRead acc.mem la s.cfg.lineWords

/-- What they make of a cache: line `la`, if held, is SHARED and has been reported. -/
def ReadReported (la : Nat) (k : Cache) (acc : SnoopAcc) : Prop :=
  ∀ sl ∈ slots k, sl.state ≠ .invalid → sl.addr = la → sl.state = .shared ∧ acc.held = true

/-- The snoop of one cache by a READ_SHARED. -/
theorem handleBusRead_keeps {s : State} (hc : s.cfg.coherence = true) {la : Nat} (hla : la % s.cfg.lineSize = 0)
    {ks : List Cache} {acc : SnoopAcc} {q : Nat} {k : Cache} (hq : ks[q]? = some k) (h : ReadKeeps s la ks acc) :
    let r := handleBusRead s.cfg k la
    ReadKeeps s la (ks.set q r.2) (snoopReadReply la acc r.1) ∧ ReadReported la r.2 (snoopReadReply la acc r.1) := by
  obtain ⟨hcoh, hdata⟩ := h
  have hok : s.cfg.ok = true := hcoh.configOk
  have hk : CacheOk s.cfg k := hcoh.cacheOk hq
  have hself := lineAddr_of_aligned hla
  cases hl : lookup s.cfg k la with
  | none =>
    simp only [handleBusRead_none hl, set_of_getElem? hq]
    exact ⟨⟨hcoh, hdata⟩, fun sl hsl hv e =>
      absurd (e.trans hself.symm) (noHolder_of_lookup_none hok hk hl sl hsl hv)⟩
  | some w =>
    obtain ⟨hs, hv, ha, -, -⟩ := lookup_slot hok hk hl
    rw [hself] at ha
    have hcur := flushSlot_current hcoh hc hq hs hv
    have hshare := coherent_sharedSlot (coherent_flushSlot hcoh hq hs) hq hl hcur
    have hreply := snoopReadReply_slot acc (slotOf k (setIndex s.cfg la) w)
    rw [ha] at hreply hcur
    simp only [handleBusRead_some hl, hreply]
    refine ⟨⟨hshare, ?_⟩, fun sl hsl hvs e => ⟨?_, rfl⟩⟩
    · rintro d ⟨⟩
      split
      · exact hcur
      · rename_i hm
        cases hd : acc.data with
        | none => exact hcur
        | some d' =>
          rw [flushSlot, if_neg hm]
          exact hdata d' hd
    · rw [eq_of_mem_slots_putSlot hok hk hl hsl hvs (e.trans hself.symm)]
      rfl

/-! ### READ_EXCLUSIVE -/

theorem handleBusReadExclusive_none {c : Config} {k : Cache} {la : Nat} (h : lookup c k la = none) :
    handleBusReadExclusive c k la = (.notHeld, k) := by
  simp [handleBusReadExclusive, h]

theorem handleBusReadExclusive_some {c : Config} {k : Cache} {la w : Nat} (h : lookup c k la = some w) :
    handleBusReadExclusive c k la =
      (if (slotOf k (setIndex c la) w).state = .modified then .heldDirty (slotOf k (setIndex c la) w).data
        else .heldClean,
        putSlot k (setIndex c la) w (clearedSlot (slotOf k (setIndex c la) w))) := by
  simp [handleBusReadExclusive, h]

/-- The reply of a slot that is held, folded in. -/
theorem snoopExclusiveReply_slot (acc : Memory × Option (List Word)) (sl : CacheSlot) :
    snoopExclusiveReply sl.addr acc (if sl.state = .modified then .heldDirty sl.data else .heldClean) =
      (flushSlot acc.1 sl, if sl.state = .modified then some sl.data else acc.2) := by
  by_cases hm : sl.state = .modified <;> simp [snoopExclusiveReply, flushSlot, hm]

/-- What the snoops of a READ_EXCLUSIVE of line `la` keep: the invariants, and that the data gathered are main
memory's. -/
def ExclusiveKeeps (s : State) (la : Nat) (ks : List Cache) (acc : Memory × Option (List Word)) : Prop :=
  Coherent { s with caches := ks, mem := acc.1 } ∧ ∀ d, acc.2 = some d → d = memLineRead acc.1 la s.cfg.lineWords

/-- The snoop of one cache by a READ_EXCLUSIVE. -/
theorem handleBusReadExclusive_keeps {s : State} (hc : s.cfg.coherence = true) {la : Nat}
    (hla : la % s.cfg.lineSize = 0) {ks : List Cache} {acc : Memory × Option (List Word)} {q : Nat} {k : Cache}
    (hq : ks[q]? = some k) (h : ExclusiveKeeps s la ks acc) :
    let r := handleBusReadExclusive s.cfg k la
    ExclusiveKeeps s la (ks.set q r.2) (snoopExclusiveReply la acc r.1) ∧ NoHolder r.2 la := by
  obtain ⟨hcoh, hdata⟩ := h
  have hok : s.cfg.ok = true := hcoh.configOk
  have hk : CacheOk s.cfg k := hcoh.cacheOk hq
  have hself := lineAddr_of_aligned hla
  cases hl : lookup s.cfg k la with
  | none =>
    simp only [handleBusReadExclusive_none hl, set_of_getElem? hq]
    have hnone := noHolder_of_lookup_none hok hk hl
    rw [hself] at hnone
    exact ⟨⟨hcoh, hdata⟩, hnone⟩
  | some w =>
    obtain ⟨hs, hv, ha, -, -⟩ := lookup_slot hok hk hl
    rw [hself] at ha
    have hcur := flushSlot_current hcoh hc hq hs hv
    have hclear := coherent_clearedSlot (coherent_flushSlot hcoh hq hs) hq hl
    have hreply := snoopExclusiveReply_slot acc (slotOf k (setIndex s.cfg la) w)
    rw [ha] at hreply hcur
    have hnone := noHolder_clearedSlot hok hk hl
    rw [hself] at hnone
    simp only [handleBusReadExclusive_some hl, hreply]
    refine ⟨⟨hclear, fun d hd => ?_⟩, hnone⟩
    by_cases hm : (slotOf k (setIndex s.cfg la) w).state = .modified
    · rw [if_pos hm] at hd
      exact Option.some.inj hd ▸ hcur
    · rw [if_neg hm] at hd
      simp only [flushSlot, if_neg hm]
      exact hdata d hd

/-! ### INVALIDATE -/

/-- What the snoops of an INVALIDATE of a line that is nowhere MODIFIED keep. -/
def InvalidateKeeps (s : State) (la : Nat) (ks : List Cache) (_ : Unit) : Prop :=
  Coherent { s with caches := ks } ∧ ∀ k ∈ ks, ∀ sl ∈ slots k, sl.addr = la → sl.state ≠ .modified

/-- The snoop of one cache by an INVALIDATE. -/
theorem handleBusInvalidate_keeps {s : State} {la : Nat} (hla : la % s.cfg.lineSize = 0) {ks : List Cache} {q : Nat}
    {k : Cache} (hq : ks[q]? = some k) (h : InvalidateKeeps s la ks ()) :
    InvalidateKeeps s la (ks.set q (handleBusInvalidate s.cfg k la)) () ∧
      NoHolder (handleBusInvalidate s.cfg k la) la := by
  obtain ⟨hcoh, hno⟩ := id h
  have hok : s.cfg.ok = true := hcoh.configOk
  have hk : CacheOk s.cfg k := hcoh.cacheOk hq
  have hself := lineAddr_of_aligned hla
  cases hl : lookup s.cfg k la with
  | none =>
    have e : handleBusInvalidate s.cfg k la = k := by simp [handleBusInvalidate, hl]
    have hnone := noHolder_of_lookup_none hok hk hl
    rw [hself] at hnone
    rw [e, set_of_getElem? hq]
    exact ⟨h, hnone⟩
  | some w =>
    obtain ⟨hs, -, ha, -, -⟩ := lookup_slot hok hk hl
    rw [hself] at ha
    have hm := hno k (List.mem_of_getElem? hq) _ hs ha
    have e : handleBusInvalidate s.cfg k la =
        putSlot k (setIndex s.cfg la) w (clearedSlot (slotOf k (setIndex s.cfg la) w)) := by
      simp [handleBusInvalidate, hl, hm]
    have hnone := noHolder_clearedSlot hok hk hl
    rw [hself] at hnone
    rw [e]
    refine ⟨⟨coherent_clearedSlot hcoh hq hl, fun j hj sl hsl ea em => ?_⟩, hnone⟩
    rcases List.mem_or_eq_of_mem_set hj with hj | rfl
    · exact hno j hj sl hsl ea em
    · exact hnone sl hsl (by simp [em]) ea

/-! ### The bus side of the three requests (47_bus_ops.md R333 to R335) -/

/-- A READ_SHARED keeps the invariants, and the line it answers may be put into the requester's cache. -/
theorem busReadShared_coherent {s : State} (h : Coherent s) (hc : s.cfg.coherence = true) {la : Nat}
    (hla : la % s.cfg.lineSize = 0) (pid : Nat) :
    ∃ d st, (busReadShared la pid s).1 = .line d st ∧ d.length = s.cfg.lineWords ∧
      Coherent (busReadShared la pid s).2 ∧ SlotAllowed (busReadShared la pid s).2 pid (filledSlot la d st) := by
  have key := snoopAll_keeps_all (pid := pid)
    (f := fun k acc => ((handleBusRead s.cfg k la).2, snoopReadReply la acc (handleBusRead s.cfg k la).1))
    (I := ReadKeeps s la) (D := ReadReported la)
    (fun _ _ _ _ _ hq hI => handleBusRead_keeps hc hla hq hI)
    (fun k acc j hD sl hsl hv e => ⟨(hD sl hsl hv e).1, snoopReadReply_held (hD sl hsl hv e).2⟩)
    (ks := s.caches) (acc := { mem := s.mem, data := none, held := false }) ⟨h, by simp⟩
  simp only [← snoopRead_eq_snoopAll] at key
  obtain ⟨⟨hcoh, hdata⟩, hrep⟩ := key
  have hd : ∀ r : List Cache × SnoopAcc, (∀ d, r.2.data = some d → d = memLineRead r.2.mem la s.cfg.lineWords) →
      r.2.data.getD (memLineRead r.2.mem la s.cfg.lineWords) = memLineRead r.2.mem la s.cfg.lineWords := by
    intro r hr
    cases e : r.2.data with
    | none => rfl
    | some d => exact hr d e
  refine ⟨_, _, rfl, ?_, hcoh, ?_, ?_⟩
  · rw [hd _ hdata, memLineRead_length]
  · intro _ q k hne hq b hb hvb e
    obtain ⟨h1, h2⟩ := hrep q k hne hq b hb hvb e
    exact ⟨by simp [filledSlot, h2], h1⟩
  · exact fun _ _ => hd _ hdata

/-- A READ_EXCLUSIVE keeps the invariants, and the line it answers may be put MODIFIED into the requester's cache. -/
theorem busReadExclusive_coherent {s : State} (h : Coherent s) (hc : s.cfg.coherence = true) {la : Nat}
    (hla : la % s.cfg.lineSize = 0) (pid : Nat) :
    ∃ d, (busReadExclusive la pid s).1 = .line d .modified ∧ d.length = s.cfg.lineWords ∧
      Coherent (busReadExclusive la pid s).2 ∧
      SlotAllowed (busReadExclusive la pid s).2 pid (filledSlot la d .modified) := by
  have key := snoopAll_keeps_all (pid := pid)
    (f := fun k acc => ((handleBusReadExclusive s.cfg k la).2,
      snoopExclusiveReply la acc (handleBusReadExclusive s.cfg k la).1))
    (I := ExclusiveKeeps s la) (D := fun k _ => NoHolder k la)
    (fun _ _ _ _ _ hq hI => handleBusReadExclusive_keeps hc hla hq hI) (fun _ _ _ hD => hD)
    (ks := s.caches) (acc := (s.mem, none)) ⟨h, by simp⟩
  simp only [← snoopExclusive_eq_snoopAll] at key
  obtain ⟨⟨hcoh, hdata⟩, hnone⟩ := key
  refine ⟨_, rfl, ?_, hcoh, ?_, ?_⟩
  · cases e : (snoopExclusive s.cfg la pid 0 s.caches (s.mem, none)).2.2 with
    | none => simp
    | some d => rw [Option.getD_some, hdata d e, memLineRead_length]
  · intro _ q k hne hq b hb hvb e
    exact absurd e (hnone q k hne hq b hb hvb)
  · intro _ e
    simp [filledSlot] at e

/-- An INVALIDATE of a line that is nowhere MODIFIED keeps the invariants, and no other cache holds the line then. -/
theorem busInvalidate_coherent {s : State} (h : Coherent s) {la : Nat} (hla : la % s.cfg.lineSize = 0)
    (hno : ∀ k ∈ s.caches, ∀ sl ∈ slots k, sl.addr = la → sl.state ≠ .modified) (pid : Nat) :
    Coherent (busInvalidate la pid s).2 ∧
      ∀ q k, q ≠ pid → (busInvalidate la pid s).2.caches[q]? = some k → NoHolder k la := by
  have key := snoopAll_keeps_all (pid := pid)
    (f := fun k (_ : Unit) => (handleBusInvalidate s.cfg k la, ())) (I := InvalidateKeeps s la)
    (D := fun k _ => NoHolder k la)
    (fun _ _ _ _ _ hq hI => handleBusInvalidate_keeps hla hq hI) (fun _ _ _ hD => hD)
    (ks := s.caches) (acc := ()) ⟨h, hno⟩
  simp only [← snoopInvalidate_eq_snoopAll] at key
  exact ⟨key.1.1, key.2⟩

end Sys2Proof.Machine
end

section
/-! SUPPORT. `DataRead` and `DataWrite` keep the invariants of the cache system (47_bus_ops.md R330 to R332). -/

namespace Sys2Proof.Machine

/-- Cache p, where it exists. -/
theorem State.cacheAt_eq {s : State} {p : Nat} {k : Cache} (h : s.caches[p]? = some k) : s.cacheAt p = k := by
  simp [State.cacheAt, List.getD_eq_getElem?_getD, h]

theorem SlotAllowed.congr {s s' : State} {p : Nat} {x : CacheSlot} (h : SlotAllowed s p x) (hcfg : s'.cfg = s.cfg)
    (hmem : s'.mem = s.mem) (hcaches : s'.caches = s.caches) : SlotAllowed s' p x := by
  obtain ⟨ha, hc⟩ := h
  refine ⟨by rwa [hcaches], ?_⟩
  unfold CleanMatches at *
  rwa [hcfg, hmem]

/-! ### Submissions -/

theorem submit_readShared_coherent {s : State} (h : Coherent s) (hc : s.cfg.coherence = true) {la : Nat}
    (hla : la % s.cfg.lineSize = 0) (p : Nat) (tid : Option Nat) :
    ∃ d st, (submit .readShared la p tid none s).1 = .line d st ∧ d.length = s.cfg.lineWords ∧
      Coherent (submit .readShared la p tid none s).2 ∧
      SlotAllowed (submit .readShared la p tid none s).2 p (filledSlot la d st) := by
  obtain ⟨d, st, hr, hd, hcoh, hallow⟩ :=
    busReadShared_coherent (s := { s with bus := countRequest .readShared s.bus }) h hc hla p
  exact ⟨d, st, hr, hd, hcoh, hallow.congr rfl rfl rfl⟩

theorem submit_readExclusive_coherent {s : State} (h : Coherent s) (hc : s.cfg.coherence = true) {la : Nat}
    (hla : la % s.cfg.lineSize = 0) (p : Nat) (tid : Option Nat) :
    ∃ d, (submit .readExclusive la p tid none s).1 = .line d .modified ∧ d.length = s.cfg.lineWords ∧
      Coherent (submit .readExclusive la p tid none s).2 ∧
      SlotAllowed (submit .readExclusive la p tid none s).2 p (filledSlot la d .modified) := by
  obtain ⟨d, hr, hd, hcoh, hallow⟩ :=
    busReadExclusive_coherent (s := { s with bus := countRequest .readExclusive s.bus }) h hc hla p
  exact ⟨d, hr, hd, hcoh, hallow.congr rfl rfl rfl⟩

theorem submit_invalidate_coherent {s : State} (h : Coherent s) {la : Nat} (hla : la % s.cfg.lineSize = 0)
    (hno : ∀ k ∈ s.caches, ∀ sl ∈ slots k, sl.addr = la → sl.state ≠ .modified) (p : Nat) (tid : Option Nat) :
    Coherent (submit .invalidate la p tid none s).2 ∧
      ∀ q k, q ≠ p → (submit .invalidate la p tid none s).2.caches[q]? = some k → NoHolder k la :=
  busInvalidate_coherent (s := { s with bus := countRequest .invalidate s.bus }) h hla hno p

/-! ### Install (R332) -/

/-- The line goes into the way that holds it, or into the victim way, whose line leaves (46_cache_ops.md R286). -/
theorem allocate_cases (c : Config) (k : Cache) (la : Nat) (d : List Word) (st : Mesi) :
    (∃ w, lookup c k la = some w ∧
      allocate c k la d st = (none, putTouched k (setIndex c la) w (filledSlot la d st))) ∨
    (lookup c k la = none ∧ ∃ w, allocate c k la d st =
      (if (slotOf k (setIndex c la) w).state = .invalid then none
        else some (evictedOf (slotOf k (setIndex c la) w)),
        putTouched k (setIndex c la) w (filledSlot la d st))) := by
  cases h : lookup c k la with
  | some w => exact .inl ⟨w, rfl, by simp [allocate, h]⟩
  | none => exact .inr ⟨rfl, victimWay c (setOf k (setIndex c la)), by simp [allocate, h]⟩

theorem filledSlot_dirty (la : Nat) (d : List Word) (st : Mesi) :
    (filledSlot la d st).dirty = decide ((filledSlot la d st).state = .modified) := by
  cases st <;> rfl

/-- A write-back touches no cache. -/
@[simp] theorem submit_writeBack_caches (la p : Nat) (tid : Option Nat) (payload : Option (List Word)) (s : State) :
    (submit .writeBack la p tid payload s).2.caches = s.caches := by
  cases payload <;> rfl

theorem install_caches (p la : Nat) (d : List Word) (st : Mesi) (tid : Option Nat) (s : State) :
    (install p la d st tid s).caches = s.caches.set p (allocate s.cfg (s.cacheAt p) la d st).2 := by
  simp only [install]
  split
  · split
    · rw [submit_writeBack_caches, State.putCache_caches]
    · rfl
  · rfl

/-- The line installed is in its cache in the state asked for only. -/
theorem allocate_state {c : Config} {k : Cache} (hok : c.ok = true) (hk : CacheOk c k) {la : Nat}
    (hla : la % c.lineSize = 0) (d : List Word) (st : Mesi) {sl : CacheSlot}
    (hsl : sl ∈ slots (allocate c k la d st).2) (hv : sl.state ≠ .invalid) (e : sl.addr = la) : sl.state = st := by
  have hself := lineAddr_of_aligned hla
  rcases allocate_cases c k la d st with ⟨w, hl, ha⟩ | ⟨hl, w, ha⟩
  · rw [ha] at hsl
    rw [eq_of_mem_slots_putSlot hok hk hl hsl hv (e.trans hself.symm)]
    rfl
  · rw [ha] at hsl
    rcases mem_slots_putSlot hk hsl with rfl | ⟨hm, -⟩
    · rfl
    · exact absurd (e.trans hself.symm) (noHolder_of_lookup_none hok hk hl sl hm hv)

/-- A MODIFIED line that has left the caches for a line installed may be written back. -/
theorem coherent_evicted {s : State} (h : Coherent s) {p : Nat} {k : Cache} (hp : s.caches[p]? = some k) {si w : Nat}
    {x : CacheSlot} (hput : Coherent (s.putCache p (putTouched k si w x)))
    (hm : (slotOf k si w).state = .modified) (hne : x.addr ≠ (slotOf k si w).addr) :
    Coherent { s.putCache p (putTouched k si w x) with
      mem := memLineWrite s.mem (slotOf k si w).addr (slotOf k si w).data } := by
  have hv : (slotOf k si w).state ≠ .invalid := by simp [hm]
  have hmem : slotOf k si w ∈ setOf k si := by
    rw [slotOf_eq (slotOf_valid hv)]
    exact List.getElem_mem _
  have hs := mem_slots_of_mem_setOf hmem
  have hk := h.cacheOk hp
  obtain ⟨hsi, -⟩ := setIndex_of_mem_setOf hk hmem hv
  obtain ⟨hal, -, -, hlen⟩ := (hk.2.1 si hsi).2.1 _ hmem hv
  refine coherent_writeLine hput hal hlen fun j hj sl hsl hst e => ?_
  have hvs : sl.state ≠ .invalid := by rcases hst with e | e <;> simp [e]
  obtain ⟨q, hq⟩ := List.mem_iff_getElem?.1 hj
  rw [State.putCache_caches, List.getElem?_set] at hq
  split at hq
  · split at hq
    · cases hq
      rcases mem_slots_putSlot hk hsl with rfl | ⟨-, hd⟩
      · exact hne e
      · exact hd hvs hv e
    · cases hq
  · obtain ⟨-, rfl⟩ := h.holder_of_modified hp hq hs hsl hm hvs e
    simp [hm] at hst

/-- Installing a line that is allowed keeps the invariants. -/
theorem install_coherent {s : State} (h : Coherent s) {p : Nat} {k : Cache} (hp : s.caches[p]? = some k) {la : Nat}
    (hla : LineInRange s.cfg la) {d : List Word} (hd : d.length = s.cfg.lineWords) {st : Mesi}
    (hallow : SlotAllowed s p (filledSlot la d st)) (tid : Option Nat) : Coherent (install p la d st tid s) := by
  have hok := h.configOk
  have hk := h.cacheOk hp
  have hself := lineAddr_of_aligned hla.aligned
  rcases allocate_cases s.cfg k la d st with ⟨w, hl, ha⟩ | ⟨hl, w, ha⟩
  · simp only [install, State.cacheAt_eq hp, ha]
    exact coherent_putTouched h hp
      (slotFits_of_lookup hok hk hl hself.symm (fun _ => hd) (filledSlot_dirty la d st)) hallow
  · have hput : Coherent (s.putCache p (putTouched k (setIndex s.cfg la) w (filledSlot la d st))) :=
      coherent_putTouched h hp (slotFits_of_lookup_none hla hl rfl hd (filledSlot_dirty la d st)) hallow
    simp only [install, State.cacheAt_eq hp, ha]
    split
    · rename_i ev hev
      split
      · rename_i hdirty
        split at hev
        · cases hev
        rename_i hv
        cases hev
        have hs : slotOf k (setIndex s.cfg la) w ∈ slots k := by
          rw [slotOf_eq (slotOf_valid hv)]
          exact mem_slots_of_mem_setOf (List.getElem_mem _)
        have hm : (slotOf k (setIndex s.cfg la) w).state = .modified := by
          have := hk.2.2 _ hs
          simpa using this.symm.trans hdirty
        refine coherent_evicted h hp hput hm fun e => ?_
        exact noHolder_of_lookup_none hok hk hl _ hs hv (e.symm.trans hself.symm)
      · exact hput
    · exact hput

/-! ### The coherent read and write paths (R330, R331) -/

/-- A hit touches the line. -/
theorem cacheRead_cases (c : Config) (k : Cache) (a : Nat) :
    (∃ w, lookup c k a = some w ∧ cacheRead c k a =
      (some ((slotOf k (setIndex c a) w).data.getD (wordIndex c a) 0),
        putTouched k (setIndex c a) w (slotOf k (setIndex c a) w))) ∨
    (lookup c k a = none ∧ cacheRead c k a = (none, k)) := by
  cases h : lookup c k a with
  | some w => exact .inl ⟨w, rfl, by simp [cacheRead, h]⟩
  | none => exact .inr ⟨rfl, by simp [cacheRead, h]⟩

/-- Touching a line that is there keeps the invariants. -/
theorem coherent_touch {s : State} (h : Coherent s) {p : Nat} {k : Cache} (hp : s.caches[p]? = some k) {a w : Nat}
    (hl : lookup s.cfg k a = some w) :
    Coherent (s.putCache p (putTouched k (setIndex s.cfg a) w (slotOf k (setIndex s.cfg a) w))) := by
  obtain ⟨hs, hv, ha, hpl, hdirty⟩ := lookup_slot h.configOk (h.cacheOk hp) hl
  exact coherent_putTouched h hp
    (slotFits_of_lookup h.configOk (h.cacheOk hp) hl ha (fun _ => (hpl hv).2.2.2) hdirty) (h.slotAllowed hp hs)

/-- Cache p is there after a submission. -/
theorem submit_cache {s : State} {p : Nat} (hp : p < s.caches.length) (op : BusOp) (la : Nat) (tid : Option Nat)
    (payload : Option (List Word)) : ∃ k, (submit op la p tid payload s).2.caches[p]? = some k := by
  have := (submit_step op la p tid payload s).caches
  exact ⟨_, List.getElem?_eq_getElem (by omega)⟩

/-- `DataRead` with coherence keeps the invariants. -/
theorem coherentRead_coherent {s : State} (h : Coherent s) (hc : s.cfg.coherence = true) {p : Nat}
    (hp : p < s.caches.length) (tid : Option Nat) {a : Nat} (ha : a < s.cfg.memSize) :
    Coherent (coherentRead p tid a s).2 := by
  have hk := List.getElem?_eq_getElem hp
  have hla := lineAddr_inRange h.configOk ha
  simp only [coherentRead, State.cacheAt_eq hk]
  rcases cacheRead_cases s.cfg s.caches[p] a with ⟨w, hl, e⟩ | ⟨-, e⟩
  · rw [e]
    exact coherent_touch h hk hl
  · rw [e]
    obtain ⟨d, st, hr, hd, hcoh, hallow⟩ := submit_readShared_coherent h hc hla.aligned p tid
    obtain ⟨k', hk'⟩ := submit_cache hp .readShared (lineAddr s.cfg a) tid none
    have hcfg := (submit_step .readShared (lineAddr s.cfg a) p tid none s).cfg
    simp only [hr, lineOf]
    exact install_coherent hcoh hk' (hcfg ▸ hla) (hcfg ▸ hd) hallow tid

section
variable {s : State} {c : Config} {p : Nat} {k : Cache} {a : Nat}

/-- Writing a word to a line no other cache holds keeps the invariants: the line is MODIFIED then. -/
theorem coherent_writtenSlot (h : Coherent s) (hcfg : s.cfg = c) (hp : s.caches[p]? = some k) {w : Nat}
    (hl : lookup c k a = some w)
    (halone : ∀ q k', q ≠ p → s.caches[q]? = some k' → NoHolder k' (lineAddr c a)) (v : Word) :
    Coherent (s.putCache p (putTouched k (setIndex c a) w (writtenSlot c a v (slotOf k (setIndex c a) w)))) := by
  subst hcfg
  obtain ⟨-, hv, ha, hpl, -⟩ := lookup_slot h.configOk (h.cacheOk hp) hl
  refine coherent_putTouched h hp (slotFits_of_lookup (x := writtenSlot s.cfg a v _) h.configOk (h.cacheOk hp) hl ha
    (fun _ => by simpa [writtenSlot] using (hpl hv).2.2.2) rfl) ⟨fun _ q k' hne hq b hb hvb e => ?_, fun _ e => ?_⟩
  · exact absurd (e.trans ha) (halone q k' hne hq b hb hvb)
  · simp [writtenSlot] at e

/-- Writing a word to a MODIFIED line keeps the invariants. -/
theorem coherent_writeModified (h : Coherent s) (hcfg : s.cfg = c) (hp : s.caches[p]? = some k) {w : Nat}
    (hl : lookup c k a = some w) (hm : (slotOf k (setIndex c a) w).state = .modified) (i : Nat) (v : Word) :
    Coherent (s.putCache p (putSlot k (setIndex c a) w
      { slotOf k (setIndex c a) w with data := (slotOf k (setIndex c a) w).data.set i v })) := by
  subst hcfg
  obtain ⟨hs, hv, ha, hpl, hdirty⟩ := lookup_slot h.configOk (h.cacheOk hp) hl
  refine coherent_putSlot h hp (slotFits_of_lookup
    (x := { slotOf k (setIndex s.cfg a) w with data := (slotOf k (setIndex s.cfg a) w).data.set i v })
    h.configOk (h.cacheOk hp) hl ha (fun _ => by simpa using (hpl hv).2.2.2) hdirty)
    ⟨(h.slotAllowed hp hs).alone, fun _ e => ?_⟩ rfl
  simp [hm] at e

/-- What looking a line up again and changing it keeps, if the change of a line found does. -/
theorem writeLooked_coherent (h : Coherent s) (hcfg : s.cfg = c) (hp : s.caches[p]? = some k)
    {f : Cache → Nat → CacheSlot → Cache}
    (hf : ∀ w, lookup c k a = some w → Coherent (s.putCache p (f k w (slotOf k (setIndex c a) w)))) :
    Coherent (writeLooked p a f s) := by
  subst hcfg
  simp only [writeLooked, State.cacheAt_eq hp]
  split
  · rename_i w hw
    exact hf w hw
  · exact h

/-- Installing a line MODIFIED and writing a word of it keeps the invariants. -/
theorem install_write_coherent (h : Coherent s) (hcfg : s.cfg = c) (hp : s.caches[p]? = some k)
    (hla : LineInRange c (lineAddr c a)) {d : List Word} (hd : d.length = c.lineWords)
    (hallow : SlotAllowed s p (filledSlot (lineAddr c a) d .modified)) (tid : Option Nat) (i : Nat) (v : Word) :
    Coherent (writeLooked p a (fun k w sl => putSlot k (setIndex c a) w { sl with data := sl.data.set i v })
      (install p (lineAddr c a) d .modified tid s)) := by
  subst hcfg
  have hinst := install_coherent h hp hla hd hallow tid
  have hcfg' := (install_step p (lineAddr s.cfg a) d .modified tid s).cfg
  have hlt := (List.getElem?_eq_some_iff.1 hp).1
  have hk' : (install p (lineAddr s.cfg a) d .modified tid s).caches[p]? =
      some (allocate s.cfg k (lineAddr s.cfg a) d .modified).2 := by
    rw [install_caches, State.cacheAt_eq hp, List.getElem?_set_self hlt]
  refine writeLooked_coherent hinst hcfg' hk' fun w hw => ?_
  have hok' := hinst.cacheOk hk'
  rw [hcfg'] at hok'
  obtain ⟨hs, hv, hadr, -⟩ := lookup_slot h.configOk hok' hw
  exact coherent_writeModified hinst hcfg' hk' hw
    (allocate_state h.configOk (h.cacheOk hp) hla.aligned d .modified hs hv hadr) i v

end

/-- What `CacheWrite` answers: a miss, a SHARED line, or a line now written (46_cache_ops.md R284). -/
theorem cacheWrite_cases (c : Config) (k : Cache) (a : Nat) (v : Word) :
    (lookup c k a = none ∧ cacheWrite c k a v = (.miss, k)) ∨
    ∃ w, lookup c k a = some w ∧
      (((slotOf k (setIndex c a) w).state = .shared ∧ cacheWrite c k a v = (.needInvalidate, k)) ∨
       ((slotOf k (setIndex c a) w).state ≠ .shared ∧ cacheWrite c k a v =
        (.done, putTouched k (setIndex c a) w (writtenSlot c a v (slotOf k (setIndex c a) w))))) := by
  cases h : lookup c k a with
  | none => exact .inl ⟨rfl, by simp [cacheWrite, h]⟩
  | some w =>
    refine .inr ⟨w, rfl, ?_⟩
    by_cases hs : (slotOf k (setIndex c a) w).state = .shared
    · exact .inl ⟨hs, by simp [cacheWrite, h, hs]⟩
    · exact .inr ⟨hs, by simp [cacheWrite, h, hs]⟩

/-- `DataWrite` with coherence keeps the invariants. -/
theorem coherentWrite_coherent {s : State} (h : Coherent s) (hc : s.cfg.coherence = true) {p : Nat}
    (hp : p < s.caches.length) (tid : Option Nat) {a : Nat} (ha : a < s.cfg.memSize) (v : Word) :
    Coherent (coherentWrite p tid a v s) := by
  have hk := List.getElem?_eq_getElem hp
  have hok := h.configOk
  have hla := lineAddr_inRange hok ha
  simp only [coherentWrite, State.cacheAt_eq hk]
  rcases cacheWrite_cases s.cfg s.caches[p] a v with ⟨-, e⟩ | ⟨w, hl, ⟨hs, e⟩ | ⟨hs, e⟩⟩
  · rw [e]
    obtain ⟨d, hr, hd, hcoh, hallow⟩ := submit_readExclusive_coherent h hc hla.aligned p tid
    obtain ⟨k', hk'⟩ := submit_cache hp .readExclusive (lineAddr s.cfg a) tid none
    have hcfg := (submit_step .readExclusive (lineAddr s.cfg a) p tid none s).cfg
    simp only [hr, lineOf]
    exact install_write_coherent hcoh hcfg hk' hla hd hallow tid _ v
  · rw [e]
    obtain ⟨hm, hv, hadr, -⟩ := lookup_slot hok (h.cacheOk hk) hl
    have hno : ∀ k ∈ s.caches, ∀ sl ∈ slots k, sl.addr = lineAddr s.cfg a → sl.state ≠ .modified := by
      intro k' hk' sl hsl e em
      obtain ⟨q, hq⟩ := List.mem_iff_getElem?.1 hk'
      obtain ⟨-, e'⟩ := h.holder_of_modified hq hk hsl hm em hv (hadr.trans e.symm)
      rw [e', em] at hs
      cases hs
    obtain ⟨hcoh, halone⟩ := submit_invalidate_coherent h hla.aligned hno p tid
    obtain ⟨k', hk'⟩ := submit_cache hp .invalidate (lineAddr s.cfg a) tid none
    have hcfg := (submit_step .invalidate (lineAddr s.cfg a) p tid none s).cfg
    exact writeLooked_coherent hcoh hcfg hk' fun w hw => coherent_writtenSlot hcoh hcfg hk' hw halone v
  · rw [e]
    obtain ⟨hm, hv, hadr, -⟩ := lookup_slot hok (h.cacheOk hk) hl
    refine coherent_writtenSlot h rfl hk hl (fun q k' hne hq b hb hvb e => hs ?_) v
    exact ((h.share hk hq hne.symm) _ hm b hb hv hvb (hadr.trans e.symm)).1

/-- `DataRead` at an address in range keeps the invariants (20_memory.md R97). -/
theorem dataRead_coherent {s : State} (h : Coherent s) {p : Nat} (hp : p < s.caches.length) (tid : Option Nat)
    {a : Word} (ha : Accessible s a) : Coherent (dataRead p tid a.toNat s).2 := by
  simp only [dataRead]
  split
  · rename_i hc
    exact coherentRead_coherent h hc hp tid (by have := ha.2; omega)
  · exact h

/-- `DataWrite` at an address in range keeps the invariants (20_memory.md R97). -/
theorem dataWrite_coherent {s : State} (h : Coherent s) {p : Nat} (hp : p < s.caches.length) (tid : Option Nat)
    {a : Word} (ha : Accessible s a) (v : Word) : Coherent (dataWrite p tid a.toNat v s) := by
  simp only [dataWrite]
  split
  · rename_i hc
    exact coherentWrite_coherent h hc hp tid (by have := ha.2; omega) v
  · rename_i hc
    obtain ⟨hok, hwf, hpl, hcl, hks, hsh, -⟩ := h
    exact ⟨hok, memWriteWord_wf _ v hwf, hpl, hcl, hks, hsh, fun h => absurd h hc⟩

end Sys2Proof.Machine
end

section
/-! SUPPORT. What an instruction's rule leaves of its processor and what it emits (40_pipeline.md R156), for every
instruction at once. -/

namespace Sys2Proof.Machine

/-! ### FLAGS (10_state.md R26, R27) -/

/-- A number below 4 has no bit from bit 2 up. -/
theorem getLsbD_of_lt_four {v : Word} (hv : v.toNat < 4) {k : Nat} (hk : 2 ≤ k) : v.getLsbD k = false :=
  Nat.testBit_lt_two_pow (Nat.lt_of_lt_of_le hv (Nat.pow_le_pow_right (n := 2) (by omega) hk))

/-- The flag computation leaves bits 2 and up alone (41_compute.md R190). -/
theorem setFlags_high (f r : Word) {k : Nat} (hk : 2 ≤ k) : (setFlags f r).getLsbD k = f.getLsbD k := by
  have hz : (if r = 0 then 1#32 else 0#32 : Word).getLsbD k = false :=
    getLsbD_of_lt_four (by split <;> decide) hk
  have hn : (if r.msb then 2#32 else 0#32 : Word).getLsbD k = false :=
    getLsbD_of_lt_four (by split <;> decide) hk
  have hm : (0xFFFFFFFC#32 : Word) = ~~~3#32 := by decide
  rw [setFlags, BitVec.getLsbD_or, BitVec.getLsbD_or, BitVec.getLsbD_and, hz, hn, hm, BitVec.getLsbD_not,
    getLsbD_of_lt_four (v := 3#32) (by decide) hk]
  by_cases h : k < 32
  · simp [h]
  · simp [BitVec.getLsbD_of_ge f k (by omega)]

/-! ### Effects -/

/-- The word an effect accesses, if any, passes `AddrCheck` (20_memory.md R78). -/
def EffectInRange (memSize : Nat) : Effect → Prop
  | .memoryRead a _ | .memoryWrite a _ | .cas a _ _ _ => a.toNat % 4 = 0 ∧ a.toNat + 4 ≤ memSize
  | .registersModified _ | .ret | .syncLock _ | .syncUnlock _ | .fence | .barrier _ _ | .halt | .yield | .syscall _
  | .spawn _ _ _ | .join _ => True

/-- What a call on P that emitted `es` has made of it, Q: its thread, enforcement flag, stall counter, level and FLAGS
from bit 2 up are P's, all of FLAGS where `plain` says so; its effects come to one effect on an address in range; and
only a JOIN has changed its state. -/
structure RuleFrame (plain : Bool) (memSize : Nat) (P Q : Proc) (es : List Effect) : Prop where
  thread    : Q.thread = P.thread
  enforce   : Q.enforce = P.enforce
  stall     : Q.stall = P.stall
  priv      : Q.regs.priv = P.regs.priv
  highFlags : ∀ k, 2 ≤ k → Q.regs.flags.getLsbD k = P.regs.flags.getLsbD k
  flags     : plain = true → Q.regs.flags = P.regs.flags
  effect    : ∃ e, EffectInRange memSize e ∧ (Q.state = P.state ∨ ∃ j, e = .join j) ∧
    ∀ p t s, resolveAll p t es s = resolve p t e s

section
variable {plain : Bool} {m : Nat} {env : CallEnv} {P Q : Proc} {next : Word} {es : List Effect}

/-- A rule that emits one effect and leaves FLAGS alone. -/
theorem ruleFrame_one {e : Effect} (hQ : Q = { P with regs := Q.regs, state := Q.state, cflog := Q.cflog })
    (hpriv : Q.regs.priv = P.regs.priv) (hflags : Q.regs.flags = P.regs.flags) (he : EffectInRange m e)
    (hst : Q.state = P.state ∨ ∃ j, e = .join j) : RuleFrame plain m P Q [e] := by
  rw [hQ]
  exact ⟨rfl, rfl, rfl, hpriv, fun _ _ => by rw [hflags], fun _ => hflags, e, he, hst, fun _ _ _ => rfl⟩

/-- A rule that emits nothing comes to a FENCE, which has no effect either (49_environment.md R369). -/
theorem ruleFrame_none (hQ : Q = { P with regs := Q.regs, cflog := Q.cflog })
    (hpriv : Q.regs.priv = P.regs.priv) (hflags : Q.regs.flags = P.regs.flags) : RuleFrame plain m P Q [] := by
  rw [hQ]
  exact ⟨rfl, rfl, rfl, hpriv, fun _ _ => by rw [hflags], fun _ => hflags, .fence, trivial, .inl rfl,
    fun _ _ _ => rfl⟩

theorem writeResult_frame {rd : Reg} {r : Word} (e : writeResult rd r P = .done Q next es) :
    RuleFrame false m P Q es := by
  cases e
  exact ⟨rfl, rfl, rfl, rfl, fun _ hk => setFlags_high _ r hk, fun h => absurd h (by simp), .registersModified [rd],
    trivial, .inl rfl, fun _ _ _ => rfl⟩

theorem divRule_frame {rd : Reg} {a b : Src} (e : divRule rd a b env P = .done Q next es) :
    RuleFrame false m P Q es := by
  simp only [divRule] at e
  split at e
  · cases e
  · exact writeResult_frame e

theorem loadRule_frame {rd : Reg} {src : LoadSrc} (e : loadRule rd src env P = .done Q next es) :
    RuleFrame plain env.memSize P Q es := by
  cases src with
  | imm v =>
    cases e
    exact ruleFrame_one rfl rfl rfl trivial (.inl rfl)
  | addr a =>
    simp only [loadRule] at e
    split at e
    · cases e
    · rename_i h
      cases e
      exact ruleFrame_one rfl rfl rfl (addrCheck_eq_none.1 h) (.inl rfl)

theorem storeRule_frame {rs : Reg} {a : Word} (e : storeRule rs a env P = .done Q next es) :
    RuleFrame plain env.memSize P Q es := by
  simp only [storeRule] at e
  split at e
  · cases e
  · rename_i h
    cases e
    exact ruleFrame_one rfl rfl rfl (addrCheck_eq_none.1 h) (.inl rfl)

theorem pushWord_frame {v n : Word} {log : List CfRecord} (e : pushWord v n log env P = .done Q next es) :
    RuleFrame plain env.memSize P Q es := by
  simp only [pushWord] at e
  split at e
  · cases e
  · rename_i h
    cases e
    exact ruleFrame_one rfl rfl rfl (addrCheck_eq_none.1 h) (.inl rfl)

theorem popRule_frame {rd : Reg} (e : popRule rd env P = .done Q next es) : RuleFrame plain env.memSize P Q es := by
  simp only [popRule] at e
  split at e
  · cases e
  · rename_i h
    cases e
    exact ruleFrame_one rfl rfl rfl (addrCheck_eq_none.1 h) (.inl rfl)

theorem transfer_frame {k : BranchKind} {target : Word} (e : transfer k target env P = .done Q next es) :
    RuleFrame plain m P Q es := by
  cases e
  exact ruleFrame_none rfl rfl rfl

theorem branchRule_frame {k : BranchKind} {taken : Word → Bool} {target : Word}
    (e : branchRule k taken target env P = .done Q next es) : RuleFrame plain m P Q es := by
  simp only [branchRule] at e
  split at e
  · exact transfer_frame e
  · cases e
    exact ruleFrame_none rfl rfl rfl

/-- RET's second effect has no effect: the read comes with the transfer (49_environment.md R360). -/
theorem retRule_frame (e : retRule env P = .done Q next es) : RuleFrame plain env.memSize P Q es := by
  simp only [retRule] at e
  split at e
  · cases e
  · rename_i h
    cases e
    exact ⟨rfl, rfl, rfl, rfl, fun _ _ => rfl, fun _ => rfl, .memoryRead (spOf P.regs) .pc, addrCheck_eq_none.1 h,
      .inl rfl, fun _ _ _ => rfl⟩

/-- The rules that leave the processor as it is and emit one effect without an address (44_sync.md R240). -/
theorem emit_frame {d : Dispatch} {x : Effect} (e : d = .done Q next es) (hd : d = .done P (nextPc P.regs) [x])
    (hr : EffectInRange m x) : RuleFrame plain m P Q es := by
  cases hd.symm.trans e
  exact ruleFrame_one rfl rfl rfl hr (.inl rfl)

theorem casRule_frame {a : Word} {x n : Src} {rd : Reg} (e : casRule a x n rd env P = .done Q next es) :
    RuleFrame plain env.memSize P Q es := by
  simp only [casRule] at e
  split at e
  · cases e
  · rename_i h
    cases e
    exact ruleFrame_one rfl rfl rfl (addrCheck_eq_none.1 h) (.inl rfl)

/-- What the rule of any instruction leaves and emits. -/
theorem ruleOf_frame (i : Instr) (e : ruleOf i env P = .done Q next es) :
    RuleFrame (computeDest i).isNone env.memSize P Q es := by
  cases i with
  | add => exact writeResult_frame e
  | sub => exact writeResult_frame e
  | mul => exact writeResult_frame e
  | div => exact divRule_frame (env := env) e
  | and => exact writeResult_frame e
  | or => exact writeResult_frame e
  | xor => exact writeResult_frame e
  | shl => exact writeResult_frame e
  | shr => exact writeResult_frame e
  | load => exact loadRule_frame e
  | store => exact storeRule_frame e
  | push => exact pushWord_frame e
  | pop => exact popRule_frame e
  | jmp => exact transfer_frame e
  | jz => exact branchRule_frame e
  | jnz => exact branchRule_frame (taken := fun f => !flagZero f) e
  | call => exact pushWord_frame e
  | ret => exact retRule_frame e
  | lock => exact emit_frame e rfl trivial
  | unlock => exact emit_frame e rfl trivial
  | fence => exact emit_frame e rfl trivial
  | cas => exact casRule_frame e
  | barrier => exact emit_frame e rfl trivial
  | halt => exact emit_frame e rfl trivial
  | yield => exact emit_frame e rfl trivial
  | syscall => exact emit_frame e rfl trivial
  | nop =>
    cases e
    exact ruleFrame_none rfl rfl rfl
  | spawn => exact emit_frame e rfl trivial
  | join =>
    cases e
    exact ruleFrame_one rfl rfl rfl trivial (.inr ⟨_, rfl⟩)

end

/-! ### What a call that gives a next state is -/

/-- Every way an instruction can give a next state: a fault before or at its rule, by which its thread ends, or one
effect after the rule's changes to the processor. -/
inductive CallResult (s : State) (i : Instr) (P : Proc) (t : Nat) (s' : State) : Prop
  | blocked (f : ThreadFault) (h : s' = takeFault s.cur t f (s.putProc s.cur (silent P)))
  | fault (f : ThreadFault) (h : s' = takeFault s.cur t f (called s t (acceptedFault i.hdr P)))
  | done (Q : Proc) (next : Word) (es : List Effect) (e : Effect)
      (frame : RuleFrame (computeDest i).isNone s.cfg.memSize (accept i.hdr P) Q es)
      (range : EffectInRange s.cfg.memSize e) (state : Q.state = P.state ∨ ∃ j, e = .join j)
      (h : s' = resolve s.cur t e (called s t (finishCall Q next es)))

theorem exec_result {i : Instr} {s s' : State} (e : exec i s = .next s') :
    ∃ P t T, Running s P t T ∧ CallResult s i P t s' := by
  rw [exec_eq_issue] at e
  obtain ⟨P, t, T, hr, -, ⟨-, rfl⟩ | ⟨-, rfl⟩⟩ := issue_next e
  · exact ⟨P, t, T, hr, .blocked _ rfl⟩
  refine ⟨P, t, T, hr, ?_⟩
  cases hd : ruleOf i (callEnv s t) (accept i.hdr P) with
  | raise f => exact .fault f (dispatchOn_raise hd)
  | done Q next es =>
    have hf := ruleOf_frame i hd
    obtain ⟨x, hx, hst, hall⟩ := hf.effect
    exact .done Q next es x hf hx hst ((dispatchOn_done hd).trans (hall _ _ _))

/-- A running processor and its thread are determined by the state. -/
theorem Running.unique {s : State} {P Q : Proc} {t u : Nat} {T U : Thread} (h : Running s P t T)
    (h' : Running s Q u U) : P = Q ∧ t = u := by
  obtain rfl : P = Q := Option.some.inj (h.proc.symm.trans h'.proc)
  exact ⟨rfl, Option.some.inj (h.thread.symm.trans h'.thread)⟩

/-- The call on an invalid word ends its thread by a fault. -/
theorem issueInvalid_result {h : Hdr} {why : DecodeFault} {s s' : State} (e : issueInvalid h why s = .next s') :
    ∃ P t T f, Running s P t T ∧ (s' = takeFault s.cur t f (s.putProc s.cur (silent P)) ∨
      s' = takeFault s.cur t f (called s t (acceptedFault h P))) := by
  obtain ⟨P, t, T, hr, -, ⟨-, rfl⟩ | ⟨-, rfl⟩⟩ := issue_next e
  · exact ⟨P, t, T, _, hr, .inl rfl⟩
  · exact ⟨P, t, T, _, hr, .inr (dispatchOn_raise rfl)⟩

end Sys2Proof.Machine
end

section
/-! SUPPORT. Every step keeps the invariants of the cache system (10_state.md R40): the operations that touch neither
main memory nor a cache, the effects that do, a call, a turn and the scheduler. -/

namespace Sys2Proof.Machine

/-! ### Operations that touch neither main memory nor a cache -/

/-- s' has the main memory and the caches of s. -/
structure SameMemory (s s' : State) : Prop where
  mem    : s'.mem = s.mem
  caches : s'.caches = s.caches

theorem SameMemory.modThread {s s' : State} (h : SameMemory s s') (t : Nat) (f : Thread → Thread) :
    SameMemory s (s'.modThread t f) := ⟨h.mem, h.caches⟩

theorem SameMemory.unblockAll {s s' : State} (h : SameMemory s s') (us : List Nat) :
    SameMemory s (unblockAll us s') := by
  rw [unblockAll_eq]
  exact ⟨h.mem, h.caches⟩

theorem SameMemory.terminate {s s' : State} (h : SameMemory s s') (p t : Nat) :
    SameMemory s (terminate p t s') := by
  simp only [Machine.terminate]
  refine SameMemory.modThread (SameMemory.unblockAll (SameMemory.unblockAll ?_ _) _) t _
  exact ⟨h.mem, h.caches⟩

theorem takeFault_sameMemory (p t : Nat) (f : ThreadFault) (s : State) : SameMemory s (takeFault p t f s) := by
  refine SameMemory.terminate ?_ p t
  exact ⟨rfl, rfl⟩

theorem vmFail_sameMemory (p t : Nat) (e : VmException) (info : Word) (s : State) :
    SameMemory s (vmFail p t e info s) := by
  refine SameMemory.terminate ?_ p t
  exact ⟨rfl, rfl⟩

theorem resolveLock_sameMemory (p t : Nat) (id : Word) (s : State) : SameMemory s (resolveLock p t id s) := by
  simp only [resolveLock]
  split
  · exact ⟨rfl, rfl⟩
  · exact ⟨rfl, rfl⟩

theorem resolveUnlock_sameMemory (p t : Nat) (id : Word) (s : State) : SameMemory s (resolveUnlock p t id s) := by
  simp only [resolveUnlock]
  split
  · exact vmFail_sameMemory _ _ _ _ _
  · split
    · refine SameMemory.unblockAll ?_ _
      exact ⟨rfl, rfl⟩
    · exact vmFail_sameMemory _ _ _ _ _

theorem resolveBarrier_sameMemory (p t : Nat) (id n : Word) (s : State) :
    SameMemory s (resolveBarrier p t id n s) := by
  simp only [resolveBarrier]
  split
  · refine SameMemory.unblockAll ?_ _
    exact ⟨rfl, rfl⟩
  · exact ⟨rfl, rfl⟩

theorem resolveJoin_sameMemory (p t : Nat) (j : Word) (s : State) : SameMemory s (resolveJoin p t j s) := by
  simp only [resolveJoin]
  split
  · exact vmFail_sameMemory _ _ _ _ _
  · split
    · exact ⟨rfl, rfl⟩
    · exact ⟨rfl, rfl⟩

theorem scheduleOn_sameMemory (p : Nat) (s : State) : SameMemory s (scheduleOn s p) := by
  rcases scheduleOn_cases s p with h | ⟨P, t, ts, -, -, -, h⟩
  · rw [h]
    exact ⟨rfl, rfl⟩
  · rw [h]
    simp only [switchIn]
    split
    · exact ⟨rfl, rfl⟩
    · exact ⟨rfl, rfl⟩

/-- A call that touches neither main memory nor a cache keeps the invariants. -/
theorem Coherent.of_call {p : Nat} {s s' : State} (h : Coherent s) (hc : CallStep p s s') (hm : SameMemory s s') :
    Coherent s' := h.congr hc.cfg hm.mem hm.caches hc.length

/-! ### Effects, calls and turns -/

/-- Cache p of a machine that has processor p. -/
theorem Coherent.cache_lt {s : State} (h : Coherent s) {p : Nat} {P : Proc} (hp : s.procs[p]? = some P) :
    p < s.caches.length := by
  rw [h.caches_length]
  exact (List.getElem?_eq_some_iff.1 hp).1

theorem resolveCas_coherent {s : State} (h : Coherent s) {p : Nat} (hp : p < s.caches.length) {a : Word}
    (ha : Accessible s a) (e n : Word) (r : Reg) : Coherent (resolveCas p a e n r s) := by
  have hread := dataRead_step p (s.threadOn p) a.toNat s
  have h1 := dataRead_coherent h hp (s.threadOn p) ha
  simp only [resolveCas]
  split
  · have h2 := dataWrite_coherent h1 (by rw [hread.caches]; exact hp) (s.threadOn p)
      (a := a) (by unfold Accessible; rw [hread.cfg]; exact ha) n
    exact h2.of_call (modRegs_call p _ _) ⟨rfl, rfl⟩
  · exact h1.of_call (modRegs_call p _ _) ⟨rfl, rfl⟩

/-- The resolution of an effect on an address in range keeps the invariants. -/
theorem resolve_coherent {s : State} (h : Coherent s) {p : Nat} (hp : p < s.caches.length) (t : Nat) {e : Effect}
    (he : EffectInRange s.cfg.memSize e) : Coherent (resolve p t e s) := by
  have call : SameMemory s (resolve p t e s) → Coherent (resolve p t e s) := h.of_call (resolve_call p t e s)
  cases e with
  | registersModified rs => exact h
  | memoryRead a d =>
    have h1 := dataRead_coherent h hp (s.threadOn p) he
    cases d with
    | reg r => exact Coherent.of_call (s' := State.modRegs _ p _) h1 (modRegs_call p _ _) ⟨rfl, rfl⟩
    | pc => exact Coherent.of_call (s' := State.modProc _ p _) h1 (modProc_call p _ _) ⟨rfl, rfl⟩
  | memoryWrite a v => exact dataWrite_coherent h hp (s.threadOn p) he v
  | ret => exact h
  | syncLock id => exact call (resolveLock_sameMemory p t id s)
  | syncUnlock id => exact call (resolveUnlock_sameMemory p t id s)
  | fence => exact h
  | cas a x n r => exact resolveCas_coherent h hp he x n r
  | barrier id n => exact call (resolveBarrier_sameMemory p t id n s)
  | halt => exact call (SameMemory.terminate ⟨rfl, rfl⟩ p t)
  | yield => exact call ⟨rfl, rfl⟩
  | syscall n => exact h
  | spawn f a r => exact call ⟨rfl, rfl⟩
  | join j => exact call (resolveJoin_sameMemory p t j s)

theorem takeFault_coherent {s : State} (h : Coherent s) (p t : Nat) (f : ThreadFault) :
    Coherent (takeFault p t f s) := h.of_call (takeFault_call p t f s) (takeFault_sameMemory p t f s)

/-- Replacing a processor keeps the invariants. -/
theorem coherent_setProc {s : State} (h : Coherent s) (q : Nat) (Q : Proc) :
    Coherent { s with procs := s.procs.set q Q } := h.congr rfl rfl rfl (by simp)

theorem called_coherent {s : State} (h : Coherent s) (t : Nat) (Q : Proc) : Coherent (called s t Q) :=
  h.congr rfl rfl rfl (by simp)

/-- An instruction keeps the invariants. -/
theorem exec_coherent {i : Instr} {s s' : State} (h : Coherent s) (e : exec i s = .next s') : Coherent s' := by
  obtain ⟨P, t, T, hr, hres⟩ := exec_result e
  cases hres with
  | blocked f h' => exact h' ▸ takeFault_coherent (coherent_setProc h _ _) _ _ f
  | fault f h' => exact h' ▸ takeFault_coherent (called_coherent h _ _) _ _ f
  | done Q next es x _ hx _ h' => exact h' ▸ resolve_coherent (called_coherent h _ _) (h.cache_lt hr.proc) t hx

/-- The call on an invalid word keeps the invariants. -/
theorem issueInvalid_coherent {h : Hdr} {why : DecodeFault} {s s' : State} (hs : Coherent s)
    (e : issueInvalid h why s = .next s') : Coherent s' := by
  obtain ⟨P, t, T, f, -, rfl | rfl⟩ := issueInvalid_result e
  · exact takeFault_coherent (coherent_setProc hs _ _) _ _ f
  · exact takeFault_coherent (called_coherent hs _ _) _ _ f

/-- A turn keeps the invariants. -/
theorem turn_coherent {p : Nat} {s s' : State} (h : Coherent s) (e : turn p s = .next s') : Coherent s' := by
  obtain ⟨rfl, -⟩ | ⟨P, -, -, ⟨-, rfl⟩ | ⟨t, T, -, -, ⟨-, rfl⟩ | ⟨w, -, ⟨i, -, e⟩ | ⟨d, -, e⟩⟩⟩⟩ := turn_next e
  · exact h
  · exact coherent_setProc (s := { s with cur := p }) h p _
  · exact takeFault_coherent (coherent_setProc (s := { s with cur := p }) h p _) _ _ _
  · exact exec_coherent (s := { s with cur := p }) h e
  · exact issueInvalid_coherent (s := { s with cur := p }) h e

/-- The scheduler at a processor keeps the number of processors. -/
theorem scheduleOn_length (s : State) (p : Nat) : (scheduleOn s p).procs.length = s.procs.length := by
  rcases scheduleOn_cases s p with h | ⟨P, t, ts, -, -, -, h⟩
  · rw [h]
  · rw [h]
    simp only [switchIn]
    split <;> simp

/-- Settles O9: each part of a step keeps the invariants, so a step does. -/
theorem stepKeepsCoherence : Obligations.StepKeepsCoherence := by
  intro s s' h e
  refine step_keeps (R := fun s => Coherent s) (fun s _ _ h => h) (fun p s h => ?_) (fun p s s' => turn_coherent)
    (fun s h => h) (fun s _ h => h) h e
  have hm := scheduleOn_sameMemory p s
  exact h.congr (scheduleOn_cfg s p) hm.mem hm.caches (scheduleOn_length s p)

end Sys2Proof.Machine
end

section
/-! SUPPORT. What an instruction leaves of its own processor and of every other thread, and the statements about a step
that rest on it: configuration, stall range, frames of one instruction. -/

namespace Sys2Proof.Machine

/-! ### The frame of a call on processor p for thread t -/

/-- P' has the enforcement flag, level, FLAGS and stall counter of P. -/
structure ProcKept (P P' : Proc) : Prop where
  enforce : P'.enforce = P.enforce
  priv    : P'.regs.priv = P.regs.priv
  flags   : P'.regs.flags = P.regs.flags
  stall   : P'.stall = P.stall

/-- U' has the saved context, processor, Program and count of U. -/
structure ThreadKept (U U' : Thread) : Prop where
  ctx   : U'.ctx = U.ctx
  proc  : U'.proc = U.proc
  prog  : U'.prog = U.prog
  count : U'.execCycles = U.execCycles

/-- Processor p and every thread but t are in s' as they are in s, as far as `ProcKept` and `ThreadKept` say. -/
structure OwnStep (p t : Nat) (s s' : State) : Prop where
  own    : ∀ P, s.procs[p]? = some P → ∃ P', s'.procs[p]? = some P' ∧ ProcKept P P'
  others : ∀ u U, u ≠ t → s.threads[u]? = some U → ∃ U', s'.threads[u]? = some U' ∧ ThreadKept U U'

section
variable {p t : Nat} {s s' s'' : State}

/-- Nothing changed of processors and threads. -/
theorem OwnStep.of_eq (hp : s'.procs = s.procs) (ht : s'.threads = s.threads) : OwnStep p t s s' :=
  ⟨fun P hP => ⟨P, hp ▸ hP, rfl, rfl, rfl, rfl⟩, fun _ U _ hU => ⟨U, ht ▸ hU, rfl, rfl, rfl, rfl⟩⟩

theorem OwnStep.trans (h : OwnStep p t s s') (h' : OwnStep p t s' s'') : OwnStep p t s s'' where
  own P hP := by
    obtain ⟨P', hP', k⟩ := h.own P hP
    obtain ⟨P'', hP'', k'⟩ := h'.own P' hP'
    exact ⟨P'', hP'', k'.enforce.trans k.enforce, k'.priv.trans k.priv, k'.flags.trans k.flags,
      k'.stall.trans k.stall⟩
  others u U hu hU := by
    obtain ⟨U', hU', k⟩ := h.others u U hu hU
    obtain ⟨U'', hU'', k'⟩ := h'.others u U' hu hU'
    exact ⟨U'', hU'', k'.ctx.trans k.ctx, k'.proc.trans k.proc, k'.prog.trans k.prog, k'.count.trans k.count⟩

/-- Changing processor p in other fields. -/
theorem OwnStep.modProc (h : OwnStep p t s s') {f : Proc → Proc} (hf : ∀ P, ProcKept P (f P)) :
    OwnStep p t s (s'.modProc p f) :=
  h.trans ⟨fun P hP => ⟨f P, by simp [hP], hf P⟩, fun _ U _ hU => ⟨U, hU, rfl, rfl, rfl, rfl⟩⟩

/-- Changing thread t, or any thread in other fields. -/
theorem OwnStep.modThread (h : OwnStep p t s s') (u : Nat) {f : Thread → Thread}
    (hf : u = t ∨ ∀ U, ThreadKept U (f U)) : OwnStep p t s (s'.modThread u f) := by
  refine h.trans ⟨fun P hP => ⟨P, hP, rfl, rfl, rfl, rfl⟩, fun v U hv hU => ?_⟩
  rcases eq_or_ne u v with rfl | hne
  · exact ⟨f U, by simp [hU], (hf.resolve_left hv) U⟩
  · exact ⟨U, by simp [hne, hU], rfl, rfl, rfl, rfl⟩

/-- Waking threads. -/
theorem OwnStep.unblockAll (h : OwnStep p t s s') (us : List Nat) : OwnStep p t s (unblockAll us s') := by
  rw [unblockAll_eq]
  refine h.trans ⟨fun P hP => ⟨P, hP, rfl, rfl, rfl, rfl⟩, fun u U _ hU => ?_⟩
  refine ⟨_, by rw [woken_getElem?, hU]; rfl, ?_⟩
  split <;> exact ⟨rfl, rfl, rfl, rfl⟩

/-- Thread t leaves processor p. -/
theorem OwnStep.takeOff (h : OwnStep p t s s') (st : ThreadState) : OwnStep p t s (takeOff p t st s') :=
  (h.modThread t (.inl rfl)).modProc fun _ => ⟨rfl, rfl, rfl, rfl⟩

theorem OwnStep.terminate (h : OwnStep p t s s') : OwnStep p t s (terminate p t s') := by
  simp only [Machine.terminate]
  refine OwnStep.modThread (.unblockAll (.unblockAll ?_ _) _) t (.inl rfl)
  exact (h.takeOff .terminated).trans (.of_eq rfl rfl)

theorem OwnStep.takeFault (h : OwnStep p t s s') (f : ThreadFault) : OwnStep p t s (takeFault p t f s') :=
  OwnStep.terminate (h.trans (.of_eq rfl rfl))

theorem OwnStep.vmFail (h : OwnStep p t s s') (e : VmException) (info : Word) :
    OwnStep p t s (vmFail p t e info s') :=
  OwnStep.terminate (h.trans (.of_eq rfl rfl))

theorem OwnStep.refl : OwnStep p t s s := .of_eq rfl rfl

/-- A memory operation. -/
theorem MemoryStep.own (h : MemoryStep s s') : OwnStep p t s s' := .of_eq h.procs h.threads

/-- Changing operand registers and PC. -/
theorem OwnStep.modRegs (h : OwnStep p t s s') {f : RegSet → RegSet}
    (hf : ∀ R, (f R).priv = R.priv ∧ (f R).flags = R.flags) : OwnStep p t s (s'.modRegs p f) :=
  h.modProc fun P => ⟨rfl, (hf P.regs).1, (hf P.regs).2, rfl⟩

theorem OwnStep.writeReg (h : OwnStep p t s s') (r : Reg) (v : Word) :
    OwnStep p t s (s'.modRegs p fun R => writeReg R r v) := h.modRegs fun _ => ⟨rfl, rfl⟩

end

/-! ### Every effect -/

theorem resolveLock_own (p t : Nat) (id : Word) (s : State) : OwnStep p t s (resolveLock p t id s) := by
  simp only [resolveLock]
  split
  · exact .of_eq rfl rfl
  · refine OwnStep.takeOff ?_ _
    exact .of_eq rfl rfl

theorem resolveUnlock_own (p t : Nat) (id : Word) (s : State) : OwnStep p t s (resolveUnlock p t id s) := by
  simp only [resolveUnlock]
  split
  · exact OwnStep.refl.vmFail _ _
  · split
    · refine OwnStep.unblockAll ?_ _
      exact .of_eq rfl rfl
    · exact OwnStep.refl.vmFail _ _

theorem resolveBarrier_own (p t : Nat) (id n : Word) (s : State) : OwnStep p t s (resolveBarrier p t id n s) := by
  simp only [resolveBarrier]
  split
  · refine OwnStep.unblockAll ?_ _
    exact .of_eq rfl rfl
  · refine OwnStep.takeOff ?_ _
    exact .of_eq rfl rfl

theorem resolveJoin_own (p t : Nat) (j : Word) (s : State) : OwnStep p t s (resolveJoin p t j s) := by
  simp only [resolveJoin]
  split
  · exact OwnStep.refl.vmFail _ _
  · split
    · exact OwnStep.refl.modProc fun _ => ⟨rfl, rfl, rfl, rfl⟩
    · refine OwnStep.takeOff (OwnStep.modThread .refl _ (.inr ?_)) _
      exact fun _ => ⟨rfl, rfl, rfl, rfl⟩

theorem resolveCas_own (p t : Nat) (a e n : Word) (r : Reg) (s : State) : OwnStep p t s (resolveCas p a e n r s) := by
  simp only [resolveCas]
  split
  · exact ((dataRead_step p _ a.toNat s).trans (dataWrite_step p _ _ n _)).own.writeReg r 1
  · exact (dataRead_step p _ a.toNat s).own.writeReg r 0

/-- Creating a thread leaves those there are alone. -/
theorem createThread_own (p t g : Nat) (R : RegSet) (o : Option Nat) (s : State) :
    OwnStep p t s (createThread g R o s) := by
  refine ⟨fun P hP => ⟨P, hP, rfl, rfl, rfl, rfl⟩, fun u U _ hU => ⟨U, ?_, rfl, rfl, rfl, rfl⟩⟩
  rw [createThread_threads, List.getElem?_append_left (List.getElem?_eq_some_iff.1 hU).1, hU]

/-- The resolution of an effect leaves its processor and every other thread as `OwnStep` says. -/
theorem resolve_own (p t : Nat) (e : Effect) (s : State) : OwnStep p t s (resolve p t e s) := by
  cases e with
  | registersModified rs => exact .refl
  | memoryRead a d =>
    have hread : OwnStep p t s (dataRead p (s.threadOn p) a.toNat s).2 := (dataRead_step p _ a.toNat s).own
    cases d with
    | reg r => exact hread.writeReg r _
    | pc => exact hread.modProc fun _ => ⟨rfl, rfl, rfl, rfl⟩
  | memoryWrite a v => exact (dataWrite_step p _ a.toNat v s).own
  | ret => exact .refl
  | syncLock id => exact resolveLock_own p t id s
  | syncUnlock id => exact resolveUnlock_own p t id s
  | fence => exact .refl
  | cas a x n r => exact resolveCas_own p t a x n r s
  | barrier id n => exact resolveBarrier_own p t id n s
  | halt => exact OwnStep.refl.terminate
  | yield =>
    have h : OwnStep p t s (unblockAll [t] (suspend p t s)) := (OwnStep.refl.takeOff .waiting).unblockAll [t]
    exact h
  | syscall n => exact .refl
  | spawn f a r => exact (createThread_own p t _ _ _ s).writeReg r _
  | join j => exact resolveJoin_own p t j s

/-! ### Instructions -/

/-- What a call of i makes of its processor P: the stall counter is its latency less 1, or as it was when the call was
refused. -/
structure CallFrame (i : Instr) (P P' : Proc) : Prop where
  enforce   : P'.enforce = P.enforce
  priv      : P'.regs.priv = P.regs.priv
  highFlags : ∀ k, 2 ≤ k → P'.regs.flags.getLsbD k = P.regs.flags.getLsbD k
  flags     : computeDest i = none → P'.regs.flags = P.regs.flags
  stall     : P'.stall = P.stall ∨ P'.stall = i.hdr.lat - 1

/-- A call that changed the processor to Q and went on from there. -/
theorem CallFrame.of_own {i : Instr} {s s' : State} {P Q : Proc} {p t : Nat} (hQ : s.procs[p]? = some Q)
    (h : CallFrame i P Q) (ho : OwnStep p t s s') : ∃ P', s'.procs[p]? = some P' ∧ CallFrame i P P' := by
  obtain ⟨P', hP', k⟩ := ho.own Q hQ
  exact ⟨P', hP', k.enforce.trans h.enforce, k.priv.trans h.priv, fun n hn => k.flags ▸ h.highFlags n hn,
    fun hc => k.flags.trans (h.flags hc), k.stall ▸ h.stall⟩

/-- Every other thread after a call has been counted. -/
theorem ThreadKept.called {s s' : State} {t : Nat} {Q : Proc} {p : Nat} (ho : OwnStep p t (called s t Q) s') {u : Nat}
    {U : Thread} (hu : u ≠ t) (hU : s.threads[u]? = some U) : ∃ U', s'.threads[u]? = some U' ∧ ThreadKept U U' :=
  ho.others u U hu (by simp [hu.symm, hU])

/-- What an instruction leaves of its own processor and of every other thread. -/
theorem exec_frame {i : Instr} {s s' : State} (e : exec i s = .next s') :
    ∃ P t T, Running s P t T ∧ (∃ P', s'.procs[s.cur]? = some P' ∧ CallFrame i P P') ∧
      ∀ u U, u ≠ t → s.threads[u]? = some U → ∃ U', s'.threads[u]? = some U' ∧ ThreadKept U U' := by
  obtain ⟨P, t, T, hr, hres⟩ := exec_result e
  have hlt : s.cur < s.procs.length := (List.getElem?_eq_some_iff.1 hr.proc).1
  have hset : ∀ Q : Proc, (s.procs.set s.cur Q)[s.cur]? = some Q := fun Q => List.getElem?_set_self hlt
  refine ⟨P, t, T, hr, ?_⟩
  cases hres with
  | blocked f h =>
    have ho : OwnStep s.cur t (s.putProc s.cur (silent P)) s' := h ▸ OwnStep.refl.takeFault f
    exact ⟨CallFrame.of_own (Q := silent P) (hset _) ⟨rfl, rfl, fun _ _ => rfl, fun _ => rfl, .inl rfl⟩ ho, ho.others⟩
  | fault f h =>
    have ho : OwnStep s.cur t (called s t (acceptedFault i.hdr P)) s' := h ▸ OwnStep.refl.takeFault f
    exact ⟨CallFrame.of_own (Q := acceptedFault i.hdr P) (hset _)
      ⟨rfl, rfl, fun _ _ => rfl, fun _ => rfl, .inr rfl⟩ ho, fun u U => ThreadKept.called ho⟩
  | done Q next es x hf _ _ h =>
    have ho : OwnStep s.cur t (called s t (finishCall Q next es)) s' := h ▸ resolve_own _ _ x _
    have hflags : computeDest i = none → Q.regs.flags = P.regs.flags := fun hc => hf.flags (by rw [hc]; rfl)
    exact ⟨CallFrame.of_own (Q := finishCall Q next es) (hset _)
      ⟨hf.enforce, hf.priv, hf.highFlags, hflags, .inr hf.stall⟩ ho,
      fun u U => ThreadKept.called ho⟩

/-- Settles O16: the frame of a call, with what every call leaves of the other processors. -/
theorem instructionTouchesItsOwnProcessor : Obligations.InstructionTouchesItsOwnProcessor := by
  intro i s s' P t T hr e
  have hc := exec_call e
  obtain ⟨Q, u, U, hr', ⟨P', hP', hf⟩, hothers⟩ := exec_frame e
  obtain ⟨rfl, rfl⟩ := hr.unique hr'
  refine ⟨hc.cfg, hc.programs, hc.clock, hc.switches, hc.cur, hc.vm, hc.others, ⟨P', hP', hf.priv, hf.enforce⟩, ?_⟩
  intro v V hv hV
  obtain ⟨V', hV', k⟩ := hothers v V hv hV
  exact ⟨V', hV', k.ctx, k.proc, k.prog, k.count⟩

/-- Settles O17: only a COMPUTE rule writes FLAGS, and `setFlags` leaves bits 2 and up alone. -/
theorem instructionFlagFrame : Obligations.InstructionFlagFrame := by
  intro i s s' P P' t T hr e hP'
  obtain ⟨Q, u, U, hr', ⟨P'', hP'', hf⟩, -⟩ := exec_frame e
  obtain ⟨rfl, rfl⟩ := hr.unique hr'
  obtain rfl : P' = P'' := Option.some.inj (hP'.symm.trans hP'')
  exact ⟨hf.highFlags, hf.flags⟩

/-! ### Turns -/

/-- The records of the instructions a word decodes to have the latency of the word (30_encoding.md R122). -/
theorem build_hdr {op : Op} {h : Hdr} {o0 o1 o2 o3 : RawOperand} {i : Instr} (e : build op h o0 o1 o2 o3 = some i) :
    i.hdr = h := by
  cases op <;>
    simp only [build, Option.bind_eq_bind, Option.bind_eq_some_iff, Option.pure_def, Option.map_eq_some_iff,
      Option.some.injEq] at e
  case add | sub | mul | div | and | or | xor | shl | shr | spawn =>
    obtain ⟨_, -, _, -, _, -, rfl⟩ := e
    rfl
  case load | store | barrier =>
    obtain ⟨_, -, _, -, rfl⟩ := e
    rfl
  case push | pop | jmp | jz | jnz | call | lock | unlock | syscall | join =>
    obtain ⟨_, -, rfl⟩ := e
    rfl
  case cas =>
    obtain ⟨_, -, _, -, _, -, _, -, rfl⟩ := e
    rfl
  case ret | fence | halt | yield | nop =>
    subst e
    rfl

/-- The latency of a word is below 256 (30_encoding.md R122). -/
theorem rawHdr_lat_lt (r : RawWord) : (rawHdr r).lat < 256 := r.lat.isLt

/-- The record of a decoded instruction is the one its word holds. -/
theorem decode_hdr {w : InstrWord} {i : Instr} (e : decode w = .ok i) : i.hdr = rawHdr (unpack w) := by
  simp only [decode, decodeRaw] at e
  split at e
  · cases e
  split at e
  · cases e
  split at e
  · cases e
  split at e
  · cases e
  split at e
  · cases e
  rename_i h
  cases e
  exact build_hdr h

/-- What one turn makes of a processor: the enforcement flag stays, and a stall counter below 255 stays below 255. -/
structure TurnFrame (P P' : Proc) : Prop where
  enforce : P'.enforce = P.enforce
  stall   : P.stall ≤ 254 → P'.stall ≤ 254

theorem ProcKept.turn {P P' : Proc} (h : ProcKept P P') : TurnFrame P P' := ⟨h.enforce, fun hs => h.stall ▸ hs⟩

/-- s' has the processors of s, each changed as `TurnFrame` says. -/
structure ProcsFrame (s s' : State) : Prop where
  length : s'.procs.length = s.procs.length
  each   : ∀ (q : Nat) (P : Proc), s.procs[q]? = some P → ∃ P', s'.procs[q]? = some P' ∧ TurnFrame P P'

theorem ProcsFrame.refl {s s' : State} (h : s'.procs = s.procs) : ProcsFrame s s' :=
  ⟨by rw [h], fun _ P hP => ⟨P, h ▸ hP, rfl, id⟩⟩

theorem ProcsFrame.trans {s s' s'' : State} (h : ProcsFrame s s') (h' : ProcsFrame s' s'') : ProcsFrame s s'' where
  length := h'.length.trans h.length
  each q P hP := by
    obtain ⟨P', hP', k⟩ := h.each q P hP
    obtain ⟨P'', hP'', k'⟩ := h'.each q P' hP'
    exact ⟨P'', hP'', k'.enforce.trans k.enforce, fun hs => k'.stall (k.stall hs)⟩

/-- A call on processor p: the others are as before. -/
theorem CallStep.procsFrame {p : Nat} {s s' : State} (h : CallStep p s s')
    (hown : ∀ P, s.procs[p]? = some P → ∃ P', s'.procs[p]? = some P' ∧ TurnFrame P P') : ProcsFrame s s' := by
  refine ⟨h.length, fun q P hP => ?_⟩
  rcases eq_or_ne q p with rfl | hne
  · exact hown P hP
  · exact ⟨P, (h.others q hne).trans hP, rfl, id⟩

/-- Replacing processor p. -/
theorem procsFrame_set {s : State} {p : Nat} {P Q : Proc} (hp : s.procs[p]? = some P) (h : TurnFrame P Q) :
    ProcsFrame s (s.putProc p Q) := by
  refine (putProc_call p Q s).procsFrame fun P' hP' => ?_
  obtain rfl : P = P' := Option.some.inj (hp.symm.trans hP')
  exact ⟨Q, List.getElem?_set_self (List.getElem?_eq_some_iff.1 hp).1, h⟩

theorem takeFault_procsFrame (p t : Nat) (f : ThreadFault) (s : State) : ProcsFrame s (takeFault p t f s) := by
  refine (takeFault_call p t f s).procsFrame fun P hP => ?_
  obtain ⟨P', hP', k⟩ := (OwnStep.refl (p := p) (t := t)).takeFault f |>.own P hP
  exact ⟨P', hP', k.turn⟩

/-- An instruction whose latency an instruction word can hold. -/
theorem exec_procsFrame {i : Instr} {s s' : State} (hl : i.hdr.lat < 256) (e : exec i s = .next s') :
    ProcsFrame s s' := by
  refine (exec_call e).procsFrame fun P hP => ?_
  obtain ⟨Q, t, T, hr, ⟨P', hP', k⟩, -⟩ := exec_frame e
  obtain rfl : P = Q := Option.some.inj (hP.symm.trans hr.proc)
  refine ⟨P', hP', k.enforce, fun hs => ?_⟩
  rcases k.stall with h | h <;> omega

/-- The call on an invalid word, whose latency an instruction word can hold. -/
theorem issueInvalid_procsFrame {h : Hdr} {why : DecodeFault} {s s' : State} (hl : h.lat < 256)
    (e : issueInvalid h why s = .next s') : ProcsFrame s s' := by
  obtain ⟨P, t, T, f, hr, rfl | rfl⟩ := issueInvalid_result e
  · exact (procsFrame_set (Q := silent P) hr.proc ⟨rfl, id⟩).trans (takeFault_procsFrame _ _ _ _)
  · have hacc : TurnFrame P (acceptedFault h P) := ⟨rfl, fun _ => by simp only [acceptedFault]; omega⟩
    have hcalled : ProcsFrame (s.putProc s.cur (acceptedFault h P)) (called s t (acceptedFault h P)) := .refl rfl
    exact ((procsFrame_set hr.proc hacc).trans hcalled).trans (takeFault_procsFrame _ _ _ _)

/-- A turn. -/
theorem turn_procsFrame {p : Nat} {s s' : State} (e : turn p s = .next s') : ProcsFrame s s' := by
  have hcur : ProcsFrame s { s with cur := p } := .refl rfl
  have hset : ∀ P Q, s.procs[p]? = some P → TurnFrame P Q →
      ProcsFrame s { s with cur := p, procs := s.procs.set p Q } := fun P Q hP h =>
    hcur.trans (procsFrame_set (s := { s with cur := p }) hP h)
  obtain ⟨rfl, -⟩ | ⟨P, hP, -, ⟨-, rfl⟩ | ⟨t, T, -, -, ⟨-, rfl⟩ | ⟨w, -, ⟨i, hd, e⟩ | ⟨d, -, e⟩⟩⟩⟩ := turn_next e
  · exact .refl rfl
  · exact hset P (stallCycle P) hP ⟨rfl, fun hs => by simp only [stallCycle]; omega⟩
  · exact (hset P (silent P) hP ⟨rfl, id⟩).trans (takeFault_procsFrame _ _ _ _)
  · exact hcur.trans (exec_procsFrame (by rw [decode_hdr hd]; exact rawHdr_lat_lt _) e)
  · exact hcur.trans (issueInvalid_procsFrame (rawHdr_lat_lt _) e)

/-- The scheduler at a processor. -/
theorem scheduleOn_procsFrame (p : Nat) (s : State) : ProcsFrame s (scheduleOn s p) := by
  obtain h | ⟨P, t, ts, -, -, -, h⟩ := scheduleOn_cases s p
  · exact .refl (by rw [h])
  · rw [h]
    cases hT : s.threads[t]? with
    | none => exact .refl (by rw [switchIn_none (s := { s with ready := ts }) hT])
    | some T =>
      rw [switchIn_some (s := { s with ready := ts }) hT]
      refine ⟨by simp, fun q Q hQ => ?_⟩
      rcases eq_or_ne p q with rfl | hne
      · exact ⟨switchedIn t T.ctx Q, by simp [hQ], rfl, fun _ => Nat.zero_le _⟩
      · exact ⟨Q, by simp [hne, hQ], rfl, id⟩

/-- A step. -/
theorem step_procsFrame {s s' : State} (e : step s = .next s') : ProcsFrame s s' :=
  step_keeps (R := ProcsFrame s) (fun _ _ _ h => h.trans (.refl rfl))
    (fun p s1 h => h.trans (scheduleOn_procsFrame p s1))
    (fun _ _ _ h e => h.trans (turn_procsFrame e)) (fun _ h => h.trans (.refl rfl)) (fun _ _ h => h.trans (.refl rfl))
    (.refl rfl) e

/-- The scheduler leaves the Programs alone. -/
theorem scheduleOn_programs (s : State) (p : Nat) : (scheduleOn s p).programs = s.programs := by
  obtain h | ⟨P, t, ts, -, -, -, h⟩ := scheduleOn_cases s p
  · rw [h]
  · rw [h]
    simp only [switchIn]
    split <;> rfl

/-- A turn is what a call may do, but for the processor whose call is being made. -/
theorem turn_constants {p : Nat} {s s' : State} (e : turn p s = .next s') :
    s'.cfg = s.cfg ∧ s'.programs = s.programs := by
  obtain ⟨rfl, -⟩ | ⟨P, -, -, ⟨-, rfl⟩ | ⟨t, T, -, -, ⟨-, rfl⟩ | ⟨w, -, ⟨i, -, e⟩ | ⟨d, -, e⟩⟩⟩⟩ := turn_next e
  · exact ⟨rfl, rfl⟩
  · exact ⟨rfl, rfl⟩
  · have h := takeFault_call p t .fetchOutOfRange { s with cur := p, procs := s.procs.set p (silent P) }
    exact ⟨h.cfg, h.programs⟩
  · exact ⟨(exec_call e).cfg, (exec_call e).programs⟩
  · exact ⟨(issue_call e).cfg, (issue_call e).programs⟩

/-- Settles O13: no part of a step writes the configuration or the Programs, and a turn and the scheduler keep each
processor's enforcement flag. -/
theorem stepKeepsConfiguration : Obligations.StepKeepsConfiguration := by
  intro s s' e
  obtain ⟨hcfg, hprog⟩ := step_keeps (R := fun s1 => s1.cfg = s.cfg ∧ s1.programs = s.programs) (fun _ _ _ h => h)
    (fun p s1 h => ⟨(scheduleOn_cfg s1 p).trans h.1, (scheduleOn_programs s1 p).trans h.2⟩)
    (fun _ _ _ h e => ⟨(turn_constants e).1.trans h.1, (turn_constants e).2.trans h.2⟩) (fun _ h => h) (fun _ _ h => h)
    ⟨rfl, rfl⟩ e
  refine ⟨hcfg, hprog, ?_⟩
  obtain ⟨hlen, heach⟩ := step_procsFrame e
  apply List.ext_getElem?
  intro q
  rw [List.getElem?_map, List.getElem?_map]
  cases hP : s.procs[q]? with
  | none => rw [List.getElem?_eq_none (by rw [hlen]; exact List.getElem?_eq_none_iff.1 hP)]
  | some P =>
    obtain ⟨P', hP', k⟩ := heach q P hP
    rw [hP', Option.map_some, Option.map_some, k.enforce]

/-- Settles O15: a stall counter is a latency of 8 bits less 1, or less than before. -/
theorem stepKeepsStallRange : Obligations.StepKeepsStallRange := by
  intro s s' hs e P' hP'
  obtain ⟨hlen, heach⟩ := step_procsFrame e
  obtain ⟨q, hq, rfl⟩ := List.mem_iff_getElem.1 hP'
  have hlt : q < s.procs.length := hlen ▸ hq
  obtain ⟨Q, hQ, k⟩ := heach q _ (List.getElem?_eq_getElem hlt)
  obtain rfl : s'.procs[q] = Q := Option.some.inj ((List.getElem?_eq_getElem hq).symm.trans hQ)
  exact k.stall (hs _ (List.getElem_mem hlt))

end Sys2Proof.Machine
end

section
/-! SUPPORT. The state after construction and after reset (10_state.md R48). -/

namespace Sys2Proof.Machine

/-! ### The parts of the reset state -/

/-- A processor of the reset state is a processor at reset with its configured enforcement. -/
theorem resetWith_procs {c : Config} {gs : List Program} {p : Nat} {P : Proc}
    (h : (State.resetWith c gs).procs[p]? = some P) : P = Proc.reset (c.enforceAt p) := by
  obtain ⟨hp, rfl⟩ := List.getElem?_eq_some_iff.1 h
  simp [State.resetWith]

/-- Every cache of the reset state is a cache at reset. -/
theorem resetWith_caches {c : Config} {gs : List Program} {k : Cache} (h : k ∈ (State.resetWith c gs).caches) :
    k = Cache.reset c := List.eq_of_mem_replicate h

/-- A set of a cache at reset has `ASSOC` slots at reset. -/
theorem reset_sets {c : Config} {set : List CacheSlot} (h : set ∈ (Cache.reset c).sets) :
    set = List.replicate c.assoc (resetSlot c.lineWords) := List.eq_of_mem_replicate h

/-- Every slot of a cache at reset is a slot at reset. -/
theorem reset_slots {c : Config} {sl : CacheSlot} (h : sl ∈ slots (Cache.reset c)) : sl = resetSlot c.lineWords := by
  obtain ⟨set, hset, hsl⟩ := List.mem_flatten.1 h
  rw [reset_sets hset] at hsl
  exact List.eq_of_mem_replicate hsl

theorem setOf_reset {c : Config} {si : Nat} (h : si < c.numSets) :
    setOf (Cache.reset c) si = List.replicate c.assoc (resetSlot c.lineWords) := by
  simp [setOf, Cache.reset, List.getD_eq_getElem?_getD, h]

/-- Settles O6, part by part: processors, caches, and the fields that are empty or 0. -/
theorem resetValues : Obligations.ResetValues := by
  refine ⟨fun c hc => by simp [construct, hc], fun s => rfl, fun c gs => ?_⟩
  refine ⟨rfl, rfl, by simp [State.resetWith], by simp [State.resetWith], fun p P hP => ?_, fun a => rfl,
    fun k hk => ?_, rfl, rfl, rfl, rfl, rfl, rfl, rfl, rfl, rfl, rfl, rfl, rfl, rfl, rfl, rfl⟩
  · rw [resetWith_procs hP]
    refine ⟨fun i => by simp [Proc.reset, RegSet.reset], rfl, rfl, rfl, rfl, rfl, rfl, rfl, ?_, rfl⟩
    simp [Proc.reset, Config.enforceAt, List.getD_eq_getElem?_getD]
  · rw [resetWith_caches hk]
    refine ⟨rfl, by simp [Cache.reset], fun set hset => ?_⟩
    rw [reset_sets hset]
    refine ⟨by simp, fun sl hsl => ?_⟩
    rw [List.eq_of_mem_replicate hsl]
    exact ⟨rfl, rfl, rfl, rfl, by simp [resetSlot, Config.lineWords], fun v hv => List.eq_of_mem_replicate hv⟩

/-! ### The invariants at reset -/

/-- A cache at reset is in order: every slot is INVALID. -/
theorem cacheOk_reset (c : Config) : CacheOk c (Cache.reset c) := by
  refine ⟨by simp [Cache.reset], fun si hsi => ?_, fun sl hsl => by rw [reset_slots hsl]; rfl⟩
  have hinv : ∀ sl ∈ setOf (Cache.reset c) si, sl.state = .invalid := fun sl hsl => by
    rw [reset_slots (mem_slots_of_mem_setOf hsl)]
    rfl
  refine ⟨by rw [setOf_reset hsi, List.length_replicate], fun sl hsl hv => absurd (hinv sl hsl) hv, ?_⟩
  exact List.Pairwise.imp_of_mem (R := fun _ _ => True) (fun ha _ _ hv => absurd (hinv _ ha) hv)
    (List.pairwise_of_forall fun _ _ => trivial)

theorem coherent_reset {c : Config} (gs : List Program) (hc : c.ok = true) : Coherent (State.resetWith c gs) := by
  have hinv : ∀ k ∈ (State.resetWith c gs).caches, ∀ sl ∈ slots k, sl.state = .invalid := fun k hk sl hsl => by
    rw [resetWith_caches hk] at hsl
    rw [reset_slots hsl]
    rfl
  refine ⟨hc, rfl, by simp [State.resetWith], by simp [State.resetWith], fun k hk => ?_, ?_, fun _ k hk sl hsl h => ?_⟩
  · rw [resetWith_caches hk]
    exact cacheOk_reset c
  · exact List.Pairwise.imp_of_mem (R := fun _ _ => True) (fun ha _ _ x hx _ _ hv => absurd (hinv _ ha x hx) hv)
      (List.pairwise_of_forall fun _ _ => trivial)
  · simp [hinv k hk sl hsl] at h

/-- At reset every processor is at reset. -/
theorem forall_mem_resetWith_procs {c : Config} {gs : List Program} {R : Proc → Prop} (h : ∀ b, R (Proc.reset b)) :
    ∀ P ∈ (State.resetWith c gs).procs, R P := by
  intro P hP
  obtain ⟨p, hp⟩ := List.mem_iff_getElem?.1 hP
  exact resetWith_procs hp ▸ h _

theorem scheduled_reset (c : Config) (gs : List Program) : Scheduled (State.resetWith c gs) := by
  have hnone : hosted (State.resetWith c gs) = [] :=
    List.filterMap_eq_nil_iff.2 (forall_mem_resetWith_procs fun _ => rfl)
  have hparked : parked (State.resetWith c gs) = [] := rfl
  have hready : (State.resetWith c gs).ready = [] := rfl
  refine ⟨rfl, forall_mem_resetWith_procs fun _ => .inl ⟨rfl, rfl⟩, ?_, ?_, fun t ht => absurd ht (Nat.not_lt_zero t),
    .nil, .nil, fun _ hb => absurd hb List.not_mem_nil⟩
  · simp [hnone, hparked, hready]
  · simp [hnone, hparked, hready]

/-- Settles O7: at reset no slot is valid, no thread exists, and every counter is 0. -/
theorem resetMeetsInvariants : Obligations.ResetMeetsInvariants :=
  ⟨rfl, fun c gs hc => ⟨coherent_reset gs hc, scheduled_reset c gs, rfl,
    forall_mem_resetWith_procs fun _ => Nat.zero_le _⟩⟩

end Sys2Proof.Machine
end

section
/-! SUPPORT. Lists that are read through a function to lists (the queues of the locks, the threads on processors): what
changing one entry does to the whole, and the ascending tables of locks and barriers (10_state.md R46). -/

namespace Sys2Proof.Machine

/-! ### One entry replaced -/

/-- Replacing an entry exchanges its part of the whole. -/
theorem flatMap_set_perm {α β : Type} (g : α → List β) {l : List α} {p : Nat} {x : α} (h : l[p]? = some x) (y : α) :
    (g x ++ (l.set p y).flatMap g).Perm (g y ++ l.flatMap g) := by
  induction l generalizing p with
  | nil => simp at h
  | cons a l ih =>
    cases p with
    | zero =>
      simp only [List.getElem?_cons_zero, Option.some.injEq] at h
      subst h
      simp only [List.set_cons_zero, List.flatMap_cons]
      exact List.perm_append_comm_assoc _ _ _
    | succ p =>
      simp only [List.getElem?_cons_succ] at h
      simp only [List.set_cons_succ, List.flatMap_cons]
      exact ((List.perm_append_comm_assoc _ _ _).trans ((ih h).append_left _)).trans
        (List.perm_append_comm_assoc _ _ _)

/-- Changing an entry that is there. -/
theorem modify_eq_set_of_getElem? {α : Type} {l : List α} {p : Nat} {x : α} (h : l[p]? = some x) (f : α → α) :
    l.modify p f = l.set p (f x) := by
  rw [List.modify_eq_set_getElem?, h]
  rfl

/-- Changing an entry without changing its part leaves the parts alone. -/
theorem map_modify_of_eq {α β : Type} {g : α → β} {f : α → α} (h : ∀ x, g (f x) = g x) (l : List α) (p : Nat) :
    (l.modify p f).map g = l.map g := by
  apply List.ext_getElem?
  intro i
  simp only [List.getElem?_map, List.getElem?_modify]
  cases l[i]? with
  | none => rfl
  | some x => split <;> simp [h]

theorem map_set_of_eq {α β : Type} {g : α → β} {l : List α} {p : Nat} {x y : α} (h : l[p]? = some x) (e : g y = g x) :
    (l.set p y).map g = l.map g := by
  rw [List.map_set, e]
  exact set_of_getElem? (by rw [List.getElem?_map, h, Option.map_some])

theorem flatMap_modify_of_eq {α β : Type} {g : α → List β} {f : α → α} (h : ∀ x, g (f x) = g x) (l : List α)
    (p : Nat) : (l.modify p f).flatMap g = l.flatMap g := by
  rw [List.flatMap_def, List.flatMap_def, map_modify_of_eq h]

/-! ### Ascending tables -/

/-- Put an entry into a table in place of the one with its id, or at its place in ascending id order. -/
def putById {α : Type} (key : α → Word) (x : α) : List α → List α
  | [] => [x]
  | k :: ks => if key x < key k then x :: k :: ks else if key x = key k then x :: ks else k :: putById key x ks

theorem putLock_eq_putById (l : Lock) (ls : List Lock) : putLock l ls = putById (fun l => l.id) l ls := by
  induction ls with
  | nil => rfl
  | cons k ks ih => simp only [putLock, putById, ih]

theorem putBarrier_eq_putById (b : Barrier) (bs : List Barrier) : putBarrier b bs = putById (fun b => b.id) b bs := by
  induction bs with
  | nil => rfl
  | cons k ks ih => simp only [putBarrier, putById, ih]

section
variable {α β : Type} {key : α → Word} {ks : List α} {x : α}

theorem mem_putById {y : α} (h : y ∈ putById key x ks) : y = x ∨ y ∈ ks := by
  induction ks with
  | nil => exact .inl (List.mem_singleton.1 h)
  | cons k ks ih =>
    simp only [putById] at h
    split at h
    · exact List.mem_cons.1 h
    · split at h
      · exact (List.mem_cons.1 h).imp_right (List.mem_cons_of_mem k)
      · rcases List.mem_cons.1 h with rfl | h
        · exact .inr List.mem_cons_self
        · exact (ih h).imp_right (List.mem_cons_of_mem k)

/-- Putting an entry keeps a table ascending. -/
theorem putById_ascending (h : (ks.map fun k => (key k).toNat).Pairwise (· < ·)) :
    ((putById key x ks).map fun k => (key k).toNat).Pairwise (· < ·) := by
  induction ks with
  | nil => simp [putById]
  | cons k ks ih =>
    have hc := h
    simp only [List.map_cons, List.pairwise_cons, List.mem_map, forall_exists_index, and_imp,
      forall_apply_eq_imp_iff₂] at h
    obtain ⟨hk, hks⟩ := h
    simp only [putById]
    split
    · rename_i hlt
      rw [BitVec.lt_def] at hlt
      simp only [List.map_cons] at hc ⊢
      refine List.pairwise_cons.2 ⟨fun n hn => ?_, hc⟩
      rcases List.mem_cons.1 hn with rfl | hn
      · exact hlt
      · obtain ⟨y, hy, rfl⟩ := List.mem_map.1 hn
        exact hlt.trans (hk y hy)
    · split
      · rename_i he
        simp only [List.map_cons, he]
        simpa only [List.map_cons] using hc
      · rename_i hnlt hne
        simp only [List.map_cons]
        refine List.pairwise_cons.2 ⟨fun n hn => ?_, ih hks⟩
        obtain ⟨y, hy, rfl⟩ := List.mem_map.1 hn
        rcases mem_putById hy with rfl | hy
        · rw [BitVec.lt_def] at hnlt
          have : (key y).toNat ≠ (key k).toNat := fun e => hne (BitVec.eq_of_toNat_eq e)
          omega
        · exact hk y hy

/-- Putting an entry into an ascending table exchanges the parts of the entry with its id, if there is one. -/
theorem putById_perm (g : α → List β) (h : (ks.map fun k => (key k).toNat).Pairwise (· < ·)) :
    ((ks.find? fun k => key k == key x).elim [] g ++ (putById key x ks).flatMap g).Perm (g x ++ ks.flatMap g) := by
  induction ks with
  | nil => simp [putById]
  | cons k ks ih =>
    simp only [List.map_cons, List.pairwise_cons, List.mem_map, forall_exists_index, and_imp,
      forall_apply_eq_imp_iff₂] at h
    obtain ⟨hk, hks⟩ := h
    simp only [putById]
    split
    · rename_i hlt
      rw [BitVec.lt_def] at hlt
      have hnone : (k :: ks).find? (fun j => key j == key x) = none := by
        rw [List.find?_eq_none]
        intro j hj e
        have e' : (key j).toNat = (key x).toNat := congrArg BitVec.toNat (by simpa using e)
        rcases List.mem_cons.1 hj with rfl | hj
        · omega
        · have := hk j hj
          omega
      rw [hnone]
      simp
    · split
      · rename_i he
        rw [List.find?_cons_of_pos (by simp [he])]
        simp only [Option.elim_some, List.flatMap_cons]
        exact List.perm_append_comm_assoc _ _ _
      · rename_i hne
        rw [List.find?_cons_of_neg (by simpa using Ne.symm hne)]
        simp only [List.flatMap_cons]
        exact ((List.perm_append_comm_assoc _ _ _).trans ((ih hks).append_left _)).trans
          (List.perm_append_comm_assoc _ _ _)

end

/-- The queue of a lock put takes the place of the queue of the lock found. -/
theorem putLock_queues_perm {ls : List Lock} (h : (ls.map fun l => l.id.toNat).Pairwise (· < ·)) {l d : Lock}
    (hd : d.queue = []) :
    (((findLock l.id ls).getD d).queue ++ (putLock l ls).flatMap fun l => l.queue).Perm
      (l.queue ++ ls.flatMap fun l => l.queue) := by
  have := putById_perm (key := fun l : Lock => l.id) (x := l) (fun l => l.queue) h
  rw [putLock_eq_putById, findLock]
  cases e : ls.find? (fun k => k.id == l.id) with
  | none => simpa [e, hd] using this
  | some k => simpa [e] using this

/-- The arrived set of a barrier put takes the place of that of the barrier found. -/
theorem putBarrier_arrived_perm {bs : List Barrier} (h : (bs.map fun b => b.id.toNat).Pairwise (· < ·)) {b d : Barrier}
    (hd : d.arrived = []) :
    (((findBarrier b.id bs).getD d).arrived ++ (putBarrier b bs).flatMap fun b => b.arrived).Perm
      (b.arrived ++ bs.flatMap fun b => b.arrived) := by
  have := putById_perm (key := fun b : Barrier => b.id) (x := b) (fun b => b.arrived) h
  rw [putBarrier_eq_putById, findBarrier]
  cases e : bs.find? (fun k => k.id == b.id) with
  | none => simpa [e, hd] using this
  | some k => simpa [e] using this

/-- Passing on the locks a thread holds takes the heads of their queues out. -/
theorem passedOn_queues_perm (t : Nat) (ls : List Lock) :
    (handoffs t ls ++ (ls.map (passedOn t)).flatMap fun l => l.queue).Perm (ls.flatMap fun l => l.queue) := by
  induction ls with
  | nil => simp [handoffs]
  | cons l ls ih =>
    obtain ⟨id, hd, q⟩ := l
    simp only [handoffs] at ih
    simp only [handoffs, List.map_cons, List.flatMap_cons, passedOn]
    by_cases h : hd = some t
    · cases q with
      | nil => simpa [h] using ih
      | cons u q =>
        simp only [h, if_true, List.head?_cons, List.tail_cons, List.filterMap_cons, List.cons_append]
        exact ((List.perm_append_comm_assoc _ _ _).trans (ih.append_left _)).cons u
    · simp only [h, if_false, List.filterMap_cons]
      exact (List.perm_append_comm_assoc _ _ _).trans (ih.append_left _)

/-- The joiners of a thread, sorted, are its joiners. -/
theorem sortIds_perm {us : List Nat} (h : us.Nodup) : (sortIds us).Perm us := by
  induction us with
  | nil => exact List.Perm.refl _
  | cons u us ih =>
    obtain ⟨hu, hus⟩ := List.nodup_cons.1 h
    have hcons : sortIds (u :: us) = insertId u (sortIds us) := rfl
    rw [hcons]
    exact (insertId_perm (by simpa using hu)).trans ((ih hus).cons u)

end Sys2Proof.Machine
end

section
/-! SUPPORT. The invariants of the scheduler (10_state.md R30, R45, R46) in the middle of a call: the threads `away`
have left their place and are not yet in the next one. Each elementary move of a thread is one lemma. -/

namespace Sys2Proof.Machine

/-- `Scheduled` without the form of the tables, where the threads `away` are in no place and have any state. -/
structure SchedAway (away : List Nat) (s : State) : Prop where
  counter : s.threadCounter = s.threads.length
  settled : ∀ P ∈ s.procs, ProcSettled P
  nodup   : (away ++ (hosted s ++ (s.ready ++ parked s))).Nodup
  bound   : ∀ t ∈ away ++ (hosted s ++ (s.ready ++ parked s)), t < s.threads.length
  id      : ∀ (t : Nat) (T : Thread), s.threads[t]? = some T → T.id = t
  host    : ∀ (t : Nat) (T : Thread), s.threads[t]? = some T → ∀ p, T.proc = some p ↔ s.threadOn p = some t
  state   : ∀ (t : Nat) (T : Thread), t ∉ away → s.threads[t]? = some T → StateMatches s t T

theorem mem_hosted {s : State} {t : Nat} : t ∈ hosted s ↔ ∃ p, s.threadOn p = some t := by
  simp only [hosted, List.mem_filterMap, State.threadOn]
  constructor
  · rintro ⟨P, hP, ht⟩
    obtain ⟨p, hp⟩ := List.mem_iff_getElem?.1 hP
    exact ⟨p, by rw [hp]; exact ht⟩
  · rintro ⟨p, hp⟩
    split at hp
    · rename_i P hP
      exact ⟨P, List.mem_of_getElem? hP, hp⟩
    · cases hp

theorem threadOn_eq {s : State} {p : Nat} {P : Proc} (h : s.procs[p]? = some P) : s.threadOn p = P.thread := by
  simp [State.threadOn, h]

theorem threadOn_lt {s : State} {p t : Nat} (h : s.threadOn p = some t) : p < s.procs.length := by
  simp only [State.threadOn] at h
  split at h
  · rename_i hP
    exact (List.getElem?_eq_some_iff.1 hP).1
  · cases h

/-- Between calls nobody is away. -/
theorem scheduled_iff (s : State) : Scheduled s ↔ SchedAway [] s ∧ TablesAscending s := by
  constructor
  · rintro ⟨hc, hs, hn, hb, ht, htab⟩
    have get : ∀ (t : Nat) (T : Thread), s.threads[t]? = some T →
        T.id = t ∧ StateMatches s t T ∧ HostMatches s t T := by
      intro t T hT
      obtain ⟨hlt, rfl⟩ := List.getElem?_eq_some_iff.1 hT
      exact ht t hlt
    refine ⟨⟨hc, hs, hn, hb, fun t T hT => (get t T hT).1, fun t T hT p => ?_, fun t T _ hT => (get t T hT).2.1⟩, htab⟩
    obtain ⟨-, -, hon, hoff⟩ := get t T hT
    constructor
    · intro hp
      by_cases hm : t ∈ hosted s
      · obtain ⟨q, hq⟩ := mem_hosted.1 hm
        have := (hon q (threadOn_lt hq) hq).symm.trans hp
        rwa [← Option.some.inj this]
      · rw [hoff hm] at hp
        cases hp
    · exact fun hp => hon p (threadOn_lt hp) hp
  · rintro ⟨h, htab⟩
    refine ⟨h.counter, h.settled, h.nodup, h.bound, fun t hlt => ?_, htab⟩
    have hT := List.getElem?_eq_getElem hlt
    refine ⟨h.id t _ hT, h.state t _ (by simp) hT, fun p _ hp => (h.host t _ hT p).2 hp, fun hm => ?_⟩
    cases e : s.threads[t].proc with
    | none => rfl
    | some p => exact absurd (mem_hosted.2 ⟨p, (h.host t _ hT p).1 e⟩) hm

/-! ### Where a thread is, by its state -/

section
variable {away : List Nat} {s : State} {t : Nat} {T : Thread}

theorem stateMatches_of_ready (hn : (away ++ (hosted s ++ (s.ready ++ parked s))).Nodup) (ht : t ∈ s.ready)
    (hT : T.state = .ready) : StateMatches s t T := by
  simp only [List.nodup_append, List.mem_append] at hn
  obtain ⟨-, ⟨-, ⟨-, -, hrp⟩, hh⟩, -⟩ := hn
  have h1 : t ∉ hosted s := fun h => hh t h t (.inl ht) rfl
  have h2 : t ∉ parked s := fun h => hrp t ht t h rfl
  simp [StateMatches, hT, ht, h1, h2]

theorem stateMatches_of_parked (hn : (away ++ (hosted s ++ (s.ready ++ parked s))).Nodup) (ht : t ∈ parked s)
    (hT : T.state = .waiting) : StateMatches s t T := by
  simp only [List.nodup_append, List.mem_append] at hn
  obtain ⟨-, ⟨-, ⟨-, -, hrp⟩, hh⟩, -⟩ := hn
  have h1 : t ∉ hosted s := fun h => hh t h t (.inr ht) rfl
  have h2 : t ∉ s.ready := fun h => hrp t h t ht rfl
  simp [StateMatches, hT, ht, h1, h2]

theorem stateMatches_of_hosted (hn : (away ++ (hosted s ++ (s.ready ++ parked s))).Nodup) (ht : t ∈ hosted s)
    (hT : T.state = .running) : StateMatches s t T := by
  simp only [List.nodup_append, List.mem_append] at hn
  obtain ⟨-, ⟨-, -, hh⟩, -⟩ := hn
  have h1 : t ∉ s.ready := fun h => hh t ht t (.inl h) rfl
  have h2 : t ∉ parked s := fun h => hh t ht t (.inr h) rfl
  simp [StateMatches, hT, ht, h1, h2]

theorem stateMatches_of_nowhere (ht : t ∉ hosted s ++ (s.ready ++ parked s)) (hT : T.state = .terminated) :
    StateMatches s t T := by
  simp only [List.mem_append, not_or] at ht
  obtain ⟨h1, h2, h3⟩ := ht
  simp [StateMatches, hT, h1, h2, h3]

/-- The threads away are in no place. -/
theorem SchedAway.not_mem (h : SchedAway away s) (ht : t ∈ away) : t ∉ hosted s ++ (s.ready ++ parked s) :=
  fun hm => (List.nodup_append.1 h.nodup).2.2 t ht t hm rfl

/-- A thread whose places and state are as before. -/
theorem StateMatches.congr {s' : State} {T' : Thread} (h : StateMatches s t T) (hst : T'.state = T.state)
    (hh : t ∈ hosted s' ↔ t ∈ hosted s) (hr : t ∈ s'.ready ↔ t ∈ s.ready) (hp : t ∈ parked s' ↔ t ∈ parked s) :
    StateMatches s' t T' := by
  simp only [StateMatches, hst, hh, hr, hp] at h ⊢
  exact h

end

/-! ### Records and processors as the scheduler sees them -/

/-- The threads of s' have the ids, states and processors they have in s. -/
def SameRecords (s s' : State) : Prop :=
  (s'.threads.map fun T => (T.id, T.state, T.proc)) = s.threads.map fun T => (T.id, T.state, T.proc)

/-- The processors of s' have the states and threads they have in s. -/
def SameProcs (s s' : State) : Prop :=
  (s'.procs.map fun P => (P.state, P.thread)) = s.procs.map fun P => (P.state, P.thread)

theorem SameRecords.length {s s' : State} (h : SameRecords s s') : s'.threads.length = s.threads.length := by
  simpa using congrArg List.length h

theorem SameRecords.get {s s' : State} (h : SameRecords s s') {t : Nat} {T' : Thread} (hT : s'.threads[t]? = some T') :
    ∃ T, s.threads[t]? = some T ∧ T'.id = T.id ∧ T'.state = T.state ∧ T'.proc = T.proc := by
  have := congrArg (fun l => l[t]?) h
  simp only [List.getElem?_map, hT, Option.map_some] at this
  obtain ⟨T, hT, e⟩ := Option.map_eq_some_iff.1 this.symm
  simp only [Prod.mk.injEq] at e
  exact ⟨T, hT, e.1.symm, e.2.1.symm, e.2.2.symm⟩

theorem SameProcs.hosted {s s' : State} (h : SameProcs s s') : hosted s' = hosted s := by
  have := congrArg (fun l => l.filterMap fun x : ProcState × Option Nat => x.2) h
  simp only [List.filterMap_map] at this
  exact this

theorem SameProcs.threadOn {s s' : State} (h : SameProcs s s') (p : Nat) : s'.threadOn p = s.threadOn p := by
  have := congrArg (fun l => l[p]?) h
  simp only [List.getElem?_map] at this
  simp only [State.threadOn]
  cases e : s.procs[p]? <;> cases e' : s'.procs[p]? <;> simp_all

theorem SameProcs.settled {s s' : State} (h : SameProcs s s') (hs : ∀ P ∈ s.procs, ProcSettled P) :
    ∀ P ∈ s'.procs, ProcSettled P := by
  intro P hP
  have hm : (P.state, P.thread) ∈ s.procs.map fun P => (P.state, P.thread) := h ▸ List.mem_map_of_mem hP
  obtain ⟨Q, hQ, e⟩ := List.mem_map.1 hm
  have := hs Q hQ
  simp only [Prod.mk.injEq] at e
  simpa only [ProcSettled, e.1, e.2] using this

/-! ### Moves between the ready queue, the parking places and away -/

section
variable {away away' : List Nat} {s s' : State}

/-- Processors and records as before, the threads away, ready and parked rearranged: what is left to show is that the
threads that are not away are where their state says. -/
theorem SchedAway.rearrange (h : SchedAway away s) (hprocs : SameProcs s s') (hrec : SameRecords s s')
    (hcounter : s'.threadCounter = s.threadCounter)
    (hperm : (away' ++ (s'.ready ++ parked s')).Perm (away ++ (s.ready ++ parked s)))
    (hstate : ∀ (t : Nat) (T T' : Thread), t ∉ away' → s.threads[t]? = some T → T'.state = T.state →
      (away' ++ (hosted s' ++ (s'.ready ++ parked s'))).Nodup → StateMatches s' t T') : SchedAway away' s' := by
  have hall : (away' ++ (hosted s' ++ (s'.ready ++ parked s'))).Perm
      (away ++ (hosted s ++ (s.ready ++ parked s))) := by
    rw [hprocs.hosted]
    exact ((List.perm_append_comm_assoc _ _ _).trans (hperm.append_left _)).trans (List.perm_append_comm_assoc _ _ _)
  have hn := hall.nodup_iff.2 h.nodup
  refine ⟨?_, hprocs.settled h.settled, hn, fun t ht => ?_, fun t T' hT' => ?_, fun t T' hT' p => ?_,
    fun t T' ht hT' => ?_⟩
  · rw [hcounter, h.counter, hrec.length]
  · rw [hrec.length]
    exact h.bound t (hall.mem_iff.1 ht)
  · obtain ⟨T, hT, e, -, -⟩ := hrec.get hT'
    rw [e, h.id t T hT]
  · obtain ⟨T, hT, -, -, e⟩ := hrec.get hT'
    rw [e, hprocs.threadOn, h.host t T hT]
  · obtain ⟨T, hT, -, e, -⟩ := hrec.get hT'
    exact hstate t T T' ht hT e hn

/-- A change the scheduler does not see. -/
theorem SchedAway.frame (h : SchedAway away s) (hprocs : SameProcs s s') (hrec : SameRecords s s')
    (hcounter : s'.threadCounter = s.threadCounter) (hready : s'.ready = s.ready)
    (hparked : (parked s').Perm (parked s)) : SchedAway away s' := by
  refine h.rearrange hprocs hrec hcounter (by rw [hready]; exact (hparked.append_left _).append_left _) ?_
  intro t T T' ht hT e _
  exact (h.state t T ht hT).congr e (by rw [hprocs.hosted]) (by rw [hready]) hparked.mem_iff

/-- The threads us leave their parking places. -/
theorem SchedAway.unpark (h : SchedAway away s) {us : List Nat} (hprocs : SameProcs s s') (hrec : SameRecords s s')
    (hcounter : s'.threadCounter = s.threadCounter) (hready : s'.ready = s.ready)
    (hparked : (us ++ parked s').Perm (parked s)) : SchedAway (us ++ away) s' := by
  refine h.rearrange hprocs hrec hcounter ?_ fun t T T' ht hT e _ => ?_
  · rw [hready, List.append_assoc]
    refine (List.perm_append_comm_assoc _ _ _).trans (List.Perm.append_left away ?_)
    exact (List.perm_append_comm_assoc _ _ _).trans (hparked.append_left _)
  · simp only [List.mem_append, not_or] at ht
    refine (h.state t T ht.2 hT).congr e (by rw [hprocs.hosted]) (by rw [hready]) ?_
    rw [← hparked.mem_iff]
    simp [ht.1]

/-- A WAITING thread that is away is parked. -/
theorem SchedAway.park {t : Nat} (h : SchedAway (t :: away) s) (hprocs : SameProcs s s') (hrec : SameRecords s s')
    (hcounter : s'.threadCounter = s.threadCounter) (hready : s'.ready = s.ready)
    (hparked : (parked s').Perm (t :: parked s))
    (hwait : ∀ T, s.threads[t]? = some T → T.state = .waiting) : SchedAway away s' := by
  refine h.rearrange hprocs hrec hcounter ?_ fun u T T' hu hT e hn => ?_
  · rw [hready]
    refine ((hparked.append_left _).append_left _).trans ?_
    exact ((List.perm_middle.append_left away).trans List.perm_middle)
  · rcases eq_or_ne u t with rfl | hne
    · exact stateMatches_of_parked hn (hparked.mem_iff.2 List.mem_cons_self) (e.trans (hwait T hT))
    · refine (h.state u T (by simp [hne, hu]) hT).congr e (by rw [hprocs.hosted]) (by rw [hready]) ?_
      rw [hparked.mem_iff]
      simp [hne]

/-- The head of the ready queue leaves it. -/
theorem SchedAway.unready {t : Nat} {ts : List Nat} (h : SchedAway away s) (hready : s.ready = t :: ts) :
    SchedAway (t :: away) { s with ready := ts } := by
  refine h.rearrange rfl rfl rfl ?_ fun u T T' hu hT e _ => ?_
  · rw [hready]
    exact List.perm_middle.symm
  · simp only [List.mem_cons, not_or] at hu
    exact (h.state u T hu.2 hT).congr e .rfl (by simp [hready, hu.1]) .rfl

/-- A thread that is away and has terminated is nowhere, which is its place. -/
theorem SchedAway.drop {t : Nat} (h : SchedAway (t :: away) s)
    (hend : ∀ T, s.threads[t]? = some T → T.state = .terminated) : SchedAway away s where
  counter := h.counter
  settled := h.settled
  nodup := (List.nodup_cons.1 h.nodup).2
  bound u hu := h.bound u (List.mem_cons_of_mem t hu)
  id := h.id
  host := h.host
  state u T hu hT := by
    rcases eq_or_ne u t with rfl | hne
    · exact stateMatches_of_nowhere (h.not_mem List.mem_cons_self) (hend T hT)
    · exact h.state u T (by simp [hne, hu]) hT

end

/-! ### Moves that write the thread's record -/

section
variable {away : List Nat} {s : State} {t : Nat}

/-- Parking places do not hang on other fields of the threads. -/
theorem parked_modThread {f : Thread → Thread} (hf : ∀ T, (f T).joiners = T.joiners) (u : Nat) (s : State) :
    parked (s.modThread u f) = parked s := by
  simp only [parked, State.modThread_threads, State.modThread_locks, State.modThread_barriers]
  rw [flatMap_modify_of_eq (g := fun T : Thread => T.joiners) hf]

/-- A record after one thread's record was changed. -/
theorem getElem?_modify_eq {ts : List Thread} {f : Thread → Thread} {u : Nat} {T' : Thread}
    (h : (ts.modify t f)[u]? = some T') : ∃ T, ts[u]? = some T ∧ T' = if t = u then f T else T := by
  rw [List.getElem?_modify] at h
  obtain ⟨T, hT, rfl⟩ := Option.map_eq_some_iff.1 h
  exact ⟨T, hT, rfl⟩

/-- A thread put at the tail of the ready queue, among all places. -/
theorem perm_ready_append (away hosted ready parked : List Nat) (t : Nat) :
    (away ++ (hosted ++ ((ready ++ [t]) ++ parked))).Perm (t :: (away ++ (hosted ++ (ready ++ parked)))) := by
  rw [List.perm_iff_count]
  intro u
  simp only [List.count_append, List.count_cons, List.count_nil]
  omega

/-- Waking a thread that is away puts it at the tail of the ready queue (49_environment.md R359). -/
theorem SchedAway.unblock (h : SchedAway (t :: away) s) : SchedAway away (unblock t s) := by
  have hparked : parked (Machine.unblock t s) = parked s :=
    parked_modThread (f := fun T => { T with state := .ready }) (fun _ => rfl) t s
  have hall := perm_ready_append away (hosted s) s.ready (parked s) t
  have hn : (away ++ (hosted (Machine.unblock t s) ++
      ((Machine.unblock t s).ready ++ parked (Machine.unblock t s)))).Nodup := by
    rw [hparked]
    exact hall.nodup_iff.2 h.nodup
  refine ⟨by simpa using h.counter, h.settled, hn, fun u hu => ?_, fun u T' hT' => ?_, fun u T' hT' p => ?_,
    fun u T' hu hT' => ?_⟩
  · rw [hparked] at hu
    simpa using h.bound u (hall.mem_iff.1 hu)
  · obtain ⟨T, hT, rfl⟩ := getElem?_modify_eq hT'
    have hid := h.id u T hT
    split <;> exact hid
  · obtain ⟨T, hT, rfl⟩ := getElem?_modify_eq hT'
    have hhost := h.host u T hT p
    split <;> exact hhost
  · obtain ⟨T, hT, rfl⟩ := getElem?_modify_eq hT'
    split
    · subst_vars
      exact stateMatches_of_ready hn (by simp) rfl
    · rename_i hne
      refine (h.state u T (by simp [Ne.symm hne, hu]) hT).congr rfl .rfl ?_ (by rw [hparked])
      simp [Ne.symm hne]

/-- Waking threads that are away. -/
theorem SchedAway.unblockAll {us : List Nat} (h : SchedAway (us ++ away) s) : SchedAway away (unblockAll us s) := by
  induction us generalizing s with
  | nil => exact h
  | cons u us ih => exact ih h.unblock

/-! ### Moves on and off a processor -/

/-- The threads on processors after one processor was replaced. -/
theorem hosted_set_perm {s' : State} {p : Nat} {P Q : Proc} (hp : s.procs[p]? = some P)
    (e : s'.procs = s.procs.set p Q) : (P.thread.toList ++ hosted s').Perm (Q.thread.toList ++ hosted s) := by
  simp only [hosted, List.filterMap_eq_flatMap_toList, e]
  exact flatMap_set_perm (fun P : Proc => P.thread.toList) hp Q

/-- The thread on a processor after one processor was replaced. -/
theorem threadOn_set {s' : State} {p : Nat} {P Q : Proc} (hp : s.procs[p]? = some P) (e : s'.procs = s.procs.set p Q)
    (q : Nat) : s'.threadOn q = if p = q then Q.thread else s.threadOn q := by
  have hlt := (List.getElem?_eq_some_iff.1 hp).1
  rcases eq_or_ne p q with rfl | hne
  · simp [State.threadOn, e, hlt]
  · simp [State.threadOn, e, hne]

/-- Processor p is replaced by Q and thread t's record changed, by which t goes on the processor or off it. -/
theorem SchedAway.setProc {away' : List Nat} {s' : State} (h : SchedAway away s) {p : Nat} {P Q : Proc}
    {f : Thread → Thread} (hp : s.procs[p]? = some P) (hprocs : s'.procs = s.procs.set p Q)
    (hthreads : s'.threads = s.threads.modify t f)
    (hrest : s'.threadCounter = s.threadCounter ∧ s'.ready = s.ready ∧ s'.locks = s.locks ∧ s'.barriers = s.barriers)
    (hQ : ProcSettled Q) (hf : ∀ T, (f T).id = T.id ∧ (f T).joiners = T.joiners)
    (hperm : (away' ++ Q.thread.toList).Perm (away ++ P.thread.toList))
    (honly : ∀ u, u ≠ t → P.thread ≠ some u ∧ Q.thread ≠ some u) (hother : ∀ q, q ≠ p → s.threadOn q ≠ some t)
    (hproc : ∀ T q, (f T).proc = some q ↔ q = p ∧ Q.thread = some t)
    (hst : t ∉ away' → Q.thread = some t ∧ ∀ T, (f T).state = .running) : SchedAway away' s' := by
  obtain ⟨hcounter, hready, hlocks, hbarriers⟩ := hrest
  have hon := threadOn_set hp hprocs
  have hhosted := hosted_set_perm hp hprocs
  have hparked : parked s' = parked s := by
    simp only [parked, hlocks, hbarriers, hthreads]
    rw [flatMap_modify_of_eq (g := fun T : Thread => T.joiners) fun T => (hf T).2]
  have hall : (away' ++ (hosted s' ++ (s'.ready ++ parked s'))).Perm
      (away ++ (hosted s ++ (s.ready ++ parked s))) := by
    rw [hready, hparked]
    rw [List.perm_iff_count] at hperm hhosted ⊢
    intro u
    have h1 := hperm u
    have h2 := hhosted u
    simp only [List.count_append] at h1 h2 ⊢
    omega
  have hn := hall.nodup_iff.2 h.nodup
  refine ⟨by rw [hcounter, h.counter, hthreads, List.length_modify], fun R hR => ?_, hn, fun u hu => ?_,
    fun u T' hT' => ?_, fun u T' hT' q => ?_, fun u T' hu hT' => ?_⟩
  · rw [hprocs] at hR
    rcases List.mem_or_eq_of_mem_set hR with hR | rfl
    · exact h.settled R hR
    · exact hQ
  · rw [hthreads, List.length_modify]
    exact h.bound u (hall.mem_iff.1 hu)
  · rw [hthreads] at hT'
    obtain ⟨T, hT, rfl⟩ := getElem?_modify_eq hT'
    split
    · rw [(hf T).1, h.id u T hT]
    · exact h.id u T hT
  · rw [hthreads] at hT'
    obtain ⟨T, hT, rfl⟩ := getElem?_modify_eq hT'
    rw [hon]
    split
    · subst_vars
      rw [hproc]
      split
      · simp_all
      · rename_i hne
        exact ⟨fun e => absurd e.1.symm hne, fun e => absurd e (hother q (Ne.symm hne))⟩
    · rename_i hne
      rw [h.host u T hT]
      split
      · subst_vars
        obtain ⟨h1, h2⟩ := honly u (Ne.symm hne)
        rw [threadOn_eq hp]
        exact ⟨fun e => absurd e h1, fun e => absurd e h2⟩
      · rfl
  · rw [hthreads] at hT'
    obtain ⟨T, hT, rfl⟩ := getElem?_modify_eq hT'
    split
    · subst_vars
      obtain ⟨hQt, hrun⟩ := hst hu
      refine stateMatches_of_hosted hn ?_ (hrun T)
      exact mem_hosted.2 ⟨p, by rw [hon, if_pos rfl, hQt]⟩
    · rename_i hne
      obtain ⟨h1, h2⟩ := honly u (Ne.symm hne)
      have hP : u ∉ P.thread.toList := by simpa using h1
      have hQ : u ∉ Q.thread.toList := by simpa using h2
      refine (h.state u T (fun hm => ?_) hT).congr rfl ?_ (by rw [hready]) (by rw [hparked])
      · have := hperm.mem_iff.2 (List.mem_append_left _ hm)
        simp [hu, hQ] at this
      · have := hhosted.mem_iff (a := u)
        simpa only [List.mem_append, hP, hQ, false_or] using this

/-- A thread on processor p leaves it (49_environment.md R358). -/
theorem SchedAway.takeOff (h : SchedAway away s) {p : Nat} (hp : s.threadOn p = some t) (st : ThreadState) :
    SchedAway (t :: away) (takeOff p t st s) := by
  have hlt := threadOn_lt hp
  have hP := List.getElem?_eq_getElem hlt
  have hth : s.procs[p].thread = some t := (threadOn_eq hP).symm.trans hp
  rw [takeOff_eq_leaving hP]
  refine h.setProc hP rfl rfl ⟨rfl, rfl, rfl, rfl⟩ (.inl ⟨rfl, rfl⟩) (fun T => ⟨rfl, rfl⟩) ?_ ?_ ?_ ?_ ?_
  · rw [hth]
    simpa using (List.perm_append_singleton t away).symm
  · intro u hu
    simp [hth, Ne.symm hu]
  · intro q hq e
    have hm : t ∈ hosted s := mem_hosted.2 ⟨p, hp⟩
    have hT := List.getElem?_eq_getElem (h.bound t (by simp [hm]))
    have e1 := (h.host t _ hT p).2 hp
    exact hq (Option.some.inj (((h.host t _ hT q).2 e).symm.trans e1))
  · simp
  · simp

/-- A thread that is away is switched in on an idle processor (49_environment.md R355). -/
theorem SchedAway.switchIn (h : SchedAway (t :: away) s) {p : Nat} {P : Proc} (hp : s.procs[p]? = some P)
    (hidle : P.state = .idle) : SchedAway away (switchIn p t s) := by
  have hT := List.getElem?_eq_getElem (h.bound t List.mem_cons_self)
  generalize s.threads[t]'(h.bound t List.mem_cons_self) = T at hT
  have hnone : P.thread = none := by
    rcases h.settled P (List.mem_of_getElem? hp) with ⟨-, e⟩ | ⟨e, -⟩
    · exact e
    · rw [hidle] at e
      cases e
  rw [switchIn_some hT, modify_eq_set_of_getElem? hp]
  refine h.setProc hp rfl rfl ⟨rfl, rfl, rfl, rfl⟩ (.inr ⟨rfl, rfl⟩) (fun T => ⟨rfl, rfl⟩) ?_ ?_ ?_ ?_ ?_
  · rw [hnone]
    simp [switchedIn, List.perm_append_singleton]
  · intro u hu
    simp [hnone, switchedIn, Ne.symm hu]
  · exact fun q _ e => h.not_mem List.mem_cons_self (List.mem_append_left _ (mem_hosted.2 ⟨q, e⟩))
  · simp [switchedIn, eq_comm]
  · simp [switchedIn]

/-- A thread is created READY (49_environment.md R354). -/
theorem SchedAway.createThread (h : SchedAway away s) (g : Nat) (R : RegSet) (o : Option Nat) :
    SchedAway away (createThread g R o s) := by
  have hparked : parked (Machine.createThread g R o s) = parked s := by
    simp [parked, newThread]
  have hnew : s.threads.length ∉ away ++ (hosted s ++ (s.ready ++ parked s)) :=
    fun hm => Nat.lt_irrefl _ (h.bound _ hm)
  have hall := perm_ready_append away (hosted s) s.ready (parked s) s.threads.length
  have hn : (away ++ (hosted (Machine.createThread g R o s) ++
      ((Machine.createThread g R o s).ready ++ parked (Machine.createThread g R o s)))).Nodup := by
    rw [hparked, createThread_ready, h.counter]
    exact hall.nodup_iff.2 (List.nodup_cons.2 ⟨hnew, h.nodup⟩)
  have get : ∀ (u : Nat) (T' : Thread), (s.threads ++ [newThread s g R o])[u]? = some T' →
      s.threads[u]? = some T' ∨ (u = s.threads.length ∧ T' = newThread s g R o) := by
    intro u T' hT'
    rcases Nat.lt_or_ge u s.threads.length with hlt | hge
    · rw [List.getElem?_append_left hlt] at hT'
      exact .inl hT'
    · rw [List.getElem?_append_right hge, List.getElem?_singleton] at hT'
      split at hT'
      · exact .inr ⟨by omega, (Option.some.inj hT').symm⟩
      · cases hT'
  refine ⟨by simp [h.counter], h.settled, hn, fun u hu => ?_, fun u T' hT' => ?_, fun u T' hT' p => ?_,
    fun u T' hu hT' => ?_⟩
  · rw [hparked, createThread_ready, h.counter] at hu
    rw [createThread_threads, List.length_append, List.length_singleton]
    rcases List.mem_cons.1 (hall.mem_iff.1 hu) with rfl | hu
    · omega
    · have := h.bound u hu
      omega
  · rcases get u T' hT' with hT | ⟨rfl, rfl⟩
    · exact h.id u T' hT
    · exact h.counter
  · rcases get u T' hT' with hT | ⟨rfl, rfl⟩
    · exact h.host u T' hT p
    · refine ⟨fun e => by simp [newThread] at e, fun e => absurd ?_ hnew⟩
      have hm : s.threads.length ∈ hosted s := mem_hosted.2 ⟨p, e⟩
      simp [hm]
  · rcases get u T' hT' with hT | ⟨rfl, rfl⟩
    · refine (h.state u T' hu hT).congr rfl .rfl ?_ (by rw [hparked])
      have : u ≠ s.threadCounter := by
        rw [h.counter]
        exact Nat.ne_of_lt (List.getElem?_eq_some_iff.1 hT).1
      simp [this]
    · exact stateMatches_of_ready hn (by simp [h.counter]) rfl

end

end Sys2Proof.Machine
end

section
/-! SUPPORT. Every operation of a call keeps the invariants of the scheduler, with the form of the lock and barrier
tables, and so every step does. -/

namespace Sys2Proof.Machine

/-- The invariants of the scheduler while the threads `away` are between two places. -/
structure SchedOk (away : List Nat) (s : State) : Prop where
  sched  : SchedAway away s
  tables : TablesAscending s

theorem SchedOk.iff_scheduled (s : State) : SchedOk [] s ↔ Scheduled s :=
  ⟨fun h => (scheduled_iff s).2 ⟨h.sched, h.tables⟩, fun h => ⟨((scheduled_iff s).1 h).1, ((scheduled_iff s).1 h).2⟩⟩

/-! ### Elementary operations -/

section
variable {away : List Nat} {s s' : State} {p t : Nat}

/-- A change the scheduler does not see. -/
theorem SchedOk.frame (h : SchedOk away s) (hprocs : SameProcs s s') (hrec : SameRecords s s')
    (hjoin : (s'.threads.map fun T => T.joiners) = s.threads.map fun T => T.joiners)
    (hrest : s'.threadCounter = s.threadCounter ∧ s'.ready = s.ready ∧ s'.locks = s.locks ∧
      s'.barriers = s.barriers) : SchedOk away s' := by
  obtain ⟨hcounter, hready, hlocks, hbarriers⟩ := hrest
  refine ⟨h.sched.frame hprocs hrec hcounter hready ?_, ?_⟩
  · simp only [parked, hlocks, hbarriers, List.flatMap_def (l := State.threads _), hjoin]
    exact List.Perm.refl _
  · have := h.tables
    simpa only [TablesAscending, hlocks, hbarriers] using this

/-- A memory operation. -/
theorem SchedOk.memory (h : SchedOk away s) (hm : MemoryStep s s') : SchedOk away s' := by
  rw [hm.only]
  exact h.frame rfl rfl rfl ⟨rfl, rfl, rfl, rfl⟩

/-- Changing other fields of a processor than its state and its thread. -/
theorem SchedOk.modProc (h : SchedOk away s) (p : Nat) {f : Proc → Proc}
    (hf : ∀ P, (f P).state = P.state ∧ (f P).thread = P.thread) : SchedOk away (s.modProc p f) :=
  h.frame (map_modify_of_eq (fun P => by rw [(hf P).1, (hf P).2]) _ p) rfl rfl ⟨rfl, rfl, rfl, rfl⟩

theorem SchedOk.modRegs (h : SchedOk away s) (p : Nat) (f : RegSet → RegSet) : SchedOk away (s.modRegs p f) :=
  h.modProc p fun _ => ⟨rfl, rfl⟩

theorem SchedOk.takeOff (h : SchedOk away s) (hp : s.threadOn p = some t) (st : ThreadState) :
    SchedOk (t :: away) (takeOff p t st s) := ⟨h.sched.takeOff hp st, h.tables⟩

theorem SchedOk.unblock (h : SchedOk (t :: away) s) : SchedOk away (unblock t s) := ⟨h.sched.unblock, h.tables⟩

theorem SchedOk.unblockAll {us : List Nat} (h : SchedOk (us ++ away) s) : SchedOk away (unblockAll us s) := by
  refine ⟨h.sched.unblockAll, ?_⟩
  rw [unblockAll_eq]
  exact h.tables

/-- The state of a thread that has just left its processor. -/
theorem takeOff_state {st : ThreadState} {T : Thread} (hT : (takeOff p t st s).threads[t]? = some T) :
    T.state = st := by
  obtain ⟨T', -, rfl⟩ := getElem?_modify_eq hT
  rw [if_pos rfl]

/-- Changes of two records, or twice of one, in either order. -/
theorem modify_comm {α : Type} {f g : α → α} (h : ∀ x, f (g x) = g (f x)) (l : List α) (i j : Nat) :
    (l.modify i f).modify j g = (l.modify j g).modify i f := by
  apply List.ext_getElem?
  intro k
  simp only [List.getElem?_modify]
  cases l[k]? with
  | none => rfl
  | some x => by_cases hi : i = k <;> by_cases hj : j = k <;> simp [hi, hj, h]

/-! ### Locks -/

theorem tables_putLock (h : TablesAscending s) (l : Lock) :
    TablesAscending { s with locks := putLock l s.locks } := by
  obtain ⟨hl, hb⟩ := h
  refine ⟨?_, hb⟩
  simp only [putLock_eq_putById]
  exact putById_ascending (key := fun l : Lock => l.id) hl

/-- The lock with an id, or a new one. -/
theorem findLock_getD_id (id : Word) (ls : List Lock) : ((findLock id ls).getD ⟨id, none, []⟩).id = id := by
  cases h : findLock id ls with
  | none => rfl
  | some l => exact findLock_id h

/-- The parking places after a lock was put: its queue takes the place of that of the lock with its id. -/
theorem parked_putLock (h : TablesAscending s) {id : Word} {l l₀ : Lock} (hid : l.id = id)
    (hl₀ : (findLock id s.locks).getD ⟨id, none, []⟩ = l₀) :
    (l₀.queue ++ parked { s with locks := putLock l s.locks }).Perm (l.queue ++ parked s) := by
  subst hid hl₀
  have := putLock_queues_perm h.1 (l := l) (d := ⟨l.id, none, []⟩) rfl
  rw [List.perm_iff_count] at this ⊢
  intro u
  have hu := this u
  simp only [parked, List.count_append] at hu ⊢
  omega

/-- LOCK (49_environment.md R362): the thread holds the lock, or waits at the tail of its queue. -/
theorem SchedOk.resolveLock (h : SchedOk [] s) (hp : s.threadOn p = some t) (id : Word) :
    SchedOk [] (resolveLock p t id s) := by
  have hid := findLock_getD_id id s.locks
  obtain ⟨l, hl⟩ : ∃ l, (findLock id s.locks).getD ⟨id, none, []⟩ = l := ⟨_, rfl⟩
  rw [hl] at hid
  simp only [Machine.resolveLock, hl]
  split
  · refine ⟨h.sched.frame rfl rfl rfl rfl ?_, tables_putLock h.tables _⟩
    exact (List.perm_append_left_iff _).1 (parked_putLock (l₀ := l) (l := { l with holder := some t }) h.tables hid hl)
  · have hoff := h.takeOff hp .waiting
    have hperm := parked_putLock (l₀ := l) (l := { l with queue := l.queue ++ [t] }) hoff.tables hid hl
    rw [List.append_assoc, List.perm_append_left_iff] at hperm
    exact ⟨hoff.sched.park (s' := suspend p t _) rfl rfl rfl rfl hperm fun T => takeOff_state,
      tables_putLock hoff.tables _⟩

/-- What a release takes out of the queue is the thread the lock is handed to. -/
theorem releaseLock_queue (l : Lock) : (releaseLock l).2.toList ++ (releaseLock l).1.queue = l.queue := by
  obtain ⟨id, hd, _ | ⟨u, q⟩⟩ := l <;> rfl

theorem releaseLock_id (l : Lock) : (releaseLock l).1.id = l.id := by
  obtain ⟨id, hd, _ | ⟨u, q⟩⟩ := l <;> rfl

/-! ### Termination (49_environment.md R371) -/

/-- The locks a thread holds are passed on. -/
theorem SchedOk.passOn (h : SchedOk away s) (t : Nat) :
    SchedOk (handoffs t s.locks ++ away) { s with locks := s.locks.map (passedOn t) } := by
  have hid : ∀ l, (passedOn t l).id = l.id := fun l => by simp only [passedOn]; split <;> rfl
  refine ⟨h.sched.unpark rfl rfl rfl rfl ?_, ?_⟩
  · have := passedOn_queues_perm t s.locks
    rw [List.perm_iff_count] at this ⊢
    intro u
    have hu := this u
    simp only [parked, List.count_append] at hu ⊢
    omega
  · obtain ⟨hl, hb⟩ := h.tables
    refine ⟨?_, hb⟩
    simpa only [List.map_map, Function.comp_def, hid] using hl

/-- Waking threads and clearing a joiner list, in either order. -/
theorem unblockAll_clearJoiners (us : List Nat) (t : Nat) (s : State) :
    (unblockAll us s).modThread t (fun T => { T with joiners := [] }) =
      unblockAll us (s.modThread t fun T => { T with joiners := [] }) := by
  induction us generalizing s with
  | nil => rfl
  | cons u us ih =>
    have hone : (Machine.unblock u s).modThread t (fun T => { T with joiners := [] }) =
        Machine.unblock u (s.modThread t fun T => { T with joiners := [] }) := by
      simp only [Machine.unblock, State.modThread]
      rw [modify_comm (f := fun T : Thread => { T with state := .ready }) fun _ => rfl]
    have hcons : ∀ s, Machine.unblockAll (u :: us) s = Machine.unblockAll us (Machine.unblock u s) := fun _ => rfl
    rw [hcons, hcons, ih, hone]

/-- The joiners of a thread are woken and its list is cleared. -/
theorem SchedOk.wakeJoiners (h : SchedOk [] s) (t : Nat) :
    SchedOk [] ((Machine.unblockAll (joinersOf t s) s).modThread t fun T => { T with joiners := [] }) := by
  rw [unblockAll_clearJoiners]
  refine SchedOk.unblockAll ⟨h.sched.unpark rfl ?_ rfl rfl ?_, h.tables⟩
  · exact map_modify_of_eq (g := fun T : Thread => (T.id, T.state, T.proc))
      (f := fun T => { T with joiners := [] }) (fun _ => rfl) _ t
  · simp only [joinersOf, parked, State.modThread_threads, State.modThread_locks, State.modThread_barriers]
    cases hT : s.threads[t]? with
    | none =>
      rw [List.modify_eq_set_getElem?, hT]
      exact List.Perm.refl _
    | some T =>
      have hsub : T.joiners.Sublist (parked s) := by
        refine List.Sublist.trans ?_ (List.sublist_append_right _ _)
        rw [List.flatMap_def]
        exact List.sublist_flatten_of_mem (List.mem_map_of_mem (List.mem_of_getElem? hT))
      have hn : (hosted s ++ (s.ready ++ parked s)).Nodup := h.sched.nodup
      have hnodup : T.joiners.Nodup := by
        refine List.Nodup.sublist (hsub.trans ?_) hn
        exact (List.sublist_append_right _ _).trans (List.sublist_append_right _ _)
      have hset := flatMap_set_perm (fun T : Thread => T.joiners) hT { T with joiners := [] }
      have hsort := sortIds_perm hnodup
      rw [modify_eq_set_of_getElem? hT]
      rw [List.perm_iff_count] at hset hsort ⊢
      intro u
      have h1 := hset u
      have h2 := hsort u
      simp only [List.count_append, List.count_nil] at h1 h2 ⊢
      omega

/-- A thread on processor p terminates. -/
theorem SchedOk.terminate (h : SchedOk [] s) (hp : s.threadOn p = some t) : SchedOk [] (terminate p t s) := by
  have hoff := h.takeOff hp .terminated
  have hended : SchedOk [] (Machine.takeOff p t .terminated s) :=
    ⟨hoff.sched.drop fun T => takeOff_state, hoff.tables⟩
  simp only [Machine.terminate, releaseHeld_eq]
  exact (SchedOk.unblockAll (hended.passOn t)).wakeJoiners t

theorem SchedOk.takeFault (h : SchedOk [] s) (hp : s.threadOn p = some t) (f : ThreadFault) :
    SchedOk [] (takeFault p t f s) := by
  refine SchedOk.terminate (SchedOk.frame h ?_ ?_ ?_ ?_) hp
  · rfl
  · rfl
  · rfl
  · exact ⟨rfl, rfl, rfl, rfl⟩

theorem SchedOk.vmFail (h : SchedOk [] s) (hp : s.threadOn p = some t) (e : VmException) (info : Word) :
    SchedOk [] (vmFail p t e info s) := by
  refine SchedOk.terminate (SchedOk.frame h ?_ ?_ ?_ ?_) hp
  · rfl
  · rfl
  · rfl
  · exact ⟨rfl, rfl, rfl, rfl⟩

/-! ### UNLOCK (49_environment.md R363) -/

theorem SchedOk.resolveUnlock (h : SchedOk [] s) (hp : s.threadOn p = some t) (id : Word) :
    SchedOk [] (resolveUnlock p t id s) := by
  simp only [Machine.resolveUnlock]
  split
  · exact h.vmFail hp _ _
  · rename_i l hl
    split
    · have hid : (releaseLock l).1.id = id := (releaseLock_id l).trans (findLock_id hl)
      have hperm := parked_putLock (l₀ := l) (l := (releaseLock l).1) h.tables hid (by simp [hl])
      refine SchedOk.unblockAll ⟨h.sched.unpark rfl rfl rfl rfl ?_, tables_putLock h.tables _⟩
      have hq := releaseLock_queue l
      rw [← hq, List.perm_iff_count] at hperm
      rw [List.perm_iff_count]
      intro u
      have hu := hperm u
      simp only [List.count_append] at hu ⊢
      omega
    · exact h.vmFail hp _ _

/-! ### BARRIER (49_environment.md R364) -/

theorem tables_putBarrier (h : TablesAscending s) {b : Barrier} (hb : b.arrived.Pairwise (· < ·)) :
    TablesAscending { s with barriers := putBarrier b s.barriers } := by
  obtain ⟨hl, hbs, ha⟩ := h
  refine ⟨hl, ?_, ?_⟩
  · simp only [putBarrier_eq_putById]
    exact putById_ascending (key := fun b : Barrier => b.id) hbs
  · simp only [putBarrier_eq_putById]
    intro b' hb'
    rcases mem_putById hb' with rfl | hm
    · exact hb
    · exact ha b' hm

/-- The parking places after a barrier was put: its arrived set takes the place of that of the barrier with its id. -/
theorem parked_putBarrier (h : TablesAscending s) {id n : Word} {b b₀ : Barrier} (hid : b.id = id)
    (hb₀ : (findBarrier id s.barriers).getD ⟨id, n, [], false, 0⟩ = b₀) :
    (b₀.arrived ++ parked { s with barriers := putBarrier b s.barriers }).Perm (b.arrived ++ parked s) := by
  subst hid hb₀
  have := putBarrier_arrived_perm h.2.1 (b := b) (d := ⟨b.id, n, [], false, 0⟩) rfl
  rw [List.perm_iff_count] at this ⊢
  intro u
  have hu := this u
  simp only [parked, List.count_append] at hu ⊢
  omega

/-- The barrier with an id, or a new one: its id, and its arrived set, ascending and parked. -/
theorem findBarrier_getD (h : TablesAscending s) {id n : Word} {b : Barrier}
    (hb : (findBarrier id s.barriers).getD ⟨id, n, [], false, 0⟩ = b) :
    b.id = id ∧ b.arrived.Pairwise (· < ·) ∧ ∀ u ∈ b.arrived, u ∈ parked s := by
  cases hf : findBarrier id s.barriers with
  | none =>
    rw [hf] at hb
    subst hb
    exact ⟨rfl, .nil, fun _ hu => absurd hu List.not_mem_nil⟩
  | some b' =>
    rw [hf] at hb
    subst hb
    have hm : b' ∈ s.barriers := List.mem_of_find?_eq_some hf
    refine ⟨findBarrier_id hf, h.2.2 b' hm, fun u hu => ?_⟩
    exact List.mem_append_left _ (List.mem_append_right _ (List.mem_flatMap.2 ⟨b', hm, hu⟩))

theorem SchedOk.resolveBarrier (h : SchedOk [] s) (hp : s.threadOn p = some t) (id n : Word) :
    SchedOk [] (resolveBarrier p t id n s) := by
  obtain ⟨b, hb⟩ : ∃ b, (findBarrier id s.barriers).getD ⟨id, n, [], false, 0⟩ = b := ⟨_, rfl⟩
  obtain ⟨hid, hasc, hparked⟩ := findBarrier_getD h.tables hb
  have hnew : t ∉ b.arrived := by
    intro ht
    have hn : (hosted s ++ (s.ready ++ parked s)).Nodup := h.sched.nodup
    exact (List.nodup_append.1 hn).2.2 t (mem_hosted.2 ⟨p, hp⟩) t (List.mem_append_right _ (hparked t ht)) rfl
  have hins := insertId_perm hnew
  simp only [Machine.resolveBarrier, hb]
  split
  · have hperm := parked_putBarrier (b := trippedBarrier (arriveBarrier t n b)) h.tables hid hb
    refine SchedOk.unblockAll ⟨h.sched.unpark rfl rfl rfl rfl ?_, tables_putBarrier h.tables .nil⟩
    refine List.Perm.trans (List.Perm.append_right _ ?_) hperm
    refine (hins.filter _).trans ?_
    rw [List.filter_cons_of_neg (by simp), List.filter_eq_self.2]
    exact fun u hu => by simpa using fun e : u = t => hnew (e ▸ hu)
  · have hoff := h.takeOff hp .waiting
    have hperm := parked_putBarrier (b := arriveBarrier t n b) hoff.tables hid hb
    refine ⟨hoff.sched.park (s' := suspend p t _) rfl rfl rfl rfl ?_ fun T => takeOff_state,
      tables_putBarrier hoff.tables (insertId_ascending hasc)⟩
    have hperm' := hperm.trans (hins.append_right _)
    exact (List.perm_append_left_iff b.arrived).1 (hperm'.trans List.perm_middle.symm)

/-! ### JOIN (49_environment.md R370) -/

/-- A thread joins a list of joiners on leaving its processor. -/
theorem SchedOk.joinWait (h : SchedOk [] s) (hp : s.threadOn p = some t) {j : Nat} {J : Thread}
    (hj : s.threads[j]? = some J) :
    SchedOk [] (suspend p t (s.modThread j fun T => { T with joiners := T.joiners ++ [t] })) := by
  have hoff := h.takeOff hp .waiting
  have hcomm : suspend p t (s.modThread j fun T => { T with joiners := T.joiners ++ [t] }) =
      (Machine.takeOff p t .waiting s).modThread j fun T => { T with joiners := T.joiners ++ [t] } := by
    simp only [suspend, Machine.takeOff, State.modThread, State.modProc]
    rw [modify_comm (f := fun T : Thread => { T with joiners := T.joiners ++ [t] }) fun _ => rfl]
    rfl
  rw [hcomm]
  obtain ⟨J', hJ', hJj⟩ : ∃ J', (Machine.takeOff p t .waiting s).threads[j]? = some J' ∧ J'.joiners = J.joiners := by
    refine ⟨_, by rw [takeOff_threads, List.getElem?_modify, hj]; rfl, ?_⟩
    split <;> rfl
  refine ⟨hoff.sched.park rfl ?_ rfl rfl ?_ fun T => takeOff_state, hoff.tables⟩
  · exact map_modify_of_eq (g := fun T : Thread => (T.id, T.state, T.proc))
      (f := fun T => { T with joiners := T.joiners ++ [t] }) (fun _ => rfl) _ j
  · simp only [parked, State.modThread_threads, State.modThread_locks, State.modThread_barriers]
    have hset := flatMap_set_perm (fun T : Thread => T.joiners) hJ' { J' with joiners := J'.joiners ++ [t] }
    rw [modify_eq_set_of_getElem? hJ']
    rw [List.perm_iff_count] at hset ⊢
    intro u
    have hu := hset u
    simp only [List.count_append, List.count_cons, List.count_nil] at hu ⊢
    omega

/-- A processor's registers do not hang on the state it is in. -/
theorem regsOf_modState (p : Nat) (st : ProcState) (s : State) :
    (s.modProc p fun P => { P with state := st }).regsOf p = s.regsOf p := by
  simp only [State.regsOf, State.modProc_procs, List.getElem?_modify_eq]
  cases s.procs[p]? <;> rfl

/-- A thread leaves a processor whatever state that is in. -/
theorem takeOff_modState (p t : Nat) (st : ThreadState) (x : ProcState) (s : State) :
    takeOff p t st (s.modProc p fun P => { P with state := x }) = takeOff p t st s := by
  simp only [Machine.takeOff, regsOf_modState]
  simp only [State.modProc, State.modThread, List.modify_modify_eq]
  rfl

theorem vmFail_modState (p t : Nat) (e : VmException) (info : Word) (x : ProcState) (s : State) :
    vmFail p t e info (s.modProc p fun P => { P with state := x }) = vmFail p t e info s := by
  simp only [Machine.vmFail, regsOf_modState, State.modProc_clock, State.modProc_faults, State.modProc_pending]
  generalize (⟨s.clock, p, t, .vm e, (s.regsOf p).pc - 1, info⟩ : FaultRecord) = r
  have := takeOff_modState p t .terminated x { s with faults := s.faults ++ [r], pending := s.pending ++ [r] }
  simp only [State.modProc] at this
  simp only [Machine.terminate, State.modProc, this]

/-- What a JOIN gives does not hang on the state its processor is in. -/
theorem resolveJoin_modState (p t : Nat) (j : Word) (x : ProcState) (s : State) :
    resolveJoin p t j (s.modProc p fun P => { P with state := x }) = resolveJoin p t j s := by
  simp only [Machine.resolveJoin, State.modProc_threads]
  cases s.threads[j.toNat]? with
  | none => exact vmFail_modState p t _ j x s
  | some J =>
    by_cases hJ : J.state = .terminated
    · simp only [hJ, if_true, State.modProc, List.modify_modify_eq]
      rfl
    · simp only [hJ, if_false]
      exact takeOff_modState p t .waiting x (s.modThread j.toNat fun T => { T with joiners := T.joiners ++ [t] })

/-- A thread's processor is RUNNING. -/
theorem SchedAway.running (h : SchedAway away s) {P : Proc} (hP : s.procs[p]? = some P) (hp : s.threadOn p = some t) :
    P.state = .running := by
  rw [threadOn_eq hP] at hp
  rcases h.settled P (List.mem_of_getElem? hP) with ⟨-, e⟩ | ⟨e, -⟩
  · rw [hp] at e
    cases e
  · exact e

theorem SchedOk.resolveJoin (h : SchedOk [] s) (hp : s.threadOn p = some t) (j : Word) :
    SchedOk [] (resolveJoin p t j s) := by
  simp only [Machine.resolveJoin]
  split
  · exact h.vmFail hp _ _
  · rename_i J hJ
    split
    · have hP := List.getElem?_eq_getElem (threadOn_lt hp)
      refine h.frame ?_ rfl rfl ⟨rfl, rfl, rfl, rfl⟩
      simp only [SameProcs, State.modProc_procs, modify_eq_set_of_getElem? hP]
      exact map_set_of_eq hP (by rw [h.sched.running hP hp])
    · exact h.joinWait hp hJ

/-! ### Every effect, call and turn -/

theorem SchedOk.resolveCas (h : SchedOk [] s) (p : Nat) (a e n : Word) (r : Reg) :
    SchedOk [] (resolveCas p a e n r s) := by
  simp only [Machine.resolveCas]
  split
  · exact (h.memory ((dataRead_step p _ a.toNat s).trans (dataWrite_step p _ _ n _))).modRegs p _
  · exact (h.memory (dataRead_step p _ a.toNat s)).modRegs p _

/-- The resolution of any effect of the thread on processor p keeps the invariants. -/
theorem SchedOk.resolve (h : SchedOk [] s) (hp : s.threadOn p = some t) (e : Effect) :
    SchedOk [] (resolve p t e s) := by
  cases e with
  | registersModified rs => exact h
  | memoryRead a d =>
    have hread := h.memory (dataRead_step p (s.threadOn p) a.toNat s)
    cases d with
    | reg r => exact hread.modRegs p fun R => writeReg R r (dataRead p (s.threadOn p) a.toNat s).1
    | pc => exact hread.modProc p fun _ => ⟨rfl, rfl⟩
  | memoryWrite a v => exact h.memory (dataWrite_step p (s.threadOn p) a.toNat v s)
  | ret => exact h
  | syncLock id => exact h.resolveLock hp id
  | syncUnlock id => exact h.resolveUnlock hp id
  | fence => exact h
  | cas a x n r => exact h.resolveCas p a x n r
  | barrier id n => exact h.resolveBarrier hp id n
  | halt => exact h.terminate hp
  | yield => exact (h.takeOff hp .waiting).unblock
  | syscall n => exact h
  | spawn f a r =>
    have hnew : SchedOk [] (Machine.createThread (s.progOf t) (childContext f a (s.regsOf p).priv) (some t) s) :=
      ⟨h.sched.createThread _ _ _, h.tables⟩
    exact hnew.modRegs p fun R => writeReg R r (BitVec.ofNat 32 s.threadCounter)
  | join j => exact h.resolveJoin hp j

/-- Replacing a processor by one in the same state with the same thread. -/
theorem SchedOk.setProc (h : SchedOk away s) {P Q : Proc} (hP : s.procs[p]? = some P) (hst : Q.state = P.state)
    (hth : Q.thread = P.thread) : SchedOk away (s.putProc p Q) :=
  h.frame (map_set_of_eq hP (by rw [hst, hth])) rfl rfl ⟨rfl, rfl, rfl, rfl⟩

/-- The same with the call counted. -/
theorem SchedOk.called (h : SchedOk away s) {P Q : Proc} (hP : s.procs[s.cur]? = some P) (hst : Q.state = P.state)
    (hth : Q.thread = P.thread) : SchedOk away (called s t Q) := by
  refine h.frame (map_set_of_eq hP (by rw [hst, hth])) ?_ ?_ ⟨rfl, rfl, rfl, rfl⟩
  · exact map_modify_of_eq (f := countOne) (fun _ => rfl) _ t
  · exact map_modify_of_eq (f := countOne) (fun _ => rfl) _ t

/-- The thread on the processor replaced. -/
theorem threadOn_putProc {P Q : Proc} (hP : s.procs[p]? = some P) : (s.putProc p Q).threadOn p = Q.thread := by
  rw [threadOn_set hP (State.putProc_procs s p Q), if_pos rfl]

theorem threadOn_called {P Q : Proc} (hP : s.procs[s.cur]? = some P) :
    (Machine.called s t Q).threadOn s.cur = Q.thread := by
  rw [threadOn_set hP (called_procs s t Q), if_pos rfl]

/-- Changing the state of a processor that a call has replaced. -/
theorem called_modState {P Q : Proc} (hP : s.procs[s.cur]? = some P) (x : ProcState) :
    (Machine.called s t Q).modProc s.cur (fun P => { P with state := x }) =
      Machine.called s t { Q with state := x } := by
  have hlt := (List.getElem?_eq_some_iff.1 hP).1
  have hQ : (s.procs.set s.cur Q)[s.cur]? = some Q := List.getElem?_set_self hlt
  simp only [Machine.called, State.modProc, modify_eq_set_of_getElem? hQ, List.set_set]

end

/-- An instruction keeps the invariants. -/
theorem exec_schedOk {i : Instr} {s s' : State} (h : SchedOk [] s) (e : exec i s = .next s') : SchedOk [] s' := by
  obtain ⟨P, t, T, hr, hres⟩ := exec_result e
  cases hres with
  | blocked f h' =>
    exact h' ▸ (h.setProc (Q := silent P) hr.proc rfl rfl).takeFault ((threadOn_putProc hr.proc).trans hr.thread) f
  | fault f h' =>
    exact h' ▸ (h.called (Q := acceptedFault i.hdr P) hr.proc rfl rfl).takeFault
      ((threadOn_called hr.proc).trans hr.thread) f
  | done Q next es x hf _ hst h' =>
    have hth : Q.thread = P.thread := hf.thread
    have key : ∀ R : Proc, R.state = P.state → R.thread = P.thread →
        SchedOk [] (resolve s.cur t x (called s t R)) := fun R hs ht =>
      (h.called hr.proc hs ht).resolve ((threadOn_called hr.proc).trans (ht.trans hr.thread)) x
    rw [h']
    rcases hst with hst | ⟨j, rfl⟩
    · exact key _ hst hth
    · have := key { finishCall Q next es with state := P.state } rfl hth
      have hmod := resolveJoin_modState s.cur t j P.state (called s t (finishCall Q next es))
      rw [called_modState hr.proc] at hmod
      rw [resolve, ← hmod]
      exact this

/-- The call on an invalid word keeps the invariants. -/
theorem issueInvalid_schedOk {h : Hdr} {why : DecodeFault} {s s' : State} (hs : SchedOk [] s)
    (e : issueInvalid h why s = .next s') : SchedOk [] s' := by
  obtain ⟨P, t, T, f, hr, rfl | rfl⟩ := issueInvalid_result e
  · exact (hs.setProc (Q := silent P) hr.proc rfl rfl).takeFault ((threadOn_putProc hr.proc).trans hr.thread) f
  · exact (hs.called (Q := acceptedFault h P) hr.proc rfl rfl).takeFault ((threadOn_called hr.proc).trans hr.thread) f

/-- Whose call is being made is not seen by the scheduler. -/
theorem SchedOk.withCur {s : State} (h : SchedOk [] s) (p : Nat) : SchedOk [] { s with cur := p } :=
  h.frame rfl rfl rfl ⟨rfl, rfl, rfl, rfl⟩

/-- A turn keeps the invariants. -/
theorem turn_schedOk {p : Nat} {s s' : State} (h : SchedOk [] s) (e : turn p s = .next s') : SchedOk [] s' := by
  obtain ⟨rfl, -⟩ | ⟨P, hP, -, ⟨-, rfl⟩ | ⟨t, T, -, hr, ⟨-, rfl⟩ | ⟨w, -, ⟨i, -, e⟩ | ⟨d, -, e⟩⟩⟩⟩ := turn_next e
  · exact h
  · exact (h.withCur p).setProc (Q := stallCycle P) hP rfl rfl
  · exact ((h.withCur p).setProc (Q := silent P) hP rfl rfl).takeFault ((threadOn_putProc hP).trans hr.thread) _
  · exact exec_schedOk (h.withCur p) e
  · exact issueInvalid_schedOk (h.withCur p) e

/-- The scheduler at a processor keeps the invariants. -/
theorem scheduleOn_schedOk {s : State} (h : SchedOk [] s) (p : Nat) : SchedOk [] (scheduleOn s p) := by
  obtain e | ⟨P, t, ts, hP, hidle, hready, e⟩ := scheduleOn_cases s p
  · rw [e]
    exact h
  · rw [e]
    refine ⟨(h.sched.unready hready).switchIn hP hidle, ?_⟩
    simp only [switchIn]
    split <;> exact h.tables

/-- Settles O11: each part of a step moves threads from one place to the next, so a step keeps each in one place. -/
theorem stepKeepsSchedule : Obligations.StepKeepsSchedule := by
  intro s s' h e
  refine step_keeps (R := fun s => Scheduled s) (fun s _ _ h => h) (fun p s h => ?_) (fun p s s' h e => ?_)
    (fun s h => h) (fun s _ h => h) h e
  · exact (SchedOk.iff_scheduled _).1 (scheduleOn_schedOk ((SchedOk.iff_scheduled _).2 h) p)
  · exact (SchedOk.iff_scheduled _).1 (turn_schedOk ((SchedOk.iff_scheduled _).2 h) e)

end Sys2Proof.Machine
end

section
/-! SUPPORT. Main memory byte by byte (20_memory.md R74), and the address check as each instruction that accesses a word
makes it (20_memory.md R78). -/

namespace Sys2Proof.Machine

/-! ### The bytes of a word -/

/-- Digit k to base 256 of the number `MemRead` gives is the byte at a + k (00_scope.md R12). -/
theorem memRead_digit (m : Memory) (n : Nat) :
    ∀ a k, k < n → memRead m a n / 256 ^ k % 256 = (memByte m (a + k)).toNat := by
  induction n with
  | zero => intro a k hk; omega
  | succ n ih =>
    intro a k hk
    have hb := (memByte m a).isLt
    cases k with
    | zero =>
      simp only [memRead, Nat.pow_zero, Nat.div_one, Nat.add_zero]
      omega
    | succ k =>
      have htail : memRead m a (n + 1) / 256 = memRead m (a + 1) n := by
        simp only [memRead]
        omega
      rw [Nat.pow_succ', ← Nat.div_div_eq_div_mul, htail, ih (a + 1) k (by omega), Nat.add_right_comm, Nat.add_assoc]

/-- Byte k of a word is digit k of its number to base 256. -/
theorem extractByte_eq (v : Word) (k : Nat) : v.extractLsb' (8 * k) 8 = BitVec.ofNat 8 (v.toNat / 256 ^ k) := by
  apply BitVec.eq_of_toNat_eq
  rw [BitVec.extractLsb'_toNat, BitVec.toNat_ofNat, Nat.shiftRight_eq_div_pow, Nat.pow_mul]

/-- The bytes after a word store. -/
theorem memByte_memWriteWord {m : Memory} (h : m.wf = true) (a : Nat) (v : Word) (b : Nat) :
    memByte (memWriteWord m a v) b = storedByte a v (memByte m) b := by
  rw [memWriteWord, memByte_memWrite 4 a _ b h, storedByte, extractByte_eq]

/-- The bytes of the word read at an address. -/
theorem memReadWord_byte (m : Memory) (a : Nat) {k : Nat} (hk : k < 4) :
    (memReadWord m a).extractLsb' (8 * k) 8 = memByte m (a + k) := by
  have hpow : 256 ^ 4 = 256 ^ k * 256 ^ (4 - k) := by rw [← Nat.pow_add]; congr 1; omega
  have hdvd : (256 : Nat) ∣ 256 ^ (4 - k) := Dvd.dvd.pow (Nat.dvd_refl _) (by omega)
  rw [extractByte_eq]
  apply BitVec.eq_of_toNat_eq
  rw [memReadWord, BitVec.toNat_ofNat, BitVec.toNat_ofNat, show 2 ^ 32 = 256 ^ k * 256 ^ (4 - k) from hpow,
    Nat.mod_mul_right_div_self, Nat.mod_mod_of_dvd _ hdvd]
  exact memRead_digit m 4 a k hk

/-- Settles O56: the bytes after a store and the bytes of the word read. -/
theorem mainMemoryIsLittleEndian : Obligations.MainMemoryIsLittleEndian := by
  intro m a v h
  refine ⟨fun k hk => ?_, fun b hb => ?_, fun k hk => memReadWord_byte m a hk, memWriteWord_wf a v h⟩
  · rw [memByte_memWriteWord h, storedByte, if_pos (by omega), Nat.add_sub_cancel_left]
  · rw [memByte_memWriteWord h, storedByte, if_neg (by omega)]

/-! ### The address check of an instruction -/

theorem addrCheck_misaligned {m : Nat} {a : Word} (h : a.toNat % 4 ≠ 0) :
    addrCheck m a = some (.misalignedAccess a) := if_pos h

theorem addrCheck_outOfRange {m : Nat} {a : Word} (h : a.toNat % 4 = 0) (hm : m < a.toNat + 4) :
    addrCheck m a = some (.addressOutOfRange a) := by
  rw [addrCheck, if_neg (by omega), if_pos hm]

/-- An instruction whose access fails the check raises the check's fault, whatever else it does. -/
theorem ruleOf_raise {i : Instr} {P : Proc} {a : Word} {env : CallEnv} {f : ThreadFault}
    (ha : accessAddr P.regs i = some a) (hf : addrCheck env.memSize a = some f) : ruleOf i env P = .raise f := by
  cases i with
  | load h rd src =>
    cases src with
    | imm v => cases ha
    | addr b => cases ha; simp only [ruleOf, loadRule, hf]
  | store h rs b => cases ha; simp only [ruleOf, storeRule, hf]
  | push h rs => cases ha; simp only [ruleOf, pushRule, pushWord, hf]
  | pop h rd => cases ha; simp only [ruleOf, popRule, hf]
  | call h b => cases ha; simp only [ruleOf, callRule, pushWord, hf]
  | ret h => cases ha; simp only [ruleOf, retRule, hf]
  | cas h b e n rd => cases ha; simp only [ruleOf, casRule, hf]
  | _ => cases ha

/-- A call whose access fails the check ends its thread with the check's fault. -/
theorem exec_addrCheck {i : Instr} {s : State} {P : Proc} {t : Nat} {T : Thread} (hr : Running s P t T)
    (hm : MayRun i.hdr P) {a : Word} (ha : accessAddr P.regs i = some a) {f : ThreadFault}
    (hf : addrCheck s.cfg.memSize a = some f) :
    exec i s = .next (takeFault s.cur t f (called s t (acceptedFault i.hdr P))) := by
  have hraise : ruleOf i (callEnv s t) (accept i.hdr P) = .raise f := ruleOf_raise (P := accept i.hdr P) ha hf
  rw [exec_eq_issue, issue_accepted _ hr hm, dispatchOn_raise hraise]

/-- Settles O45: the address check comes before anything the rule writes. -/
theorem addressFaults : Obligations.AddressFaults := by
  intro i s P t T a hr hm ha
  exact ⟨fun h => exec_addrCheck hr hm ha (addrCheck_misaligned h),
    fun h h' => exec_addrCheck hr hm ha (addrCheck_outOfRange h h')⟩

end Sys2Proof.Machine
end

section
/-! SUPPORT. The newest words of a line (20_memory.md R91): what they are in a coherent state, and how replacing one slot
of one cache and writing back one line leave them. -/

namespace Sys2Proof.Machine

/-! ### Words of a line -/

theorem memLineRead_getD (m : Memory) (n : Nat) :
    ∀ la i, i < n → (memLineRead m la n).getD i 0 = memReadWord m (la + 4 * i) := by
  induction n with
  | zero => intro la i hi; omega
  | succ n ih =>
    intro la i hi
    cases i with
    | zero => rfl
    | succ i =>
      rw [memLineRead, List.getD_cons_succ, ih (la + 4) i (by omega)]
      congr 1
      omega

/-- The word of an address is one of its line's. -/
theorem wordIndex_lt {c : Config} (h : c.ok = true) (a : Nat) : wordIndex c a < c.lineWords := by
  have hl : 4 ≤ c.lineSize := ((Config.ok_iff c).1 h).2.1
  have hlt : a % c.lineSize < c.lineSize := Nat.mod_lt _ (by omega)
  have h4 := four_mul_lineWords h
  rw [wordIndex]
  omega

/-- A word address is its line and its place in it. -/
theorem lineAddr_add_wordIndex {c : Config} (h : c.ok = true) {a : Nat} (ha : a % 4 = 0) :
    lineAddr c a + 4 * wordIndex c a = a := by
  have hmod : a % c.lineSize % 4 = a % 4 :=
    Nat.mod_mod_of_dvd _ (Nat.dvd_of_mod_eq_zero ((Config.ok_iff c).1 h).1)
  have hle : a % c.lineSize ≤ a := Nat.mod_le _ _
  rw [lineAddr, wordIndex]
  omega

/-! ### The newest words -/

/-- The newest words of line `la`: those of its MODIFIED holder if there is one, else main memory's. -/
def newestLine (s : State) (la : Nat) : List Word :=
  match modifiedSlot s la with
  | some sl => sl.data
  | none => memLineRead s.mem la s.cfg.lineWords

/-- With coherence, the newest value of a word is its place in the newest words of its line. -/
theorem coherentWord_eq_newestLine {s : State} (hok : s.cfg.ok = true) (hc : s.cfg.coherence = true) {a : Nat}
    (ha : a % 4 = 0) : coherentWord s a = (newestLine s (lineAddr s.cfg a)).getD (wordIndex s.cfg a) 0 := by
  rw [coherentWord, if_pos hc, newestLine]
  cases modifiedSlot s (lineAddr s.cfg a) with
  | some sl => rfl
  | none =>
    change memReadWord s.mem a = (memLineRead s.mem _ _).getD _ 0
    rw [memLineRead_getD _ _ _ _ (wordIndex_lt hok a), lineAddr_add_wordIndex hok ha]

/-- Without coherence it is main memory's. -/
theorem coherentWord_flat {s : State} (hc : s.cfg.coherence = false) (a : Nat) :
    coherentWord s a = memReadWord s.mem a := by
  simp [coherentWord, hc]

theorem coherentWord_congr {s s' : State} (hcfg : s'.cfg = s.cfg) (hmem : s'.mem = s.mem)
    (hcaches : s'.caches = s.caches) (a : Nat) : coherentWord s' a = coherentWord s a := by
  rw [coherentWord, modifiedSlot, hcfg, hmem, hcaches]
  rfl

theorem newestLine_congr {s s' : State} (hcfg : s'.cfg = s.cfg) (hmem : s'.mem = s.mem)
    (hcaches : s'.caches = s.caches) (la : Nat) : newestLine s' la = newestLine s la := by
  rw [newestLine, modifiedSlot, hcfg, hmem, hcaches]
  rfl

theorem modifiedSlot_some {s : State} {la : Nat} {sl : CacheSlot} (h : modifiedSlot s la = some sl) :
    ∃ (q : Nat) (k : Cache), s.caches[q]? = some k ∧ sl ∈ slots k ∧ sl.state = .modified ∧ sl.addr = la := by
  obtain ⟨k, hk, hs⟩ := List.mem_flatMap.1 (List.mem_of_find?_eq_some h)
  obtain ⟨q, hq⟩ := List.mem_iff_getElem?.1 hk
  have hf := List.find?_some h
  simp only [Bool.and_eq_true, beq_iff_eq] at hf
  exact ⟨q, k, hq, hs, hf⟩

theorem modifiedSlot_none {s : State} {la : Nat} (h : modifiedSlot s la = none) {q : Nat} {k : Cache}
    (hq : s.caches[q]? = some k) {sl : CacheSlot} (hs : sl ∈ slots k) (hm : sl.state = .modified) :
    sl.addr ≠ la := by
  have hf := List.find?_eq_none.1 h sl (List.mem_flatMap.2 ⟨k, List.mem_of_getElem? hq, hs⟩)
  simpa [hm] using hf

/-- Where no cache holds the line MODIFIED its newest words are main memory's. -/
theorem newestLine_of_no_modified {s : State} {la : Nat}
    (h : ∀ (q : Nat) (k : Cache), s.caches[q]? = some k → ∀ sl ∈ slots k, sl.addr = la → sl.state ≠ .modified) :
    newestLine s la = memLineRead s.mem la s.cfg.lineWords := by
  rw [newestLine]
  cases e : modifiedSlot s la with
  | none => rfl
  | some sl =>
    obtain ⟨q, k, hq, hs, hm, ha⟩ := modifiedSlot_some e
    exact absurd hm (h q k hq sl hs ha)

section
variable {s : State} (h : Coherent s) {q : Nat} {k : Cache} (hq : s.caches[q]? = some k) {sl : CacheSlot}
include h hq

/-- The MODIFIED holder of a line has its newest words (10_state.md R40 I1). -/
theorem newestLine_of_modified (hs : sl ∈ slots k) (hm : sl.state = .modified) : newestLine s sl.addr = sl.data := by
  rw [newestLine]
  cases e : modifiedSlot s sl.addr with
  | none => exact absurd rfl (modifiedSlot_none e hq hs hm)
  | some b =>
    obtain ⟨q', k', hq', hb, hbm, hba⟩ := modifiedSlot_some e
    obtain ⟨-, rfl⟩ := h.holder_of_modified hq hq' hs hb hm (by simp [hbm]) hba
    rfl

/-- Every holder of a line has its newest words (10_state.md R40 I6). -/
theorem newestLine_of_holder (hc : s.cfg.coherence = true) (hs : sl ∈ slots k) (hv : sl.state ≠ .invalid) :
    newestLine s sl.addr = sl.data := by
  by_cases hm : sl.state = .modified
  · exact newestLine_of_modified h hq hs hm
  · have hno : newestLine s sl.addr = memLineRead s.mem sl.addr s.cfg.lineWords := by
      refine newestLine_of_no_modified fun q' k' hq' b hb hba hbm => hm ?_
      obtain ⟨-, rfl⟩ := h.holder_of_modified hq' hq hb hs hbm hv hba.symm
      exact hbm
    have hcur := flushSlot_current h hc hq hs hv
    rw [flushSlot, if_neg hm] at hcur
    rw [hno, ← hcur]

end

/-- A valid slot of a coherent state holds a whole line, at a line address. -/
theorem Coherent.slot_line {s : State} (h : Coherent s) {q : Nat} {k : Cache} (hq : s.caches[q]? = some k)
    {sl : CacheSlot} (hs : sl ∈ slots k) (hv : sl.state ≠ .invalid) :
    sl.addr % s.cfg.lineSize = 0 ∧ sl.data.length = s.cfg.lineWords := by
  obtain ⟨hlen, hsets, -⟩ := h.cacheOk hq
  obtain ⟨si, hsi, hmem⟩ := mem_slots.1 hs
  obtain ⟨hal, -, -, hd⟩ := (hsets si (hlen ▸ hsi)).2.1 sl hmem hv
  exact ⟨hal, hd⟩

theorem newestLine_length {s : State} (h : Coherent s) (la : Nat) : (newestLine s la).length = s.cfg.lineWords := by
  rw [newestLine]
  cases e : modifiedSlot s la with
  | none => exact memLineRead_length _ _ _
  | some sl =>
    obtain ⟨q, k, hq, hs, hm, -⟩ := modifiedSlot_some e
    exact (h.slot_line hq hs (by simp [hm])).2

/-! ### The same newest words -/

/-- s' has the newest words of s in every line. -/
def SameLines (s s' : State) : Prop :=
  ∀ la, la % s.cfg.lineSize = 0 → newestLine s' la = newestLine s la

theorem SameLines.refl (s : State) : SameLines s s := fun _ _ => rfl

theorem SameLines.trans {s s' s'' : State} (h : SameLines s s') (hcfg : s'.cfg = s.cfg) (h' : SameLines s' s'') :
    SameLines s s'' := fun la hla => (h' la (hcfg ▸ hla)).trans (h la hla)

/-- Writing back a slot, where it is MODIFIED, keeps the newest words. -/
theorem sameLines_flushSlot {s : State} (h : Coherent s) {q : Nat} {k : Cache} (hq : s.caches[q]? = some k)
    {sl : CacheSlot} (hs : sl ∈ slots k) : SameLines s { s with mem := flushSlot s.mem sl } := by
  intro la hla
  by_cases hm : sl.state = .modified
  swap
  · rw [flushSlot, if_neg hm]
  have hslot : modifiedSlot { s with mem := flushSlot s.mem sl } la = modifiedSlot s la := rfl
  rw [newestLine, newestLine, hslot]
  cases e : modifiedSlot s la with
  | some b => rfl
  | none =>
    obtain ⟨hal, hd⟩ := h.slot_line hq hs (by simp [hm])
    have hdis := lines_disjoint hla hal (modifiedSlot_none e hq hs hm).symm
    have h4 := four_mul_lineWords h.configOk
    simp only [flushSlot, if_pos hm]
    exact memLineRead_memLineWrite_other h.memWf _ la (by rw [hd, h4]; exact hdis)

/-! ### One slot replaced -/

/-- An old slot but the one replaced is a slot after the replacement. -/
theorem mem_slots_putSlot_of_ne {k : Cache} {si w : Nat} {x sl : CacheSlot} (h : sl ∈ slots k)
    (hne : sl ≠ slotOf k si w) : sl ∈ slots (putSlot k si w x) := by
  obtain ⟨sj, hsj, hm⟩ := mem_slots.1 h
  refine mem_slots.2 ⟨sj, by rwa [putSlot_sets_length], ?_⟩
  rw [setOf_putSlot]
  split
  · subst_vars
    obtain ⟨i, hi, rfl⟩ := List.mem_iff_getElem.1 hm
    refine List.mem_iff_getElem.2 ⟨i, by rwa [List.length_set], List.getElem_set_ne ?_ _⟩
    rintro rfl
    exact hne (slotOf_eq hi).symm
  · exact hm

/-- The new slot is a slot after the replacement. -/
theorem mem_slots_putSlot_self {k : Cache} {si w : Nat} (hw : w < (setOf k si).length) (x : CacheSlot) :
    x ∈ slots (putSlot k si w x) := by
  refine mem_slots_of_mem_setOf (si := si) ?_
  rw [setOf_putSlot, if_pos rfl]
  exact List.mem_iff_getElem.2 ⟨w, by rwa [List.length_set], List.getElem_set_self _⟩

/-- The line the new slot holds MODIFIED has its words. -/
theorem newestLine_putSlot_self {s : State} {p : Nat} {k : Cache} (hp : s.caches[p]? = some k) {si w : Nat}
    {x : CacheSlot} {k' : Cache} (hsets : k'.sets = (putSlot k si w x).sets) (h' : Coherent (s.putCache p k'))
    (hw : w < (setOf k si).length) (hx : x.state = .modified) : newestLine (s.putCache p k') x.addr = x.data := by
  have hlt := (List.getElem?_eq_some_iff.1 hp).1
  have hmem : x ∈ slots k' := by
    rw [slots, hsets]
    exact mem_slots_putSlot_self hw x
  exact newestLine_of_modified h' (q := p) (by simp [hlt]) hmem hx

section
variable {s : State} (h : Coherent s) {p : Nat} {k : Cache} (hp : s.caches[p]? = some k) {si w : Nat}
  {x : CacheSlot} {k' : Cache} (hsets : k'.sets = (putSlot k si w x).sets) (h' : Coherent (s.putCache p k'))
include h hp hsets h'

/-- A line that the new slot does not hold MODIFIED keeps its newest words, if main memory has them where the slot
replaced had. -/
theorem newestLine_putSlot_other {la : Nat} (hx : x.state = .modified → x.addr ≠ la)
    (hold : (slotOf k si w).state = .modified → (slotOf k si w).addr = la →
      (slotOf k si w).data = memLineRead s.mem la s.cfg.lineWords) :
    newestLine (s.putCache p k') la = newestLine s la := by
  have hlt := (List.getElem?_eq_some_iff.1 hp).1
  have hslots : slots k' = slots (putSlot k si w x) := by rw [slots, slots, hsets]
  cases e : modifiedSlot (s.putCache p k') la with
  | some b =>
    obtain ⟨q, j, hq, hb, hbm, rfl⟩ := modifiedSlot_some e
    rw [newestLine_of_modified h' hq hb hbm]
    rcases eq_or_ne p q with rfl | hne
    · obtain rfl : k' = j := by simpa [hlt] using hq
      rw [hslots] at hb
      rcases mem_slots_putSlot (h.cacheOk hp) hb with rfl | ⟨hb, -⟩
      · exact absurd rfl (hx hbm)
      · exact (newestLine_of_modified h hp hb hbm).symm
    · rw [State.putCache_caches, List.getElem?_set_ne hne] at hq
      exact (newestLine_of_modified h hq hb hbm).symm
  | none =>
    have hmem : newestLine (s.putCache p k') la = memLineRead s.mem la s.cfg.lineWords := by rw [newestLine, e]; rfl
    rw [hmem]
    cases e0 : modifiedSlot s la with
    | none => rw [newestLine, e0]
    | some b =>
      obtain ⟨q, j, hq, hb, hbm, rfl⟩ := modifiedSlot_some e0
      rw [newestLine_of_modified h hq hb hbm]
      rcases eq_or_ne p q with rfl | hne
      · obtain rfl : k = j := Option.some.inj (hp.symm.trans hq)
        by_cases hbo : b = slotOf k si w
        · subst hbo
          exact (hold hbm rfl).symm
        · have hb' : b ∈ slots k' := hslots ▸ mem_slots_putSlot_of_ne hb hbo
          exact absurd rfl (modifiedSlot_none e (q := p) (by simp [hlt]) hb' hbm)
      · exact absurd rfl (modifiedSlot_none e (q := q) (by simpa [hne] using hq) hb hbm)

/-- Replacing a slot keeps the newest words: those the new slot holds MODIFIED are the newest, and main memory has those
of the slot replaced or the new slot holds its line MODIFIED. -/
theorem sameLines_putSlot (hw : w < (setOf k si).length)
    (hx : x.state = .modified → newestLine s x.addr = x.data)
    (hold : (slotOf k si w).state = .modified → (x.state = .modified ∧ x.addr = (slotOf k si w).addr) ∨
      (slotOf k si w).data = memLineRead s.mem (slotOf k si w).addr s.cfg.lineWords) :
    SameLines s (s.putCache p k') := by
  intro la _
  by_cases hxla : x.state = .modified ∧ x.addr = la
  · obtain ⟨hxm, rfl⟩ := hxla
    rw [newestLine_putSlot_self hp hsets h' hw hxm, hx hxm]
  · refine newestLine_putSlot_other h hp hsets h' (fun hm e => hxla ⟨hm, e⟩) fun hm e => ?_
    rcases hold hm with ⟨hxm, hxa⟩ | hd
    · exact absurd ⟨hxm, hxa.trans e⟩ hxla
    · rw [← e, ← hd]

/-- Writing word i of a line in the cache that holds it: that word is its newest, and every other word is as it was. -/
theorem newestLine_writeSlot (hc : s.cfg.coherence = true) {a : Nat} (hsi : si = setIndex s.cfg a)
    (hl : lookup s.cfg k a = some w) (hxa : x.addr = (slotOf k si w).addr) (hxm : x.state = .modified) {i : Nat}
    {v : Word} (hxd : x.data = (slotOf k si w).data.set i v) (la : Nat) :
    newestLine (s.putCache p k') la =
      if la = lineAddr s.cfg a then (newestLine s la).set i v else newestLine s la := by
  subst hsi
  obtain ⟨hs, hv, ha, -, -⟩ := lookup_slot h.configOk (h.cacheOk hp) hl
  have hnew := newestLine_of_holder h hp hc hs hv
  split
  · rename_i e
    rw [e, ← ha, hnew, ← hxd, ← hxa]
    exact newestLine_putSlot_self hp hsets h' (lookup_some hl).1 hxm
  · rename_i e
    exact newestLine_putSlot_other h hp hsets h' (fun _ e' => e (e'.symm.trans (hxa.trans ha)))
      fun _ e' => absurd (e'.symm.trans ha) e

end

/-- A slot written back where it is MODIFIED may be replaced by one that is not MODIFIED, or that holds newest words. -/
theorem sameLines_flush_putSlot {s : State} (h : Coherent s) (hc : s.cfg.coherence = true) {p : Nat} {k : Cache}
    (hp : s.caches[p]? = some k) {si w : Nat} {x : CacheSlot} {k' : Cache}
    (hsets : k'.sets = (putSlot k si w x).sets) (hw : w < (setOf k si).length)
    (h' : Coherent (State.putCache { s with mem := flushSlot s.mem (slotOf k si w) } p k'))
    (hx : x.state = .modified → x.addr % s.cfg.lineSize = 0 ∧ newestLine s x.addr = x.data) :
    SameLines s (State.putCache { s with mem := flushSlot s.mem (slotOf k si w) } p k') := by
  have hs : slotOf k si w ∈ slots k := by
    rw [slotOf_eq hw]
    exact mem_slots_of_mem_setOf (List.getElem_mem hw)
  have hflush := sameLines_flushSlot h hp hs
  refine hflush.trans rfl (sameLines_putSlot (coherent_flushSlot h hp hs) hp hsets h' hw (fun hm => ?_) fun hm => ?_)
  · obtain ⟨hal, hd⟩ := hx hm
    rw [hflush _ hal, hd]
  · exact .inr (flushSlot_current h hc hp hs (by simp [hm]))

end Sys2Proof.Machine
end

section
/-! SUPPORT. The newest words under the requests of the bus (47_bus_ops.md R333 to R335): the snoops keep them, and a read
request answers those of its line. -/

namespace Sys2Proof.Machine

/-! ### The snoop of one cache -/

theorem snoopAll_requester_from {β : Type} (f : Cache → β → Cache × β) (ks : List Cache) :
    ∀ (q i : Nat) (acc : β), (snoopAll f (q + i) q ks acc).1[i]? = ks[i]? := by
  induction ks with
  | nil => intros; rfl
  | cons k ks ih =>
    intro q i acc
    cases i with
    | zero => simp [snoopAll]
    | succ i =>
      have hne : q ≠ q + (i + 1) := by omega
      have he : q + (i + 1) = q + 1 + i := by omega
      simp only [snoopAll, if_neg hne, List.getElem?_cons_succ]
      rw [he, ih]

/-- A snoop leaves the requester's own cache alone. -/
theorem snoopAll_requester {β : Type} (f : Cache → β → Cache × β) (pid : Nat) (ks : List Cache) (acc : β) :
    (snoopAll f pid 0 ks acc).1[pid]? = ks[pid]? := by
  simpa using snoopAll_requester_from f ks 0 pid acc

/-- A READ_SHARED keeps the newest words in the cache it snoops. -/
theorem handleBusRead_sameLines {s : State} (h : Coherent s) (hc : s.cfg.coherence = true) {la : Nat}
    (hla : la % s.cfg.lineSize = 0) {acc : SnoopAcc} (hacc : acc.mem = s.mem) {q : Nat} {k : Cache}
    (hq : s.caches[q]? = some k) :
    let r := handleBusRead s.cfg k la
    SameLines s { s with caches := s.caches.set q r.2, mem := (snoopReadReply la acc r.1).mem } := by
  have hself := lineAddr_of_aligned hla
  cases hl : lookup s.cfg k la with
  | none =>
    simp only [handleBusRead_none hl, set_of_getElem? hq, snoopReadReply, hacc]
    exact .refl s
  | some w =>
    obtain ⟨hs, hv, ha, -, -⟩ := lookup_slot h.configOk (h.cacheOk hq) hl
    rw [hself] at ha
    have hreply := snoopReadReply_slot acc (slotOf k (setIndex s.cfg la) w)
    rw [ha, hacc] at hreply
    have hshare := coherent_sharedSlot (coherent_flushSlot h hq hs) hq hl (flushSlot_current h hc hq hs hv)
    simp only [handleBusRead_some hl, hreply]
    exact sameLines_flush_putSlot h hc hq rfl (lookup_some hl).1 hshare fun e => by cases e

/-- A READ_EXCLUSIVE keeps the newest words in the cache it snoops. -/
theorem handleBusReadExclusive_sameLines {s : State} (h : Coherent s) (hc : s.cfg.coherence = true) {la : Nat}
    (hla : la % s.cfg.lineSize = 0) {acc : Memory × Option (List Word)} (hacc : acc.1 = s.mem) {q : Nat} {k : Cache}
    (hq : s.caches[q]? = some k) :
    let r := handleBusReadExclusive s.cfg k la
    SameLines s { s with caches := s.caches.set q r.2, mem := (snoopExclusiveReply la acc r.1).1 } := by
  have hself := lineAddr_of_aligned hla
  cases hl : lookup s.cfg k la with
  | none =>
    simp only [handleBusReadExclusive_none hl, set_of_getElem? hq, snoopExclusiveReply, hacc]
    exact .refl s
  | some w =>
    obtain ⟨hs, -, ha, -, -⟩ := lookup_slot h.configOk (h.cacheOk hq) hl
    rw [hself] at ha
    have hreply := snoopExclusiveReply_slot acc (slotOf k (setIndex s.cfg la) w)
    rw [ha, hacc] at hreply
    have hclear := coherent_clearedSlot (coherent_flushSlot h hq hs) hq hl
    simp only [handleBusReadExclusive_some hl, hreply]
    exact sameLines_flush_putSlot h hc hq rfl (lookup_some hl).1 hclear fun e => by cases e

/-- An INVALIDATE keeps the newest words in the cache it snoops: it clears no MODIFIED line (46_cache_ops.md R291). -/
theorem handleBusInvalidate_sameLines {s : State} (h : Coherent s) {la : Nat} {q : Nat} {k : Cache}
    (hq : s.caches[q]? = some k) : SameLines s (s.putCache q (handleBusInvalidate s.cfg k la)) := by
  have hrefl : SameLines s (s.putCache q k) := by
    rw [State.putCache, set_of_getElem? hq]
    exact .refl s
  cases hl : lookup s.cfg k la with
  | none => simpa [handleBusInvalidate, hl] using hrefl
  | some w =>
    by_cases hm : (slotOf k (setIndex s.cfg la) w).state = .modified
    · simpa [handleBusInvalidate, hl, hm] using hrefl
    · simp only [handleBusInvalidate, hl, if_neg hm]
      exact sameLines_putSlot h hq rfl (coherent_clearedSlot h hq hl) (lookup_some hl).1 (fun e => by cases e)
        fun e => absurd e hm

/-! ### The bus side of a request -/

/-- What a request makes of the machine: the newest words and the requester's cache are as before. -/
structure KeepsLines (pid : Nat) (s s' : State) : Prop where
  lines : SameLines s s'
  own   : s'.caches[pid]? = s.caches[pid]?

/-- The newest words of a line that no other cache holds MODIFIED any more, and the requester does not hold, are main
memory's after the request. -/
theorem KeepsLines.newest_eq_mem {pid : Nat} {s s' : State} (h : KeepsLines pid s s') {la : Nat}
    (hla : la % s.cfg.lineSize = 0) (hown : ∀ k, s.caches[pid]? = some k → NoHolder k la)
    (hno : ∀ (q : Nat) (k : Cache), q ≠ pid → s'.caches[q]? = some k → ∀ sl ∈ slots k, sl.addr = la →
      sl.state ≠ .modified) : newestLine s la = memLineRead s'.mem la s'.cfg.lineWords := by
  rw [← h.lines la hla]
  refine newestLine_of_no_modified fun q k hq sl hsl ha hm => ?_
  rcases eq_or_ne q pid with rfl | hne
  · exact hown k (h.own ▸ hq) sl hsl (by simp [hm]) ha
  · exact hno q k hne hq sl hsl ha hm

/-- A READ_SHARED of a line the requester does not hold answers its newest words, in a valid state that is not
MODIFIED. -/
theorem busReadShared_newest {s : State} (h : Coherent s) (hc : s.cfg.coherence = true) {la : Nat}
    (hla : la % s.cfg.lineSize = 0) {pid : Nat} (hown : ∀ k, s.caches[pid]? = some k → NoHolder k la) :
    ∃ st, (busReadShared la pid s).1 = .line (newestLine s la) st ∧ st ≠ .invalid ∧ st ≠ .modified ∧
      KeepsLines pid s (busReadShared la pid s).2 := by
  have key := snoopAll_keeps_all (pid := pid)
    (f := fun k acc => ((handleBusRead s.cfg k la).2, snoopReadReply la acc (handleBusRead s.cfg k la).1))
    (I := fun ks acc => ReadKeeps s la ks acc ∧ SameLines s { s with caches := ks, mem := acc.mem })
    (D := ReadReported la)
    (fun ks acc q k _ hq hI => by
      obtain ⟨hk, hd⟩ := handleBusRead_keeps hc hla hq hI.1
      exact ⟨⟨hk, hI.2.trans rfl (handleBusRead_sameLines hI.1.1 hc hla rfl hq)⟩, hd⟩)
    (fun k acc j hD sl hsl hv e => ⟨(hD sl hsl hv e).1, snoopReadReply_held (hD sl hsl hv e).2⟩)
    (ks := s.caches) (acc := { mem := s.mem, data := none, held := false }) ⟨⟨h, by simp⟩, .refl s⟩
  have hreq := snoopAll_requester
    (fun k acc => ((handleBusRead s.cfg k la).2, snoopReadReply la acc (handleBusRead s.cfg k la).1))
    pid s.caches { mem := s.mem, data := none, held := false }
  simp only [← snoopRead_eq_snoopAll] at key hreq
  obtain ⟨⟨⟨-, hdata⟩, hlines⟩, hrep⟩ := key
  have hkeep : KeepsLines pid s (busReadShared la pid s).2 := ⟨hlines, hreq⟩
  have hmem := hkeep.newest_eq_mem hla hown fun q k hne hq sl hsl ha hm => by
    have hst := (hrep q k hne hq sl hsl (by simp [hm]) ha).1
    rw [hm] at hst
    cases hst
  refine ⟨if (snoopRead s.cfg la pid 0 s.caches { mem := s.mem, data := none, held := false }).2.held then .shared
    else .exclusive, ?_, ?_, ?_, hkeep⟩
  · rw [hmem]
    simp only [busReadShared]
    cases e : (snoopRead s.cfg la pid 0 s.caches { mem := s.mem, data := none, held := false }).2.data with
    | none => rfl
    | some d => rw [Option.getD_some, hdata d e]
  · split <;> simp
  · split <;> simp

/-- A READ_EXCLUSIVE of a line the requester does not hold answers its newest words. -/
theorem busReadExclusive_newest {s : State} (h : Coherent s) (hc : s.cfg.coherence = true) {la : Nat}
    (hla : la % s.cfg.lineSize = 0) {pid : Nat} (hown : ∀ k, s.caches[pid]? = some k → NoHolder k la) :
    (busReadExclusive la pid s).1 = .line (newestLine s la) .modified ∧
      KeepsLines pid s (busReadExclusive la pid s).2 := by
  have key := snoopAll_keeps_all (pid := pid)
    (f := fun k acc => ((handleBusReadExclusive s.cfg k la).2,
      snoopExclusiveReply la acc (handleBusReadExclusive s.cfg k la).1))
    (I := fun ks acc => ExclusiveKeeps s la ks acc ∧ SameLines s { s with caches := ks, mem := acc.1 })
    (D := fun k _ => NoHolder k la)
    (fun ks acc q k _ hq hI => by
      obtain ⟨hk, hd⟩ := handleBusReadExclusive_keeps hc hla hq hI.1
      exact ⟨⟨hk, hI.2.trans rfl (handleBusReadExclusive_sameLines hI.1.1 hc hla rfl hq)⟩, hd⟩)
    (fun _ _ _ hD => hD) (ks := s.caches) (acc := (s.mem, none)) ⟨⟨h, by simp⟩, .refl s⟩
  have hreq := snoopAll_requester
    (fun k acc => ((handleBusReadExclusive s.cfg k la).2,
      snoopExclusiveReply la acc (handleBusReadExclusive s.cfg k la).1)) pid s.caches (s.mem, none)
  simp only [← snoopExclusive_eq_snoopAll] at key hreq
  obtain ⟨⟨⟨-, hdata⟩, hlines⟩, hnone⟩ := key
  have hkeep : KeepsLines pid s (busReadExclusive la pid s).2 := ⟨hlines, hreq⟩
  have hmem := hkeep.newest_eq_mem hla hown fun q k hne hq sl hsl ha hm =>
    hnone q k hne hq sl hsl (by simp [hm]) ha
  refine ⟨?_, hkeep⟩
  rw [hmem]
  simp only [busReadExclusive]
  cases e : (snoopExclusive s.cfg la pid 0 s.caches (s.mem, none)).2.2 with
  | none => rfl
  | some d => rw [Option.getD_some, hdata d e]

/-- An INVALIDATE of a line that is nowhere MODIFIED keeps the newest words. -/
theorem busInvalidate_newest {s : State} (h : Coherent s) {la : Nat} (hla : la % s.cfg.lineSize = 0)
    (hno : ∀ k ∈ s.caches, ∀ sl ∈ slots k, sl.addr = la → sl.state ≠ .modified) (pid : Nat) :
    KeepsLines pid s (busInvalidate la pid s).2 := by
  have key := snoopAll_keeps_all (pid := pid)
    (f := fun k (_ : Unit) => (handleBusInvalidate s.cfg k la, ()))
    (I := fun ks u => InvalidateKeeps s la ks u ∧ SameLines s { s with caches := ks })
    (D := fun k _ => NoHolder k la)
    (fun ks acc q k _ hq hI => by
      obtain ⟨hk, hd⟩ := handleBusInvalidate_keeps hla hq hI.1
      exact ⟨⟨hk, hI.2.trans rfl (handleBusInvalidate_sameLines hI.1.1 hq)⟩, hd⟩)
    (fun _ _ _ hD => hD) (ks := s.caches) (acc := ()) ⟨⟨h, hno⟩, .refl s⟩
  have hreq := snoopAll_requester (fun k (_ : Unit) => (handleBusInvalidate s.cfg k la, ())) pid s.caches ()
  simp only [← snoopInvalidate_eq_snoopAll] at key hreq
  exact ⟨key.1.2, hreq⟩

/-! ### Submissions -/

theorem submit_readShared_newest {s : State} (h : Coherent s) (hc : s.cfg.coherence = true) {la : Nat}
    (hla : la % s.cfg.lineSize = 0) {p : Nat} (hown : ∀ k, s.caches[p]? = some k → NoHolder k la)
    (tid : Option Nat) :
    ∃ st, (submit .readShared la p tid none s).1 = .line (newestLine s la) st ∧ st ≠ .invalid ∧ st ≠ .modified ∧
      KeepsLines p s (submit .readShared la p tid none s).2 := by
  obtain ⟨st, hr, hi, hm, hk⟩ :=
    busReadShared_newest (s := { s with bus := countRequest .readShared s.bus }) h hc hla hown
  exact ⟨st, hr, hi, hm, hk.lines, hk.own⟩

theorem submit_readExclusive_newest {s : State} (h : Coherent s) (hc : s.cfg.coherence = true) {la : Nat}
    (hla : la % s.cfg.lineSize = 0) {p : Nat} (hown : ∀ k, s.caches[p]? = some k → NoHolder k la)
    (tid : Option Nat) :
    (submit .readExclusive la p tid none s).1 = .line (newestLine s la) .modified ∧
      KeepsLines p s (submit .readExclusive la p tid none s).2 := by
  obtain ⟨hr, hk⟩ :=
    busReadExclusive_newest (s := { s with bus := countRequest .readExclusive s.bus }) h hc hla hown
  exact ⟨hr, hk.lines, hk.own⟩

theorem submit_invalidate_newest {s : State} (h : Coherent s) {la : Nat} (hla : la % s.cfg.lineSize = 0)
    (hno : ∀ k ∈ s.caches, ∀ sl ∈ slots k, sl.addr = la → sl.state ≠ .modified) (p : Nat) (tid : Option Nat) :
    KeepsLines p s (submit .invalidate la p tid none s).2 := by
  have hk := busInvalidate_newest (s := { s with bus := countRequest .invalidate s.bus }) h hla hno p
  exact ⟨hk.lines, hk.own⟩

end Sys2Proof.Machine
end

section
/-! SUPPORT. `DataRead` answers the newest value of its word and changes none; `DataWrite` changes the newest value of its
word and of no other (20_memory.md R91, 47_bus_ops.md R328, R330, R331). -/

namespace Sys2Proof.Machine

/-! ### The victim way exists -/

theorem lruWay_lt {set : List CacheSlot} (h : set ≠ []) : lruWay set < set.length := by
  induction set with
  | nil => exact absurd rfl h
  | cons x rest ih =>
    cases rest with
    | nil => simp [lruWay]
    | cons y rest =>
      have hrest := ih (by simp)
      simp only [lruWay]
      split
      · simp
      · simpa using hrest

/-- Whatever the replacement policy, the victim is a way of the set (46_cache_ops.md R287). -/
theorem victimWay_lt (c : Config) {set : List CacheSlot} (h : set ≠ []) : victimWay c set < set.length := by
  have hpos : 0 < set.length := List.length_pos_of_ne_nil h
  cases hv : c.victim with
  | lru =>
    simp only [victimWay, hv]
    cases e : set.findIdx? fun sl => sl.state == .invalid with
    | none => exact lruWay_lt h
    | some w => exact (List.findIdx?_eq_some_iff_getElem.1 e).1
  | other n =>
    simp only [victimWay, hv]
    have hmem : ∀ ws : List Nat, ws ≠ [] → (∀ w ∈ ws, w < set.length) →
        ws.getD (Config.victimChoice n set % ws.length) 0 < set.length := by
      intro ws hne hws
      have hlt : Config.victimChoice n set % ws.length < ws.length := Nat.mod_lt _ (List.length_pos_of_ne_nil hne)
      rw [List.getD_eq_getElem _ _ hlt]
      exact hws _ (List.getElem_mem hlt)
    split
    · exact hmem _ (by simpa using hpos.ne') (by simp)
    · rename_i hne
      refine hmem _ hne fun w hw => ?_
      simp only [invalidWays, List.mem_filter, List.mem_range] at hw
      exact hw.1

/-! ### Install (47_bus_ops.md R332) -/

/-- A line some slot holds is found. -/
theorem lookup_of_holder {c : Config} {k : Cache} (hc : c.ok = true) (hk : CacheOk c k) {a : Nat} {sl : CacheSlot}
    (hs : sl ∈ slots k) (hv : sl.state ≠ .invalid) (ha : sl.addr = lineAddr c a) : ∃ w, lookup c k a = some w := by
  cases h : lookup c k a with
  | some w => exact ⟨w, rfl⟩
  | none => exact absurd ha (noHolder_of_lookup_none hc hk h sl hs hv)

/-- Installing a line that is not held puts it in the place of a slot that is written back where it is MODIFIED. -/
theorem install_of_lookup_none {s : State} {p : Nat} {k : Cache} (hk : CacheOk s.cfg k) {la : Nat}
    (hp : s.caches[p]? = some k) (hok : s.cfg.ok = true) (hl : lookup s.cfg k la = none) (d : List Word) (st : Mesi)
    (tid : Option Nat) :
    ∃ w, w < (setOf k (setIndex s.cfg la)).length ∧
      (install p la d st tid s).caches = s.caches.set p (putTouched k (setIndex s.cfg la) w (filledSlot la d st)) ∧
      (install p la d st tid s).mem = flushSlot s.mem (slotOf k (setIndex s.cfg la) w) := by
  have hassoc : 1 ≤ s.cfg.assoc := ((Config.ok_iff _).1 hok).2.2.2.2.2.2.2
  have hlen : (setOf k (setIndex s.cfg la)).length = s.cfg.assoc := (hk.2.1 _ (setIndex_lt hok la)).1
  have hne : setOf k (setIndex s.cfg la) ≠ [] := by
    intro e
    rw [e, List.length_nil] at hlen
    omega
  have hw := victimWay_lt s.cfg hne
  refine ⟨_, hw, ?_, ?_⟩
  · rw [install_caches, State.cacheAt_eq hp]
    simp [allocate, hl]
  have hdirty := hk.2.2 _ (mem_slots_of_mem_setOf (List.getElem_mem hw))
  rw [← slotOf_eq hw] at hdirty
  simp only [install, State.cacheAt_eq hp, allocate, hl]
  generalize slotOf k (setIndex s.cfg la) (victimWay s.cfg (setOf k (setIndex s.cfg la))) = old at hdirty ⊢
  by_cases hm : old.state = .modified
  · simp [hm, hdirty, evictedOf, flushSlot, submit, busSide, busWriteBack]
  · by_cases hi : old.state = .invalid
    · simp [hi, flushSlot]
    · simp [hm, hi, hdirty, evictedOf, flushSlot]

section
variable {s : State} (h : Coherent s) (hc : s.cfg.coherence = true) {p : Nat} {k : Cache}
  (hp : s.caches[p]? = some k) {la : Nat} (hla : LineInRange s.cfg la) (hl : lookup s.cfg k la = none) {st : Mesi}
  (hallow : SlotAllowed s p (filledSlot la (newestLine s la) st)) (tid : Option Nat)
include h hp hla hl hallow

include hc in
/-- Installing the newest words of a line that is not held keeps the newest words of every line. -/
theorem install_sameLines : SameLines s (install p la (newestLine s la) st tid s) := by
  obtain ⟨w, hw, hcaches, hmem⟩ :=
    install_of_lookup_none (h.cacheOk hp) hp h.configOk hl (newestLine s la) st tid
  have hstep := install_step p la (newestLine s la) st tid s
  have hcoh := install_coherent h hp hla (newestLine_length h la) hallow tid
  have hput := sameLines_flush_putSlot h hc hp rfl hw
    (k' := putTouched k (setIndex s.cfg la) w (filledSlot la (newestLine s la) st))
    (hcoh.congr hstep.cfg.symm hmem.symm hcaches.symm (congrArg _ hstep.procs.symm))
    fun _ => ⟨hla.aligned, rfl⟩
  intro la' hla'
  refine Eq.trans (newestLine_congr ?_ ?_ ?_ la') (hput la' hla')
  · exact hstep.cfg
  · exact hmem
  · exact hcaches

/-- The line installed is found in the requester's cache, in the state asked for. -/
theorem install_lookup (hst : st ≠ .invalid) : ∃ k' w,
    (install p la (newestLine s la) st tid s).caches[p]? = some k' ∧ lookup s.cfg k' la = some w ∧
      (slotOf k' (setIndex s.cfg la) w).state = st := by
  obtain ⟨w, hw, hcaches, -⟩ :=
    install_of_lookup_none (h.cacheOk hp) hp h.configOk hl (newestLine s la) st tid
  have hlt := (List.getElem?_eq_some_iff.1 hp).1
  have hk' : (install p la (newestLine s la) st tid s).caches[p]? =
      some (putTouched k (setIndex s.cfg la) w (filledSlot la (newestLine s la) st)) := by
    rw [hcaches, List.getElem?_set_self hlt]
  have hcoh := install_coherent h hp hla (newestLine_length h la) hallow tid
  have hok := hcoh.cacheOk hk'
  rw [(install_step p la (newestLine s la) st tid s).cfg] at hok
  have hself := lineAddr_of_aligned hla.aligned
  have hin := mem_slots_putSlot_self hw { filledSlot la (newestLine s la) st with lastUse := k.useCtr + 1 }
  obtain ⟨w', hw'⟩ := lookup_of_holder h.configOk hok hin hst hself.symm
  obtain ⟨hs', hv', ha', -, -⟩ := lookup_slot h.configOk hok hw'
  refine ⟨_, w', hk', hw', ?_⟩
  rw [slot_unique hok hs' hin hv' hst (ha'.trans hself)]
  rfl

end

/-! ### The coherent read and write paths -/

/-- A line that is not found is held by no slot of the requester's cache. -/
theorem Coherent.noHolder {s : State} (h : Coherent s) {p : Nat} {k : Cache} (hp : s.caches[p]? = some k) {a : Nat}
    (hl : lookup s.cfg k a = none) : ∀ k', s.caches[p]? = some k' → NoHolder k' (lineAddr s.cfg a) := by
  intro k' hk'
  obtain rfl : k = k' := Option.some.inj (hp.symm.trans hk')
  exact noHolder_of_lookup_none h.configOk (h.cacheOk hp) hl

/-- A line that some cache holds SHARED no cache holds MODIFIED (10_state.md R40 I1). -/
theorem Coherent.no_modified_of_shared {s : State} (h : Coherent s) {p : Nat} {k : Cache}
    (hp : s.caches[p]? = some k) {sl : CacheSlot} (hs : sl ∈ slots k) (hst : sl.state = .shared) :
    ∀ k' ∈ s.caches, ∀ b ∈ slots k', b.addr = sl.addr → b.state ≠ .modified := by
  intro k' hk' b hb e hm
  obtain ⟨q, hq⟩ := List.mem_iff_getElem?.1 hk'
  obtain ⟨-, rfl⟩ := h.holder_of_modified hq hp hb hs hm (by simp [hst]) e.symm
  rw [hst] at hm
  cases hm

/-- An address and its line are looked up alike. -/
theorem lookup_lineAddr {c : Config} (h : c.ok = true) (k : Cache) (a : Nat) :
    lookup c k (lineAddr c a) = lookup c k a :=
  lookup_congr (setIndex_lineAddr h a) (lineAddr_of_aligned (lineAddr_mod c a))

/-- `DataRead` with coherence answers the newest value of the word and keeps the newest words of every line. -/
theorem coherentRead_newest {s : State} (h : Coherent s) (hc : s.cfg.coherence = true) {p : Nat}
    (hp : p < s.caches.length) (tid : Option Nat) {a : Nat} (ha : a < s.cfg.memSize) :
    (coherentRead p tid a s).1 = (newestLine s (lineAddr s.cfg a)).getD (wordIndex s.cfg a) 0 ∧
      SameLines s (coherentRead p tid a s).2 := by
  have hk := List.getElem?_eq_getElem hp
  have hla := lineAddr_inRange h.configOk ha
  simp only [coherentRead, State.cacheAt_eq hk]
  rcases cacheRead_cases s.cfg s.caches[p] a with ⟨w, hl, e⟩ | ⟨hl, e⟩
  · rw [e]
    obtain ⟨hs, hv, hadr, -, -⟩ := lookup_slot h.configOk (h.cacheOk hk) hl
    have hnew := newestLine_of_holder h hk hc hs hv
    refine ⟨by rw [← hadr, hnew], ?_⟩
    exact sameLines_putSlot h hk rfl (coherent_touch h hk hl) (lookup_some hl).1 (fun _ => hnew)
      fun hm => .inl ⟨hm, rfl⟩
  · rw [e]
    obtain ⟨st, hr, -, -, hkeep⟩ := submit_readShared_newest h hc hla.aligned (h.noHolder hk hl) tid
    obtain ⟨d, st', hr', hd, hcoh, hallow⟩ := submit_readShared_coherent h hc hla.aligned p tid
    have hcfg := (submit_step .readShared (lineAddr s.cfg a) p tid none s).cfg
    obtain ⟨rfl, rfl⟩ : newestLine s (lineAddr s.cfg a) = d ∧ st = st' := by simpa using hr.symm.trans hr'
    simp only [hr, lineOf, true_and]
    rw [← hkeep.lines _ hla.aligned] at hallow ⊢
    refine hkeep.lines.trans hcfg (install_sameLines hcoh (hcfg ▸ hc) (hkeep.own.trans hk) (hcfg ▸ hla) ?_ hallow tid)
    rw [hcfg, lookup_lineAddr h.configOk, hl]

/-- Looking a line up again where it is found. -/
theorem writeLooked_of_lookup {s : State} {p a w : Nat} {k : Cache} (hp : s.caches[p]? = some k)
    (hl : lookup s.cfg k a = some w) (f : Cache → Nat → CacheSlot → Cache) :
    writeLooked p a f s = s.putCache p (f k w (slotOf k (setIndex s.cfg a) w)) := by
  simp [writeLooked, State.cacheAt_eq hp, hl]

/-- The newest words of every line after word `a` has been written. -/
def WritesLine (a : Nat) (v : Word) (s s' : State) : Prop :=
  ∀ la, la % s.cfg.lineSize = 0 → newestLine s' la =
    if la = lineAddr s.cfg a then (newestLine s la).set (wordIndex s.cfg a) v else newestLine s la

/-- Writing a word of a line found in the cache, after a request that kept the newest words. -/
theorem writesLine_writeLooked {s s1 : State} (hlines : SameLines s s1) (hcfg : s1.cfg = s.cfg) (h1 : Coherent s1)
    (hc : s.cfg.coherence = true) {p a w : Nat} {v : Word} {k : Cache} (hp : s1.caches[p]? = some k)
    (hl : lookup s.cfg k a = some w) {f : Cache → Nat → CacheSlot → Cache} (h' : Coherent (writeLooked p a f s1))
    {x : CacheSlot}
    (hsets : (f k w (slotOf k (setIndex s.cfg a) w)).sets = (putSlot k (setIndex s.cfg a) w x).sets)
    (hxa : x.addr = (slotOf k (setIndex s.cfg a) w).addr) (hxm : x.state = .modified)
    (hxd : x.data = (slotOf k (setIndex s.cfg a) w).data.set (wordIndex s.cfg a) v) :
    WritesLine a v s (writeLooked p a f s1) := by
  intro la hla
  rw [← hcfg] at hl hc hsets hxa hxd
  rw [writeLooked_of_lookup hp hl] at h' ⊢
  rw [newestLine_writeSlot h1 hp hsets h' hc rfl hl hxa hxm hxd, hlines la hla, hcfg]

/-- `DataWrite` with coherence writes its word. -/
theorem coherentWrite_newest {s : State} (h : Coherent s) (hc : s.cfg.coherence = true) {p : Nat}
    (hp : p < s.caches.length) (tid : Option Nat) {a : Nat} (ha : a < s.cfg.memSize) (v : Word) :
    WritesLine a v s (coherentWrite p tid a v s) := by
  have hk := List.getElem?_eq_getElem hp
  have hok := h.configOk
  have hla := lineAddr_inRange hok ha
  have hfin := coherentWrite_coherent h hc hp tid ha v
  simp only [coherentWrite, State.cacheAt_eq hk] at hfin ⊢
  rcases cacheWrite_cases s.cfg s.caches[p] a v with ⟨hl, e⟩ | ⟨w, hl, ⟨hs, e⟩ | ⟨hs, e⟩⟩
  · rw [e] at hfin ⊢
    obtain ⟨hr, hkeep⟩ := submit_readExclusive_newest h hc hla.aligned (h.noHolder hk hl) tid
    obtain ⟨d, hr', hd, hcoh, hallow⟩ := submit_readExclusive_coherent h hc hla.aligned p tid
    have hcfg := (submit_step .readExclusive (lineAddr s.cfg a) p tid none s).cfg
    obtain rfl : newestLine s (lineAddr s.cfg a) = d := by simpa using hr.symm.trans hr'
    simp only [hr, lineOf] at hfin ⊢
    rw [← hkeep.lines _ hla.aligned] at hallow hfin ⊢
    have hl1 : lookup (submit .readExclusive (lineAddr s.cfg a) p tid none s).2.cfg s.caches[p] (lineAddr s.cfg a) =
        none := by rw [hcfg, lookup_lineAddr hok, hl]
    have hk1 := hkeep.own.trans hk
    have hsame := install_sameLines hcoh (hcfg ▸ hc) hk1 (hcfg ▸ hla) hl1 hallow tid
    obtain ⟨k', w, hk', hw, hst⟩ := install_lookup hcoh hk1 (hcfg ▸ hla) hl1 hallow tid (by simp)
    have hcfg2 := (install_step p (lineAddr s.cfg a)
      (newestLine (submit .readExclusive (lineAddr s.cfg a) p tid none s).2 (lineAddr s.cfg a)) .modified tid
      (submit .readExclusive (lineAddr s.cfg a) p tid none s).2).cfg.trans hcfg
    rw [hcfg, lookup_lineAddr hok] at hw
    rw [hcfg, setIndex_lineAddr hok] at hst
    have hcoh2 := install_coherent hcoh hk1 (hcfg ▸ hla) (newestLine_length hcoh _) hallow tid
    exact writesLine_writeLooked (hkeep.lines.trans hcfg hsame) hcfg2 hcoh2 hc hk' hw hfin rfl rfl hst rfl
  · rw [e] at hfin ⊢
    obtain ⟨hm, -, hadr, -⟩ := lookup_slot hok (h.cacheOk hk) hl
    have hno := h.no_modified_of_shared hk hm hs
    rw [hadr] at hno
    have hkeep := submit_invalidate_newest h hla.aligned hno p tid
    have hcoh := (submit_invalidate_coherent h hla.aligned hno p tid).1
    have hcfg := (submit_step .invalidate (lineAddr s.cfg a) p tid none s).cfg
    exact writesLine_writeLooked hkeep.lines hcfg hcoh hc (hkeep.own.trans hk) hl hfin
      (x := { writtenSlot s.cfg a v (slotOf s.caches[p] (setIndex s.cfg a) w) with
        lastUse := s.caches[p].useCtr + 1 }) rfl rfl rfl rfl
  · rw [e] at hfin ⊢
    exact fun la _ => newestLine_writeSlot h hk (k' := putTouched s.caches[p] (setIndex s.cfg a) w
      (writtenSlot s.cfg a v (slotOf s.caches[p] (setIndex s.cfg a) w)))
      (x := { writtenSlot s.cfg a v (slotOf s.caches[p] (setIndex s.cfg a) w) with
        lastUse := s.caches[p].useCtr + 1 }) rfl hfin hc rfl hl rfl rfl rfl la

/-! ### Words -/

/-- `DataRead` answers the newest value of its word and changes that of none (47_bus_ops.md R328, R330). -/
theorem dataRead_newest {s : State} (h : Coherent s) {p : Nat} (hp : p < s.caches.length) (tid : Option Nat)
    {a : Word} (ha : Accessible s a) : (dataRead p tid a.toNat s).1 = coherentWord s a.toNat ∧
      ∀ b, b % 4 = 0 → coherentWord (dataRead p tid a.toNat s).2 b = coherentWord s b := by
  have hcfg := (dataRead_step p tid a.toNat s).cfg
  cases hc : s.cfg.coherence with
  | false => simp [dataRead, hc, coherentWord_flat]
  | true =>
    obtain ⟨hval, hlines⟩ := coherentRead_newest h hc hp tid (a := a.toNat) (by have := ha.2; omega)
    have hok := h.configOk
    have e : dataRead p tid a.toNat s = coherentRead p tid a.toNat s := by simp [dataRead, hc]
    rw [e] at hcfg ⊢
    refine ⟨hval.trans (coherentWord_eq_newestLine hok hc ha.1).symm, fun b hb => ?_⟩
    rw [coherentWord_eq_newestLine hok hc hb, coherentWord_eq_newestLine (hcfg ▸ hok) (hcfg ▸ hc) hb, hcfg,
      hlines _ (lineAddr_mod _ _)]

/-- Word b of the newest words after word a of its line has been written. -/
theorem getD_set_wordIndex {c : Config} (hok : c.ok = true) {d : List Word} (hd : d.length = c.lineWords) {a b : Nat}
    (ha : a % 4 = 0) (hb : b % 4 = 0) (hab : lineAddr c b = lineAddr c a) (v : Word) :
    (d.set (wordIndex c a) v).getD (wordIndex c b) 0 = if b = a then v else d.getD (wordIndex c b) 0 := by
  have hwa := lineAddr_add_wordIndex hok ha
  have hwb := lineAddr_add_wordIndex hok hb
  have hlt := wordIndex_lt hok a
  simp only [List.getD_eq_getElem?_getD, List.getElem?_set]
  split
  · rename_i e
    rw [if_pos (by omega), if_pos (by omega), Option.getD_some]
  · rw [if_neg]
    rintro rfl
    contradiction

/-- `DataWrite` gives its word the value written as its newest, and changes that of no other (R328, R331). -/
theorem dataWrite_newest {s : State} (h : Coherent s) {p : Nat} (hp : p < s.caches.length) (tid : Option Nat)
    {a : Word} (ha : Accessible s a) (v : Word) {b : Nat} (hb : b % 4 = 0) :
    coherentWord (dataWrite p tid a.toNat v s) b = if b = a.toNat then v else coherentWord s b := by
  have hcfg := (dataWrite_step p tid a.toNat v s).cfg
  have hok := h.configOk
  cases hc : s.cfg.coherence with
  | false =>
    rw [coherentWord_flat (hcfg ▸ hc), coherentWord_flat hc]
    simp only [dataWrite, hc, Bool.false_eq_true, if_false]
    split
    · subst_vars
      exact memReadWord_memWriteWord_same _ v h.memWf
    · exact memReadWord_memWriteWord_other _ b v h.memWf (by have := ha.1; omega)
  | true =>
    have hlines := coherentWrite_newest h hc hp tid (a := a.toNat) (by have := ha.2; omega) v
    have e : dataWrite p tid a.toNat v s = coherentWrite p tid a.toNat v s := by simp [dataWrite, hc]
    rw [e] at hcfg ⊢
    rw [coherentWord_eq_newestLine hok hc hb, coherentWord_eq_newestLine (hcfg ▸ hok) (hcfg ▸ hc) hb, hcfg,
      hlines _ (lineAddr_mod _ _)]
    split
    · rename_i hab
      exact getD_set_wordIndex hok (newestLine_length h _) ha.1 hb hab v
    · rename_i hab
      rw [if_neg]
      rintro rfl
      exact hab rfl

end Sys2Proof.Machine
end

section
/-! SUPPORT. The machine without caches makes the same steps (20_memory.md R92, 10_state.md R44): the operations that make no
access do not see the memory system, an access sees the newest value in both machines, and so do effects, calls, turns
and steps. -/

namespace Sys2Proof.Machine

/-! ### Operations that do not see the memory system -/

/-- s with the memory system of g, without coherence. -/
def flatOf (g s : State) : State :=
  { s with cfg := { s.cfg with coherence := false }, caches := g.caches, mem := g.mem, bus := g.bus, out := g.out }

/-- A flat view is its machine but for the memory system. -/
theorem FlatViewOf.eq_flatOf {s f : State} (h : FlatViewOf s f) : f = flatOf f s := by
  obtain ⟨cfg, programs, procs, threads, ready, locks, barriers, clock, switches, counter, vm, faults, pending, cur,
    -⟩ := h
  cases f
  cases s
  simp only at cfg programs procs threads ready locks barriers clock switches counter vm faults pending cur
  subst_vars
  rfl

/-- The operation neither reads nor writes the memory system. -/
def IgnoresMemory (op : State → State) : Prop := ∀ g s, op (flatOf g s) = flatOf g (op s)

theorem unblockAll_ignoresMemory (us : List Nat) : IgnoresMemory (unblockAll us) := by
  intro g s
  simp only [unblockAll_eq]
  rfl

theorem terminate_ignoresMemory (p t : Nat) : IgnoresMemory (terminate p t) := by
  intro g s
  simp only [terminate, unblockAll_eq]
  rfl

theorem takeFault_ignoresMemory (p t : Nat) (f : ThreadFault) : IgnoresMemory (takeFault p t f) :=
  fun g s => terminate_ignoresMemory p t g
    { s with faults := s.faults ++ [⟨s.clock, p, t, .thread f, (s.regsOf p).pc, faultInfo f (s.regsOf p).pc⟩] }

theorem vmFail_ignoresMemory (p t : Nat) (e : VmException) (info : Word) : IgnoresMemory (vmFail p t e info) :=
  fun g s => terminate_ignoresMemory p t g
    { s with
      faults := s.faults ++ [⟨s.clock, p, t, .vm e, (s.regsOf p).pc - 1, info⟩]
      pending := s.pending ++ [⟨s.clock, p, t, .vm e, (s.regsOf p).pc - 1, info⟩] }

theorem resolveLock_ignoresMemory (p t : Nat) (id : Word) : IgnoresMemory (resolveLock p t id) := by
  intro g s
  have hlocks : (flatOf g s).locks = s.locks := rfl
  simp only [resolveLock, hlocks]
  split <;> rfl

theorem resolveUnlock_ignoresMemory (p t : Nat) (id : Word) : IgnoresMemory (resolveUnlock p t id) := by
  intro g s
  have hlocks : (flatOf g s).locks = s.locks := rfl
  simp only [resolveUnlock, hlocks]
  split
  · exact vmFail_ignoresMemory p t _ id g s
  · rename_i l _
    split
    · exact unblockAll_ignoresMemory _ g { s with locks := putLock (releaseLock l).1 s.locks }
    · exact vmFail_ignoresMemory p t _ id g s

theorem resolveBarrier_ignoresMemory (p t : Nat) (id n : Word) : IgnoresMemory (resolveBarrier p t id n) := by
  intro g s
  have hbarriers : (flatOf g s).barriers = s.barriers := rfl
  simp only [resolveBarrier, hbarriers]
  split
  · exact unblockAll_ignoresMemory _ g { s with barriers := putBarrier (trippedBarrier _) s.barriers }
  · rfl

theorem resolveJoin_ignoresMemory (p t : Nat) (j : Word) : IgnoresMemory (resolveJoin p t j) := by
  intro g s
  have hthreads : (flatOf g s).threads = s.threads := rfl
  simp only [resolveJoin, hthreads]
  split
  · exact vmFail_ignoresMemory p t _ j g s
  · split <;> rfl

theorem scheduleOn_ignoresMemory (p : Nat) : IgnoresMemory fun s => scheduleOn s p := by
  intro g s
  have hprocs : (flatOf g s).procs = s.procs := rfl
  have hready : (flatOf g s).ready = s.ready := rfl
  simp only [scheduleOn, hprocs, hready]
  split
  · rfl
  split
  swap
  · rfl
  split
  · rfl
  rename_i t ts _
  have hthreads : (flatOf g s).threads = s.threads := rfl
  simp only [switchIn, hthreads]
  split <;> rfl

/-! ### The two machines side by side -/

/-- The machine with caches is coherent and f is the machine without, its memory in canonical form. -/
structure Mirrors (s f : State) : Prop where
  coherent : Coherent s
  wf       : f.mem.wf = true
  view     : FlatViewOf s f

section
variable {s f s' f' : State}

/-- Where neither memory system changes, the views stay in step. -/
theorem FlatViewOf.of_sameMemory (h : FlatViewOf s f) (hf : f' = flatOf f s') (hcfg : s'.cfg = s.cfg)
    (hm : SameMemory s s') : FlatViewOf s' f' := by
  subst hf
  refine ⟨rfl, rfl, rfl, rfl, rfl, rfl, rfl, rfl, rfl, rfl, rfl, rfl, rfl, rfl, fun a h4 ha => ?_⟩
  rw [coherentWord_congr hcfg hm.mem hm.caches]
  exact h.memory a h4 (hcfg ▸ ha)

/-- An operation that does not see the memory system keeps the machines in step. -/
theorem Mirrors.op (h : Mirrors s f) {op : State → State} (ho : IgnoresMemory op) (hcfg : (op s).cfg = s.cfg)
    (hm : SameMemory s (op s)) (hl : (op s).procs.length = s.procs.length) : Mirrors (op s) (op f) := by
  have hf : op f = flatOf f (op s) := (congrArg op h.view.eq_flatOf).trans (ho f s)
  refine ⟨h.coherent.congr hcfg hm.mem hm.caches hl, ?_, h.view.of_sameMemory hf hcfg hm⟩
  rw [hf]
  exact h.wf

/-- The same for an operation of a call. -/
theorem Mirrors.callOp (h : Mirrors s f) {op : State → State} (ho : IgnoresMemory op) {p : Nat}
    (hc : CallStep p s (op s)) (hm : SameMemory s (op s)) : Mirrors (op s) (op f) :=
  h.op ho hc.cfg hm hc.length

theorem Mirrors.modProc (h : Mirrors s f) (p : Nat) (g : Proc → Proc) : Mirrors (s.modProc p g) (f.modProc p g) :=
  h.callOp (op := fun s => s.modProc p g) (fun _ _ => rfl) (modProc_call p g s) ⟨rfl, rfl⟩

theorem Mirrors.takeFault (h : Mirrors s f) (p t : Nat) (e : ThreadFault) :
    Mirrors (takeFault p t e s) (takeFault p t e f) :=
  h.callOp (takeFault_ignoresMemory p t e) (takeFault_call p t e s) (takeFault_sameMemory p t e s)

/-! ### Accesses -/

/-- Where only the memory systems change, the views stay in step if main memory of the one holds the newest values of the
other. -/
theorem FlatViewOf.of_memoryOnly (h : FlatViewOf s f) (hs : MemoryOnly s s') (hf : MemoryOnly f f')
    (hw : ∀ a, a % 4 = 0 → a + 4 ≤ s.cfg.memSize → memReadWord f'.mem a = coherentWord s' a) : FlatViewOf s' f' := by
  revert hw
  rw [hs, hf]
  exact fun hw => ⟨h.cfg, h.programs, h.procs, h.threads, h.ready, h.locks, h.barriers, h.clock, h.switches, h.counter,
    h.vm, h.faults, h.pending, h.cur, hw⟩

theorem FlatViewOf.coherence (h : FlatViewOf s f) : f.cfg.coherence = false := by rw [h.cfg]

theorem FlatViewOf.nproc (h : FlatViewOf s f) : f.cfg.nproc = s.cfg.nproc := by rw [h.cfg]

theorem FlatViewOf.threadOn (h : FlatViewOf s f) (p : Nat) : f.threadOn p = s.threadOn p := by
  rw [h.eq_flatOf]
  rfl

/-- A read gives the same word in both machines and keeps them in step. -/
theorem Mirrors.dataRead (h : Mirrors s f) {p : Nat} (hp : p < s.caches.length) (tid : Option Nat) {a : Word}
    (ha : Accessible s a) : (dataRead p tid a.toNat f).1 = (dataRead p tid a.toNat s).1 ∧
      Mirrors (dataRead p tid a.toNat s).2 (dataRead p tid a.toNat f).2 := by
  obtain ⟨hval, hwords⟩ := dataRead_newest h.coherent hp tid ha
  have hflat : Machine.dataRead p tid a.toNat f = (memReadWord f.mem a.toNat, f) := by
    simp [Machine.dataRead, h.view.coherence]
  rw [hflat]
  refine ⟨(h.view.memory _ ha.1 ha.2).trans hval.symm, dataRead_coherent h.coherent hp tid ha, h.wf, ?_⟩
  refine h.view.of_memoryOnly (dataRead_step p tid a.toNat s).only (.refl f) fun b h4 hb => ?_
  rw [hwords b h4]
  exact h.view.memory b h4 hb

/-- A write keeps the machines in step. -/
theorem Mirrors.dataWrite (h : Mirrors s f) {p : Nat} (hp : p < s.caches.length) (tid : Option Nat) {a : Word}
    (ha : Accessible s a) (v : Word) : Mirrors (dataWrite p tid a.toNat v s) (dataWrite p tid a.toNat v f) := by
  have hstep := dataWrite_step p tid a.toNat v f
  refine ⟨dataWrite_coherent h.coherent hp tid ha v, hstep.wf h.wf, ?_⟩
  refine h.view.of_memoryOnly (dataWrite_step p tid a.toNat v s).only hstep.only fun b h4 hb => ?_
  have hflat : (Machine.dataWrite p tid a.toNat v f).mem = memWriteWord f.mem a.toNat v := by
    simp [Machine.dataWrite, h.view.coherence]
  rw [hflat, dataWrite_newest h.coherent hp tid ha v h4]
  split
  · subst_vars
    exact memReadWord_memWriteWord_same _ v h.wf
  · rw [memReadWord_memWriteWord_other _ b v h.wf (by have := ha.1; omega)]
    exact h.view.memory b h4 hb

/-! ### Effects -/

theorem Mirrors.resolveCas (h : Mirrors s f) {p : Nat} (hp : p < s.caches.length) {a : Word} (ha : Accessible s a)
    (e n : Word) (r : Reg) : Mirrors (resolveCas p a e n r s) (resolveCas p a e n r f) := by
  obtain ⟨hval, hread⟩ := h.dataRead hp (s.threadOn p) ha
  have hstep := dataRead_step p (s.threadOn p) a.toNat s
  simp only [Machine.resolveCas, h.view.threadOn, hval]
  split
  · exact (hread.dataWrite (by rwa [hstep.caches]) _ (by unfold Accessible; rwa [hstep.cfg]) n).modProc p _
  · exact hread.modProc p _

/-- The resolution of an effect on an address in range keeps the machines in step. -/
theorem Mirrors.resolve (h : Mirrors s f) {p : Nat} (hp : p < s.caches.length) (t : Nat) {e : Effect}
    (he : EffectInRange s.cfg.memSize e) : Mirrors (resolve p t e s) (resolve p t e f) := by
  have blind : IgnoresMemory (Machine.resolve p t e) → SameMemory s (Machine.resolve p t e s) →
      Mirrors (Machine.resolve p t e s) (Machine.resolve p t e f) :=
    fun ho => h.callOp ho (resolve_call p t e s)
  cases e with
  | registersModified rs => exact h
  | memoryRead a d =>
    obtain ⟨hval, hread⟩ := h.dataRead hp (s.threadOn p) he
    cases d with
    | reg r =>
      simp only [Machine.resolve, resolveReadReg, h.view.threadOn, hval]
      exact hread.modProc p _
    | pc =>
      have hplen : f.plen t = s.plen t := by
        rw [h.view.eq_flatOf]
        rfl
      simp only [Machine.resolve, resolveReadPc, h.view.threadOn, hval, hplen]
      exact hread.modProc p _
  | memoryWrite a v =>
    simp only [Machine.resolve, h.view.threadOn]
    exact h.dataWrite hp _ he v
  | ret => exact h
  | syncLock id => exact blind (resolveLock_ignoresMemory p t id) (resolveLock_sameMemory p t id s)
  | syncUnlock id => exact blind (resolveUnlock_ignoresMemory p t id) (resolveUnlock_sameMemory p t id s)
  | fence => exact h
  | cas a x n r => exact h.resolveCas hp he x n r
  | barrier id n => exact blind (resolveBarrier_ignoresMemory p t id n) (resolveBarrier_sameMemory p t id n s)
  | halt => exact blind (terminate_ignoresMemory p t) (SameMemory.terminate ⟨rfl, rfl⟩ p t)
  | yield => exact blind (fun _ _ => rfl) ⟨rfl, rfl⟩
  | syscall n => exact h
  | spawn f a r => exact blind (fun _ _ => rfl) ⟨rfl, rfl⟩
  | join j => exact blind (resolveJoin_ignoresMemory p t j) (resolveJoin_sameMemory p t j s)

end

/-! ### Calls and turns -/

/-- Whatever next state the one machine gives, the other gives one in step with it. -/
def Follows (o o' : Host.Outcome State Fault Refusal) : Prop :=
  ∀ s', o = .next s' → ∃ f', o' = .next f' ∧ Mirrors s' f'

section
variable {s f : State}

theorem Mirrors.follows (h : Mirrors s f) : Follows (.next s) (.next f) := by
  rintro s' ⟨⟩
  exact ⟨f, rfl, h⟩

theorem Follows.andThen {o o' : Host.Outcome State Fault Refusal} {g g' : State → Host.Outcome State Fault Refusal}
    (h : Follows o o') (hg : ∀ s f, Mirrors s f → Follows (g s) (g' f)) : Follows (andThen o g) (andThen o' g') := by
  intro s' e
  obtain ⟨s1, e1, e2⟩ := andThen_next e
  obtain ⟨f1, rfl, h1⟩ := h s1 e1
  exact hg s1 f1 h1 s' e2

theorem Mirrors.withCur (h : Mirrors s f) (p : Nat) : Mirrors { s with cur := p } { f with cur := p } :=
  h.op (op := fun s => { s with cur := p }) (fun _ _ => rfl) rfl ⟨rfl, rfl⟩ rfl

theorem Mirrors.putProc (h : Mirrors s f) (p : Nat) (P : Proc) : Mirrors (s.putProc p P) (f.putProc p P) :=
  h.callOp (op := fun s => s.putProc p P) (fun _ _ => rfl) (putProc_call p P s) ⟨rfl, rfl⟩

theorem Mirrors.called (h : Mirrors s f) (t : Nat) (Q : Proc) : Mirrors (called s t Q) (called f t Q) :=
  h.op (op := fun s => Machine.called s t Q) (fun _ _ => rfl) rfl ⟨rfl, rfl⟩ (by simp)

/-- Dispatch of a rule whose effects come to one on an address in range. -/
theorem Mirrors.dispatchOn (h : Mirrors s f) {hd : Hdr} {rule : CallEnv → Proc → Dispatch} {P : Proc} {t : Nat}
    (hp : s.procs[s.cur]? = some P)
    (hrule : ∀ Q next es, rule (callEnv s t) (accept hd P) = .done Q next es → ∃ e, EffectInRange s.cfg.memSize e ∧
      ∀ p t s, resolveAll p t es s = Machine.resolve p t e s) :
    Mirrors (dispatchOn hd rule P t s) (dispatchOn hd rule P t f) := by
  have henv : callEnv f t = callEnv s t := by
    rw [h.view.eq_flatOf]
    rfl
  cases hr : rule (callEnv s t) (accept hd P) with
  | raise e =>
    rw [dispatchOn_raise hr, dispatchOn_raise (henv ▸ hr), h.view.cur]
    exact (h.called t _).takeFault _ t e
  | done Q next es =>
    obtain ⟨e, he, hall⟩ := hrule Q next es hr
    rw [dispatchOn_done hr, dispatchOn_done (henv ▸ hr), h.view.cur, hall, hall]
    exact (h.called t _).resolve (h.coherent.cache_lt hp) t he

/-- An accepting call of a rule whose effects come to one on an address in range. -/
theorem Mirrors.issue (h : Mirrors s f) {hd : Hdr} {rule : CallEnv → Proc → Dispatch}
    (hrule : ∀ P t Q next es, rule (callEnv s t) (accept hd P) = .done Q next es →
      ∃ e, EffectInRange s.cfg.memSize e ∧ ∀ p t s, resolveAll p t es s = Machine.resolve p t e s) :
    Follows (issue hd rule s) (issue hd rule f) := by
  intro s' e
  obtain ⟨P, t, T, hr, hlat, hs'⟩ := issue_next e
  have hrun : Running f P t T :=
    ⟨by rw [h.view.procs, h.view.cur, hr.proc], hr.thread, by rw [h.view.threads, hr.record]⟩
  obtain ⟨hb, rfl⟩ | ⟨hb, rfl⟩ := hs'
  · refine ⟨_, issue_blocked rule hrun hlat hb, ?_⟩
    rw [h.view.cur]
    exact (h.putProc _ _).takeFault _ t _
  · have hmay : MayRun hd P := ⟨by omega, fun h1 h2 => by_contra fun h3 => hb ⟨h1, h2, h3⟩⟩
    exact ⟨_, issue_accepted rule hrun hmay, h.dispatchOn hr.proc (hrule P t)⟩

theorem Mirrors.exec (h : Mirrors s f) (i : Instr) : Follows (exec i s) (exec i f) := by
  rw [exec_eq_issue, exec_eq_issue]
  refine h.issue fun P t Q next es hd => ?_
  obtain ⟨e, he, -, hall⟩ := (ruleOf_frame i hd).effect
  exact ⟨e, he, hall⟩

theorem Mirrors.issueInvalid (h : Mirrors s f) (hd : Hdr) (why : DecodeFault) :
    Follows (issueInvalid hd why s) (issueInvalid hd why f) :=
  h.issue fun _ _ _ _ _ e => by cases e

/-- A RUNNING processor's call: a stall cycle, or fetch and an accepting call. -/
theorem Mirrors.cycle (h : Mirrors s f) (P : Proc) : Follows (cycle P s) (cycle P f) := by
  have hfetch : ∀ t pc, progFetch f t pc = progFetch s t pc := by
    rw [h.view.eq_flatOf]
    exact fun _ _ => rfl
  simp only [Machine.cycle, h.view.cur, h.view.threads, hfetch]
  split
  · exact (h.putProc _ _).follows
  split
  · exact fun _ e => by cases e
  rename_i t _
  split
  · exact fun _ e => by cases e
  split
  · exact ((h.putProc _ _).takeFault _ t _).follows
  simp only [runWord]
  split
  · exact h.exec _
  · exact h.issueInvalid _ _

/-- A turn keeps the machines in step. -/
theorem Mirrors.turn (h : Mirrors s f) (p : Nat) : Follows (turn p s) (turn p f) := by
  have hproc : f.procs[p]? = s.procs[p]? := by rw [h.view.procs]
  simp only [Machine.turn, hproc]
  split
  · exact h.follows
  split
  · exact (h.withCur p).cycle _
  · exact h.follows

theorem Mirrors.turns (ps : List Nat) : ∀ {s f : State}, Mirrors s f → Follows (turns ps s) (turns ps f) := by
  induction ps with
  | nil => exact fun h => h.follows
  | cons p ps ih => exact fun h => (h.turn p).andThen fun _ _ h' => ih h'

/-! ### Steps -/

theorem Mirrors.scheduleOn (h : Mirrors s f) (p : Nat) : Mirrors (scheduleOn s p) (scheduleOn f p) :=
  h.op (scheduleOn_ignoresMemory p) (scheduleOn_cfg s p) (scheduleOn_sameMemory p s) (scheduleOn_length s p)

theorem Mirrors.beginStep (h : Mirrors s f) : Mirrors (beginStep s) (beginStep f) := by
  have hstart := h.op (op := fun s => { s with vm := if s.vm = .idle then .running else s.vm, clock := s.clock + 1 })
    (fun _ _ => rfl) rfl ⟨rfl, rfl⟩ rfl
  simp only [Machine.beginStep, scheduleThreads, h.view.nproc]
  exact List.foldl_rel (r := Mirrors) hstart fun p _ _ _ h' => h'.scheduleOn p

/-- The end of a step depends on nothing of the memory system. -/
theorem FlatViewOf.endOfStep (h : FlatViewOf s f) : endOfStep f = endOfStep s := by
  rw [h.eq_flatOf]
  rfl

/-- The end of a step keeps the views in step and raises and returns the same. -/
theorem Mirrors.finishStep (h : Mirrors s f) : FlatViewOf (finishStep s) (finishStep f) ∧
    (finishStep f).out.raised = (finishStep s).out.raised ∧
    (finishStep f).out.stillRunning = (finishStep s).out.stillRunning := by
  simp only [Machine.finishStep, h.view.endOfStep, and_self, and_true]
  exact ⟨h.view.cfg, h.view.programs, h.view.procs, h.view.threads, h.view.ready, h.view.locks, h.view.barriers,
    h.view.clock, h.view.switches, h.view.counter, rfl, h.view.faults, h.view.pending, rfl, h.view.memory⟩

end

/-- Settles O60: the machines stay in step at the begin of the step, at every turn and at its end. -/
theorem cachesAreInvisible : Obligations.CachesAreInvisible := by
  intro s f s' hs hwf hview e
  have h : Mirrors s f := ⟨hs, hwf, hview⟩
  obtain ⟨hvm, rfl⟩ | ⟨hvm, s1, e1, rfl⟩ := step_next e
  · refine ⟨{ f with out := { raised := none, stillRunning := false, ticked := [] } }, ?_, ?_, hwf, rfl, rfl⟩
    · rw [step, driverStep, if_pos (hview.vm.trans hvm)]
    · exact ⟨hview.cfg, hview.programs, hview.procs, hview.threads, hview.ready, hview.locks, hview.barriers,
        hview.clock, hview.switches, hview.counter, hview.vm, hview.faults, hview.pending, hview.cur, hview.memory⟩
  · obtain ⟨f1, ef, h1⟩ := Mirrors.turns _ h.beginStep s1 e1
    obtain ⟨hv, hraised, hrunning⟩ := h1.finishStep
    refine ⟨finishStep f1, ?_, hv, h1.wf, hraised, hrunning⟩
    rw [step, driverStep, if_neg (hview.vm ▸ hvm), hview.nproc, ef]
    rfl

end Sys2Proof.Machine
end

section
/-! SUPPORT. Words as control fields and operand slots (30_encoding.md R122), the operand slots as one family. -/

namespace Sys2Proof

open Machine

/-! ### The slots of a word -/

/-- Operand slot j of a word's fields (30_encoding.md R122). -/
def RawWord.slot (r : RawWord) : Nat → RawOperand
  | 0 => ⟨r.k0, r.v0⟩
  | 1 => ⟨r.k1, r.v1⟩
  | 2 => ⟨r.k2, r.v2⟩
  | _ => ⟨r.k3, r.v3⟩

/-- `build` on a family of operand slots. -/
def buildAt (op : Op) (h : Hdr) (o : Nat → RawOperand) : Option Instr := build op h (o 0) (o 1) (o 2) (o 3)

theorem build_slots (op : Op) (h : Hdr) (r : RawWord) :
    build op h ⟨r.k0, r.v0⟩ ⟨r.k1, r.v1⟩ ⟨r.k2, r.v2⟩ ⟨r.k3, r.v3⟩ = buildAt op h r.slot := rfl

/-- The fields of the record of op and h with a family of operand slots. -/
def recordOf (op : Op) (h : Hdr) (o : Nat → RawOperand) : RawWord := rawOf op h (o 0) (o 1) (o 2) (o 3)

/-- The family o with the slots at or above the operand count of op cleared (30_encoding.md R124). -/
def usedSlots (op : Op) (o : Nat → RawOperand) (j : Nat) : RawOperand := if j < op.nops.toNat then o j else unusedSlot

section

variable (op : Op) (h : Hdr) (o0 o1 o2 o3 : RawOperand)

@[simp] theorem slot_rawOf_zero : (rawOf op h o0 o1 o2 o3).slot 0 = o0 := rfl
@[simp] theorem slot_rawOf_one : (rawOf op h o0 o1 o2 o3).slot 1 = o1 := rfl
@[simp] theorem slot_rawOf_two : (rawOf op h o0 o1 o2 o3).slot 2 = o2 := rfl
@[simp] theorem slot_rawOf_three : (rawOf op h o0 o1 o2 o3).slot 3 = o3 := rfl

end

theorem slot_recordOf (op : Op) (h : Hdr) (o : Nat → RawOperand) {j : Nat} (hj : j < 4) :
    (recordOf op h o).slot j = o j := by
  match j, hj with
  | 0, _ | 1, _ | 2, _ | 3, _ => rfl

@[simp] theorem unpack_encode (i : Instr) : unpack (encode i) = toRaw i := unpack_pack _

theorem slot_unpack (w : InstrWord) {j : Nat} (hj : j < 4) :
    (unpack w).slot j = ⟨w.extractLsb' (24 + 2 * j) 2, w.extractLsb' (32 + 32 * j) 32⟩ := by
  match j, hj with
  | 0, _ | 1, _ | 2, _ | 3, _ => rfl

theorem slotKind_eq (w : InstrWord) {j : Nat} (hj : j < 4) : slotKind w j = ((unpack w).slot j).kind.toNat := by
  rw [slot_unpack w hj, slotKind]

theorem slotValue_eq (w : InstrWord) {j : Nat} (hj : j < 4) : slotValue w j = ((unpack w).slot j).val := by
  rw [slot_unpack w hj, slotValue]

/-- A bit of a word is a bit of its control fields or of one of its operand slots. -/
theorem getLsbD_eq_field (w : InstrWord) {k : Nat} (hk : k < 160) :
    w.getLsbD k =
      if k < 24 then (w.extractLsb' 0 24).getLsbD k
      else if k < 32 then ((unpack w).slot ((k - 24) / 2)).kind.getLsbD ((k - 24) % 2)
      else ((unpack w).slot ((k - 32) / 32)).val.getLsbD ((k - 32) % 32) := by
  split
  · next hlow => simp [hlow]
  split
  · next hlow hkind =>
    have hbit : 24 + 2 * ((k - 24) / 2) + (k - 24) % 2 = k := by omega
    simp [slot_unpack w (show (k - 24) / 2 < 4 by omega), hbit, show (k - 24) % 2 ≤ 1 by omega]
  · next hlow hkind =>
    have hbit : 32 + 32 * ((k - 32) / 32) + (k - 32) % 32 = k := by omega
    simp [slot_unpack w (show (k - 32) / 32 < 4 by omega), hbit, Nat.mod_lt]

/-- The 24 control bits are the five control fields side by side. -/
theorem control_eq_append (w : InstrWord) :
    w.extractLsb' 0 24 =
      (unpack w).lat ++ ((unpack w).nops ++ ((unpack w).priv ++ ((unpack w).itype ++ (unpack w).opcode))) := by
  simp only [unpack, BitVec.extractLsb'_append_extractLsb'_eq_extractLsb']

/-- Words with the same 24 control bits have the same control fields. -/
theorem extract_of_control {w w' : InstrWord} (h : w.extractLsb' 0 24 = w'.extractLsb' 0 24) {start len : Nat}
    (hl : start + len ≤ 24) : w.extractLsb' start len = w'.extractLsb' start len := by
  ext i hi
  have hbit := congrArg (fun c : BitVec 24 => c.getLsbD (start + i)) h
  simpa [show start + i < 24 by omega] using hbit

end Sys2Proof
end

section
/-! SUPPORT. The kinds the table of 30_encoding.md R129 gives each operand position, and how `build` reads the slots of
each opcode. -/

namespace Sys2Proof

open Machine

/-! ### The kinds of the operands -/

/-- The kinds the table of 30_encoding.md R129 lists for each operand position of an opcode. -/
def Op.kinds : Op → List (List Nat)
  | .add | .sub | .mul | .div | .and | .or | .xor | .shl | .shr => [[0], [0, 1], [0, 1]]
  | .load => [[0], [2, 1]]
  | .store => [[0], [2]]
  | .push | .pop => [[0]]
  | .jmp | .jz | .jnz | .call => [[2]]
  | .lock | .unlock | .syscall | .join => [[0, 1]]
  | .cas => [[2], [0, 1], [0, 1], [0]]
  | .barrier => [[0, 1], [0, 1]]
  | .spawn => [[2], [2, 0, 1], [0]]
  | .ret | .fence | .halt | .yield | .nop => []

theorem kindTable_eq_map : kindTable = Op.all.map fun op => (op.code.toNat, op.kinds) := by decide

theorem Op.kinds_length (op : Op) : op.kinds.length = op.nops.toNat := by cases op <;> rfl

/-- The row of an opcode number in `kindTable` is the one of the opcode it stands for. -/
theorem kindTable_find (c : BitVec 8) :
    (kindTable.find? fun row => row.1 == c.toNat) = (opOf c).map fun op => (op.code.toNat, op.kinds) := by
  rw [kindTable_eq_map, List.find?_map, opOf]
  congr 2
  funext op
  rw [Bool.eq_iff_iff]
  simp [BitVec.toNat_inj]

/-- The slot has a kind of the list, and names a register if its kind is REG (30_encoding.md R131, test 4). -/
def RawOperand.accepted (kinds : List Nat) (o : RawOperand) : Bool :=
  kinds.contains o.kind.toNat && !(o.kind.toNat == 0 && decide (18 ≤ o.val.toNat))

theorem slotRefused_eq (w : InstrWord) (kinds : List Nat) {j : Nat} (hj : j < 4) :
    slotRefused w kinds j = !((unpack w).slot j).accepted kinds := by
  rw [slotRefused, slotKind_eq w hj, slotValue_eq w hj, RawOperand.accepted, Bool.not_and, Bool.not_not]

/-! ### Reading one slot -/

theorem regOf_eq_some {o : RawOperand} {r : Reg} (h : regOf o = some r) : regSlot r = o := by
  obtain ⟨k, v⟩ := o
  simp only [regOf] at h
  split at h
  · next hk =>
    split at h
    · cases h
      simp [regSlot, hk]
    · cases h
  · cases h

theorem immOf_eq_some {o : RawOperand} {v : Word} (h : immOf o = some v) : immSlot v = o := by
  obtain ⟨k, v'⟩ := o
  simp only [immOf] at h
  split at h
  · next hk => cases h; simp [immSlot, hk]
  · cases h

theorem addrOf_eq_some {o : RawOperand} {a : Word} (h : addrOf o = some a) : addrSlot a = o := by
  obtain ⟨k, v⟩ := o
  simp only [addrOf] at h
  split at h
  · next hk => cases h; simp [addrSlot, hk]
  · cases h

theorem srcOf_eq_some {o : RawOperand} {x : Src} (h : srcOf o = some x) : srcSlot x = o := by
  rw [srcOf] at h
  split at h
  · next hr => cases h; exact regOf_eq_some hr
  · obtain ⟨v, hv, rfl⟩ := Option.map_eq_some_iff.1 h
    exact immOf_eq_some hv

theorem loadSrcOf_eq_some {o : RawOperand} {x : LoadSrc} (h : loadSrcOf o = some x) : loadSrcSlot x = o := by
  rw [loadSrcOf] at h
  split at h
  · next ha => cases h; exact addrOf_eq_some ha
  · obtain ⟨v, hv, rfl⟩ := Option.map_eq_some_iff.1 h
    exact immOf_eq_some hv

theorem spawnArgOf_eq_some {o : RawOperand} {x : SpawnArg} (h : spawnArgOf o = some x) : spawnArgSlot x = o := by
  rw [spawnArgOf] at h
  split at h
  · next ha => cases h; exact addrOf_eq_some ha
  split at h
  · next hr => cases h; exact regOf_eq_some hr
  · obtain ⟨v, hv, rfl⟩ := Option.map_eq_some_iff.1 h
    exact immOf_eq_some hv

theorem accepted_append (ks ks' : List Nat) (o : RawOperand) :
    o.accepted (ks ++ ks') = (o.accepted ks || o.accepted ks') := by
  simp only [RawOperand.accepted, List.contains_append, Bool.and_or_distrib_right]

theorem isSome_regOf (o : RawOperand) : (regOf o).isSome = o.accepted [0] := by
  simp only [regOf, RawOperand.accepted, BitVec.toNat_eq]
  split
  · split <;> simp_all
  · simp_all

theorem isSome_immOf (o : RawOperand) : (immOf o).isSome = o.accepted [1] := by
  simp only [immOf, RawOperand.accepted, BitVec.toNat_eq]
  split <;> simp_all

theorem isSome_addrOf (o : RawOperand) : (addrOf o).isSome = o.accepted [2] := by
  simp only [addrOf, RawOperand.accepted, BitVec.toNat_eq]
  split <;> simp_all

theorem isSome_srcOf (o : RawOperand) : (srcOf o).isSome = o.accepted [0, 1] := by
  rw [show [0, 1] = [0] ++ [1] from rfl, accepted_append, ← isSome_regOf, ← isSome_immOf, srcOf]
  cases regOf o <;> simp

theorem isSome_loadSrcOf (o : RawOperand) : (loadSrcOf o).isSome = o.accepted [2, 1] := by
  rw [show [2, 1] = [2] ++ [1] from rfl, accepted_append, ← isSome_addrOf, ← isSome_immOf, loadSrcOf]
  cases addrOf o <;> simp

theorem isSome_spawnArgOf (o : RawOperand) : (spawnArgOf o).isSome = o.accepted [2, 0, 1] := by
  rw [show [2, 0, 1] = [2] ++ [0, 1] from rfl, accepted_append, ← isSome_addrOf, ← isSome_srcOf, spawnArgOf, srcOf]
  cases addrOf o <;> cases regOf o <;> simp

/-! ### Reading the slots of an opcode -/

/-- The encoder writes the record of an opcode whose slots `build` reads back as the instruction: each slot function is
undone by the reader of its kind. -/
theorem exists_buildAt_toRaw (i : Instr) :
    ∃ op, toRaw i = recordOf op i.hdr (toRaw i).slot ∧ buildAt op i.hdr (toRaw i).slot = some i := by
  cases i <;> exact ⟨_, rfl, by simp [buildAt, build, toRaw, Instr.hdr]⟩

/-- Slots at or above the operand count of the opcode are not read (30_encoding.md R124). -/
theorem buildAt_usedSlots (op : Op) (h : Hdr) (o : Nat → RawOperand) :
    buildAt op h (usedSlots op o) = buildAt op h o := by
  cases op <;> rfl

theorem any_const {α : Type} (x : Option α) (b : Bool) : x.any (fun _ => b) = (x.isSome && b) := by
  cases x <;> simp

/-- Test 4 of 30_encoding.md R131, slot by slot: `build` answers when every slot it reads is accepted. -/
theorem isSome_buildAt (op : Op) (h : Hdr) (o : Nat → RawOperand) :
    (buildAt op h o).isSome = (List.range op.nops.toNat).all fun j => (o j).accepted (op.kinds.getD j []) := by
  cases op <;>
    simp [buildAt, build, Op.nops, Op.kinds, List.range_succ, Option.isSome_bind, any_const, isSome_regOf,
      isSome_addrOf, isSome_srcOf, isSome_loadSrcOf, isSome_spawnArgOf]

/-- The encoder writes the slots `build` read the instruction from, those at or above its operand count cleared. -/
theorem toRaw_of_buildAt {op : Op} {h : Hdr} {o : Nat → RawOperand} {i : Instr} (hb : buildAt op h o = some i) :
    toRaw i = recordOf op h (usedSlots op o) := by
  cases op with
  | add | sub | mul | div | and | or | xor | shl | shr =>
    obtain ⟨rd, hrd, hb⟩ := Option.bind_eq_some_iff.1 hb
    obtain ⟨a, ha, hb⟩ := Option.bind_eq_some_iff.1 hb
    obtain ⟨b, hsrc, hi⟩ := Option.bind_eq_some_iff.1 hb
    cases hi
    rw [toRaw, regOf_eq_some hrd, srcOf_eq_some ha, srcOf_eq_some hsrc]
    rfl
  | load =>
    obtain ⟨rd, hrd, hb⟩ := Option.bind_eq_some_iff.1 hb
    obtain ⟨a, ha, hi⟩ := Option.bind_eq_some_iff.1 hb
    cases hi
    rw [toRaw, regOf_eq_some hrd, loadSrcOf_eq_some ha]
    rfl
  | store =>
    obtain ⟨rs, hrs, hb⟩ := Option.bind_eq_some_iff.1 hb
    obtain ⟨a, ha, hi⟩ := Option.bind_eq_some_iff.1 hb
    cases hi
    rw [toRaw, regOf_eq_some hrs, addrOf_eq_some ha]
    rfl
  | push | pop =>
    obtain ⟨r, hr, hi⟩ := Option.map_eq_some_iff.1 hb
    cases hi
    rw [toRaw, regOf_eq_some hr]
    rfl
  | jmp | jz | jnz | call =>
    obtain ⟨a, ha, hi⟩ := Option.map_eq_some_iff.1 hb
    cases hi
    rw [toRaw, addrOf_eq_some ha]
    rfl
  | ret | fence | halt | yield | nop =>
    cases hb
    rfl
  | lock | unlock | syscall | join =>
    obtain ⟨a, ha, hi⟩ := Option.map_eq_some_iff.1 hb
    cases hi
    rw [toRaw, srcOf_eq_some ha]
    rfl
  | cas =>
    obtain ⟨a, ha, hb⟩ := Option.bind_eq_some_iff.1 hb
    obtain ⟨e, he, hb⟩ := Option.bind_eq_some_iff.1 hb
    obtain ⟨n, hn, hb⟩ := Option.bind_eq_some_iff.1 hb
    obtain ⟨rd, hrd, hi⟩ := Option.bind_eq_some_iff.1 hb
    cases hi
    rw [toRaw, addrOf_eq_some ha, srcOf_eq_some he, srcOf_eq_some hn, regOf_eq_some hrd]
    rfl
  | barrier =>
    obtain ⟨b, hbar, hb⟩ := Option.bind_eq_some_iff.1 hb
    obtain ⟨n, hn, hi⟩ := Option.bind_eq_some_iff.1 hb
    cases hi
    rw [toRaw, srcOf_eq_some hbar, srcOf_eq_some hn]
    rfl
  | spawn =>
    obtain ⟨f, hf, hb⟩ := Option.bind_eq_some_iff.1 hb
    obtain ⟨a, ha, hb⟩ := Option.bind_eq_some_iff.1 hb
    obtain ⟨rd, hrd, hi⟩ := Option.bind_eq_some_iff.1 hb
    cases hi
    rw [toRaw, addrOf_eq_some hf, spawnArgOf_eq_some ha, regOf_eq_some hrd]
    rfl

end Sys2Proof
end

section
/-! SUPPORT. The decoder, field by field, and the statements about instruction words (30_encoding.md R124, R131,
R141). -/

namespace Sys2Proof

open Machine

theorem eq_code_of_opOf {c : BitVec 8} {op : Op} (h : opOf c = some op) : c = op.code :=
  (eq_of_beq (List.find?_some (p := fun o : Op => o.code == c) h)).symm

theorem nops_le (op : Op) : op.nops.toNat ≤ 4 := by cases op <;> decide

theorem itype_lt (op : Op) : op.itype.toNat < 6 := by cases op <;> decide

/-- A word is an instruction exactly when its control fields are those of an opcode whose operands `build` reads
(30_encoding.md R129, R131). -/
theorem decodeRaw_eq_ok_iff {r : RawWord} {i : Instr} :
    decodeRaw r = .ok i ↔ ∃ op, r.opcode = op.code ∧ r.itype = op.itype ∧ r.nops = op.nops ∧
      buildAt op (rawHdr r) r.slot = some i := by
  constructor
  · intro e
    rw [decodeRaw] at e
    split at e
    · cases e
    split at e
    · cases e
    next op hop =>
    split at e
    · cases e
    next htype =>
    split at e
    · cases e
    next hnops =>
    split at e
    · cases e
    next j hbuild =>
    cases e
    have hcode := eq_code_of_opOf hop
    rw [not_not, hcode, code_high] at htype
    exact ⟨op, hcode, BitVec.eq_of_toNat_eq htype.symm, not_not.1 hnops, hbuild⟩
  · rintro ⟨op, hcode, htype, hnops, hbuild⟩
    have hlt := itype_lt op
    simp only [decodeRaw, hcode, htype, hnops, opOf_code, code_high, build_slots, hbuild, if_neg (not_le.2 hlt), ne_eq,
      not_true_eq_false, if_false]

theorem rawHdr_recordOf {h : Hdr} (hw : h.wellFormed = true) (op : Op) (o : Nat → RawOperand) :
    rawHdr (recordOf op h o) = h := by
  obtain ⟨priv, lat⟩ := h
  simp only [Hdr.wellFormed, Bool.and_eq_true, decide_eq_true_eq] at hw
  have hlat : lat % 256 = lat := Nat.mod_eq_of_lt (by omega)
  cases priv <;> simp [rawHdr, recordOf, rawOf, hlat]

/-- Settles O1: the encoder writes an opcode's control fields and slots that `build` reads back. -/
theorem decodeOfEncode : Obligations.DecodeOfEncode := by
  intro i hw
  obtain ⟨op, hraw, hb⟩ := exists_buildAt_toRaw i
  rw [decode, unpack_encode, decodeRaw_eq_ok_iff]
  have hhdr : rawHdr (toRaw i) = i.hdr := by rw [hraw, rawHdr_recordOf hw]
  exact ⟨op, congrArg RawWord.opcode hraw, congrArg RawWord.itype hraw, congrArg RawWord.nops hraw, by rw [hhdr, hb]⟩

/-- The operand slots of an encoding are the decoded word's below its operand count, and cleared above. -/
theorem slot_toRaw_of_decodeRaw {r : RawWord} {i : Instr} (e : decodeRaw r = .ok i) {j : Nat} (hj : j < 4) :
    (toRaw i).slot j = if j < r.nops.toNat then r.slot j else unusedSlot := by
  obtain ⟨op, -, -, hnops, hbuild⟩ := decodeRaw_eq_ok_iff.1 e
  rw [toRaw_of_buildAt hbuild, slot_recordOf _ _ _ hj, hnops, usedSlots]

/-- The control bits of an encoding are the decoded word's. -/
theorem control_encode_of_decode {w : InstrWord} {i : Instr} (e : decode w = .ok i) :
    (encode i).extractLsb' 0 24 = w.extractLsb' 0 24 := by
  obtain ⟨op, hcode, htype, hnops, hbuild⟩ := decodeRaw_eq_ok_iff.1 e
  have hpriv : (if (rawHdr (unpack w)).priv then (1 : BitVec 1) else 0) = (unpack w).priv := by
    rw [rawHdr]
    rcases BitVec.eq_zero_or_eq_one (unpack w).priv with h | h <;> rw [h] <;> rfl
  have hlat : BitVec.ofNat 8 (rawHdr (unpack w)).lat = (unpack w).lat := BitVec.ofNat_toNat _ _
  rw [control_eq_append, control_eq_append w, unpack_encode, toRaw_of_buildAt hbuild, hcode, htype, hnops, ← hpriv,
    ← hlat]
  rfl

/-- Settles O2: control bits and slots below the operand count are the word's own, the other slots are cleared. -/
theorem encodeOfDecode : Obligations.EncodeOfDecode := by
  intro w i e k hk
  have hslot := @slot_toRaw_of_decodeRaw _ _ e
  rw [getLsbD_eq_field (encode i) hk, getLsbD_eq_field w hk, control_encode_of_decode e, unpack_encode]
  change _ = (_ && decide (_ ∨ _ < (unpack w).nops.toNat))
  split
  · next hlow => simp [hlow]
  split
  · next hlow hkind =>
    rw [hslot (show (k - 24) / 2 < 4 by omega)]
    split <;> simp [*, unusedSlot]
  · next hlow hkind =>
    rw [hslot (show (k - 32) / 32 < 4 by omega)]
    split <;> simp [*, unusedSlot]

/-- Test 4 of 30_encoding.md R131 as `decodeTest` reads it off the table fails exactly when `build` has no answer. -/
theorem any_slotRefused (w : InstrWord) (op : Op) (h : Hdr) :
    ((List.range op.nops.toNat).any fun j => slotRefused w (op.kinds.getD j []) j) =
      !(buildAt op h (unpack w).slot).isSome := by
  rw [isSome_buildAt, List.not_all_eq_any_not, Bool.eq_iff_iff, List.any_eq_true, List.any_eq_true]
  refine exists_congr fun j => and_congr_right fun hj => ?_
  rw [slotRefused_eq w _ (lt_of_lt_of_le (List.mem_range.1 hj) (nops_le op))]

theorem high_digit (c : BitVec 8) : (c.extractLsb' 4 4).toNat = c.toNat / 16 := by
  simp only [BitVec.extractLsb'_toNat, Nat.shiftRight_eq_div_pow]
  omega

/-- The validity test a decoder's answer names as failed. -/
def failedTest : Except DecodeFault Instr → Option DecodeFault
  | .error e => some e
  | .ok _ => none

/-- The decoder and `decodeTest` go through the tests of 30_encoding.md R131 in the same order; test 4 is
`any_slotRefused`. -/
theorem decodeTest_eq_failedTest (w : InstrWord) : decodeTest w = failedTest (decode w) := by
  have hcode : w.extractLsb' 0 8 = (unpack w).opcode := rfl
  have htype : w.extractLsb' 8 3 = (unpack w).itype := rfl
  have hnops : w.extractLsb' 12 4 = (unpack w).nops := rfl
  simp only [decodeTest, hcode, htype, hnops, ← high_digit, kindTable_find, decode, decodeRaw]
  split
  · rfl
  cases opOf (unpack w).opcode with
  | none => rfl
  | some op =>
    simp only [Option.map_some, op.kinds_length]
    split
    · rfl
    by_cases hn : (unpack w).nops = op.nops
    · rw [hn, any_slotRefused w op (rawHdr (unpack w)), if_neg (not_not.2 rfl), if_neg (not_not.2 rfl),
        build_slots]
      cases buildAt op (rawHdr (unpack w)) (unpack w).slot with
      | none => rfl
      | some i => rfl
    · rw [if_pos (mt BitVec.eq_of_toNat_eq hn), if_pos hn]
      rfl

/-- Settles O4: `decodeTest` names the test that the decoder's answer names. -/
theorem decodeTestsInOrder : Obligations.DecodeTestsInOrder := by
  intro w
  rw [decodeTest_eq_failedTest]
  cases decode w with
  | error e => rfl
  | ok i => exact ⟨i, rfl⟩

/-- The decoder reads the control fields and the operand slots below the operand count. -/
theorem decodeRaw_congr {r r' : RawWord} (hcode : r.opcode = r'.opcode) (htype : r.itype = r'.itype)
    (hpriv : r.priv = r'.priv) (hnops : r.nops = r'.nops) (hlat : r.lat = r'.lat)
    (hslots : ∀ j < 4, j < r.nops.toNat → r.slot j = r'.slot j) : decodeRaw r = decodeRaw r' := by
  have hbuild : ∀ op : Op, r.nops = op.nops →
      buildAt op (rawHdr r) r.slot = buildAt op (rawHdr r') r'.slot := by
    intro op hn
    rw [← buildAt_usedSlots, ← buildAt_usedSlots op _ r'.slot, rawHdr, rawHdr, hpriv, hlat]
    congr 1
    funext j
    simp only [usedSlots, ← hn]
    split
    · next hj => exact hslots j (lt_of_lt_of_le (hn ▸ hj) (nops_le op)) hj
    · rfl
  rw [decodeRaw, decodeRaw, ← hcode, ← htype, ← hnops]
  split
  · rfl
  split
  · rfl
  split
  · rfl
  split
  · rfl
  · next hn => rw [build_slots, build_slots, hbuild _ (not_not.1 hn)]

/-- Settles O3: the decoder reads no slot at or above `nops`, and the encoder clears them. -/
theorem unusedOperandSlotsAreIgnored : Obligations.UnusedOperandSlotsAreIgnored := by
  refine ⟨fun w w' hctl hslots => ?_, fun i j hj hnops => ?_⟩
  · refine decodeRaw_congr (extract_of_control hctl (by decide)) (extract_of_control hctl (by decide))
      (extract_of_control hctl (by decide)) (extract_of_control hctl (by decide)) (extract_of_control hctl (by decide))
      fun j hj hn => ?_
    obtain ⟨hkind, hval⟩ := hslots j hj hn
    rw [slot_unpack w hj, slot_unpack w' hj]
    exact congrArg₂ RawOperand.mk (BitVec.eq_of_toNat_eq hkind) hval
  · obtain ⟨op, hraw, hb⟩ := exists_buildAt_toRaw i
    have hop : (encode i).extractLsb' 12 4 = op.nops := by
      change (unpack (encode i)).nops = op.nops
      rw [unpack_encode]
      exact congrArg RawWord.nops hraw
    rw [hop] at hnops
    rw [slotKind_eq _ hj, slotValue_eq _ hj, unpack_encode, toRaw_of_buildAt hb, slot_recordOf _ _ _ hj, usedSlots,
      if_neg (not_lt.2 hnops)]
    exact ⟨rfl, rfl⟩

/-- Settles O5, by decoding the eight words. -/
theorem sampleWordsDecode : Obligations.SampleWordsDecode := by
  unfold Obligations.SampleWordsDecode
  decide

end Sys2Proof
end

section
/-! SUPPORT. The registers a thread starts with (49_environment.md R354): of the values given for one register the last
one stands. -/

namespace Sys2Proof.Machine

/-- The last value given for register q, or `old` when none is given. -/
def lastGiven (q : InitReg) (regs : List (InitReg × Word)) (old : Word) : Word :=
  ((regs.filter fun v => v.1 = q).getLast?.map fun v => v.2).getD old

@[simp] theorem lastGiven_nil (q : InitReg) (old : Word) : lastGiven q [] old = old := rfl

theorem lastGiven_cons (q : InitReg) (v : InitReg × Word) (regs : List (InitReg × Word)) (old : Word) :
    lastGiven q (v :: regs) old = lastGiven q regs (if v.1 = q then v.2 else old) := by
  by_cases hv : v.1 = q
  · simp only [lastGiven, List.filter_cons, hv, decide_true, if_true, List.getLast?_cons, Option.map_some,
      Option.getD_some]
    cases (regs.filter fun v => v.1 = q).getLast? <;> rfl
  · simp [lastGiven, hv]

/-- The value of the register a `create_thread` argument names. -/
def initRegOf (R : RegSet) : InitReg → Word
  | .x r => readReg R r
  | .flags => R.flags

theorem initRegOf_setInitReg (R : RegSet) (v : InitReg × Word) (q : InitReg) :
    initRegOf (setInitReg R v) q = if v.1 = q then v.2 else initRegOf R q := by
  obtain ⟨n, x⟩ := v
  cases n with
  | flags => cases q <;> simp [setInitReg, initRegOf, readReg]
  | x r =>
    cases q with
    | flags => simp [setInitReg, initRegOf]
    | x r' =>
      by_cases h : r = r'
      · subst h
        simp [setInitReg, initRegOf]
      · simp [setInitReg, initRegOf, h]

theorem initRegOf_foldl (q : InitReg) (regs : List (InitReg × Word)) :
    ∀ R : RegSet, initRegOf (regs.foldl setInitReg R) q = lastGiven q regs (initRegOf R q) := by
  induction regs with
  | nil => intro R; rfl
  | cons v regs ih => intro R; rw [List.foldl_cons, ih, lastGiven_cons, initRegOf_setInitReg]

theorem setInitReg_pc_priv (R : RegSet) (v : InitReg × Word) :
    (setInitReg R v).pc = R.pc ∧ (setInitReg R v).priv = R.priv := by
  obtain ⟨n, x⟩ := v
  cases n <;> exact ⟨rfl, rfl⟩

theorem foldl_setInitReg_pc_priv (regs : List (InitReg × Word)) :
    ∀ R : RegSet, (regs.foldl setInitReg R).pc = R.pc ∧ (regs.foldl setInitReg R).priv = R.priv := by
  induction regs with
  | nil => exact fun R => ⟨rfl, rfl⟩
  | cons v regs ih =>
    intro R
    obtain ⟨hpc, hpriv⟩ := setInitReg_pc_priv R v
    exact ⟨(ih _).1.trans hpc, (ih _).2.trans hpriv⟩

/-- The context a thread starts with before the registers given are written (49_environment.md R354). -/
def startContext (pc : Word) (priv : Privilege) : RegSet := { RegSet.reset with pc := pc, priv := priv }

theorem initRegOf_startContext (pc : Word) (priv : Privilege) (q : InitReg) :
    initRegOf (startContext pc priv) q = 0 := by
  cases q with
  | x r => simp [initRegOf, readReg, startContext, RegSet.reset]
  | flags => rfl

theorem hostCreateThread_of_program {prog : Nat} {s : State} {g : Program} (hg : s.programs[prog]? = some g)
    (entry : Option Word) (regs : List (InitReg × Word)) (parent priority : Option Nat) (priv : Option Privilege) :
    hostCreateThread prog entry regs parent priority priv s =
      .next (s.threadCounter, createThread prog
        (regs.foldl setInitReg (startContext (entry.getD g.entry) (priv.getD .user))) parent s) := by
  rw [hostCreateThread, hg]
  rfl

/-- A Program is refused for a record of latency 0 (30_encoding.md R132), and takes the next id without one. -/
theorem loadProgram_eq (g : Program) (s : State) :
    loadProgram g s =
      if ∃ w ∈ g.code, w.extractLsb' 16 8 = 0 then .refused .latencyZero
      else .next (s.programs.length, { s with programs := s.programs ++ [g] }) := by
  simp only [loadProgram, unpack, List.any_eq_true, beq_iff_eq]

/-- Settles O8: the test of every record at a load, and the context folded over the registers given. -/
theorem loadProgramAndCreateThread : Obligations.LoadProgramAndCreateThread := by
  refine ⟨fun g s => ⟨fun hzero => ?_, fun hnonzero => ?_⟩,
    fun prog entry regs parent priority priv s => ⟨fun hprog => ?_, fun g hg => ?_⟩⟩
  · rw [loadProgram_eq, if_pos hzero]
  · rw [loadProgram_eq, if_neg fun ⟨w, hw, h0⟩ => hnonzero w hw h0]
  · rw [hostCreateThread, List.getElem?_eq_none hprog]
  · have hregs : ∀ q, initRegOf (regs.foldl setInitReg (startContext (entry.getD g.entry) (priv.getD .user))) q =
        lastGiven q regs 0 := fun q => by rw [initRegOf_foldl, initRegOf_startContext]
    obtain ⟨hpc, hpriv⟩ := foldl_setInitReg_pc_priv regs (startContext (entry.getD g.entry) (priv.getD .user))
    refine ⟨newThread s prog _ parent, ?_, rfl, rfl, rfl, rfl, rfl, rfl, rfl, rfl, hpc, hpriv, fun r => hregs (.x r),
      hregs .flags⟩
    rw [hostCreateThread_of_program hg]
    rfl

end Sys2Proof.Machine
end

section
/-! SUPPORT. The pipeline of one processor (40_pipeline.md R150 to R162): what a turn is in each of its cases, what the
resolution of a call leaves of the stall counter, the cycle counter and `completed`, and the statements that rest on
them. -/

namespace Sys2Proof.Machine

/-! ### A turn, case by case (R151, R152, R160) -/

section
variable {s : State} {p t : Nat} {P : Proc} {T : Thread}

theorem turn_stalled (hP : s.procs[p]? = some P) (hrun : P.state = .running) (hstall : 0 < P.stall) :
    turn p s = .next ({ s with cur := p }.putProc p (stallCycle P)) := by
  simp only [turn, hP, if_pos hrun, cycle, if_pos hstall]

theorem turn_fetchOutOfRange (hr : Running { s with cur := p } P t T) (hrun : P.state = .running) (hstall : P.stall = 0)
    (hfetch : progFetch s t P.regs.pc = none) :
    turn p s = .next (takeFault p t .fetchOutOfRange ({ s with cur := p }.putProc p (silent P))) := by
  obtain ⟨hproc, hthread, hrecord⟩ := hr
  have hnone : progFetch { s with cur := p } t P.regs.pc = none := hfetch
  simp only at hproc hrecord
  simp [turn, hproc, hrun, cycle, hstall, hthread, hrecord, hnone]

theorem turn_fetched {w : InstrWord} (hr : Running { s with cur := p } P t T) (hrun : P.state = .running)
    (hstall : P.stall = 0) (hfetch : progFetch s t P.regs.pc = some w) :
    turn p s = runWord w { s with cur := p } := by
  obtain ⟨hproc, hthread, hrecord⟩ := hr
  have hsome : progFetch { s with cur := p } t P.regs.pc = some w := hfetch
  simp only at hproc hrecord
  simp [turn, hproc, hrun, cycle, hstall, hthread, hrecord, hsome]

end

theorem runWord_invalid {w : InstrWord} {e : DecodeFault} (hd : decode w = .error e) (s : State) :
    runWord w s = issueInvalid (rawHdr (unpack w)) e s := by
  simp only [runWord, hd]

/-- Settles O18: the turn is a stall cycle. -/
theorem stallCycleTouchesOnlyTheCounter : Obligations.StallCycleTouchesOnlyTheCounter := by
  intro s p P hP hrun hstall
  rw [turn_stalled hP hrun hstall]
  rfl

/-- A field of one bit is that bit. -/
theorem extractLsb'_one_beq_one (w : InstrWord) (k : Nat) : (w.extractLsb' k 1 == 1) = w.getLsbD k := by
  have hbit : ∀ b : BitVec 1, (b == 1) = b.getLsbD 0 := by decide
  rw [hbit, BitVec.getLsbD_extractLsb']
  simp

/-- The record in a word's fields (30_encoding.md R122). -/
theorem rawHdr_unpack (w : InstrWord) : rawHdr (unpack w) = ⟨w.getLsbD 11, (w.extractLsb' 16 8).toNat⟩ := by
  simp only [rawHdr, unpack, extractLsb'_one_beq_one]

/-- Settles O22: a fetch past the Program faults at once; an invalid word is issued with the rule that raises its
sub-code, so it meets the privilege check and acceptance as an instruction does. -/
theorem invalidFetchFaults : Obligations.InvalidFetchFaults := by
  intro s p P t T hr hrun hstall
  refine ⟨fun hlen => ?_, fun w e hw hd => ?_⟩
  · exact turn_fetchOutOfRange hr hrun hstall (List.getElem?_eq_none hlen)
  have hturn : turn p s = issue ⟨w.getLsbD 11, (w.extractLsb' 16 8).toNat⟩ (invalidRule e) { s with cur := p } := by
    rw [turn_fetched hr hrun hstall hw, runWord_invalid hd, issueInvalid, rawHdr_unpack]
  refine ⟨fun hmay => ?_, fun hlat hblocked => ?_⟩
  · rw [hturn, issue_accepted _ hr hmay, dispatchOn_raise rfl]
  · rw [hturn, issue_blocked _ hr (Nat.ne_of_gt hlat) hblocked]
    rfl

/-! ### What a rule and the resolution of its effects leave of the counters (R154, R156, R158) -/

/-- A rule that completes on P has changed nothing of it but registers, state and control-flow log. -/
def Dispatch.OnlyRegsStateLog (P : Proc) : Dispatch → Prop
  | .raise _ => True
  | .done Q _ _ => Q = { P with regs := Q.regs, state := Q.state, cflog := Q.cflog }

/-- PUSH and CALL. -/
theorem pushWord_onlyRegsStateLog (v next : Word) (log : List CfRecord) (env : CallEnv) (P : Proc) :
    (pushWord v next log env P).OnlyRegsStateLog P := by
  simp only [pushWord]
  split
  · trivial
  · rfl

/-- A rule that tests an address or a divisor first either faults or goes on; every other rule goes on. -/
theorem ruleOf_onlyRegsStateLog (i : Instr) (env : CallEnv) (P : Proc) :
    (ruleOf i env P).OnlyRegsStateLog P := by
  cases i with
  | load h rd src =>
    cases src with
    | imm v => rfl
    | addr a =>
      simp only [ruleOf, loadRule]
      split
      · trivial
      · rfl
  | div | store | pop | ret | cas =>
    simp only [ruleOf, divRule, storeRule, popRule, retRule, casRule]
    split
    · trivial
    · rfl
  | jz | jnz =>
    simp only [ruleOf, branchRule]
    split <;> rfl
  | push => exact pushWord_onlyRegsStateLog ..
  | call => exact pushWord_onlyRegsStateLog ..
  | _ => rfl

/-- What of a processor only its call writes, and the resolution of no effect. -/
structure Counters where
  stall     : Nat
  cycles    : Nat
  completed : Bool

def counters (P : Proc) : Counters := ⟨P.stall, P.cycles, P.completed⟩

/-- The processors of s' have the counters they have in s. -/
def SameCounters (s s' : State) : Prop := s'.procs.map counters = s.procs.map counters

section
variable {s s' s'' : State}

theorem SameCounters.of_eq (h : s'.procs = s.procs) : SameCounters s s' := congrArg (List.map counters) h

theorem SameCounters.trans (h : SameCounters s s') (h' : SameCounters s' s'') : SameCounters s s'' := Eq.trans h' h

theorem SameCounters.modProc (h : SameCounters s s') (p : Nat) {f : Proc → Proc}
    (hf : ∀ P, counters (f P) = counters P) : SameCounters s (s'.modProc p f) :=
  h.trans (map_modify_of_eq hf _ p)

/-- Freeing a processor leaves its counters alone. -/
theorem SameCounters.of_freed {p : Nat}
    (h : s'.procs = s.procs.modify p fun P => { P with thread := none, state := .idle }) : SameCounters s s' := by
  rw [SameCounters, h]
  exact map_modify_of_eq (f := fun P : Proc => { P with thread := none, state := .idle }) (fun _ => rfl) _ p

theorem SameCounters.get (h : SameCounters s s') {p : Nat} {P : Proc} (hP : s.procs[p]? = some P) :
    ∃ P', s'.procs[p]? = some P' ∧ counters P' = counters P := by
  have hmap := congrArg (fun l => l[p]?) h
  simp only [List.getElem?_map, hP, Option.map_some] at hmap
  exact Option.map_eq_some_iff.1 hmap

end

/-- Waking threads leaves the processors alone. -/
theorem unblockAll_procs (us : List Nat) (s : State) : (unblockAll us s).procs = s.procs := by rw [unblockAll_eq]

/-- Termination frees its processor and leaves the rest of the processors alone (49_environment.md R371). -/
theorem terminate_procs (p t : Nat) (s : State) :
    (terminate p t s).procs = s.procs.modify p fun P => { P with thread := none, state := .idle } := by
  simp only [terminate, State.modThread_procs, unblockAll_procs, takeOff_procs]

theorem takeFault_procs (p t : Nat) (f : ThreadFault) (s : State) :
    (takeFault p t f s).procs = s.procs.modify p fun P => { P with thread := none, state := .idle } :=
  terminate_procs p t _

theorem takeOff_sameCounters (p t : Nat) (st : ThreadState) (s : State) : SameCounters s (takeOff p t st s) :=
  .of_freed (takeOff_procs p t st s)

theorem terminate_sameCounters (p t : Nat) (s : State) : SameCounters s (terminate p t s) :=
  .of_freed (terminate_procs p t s)

theorem takeFault_sameCounters (p t : Nat) (f : ThreadFault) (s : State) : SameCounters s (takeFault p t f s) :=
  terminate_sameCounters p t _

theorem vmFail_sameCounters (p t : Nat) (e : VmException) (info : Word) (s : State) :
    SameCounters s (vmFail p t e info s) := terminate_sameCounters p t _

theorem resolveLock_sameCounters (p t : Nat) (id : Word) (s : State) : SameCounters s (resolveLock p t id s) := by
  simp only [resolveLock]
  split
  · exact .of_eq rfl
  · exact takeOff_sameCounters p t .waiting _

theorem resolveUnlock_sameCounters (p t : Nat) (id : Word) (s : State) : SameCounters s (resolveUnlock p t id s) := by
  simp only [resolveUnlock]
  split
  · exact vmFail_sameCounters p t _ id s
  · split
    · exact .of_eq (unblockAll_procs _ _)
    · exact vmFail_sameCounters p t _ id s

theorem resolveBarrier_sameCounters (p t : Nat) (id n : Word) (s : State) :
    SameCounters s (resolveBarrier p t id n s) := by
  simp only [resolveBarrier]
  split
  · exact .of_eq (unblockAll_procs _ _)
  · exact takeOff_sameCounters p t .waiting _

theorem resolveJoin_sameCounters (p t : Nat) (j : Word) (s : State) : SameCounters s (resolveJoin p t j s) := by
  simp only [resolveJoin]
  split
  · exact vmFail_sameCounters p t _ j s
  · split
    · exact SameCounters.modProc (.of_eq rfl) p fun _ => rfl
    · exact takeOff_sameCounters p t .waiting _

theorem resolveCas_sameCounters (p : Nat) (a e n : Word) (r : Reg) (s : State) :
    SameCounters s (resolveCas p a e n r s) := by
  simp only [resolveCas]
  split
  · exact SameCounters.modProc (.of_eq ((dataRead_step p _ a.toNat s).trans (dataWrite_step p _ _ n _)).procs) p
      fun _ => rfl
  · exact SameCounters.modProc (.of_eq (dataRead_step p _ a.toNat s).procs) p fun _ => rfl

/-- The resolution of an effect leaves the counters of every processor alone. -/
theorem resolve_sameCounters (p t : Nat) (e : Effect) (s : State) : SameCounters s (resolve p t e s) := by
  cases e with
  | registersModified rs => exact .of_eq rfl
  | memoryRead a d =>
    have hread : SameCounters s (dataRead p (s.threadOn p) a.toNat s).2 := .of_eq (dataRead_step p _ a.toNat s).procs
    cases d with
    | reg r => exact hread.modProc p fun _ => rfl
    | pc => exact hread.modProc p fun _ => rfl
  | memoryWrite a v => exact .of_eq (dataWrite_step p _ a.toNat v s).procs
  | ret => exact .of_eq rfl
  | syncLock id => exact resolveLock_sameCounters p t id s
  | syncUnlock id => exact resolveUnlock_sameCounters p t id s
  | fence => exact .of_eq rfl
  | cas a x n r => exact resolveCas_sameCounters p a x n r s
  | barrier id n => exact resolveBarrier_sameCounters p t id n s
  | halt => exact terminate_sameCounters p t s
  | yield => exact takeOff_sameCounters p t .waiting s
  | syscall n => exact .of_eq rfl
  | spawn f a r => exact SameCounters.modProc (.of_eq rfl) p fun _ => rfl
  | join j => exact resolveJoin_sameCounters p t j s

theorem resolveAll_sameCounters (p t : Nat) (es : List Effect) (s : State) :
    SameCounters s (resolveAll p t es s) := by
  induction es generalizing s with
  | nil => exact .of_eq rfl
  | cons e es ih => exact (resolve_sameCounters p t e s).trans (ih _)

/-! ### Acceptance (R153, R154) -/

/-- A fault leaves its processor IDLE (60_exceptions.md R404, 49_environment.md R371). -/
theorem takeFault_idle {s : State} {p t : Nat} {f : ThreadFault} {P' : Proc}
    (h : (takeFault p t f s).procs[p]? = some P') : P'.state = .idle := by
  rw [takeFault_procs, List.getElem?_modify_eq] at h
  obtain ⟨P, -, rfl⟩ := Option.map_eq_some_iff.1 h
  rfl

/-- What an accepted call of i leaves of the counters of its processor: `completed` says that the stall counter is 0,
unless the call faulted, by which its processor is IDLE. -/
theorem dispatchOn_counters (i : Instr) {s : State} {P : Proc} {t : Nat} {T : Thread} (hr : Running s P t T) :
    ∃ P', (dispatchOn i.hdr (ruleOf i) P t s).procs[s.cur]? = some P' ∧ P'.stall = i.hdr.lat - 1 ∧
      P'.cycles = P.cycles + 1 ∧ (P'.state = .idle ∨ P'.completed = (P'.stall == 0)) := by
  have hset : ∀ Q : Proc, (called s t Q).procs[s.cur]? = some Q := fun Q =>
    List.getElem?_set_self (List.getElem?_eq_some_iff.1 hr.proc).1
  have honly := ruleOf_onlyRegsStateLog i (callEnv s t) (accept i.hdr P)
  cases hd : ruleOf i (callEnv s t) (accept i.hdr P) with
  | raise f =>
    rw [dispatchOn_raise hd]
    obtain ⟨P', hP', hc⟩ := (takeFault_sameCounters s.cur t f _).get (hset (acceptedFault i.hdr P))
    exact ⟨P', hP', congrArg Counters.stall hc, congrArg Counters.cycles hc, .inl (takeFault_idle hP')⟩
  | done Q next es =>
    rw [hd, Dispatch.OnlyRegsStateLog] at honly
    have hcall : counters (finishCall Q next es) = ⟨i.hdr.lat - 1, P.cycles + 1, i.hdr.lat - 1 == 0⟩ := by
      rw [honly]
      rfl
    rw [dispatchOn_done hd]
    obtain ⟨P', hP', hc⟩ := (resolveAll_sameCounters s.cur t es _).get (hset (finishCall Q next es))
    rw [hcall] at hc
    have hstall : P'.stall = i.hdr.lat - 1 := congrArg Counters.stall hc
    have hcompleted : P'.completed = (i.hdr.lat - 1 == 0) := congrArg Counters.completed hc
    exact ⟨P', hP', hstall, congrArg Counters.cycles hc, .inr (by rw [hcompleted, hstall])⟩

/-- Settles O23: a blocked record takes the privilege fault, and any other record may run and is accepted. -/
theorem privilegeCheckAndAcceptance : Obligations.PrivilegeCheckAndAcceptance := by
  intro i s P t T hr hlat
  refine ⟨fun hblocked => ?_, fun hpass => ?_⟩
  · rw [exec_eq_issue, issue_blocked _ hr (Nat.ne_of_gt hlat) hblocked]
    rfl
  · have hmay : MayRun i.hdr P :=
      ⟨hlat, fun hpriv henforce => by_contra fun hlevel => hpass ⟨hpriv, henforce, hlevel⟩⟩
    obtain ⟨P', hP', hstall, hcycles, -⟩ := dispatchOn_counters i hr
    exact ⟨_, P', by rw [exec_eq_issue, issue_accepted _ hr hmay], hP', hstall, hcycles⟩

/-! ### Stall cycles in a row (R151, R162) -/

theorem stallCycle_iterate_stall (P : Proc) (k : Nat) : (stallCycle^[k] P).stall = P.stall - k := by
  induction k with
  | zero => rfl
  | succ k ih =>
    rw [Function.iterate_succ_apply', stallCycle, ih]
    exact Nat.sub_sub ..

theorem stallCycle_iterate_regs (P : Proc) (k : Nat) : (stallCycle^[k] P).regs = P.regs := by
  induction k with
  | zero => rfl
  | succ k ih =>
    rw [Function.iterate_succ_apply', stallCycle]
    exact ih

/-- `completed` says that the stall counter is 0 after each stall cycle, as it does after the accepting call. -/
theorem stallCycle_iterate_completed {P : Proc} (h : P.completed = (P.stall == 0)) (k : Nat) :
    (stallCycle^[k] P).completed = ((stallCycle^[k] P).stall == 0) := by
  cases k with
  | zero => exact h
  | succ k =>
    rw [Function.iterate_succ_apply']
    rfl

/-- Settles O21: a call that leaves its thread on the processor was neither refused nor faulted, so `completed` says
that the stall counter, which starts at latency - 1, is 0; stall cycles keep that and count it down. -/
theorem latencyLaw : Obligations.LatencyLaw := by
  intro i s s' P P' t T hr _ e hP' hrun
  have hidle : P'.state ≠ .idle := by
    rw [hrun]
    decide
  rw [exec_eq_issue] at e
  obtain ⟨Q, u, U, hr', hlat, ⟨-, rfl⟩ | ⟨-, rfl⟩⟩ := issue_next e
  · exact absurd (takeFault_idle hP') hidle
  obtain ⟨rfl, rfl⟩ := hr.unique hr'
  obtain ⟨P'', hP'', hstall, hcycles, hcompleted⟩ := dispatchOn_counters i hr
  obtain rfl : P' = P'' := Option.some.inj (hP'.symm.trans hP'')
  replace hcompleted := hcompleted.resolve_left hidle
  have hat : ∀ k, k + 1 ≤ i.hdr.lat → ((stallCycle^[k] P').completed = true ↔ k + 1 = i.hdr.lat) := by
    intro k hk
    rw [stallCycle_iterate_completed hcompleted, stallCycle_iterate_stall, hstall, beq_iff_eq]
    omega
  have hpos : 1 ≤ i.hdr.lat := Nat.pos_of_ne_zero hlat
  refine ⟨hpos, (hat 0 hpos).trans eq_comm, hcycles, fun k hk => ⟨?_, stallCycle_iterate_regs P' k, hat k hk⟩⟩
  rw [stallCycle_iterate_stall, hstall]

end Sys2Proof.Machine
end

section
/-! SUPPORT. The COMPUTE instructions (41_compute.md R180 to R192): what a call that writes a result is, the results in
the terms of the spec's arithmetic, and ZERO and NEGATIVE after a result. -/

namespace Sys2Proof.Machine

/-! ### A call whose rule writes a result (R180) -/

section
variable {i : Instr} {rd : Reg} {a b : Src} {s : State} {P : Proc} {t : Nat} {T : Thread}

/-- Acceptance changes no register, and the stall counter it sets is 0 exactly when the latency is 1 (40_pipeline.md
R154, R158). -/
theorem dispatchOn_writeResult {h : Hdr} {rule : CallEnv → Proc → Dispatch} {r : Word} (hlat : 1 ≤ h.lat)
    (e : rule (callEnv s t) (accept h P) = writeResult rd r (accept h P)) :
    dispatchOn h rule P t s = computed s P t h rd r := by
  have hcompleted : (h.lat - 1 == 0) = decide (h.lat = 1) := by
    rw [Bool.eq_iff_iff, beq_iff_eq, decide_eq_true_iff]
    omega
  rw [dispatchOn_done e, computed, accepted, ← hcompleted]
  rfl

/-- An instruction whose rule only writes a result completes with it. -/
theorem exec_writeResult {r : Word} (hr : Running s P t T) (hm : MayRun i.hdr P)
    (e : ruleOf i (callEnv s t) (accept i.hdr P) = writeResult rd r (accept i.hdr P)) :
    exec i s = .next (computed s P t i.hdr rd r) := by
  rw [exec_eq_issue, issue_accepted _ hr hm, dispatchOn_writeResult hm.1 e]

/-- An instruction of R180 that cannot fault completes with its operation on the operands as they were before it. -/
theorem exec_computeRule {f : Word → Word → Word} {r : Word} (hr : Running s P t T) (hm : MayRun i.hdr P)
    (hi : ruleOf i = computeRule f rd a b) (hres : f (srcValue P.regs a) (srcValue P.regs b) = r) :
    exec i s = .next (computed s P t i.hdr rd r) := by
  refine exec_writeResult hr hm ?_
  rw [hi, ← hres]
  rfl

end

/-! ### The results as integers modulo 2^32 (R181 to R183) -/

theorem ofInt_toNat (a : Word) : BitVec.ofInt 32 a.toNat = a := by
  rw [BitVec.ofInt_natCast, BitVec.ofNat_toNat, BitVec.setWidth_eq]

theorem aluAdd_eq_ofInt (a b : Word) : aluAdd a b = BitVec.ofInt 32 (a.toNat + b.toNat) := by
  rw [aluAdd, BitVec.ofInt_add, ofInt_toNat, ofInt_toNat]

theorem aluSub_eq_ofInt (a b : Word) : aluSub a b = BitVec.ofInt 32 (a.toNat - b.toNat) := by
  rw [aluSub, Int.sub_eq_add_neg, BitVec.ofInt_add, BitVec.ofInt_neg, ofInt_toNat, ofInt_toNat, BitVec.sub_eq_add_neg]

theorem aluMul_eq_ofInt (a b : Word) : aluMul a b = BitVec.ofInt 32 (a.toNat * b.toNat) := by
  rw [aluMul, BitVec.ofInt_mul, ofInt_toNat, ofInt_toNat]

/-- Settles O24: the operations on words are those on integers modulo 2^32. -/
theorem addSubMulResults : Obligations.AddSubMulResults := by
  intro h rd a b s P t T hr hm x y
  exact ⟨exec_computeRule (i := .add h rd a b) hr hm rfl (aluAdd_eq_ofInt _ _),
    exec_computeRule (i := .sub h rd a b) hr hm rfl (aluSub_eq_ofInt _ _),
    exec_computeRule (i := .mul h rd a b) hr hm rfl (aluMul_eq_ofInt _ _)⟩

/-! ### The results bit by bit (R185 to R187) -/

/-- Settles O25: the operations on words act on each bit. -/
theorem bitwiseResults : Obligations.BitwiseResults := by
  intro h rd a b s P t T hr hm x y
  exact ⟨⟨x &&& y, fun _ _ => BitVec.getLsbD_and, exec_computeRule (i := .and h rd a b) hr hm rfl rfl⟩,
    ⟨x ||| y, fun _ _ => BitVec.getLsbD_or, exec_computeRule (i := .or h rd a b) hr hm rfl rfl⟩,
    ⟨x ^^^ y, fun _ _ => BitVec.getLsbD_xor, exec_computeRule (i := .xor h rd a b) hr hm rfl rfl⟩⟩

/-! ### The results as shifts and quotients of natural numbers (R184, R188, R189) -/

theorem aluShl_eq_ofNat (a b : Word) :
    aluShl a b = if b.toNat < 32 then BitVec.ofNat 32 (a.toNat * 2 ^ b.toNat) else 0 := by
  have hshift : a <<< b.toNat = BitVec.ofNat 32 (a.toNat * 2 ^ b.toNat) := by
    apply BitVec.eq_of_toNat_eq
    rw [BitVec.toNat_shiftLeft, Nat.shiftLeft_eq, BitVec.toNat_ofNat]
  rw [aluShl, hshift]

theorem aluShr_eq_ofNat (a b : Word) :
    aluShr a b = if b.toNat < 32 then BitVec.ofNat 32 (a.toNat / 2 ^ b.toNat) else 0 := by
  have hshift : a >>> b.toNat = BitVec.ofNat 32 (a.toNat / 2 ^ b.toNat) := by
    rw [← Nat.shiftRight_eq_div_pow, ← BitVec.toNat_ushiftRight, BitVec.ofNat_toNat, BitVec.setWidth_eq]
  rw [aluShr, hshift]

theorem aluDiv_eq_ofNat (a b : Word) : aluDiv a b = BitVec.ofNat 32 (a.toNat / b.toNat) := by
  rw [aluDiv, ← BitVec.toNat_udiv, BitVec.ofNat_toNat, BitVec.setWidth_eq]

/-- Settles O26: below 32 a shift multiplies or divides by a power of 2, and the count is not masked. -/
theorem shiftResults : Obligations.ShiftResults := by
  intro h rd a b s P t T hr hm x y
  exact ⟨exec_computeRule (i := .shl h rd a b) hr hm rfl (aluShl_eq_ofNat _ _),
    exec_computeRule (i := .shr h rd a b) hr hm rfl (aluShr_eq_ofNat _ _)⟩

theorem divRule_zero {b : Src} {P : Proc} (h : srcValue P.regs b = 0) (rd : Reg) (a : Src) (env : CallEnv) :
    divRule rd a b env P = .raise .divideByZero := if_pos h

theorem divRule_nonzero {b : Src} {P : Proc} (h : srcValue P.regs b ≠ 0) (rd : Reg) (a : Src) (env : CallEnv) :
    divRule rd a b env P = writeResult rd (aluDiv (srcValue P.regs a) (srcValue P.regs b)) P := if_neg h

/-- Settles O27: the test of the divisor comes before anything the rule writes. -/
theorem divisionResult : Obligations.DivisionResult := by
  intro h rd a b s P t T hr hm x y
  refine ⟨fun hy => ?_, fun hy => ?_⟩
  · have hb : srcValue P.regs b ≠ 0 := fun hzero => hy (congrArg BitVec.toNat hzero)
    rw [← aluDiv_eq_ofNat]
    exact exec_writeResult (i := .div h rd a b) hr hm (divRule_nonzero (P := accept h P) hb rd a (callEnv s t))
  · have hb : srcValue P.regs b = 0 := BitVec.eq_of_toNat_eq hy
    have hraise := dispatchOn_raise (rule := divRule rd a b) (divRule_zero (P := accept h P) hb rd a (callEnv s t))
    exact (issue_accepted (divRule rd a b) hr hm).trans (congrArg _ hraise)

/-! ### Faults recorded -/

theorem terminate_faults (p t : Nat) (s : State) : (terminate p t s).faults = s.faults := by
  simp only [terminate, State.modThread_faults, unblockAll_eq, takeOff_faults]

/-- Taking a fault records it (60_exceptions.md R404). -/
theorem takeFault_faults_ne (p t : Nat) (f : ThreadFault) (s : State) : (takeFault p t f s).faults ≠ s.faults := by
  rw [takeFault, terminate_faults]
  exact fun h => List.cons_ne_nil _ _ (List.append_right_eq_self.1 h)

/-! ### ZERO and NEGATIVE (R190) -/

theorem setFlags_zero (f r : Word) : (setFlags f r).getLsbD 0 = decide (r = 0) := by
  simp only [setFlags, BitVec.getLsbD_or, BitVec.getLsbD_and]
  by_cases hzero : r = 0#32 <;> cases r.msb <;> simp [hzero]

theorem setFlags_negative (f r : Word) : (setFlags f r).getLsbD 1 = r.getLsbD 31 := by
  have hmsb : r.getLsbD 31 = r.msb := (BitVec.msb_eq_getLsbD_last r).symm
  rw [hmsb]
  simp only [setFlags, BitVec.getLsbD_or, BitVec.getLsbD_and]
  by_cases hzero : r = 0#32 <;> cases r.msb <;> simp [hzero]

/-- The processor after a result r was written: rd holds r, and FLAGS are set from r. -/
theorem computed_proc {s : State} {P : Proc} {t : Nat} {T : Thread} (hr : Running s P t T) (u : Nat) (h : Hdr)
    (rd : Reg) (r : Word) : ∃ P', (computed s P u h rd r).procs[s.cur]? = some P' ∧ P'.regs.x[rd] = r ∧
      P'.regs.flags = setFlags P.regs.flags r :=
  ⟨_, List.getElem?_set_self (List.getElem?_eq_some_iff.1 hr.proc).1, Vector.getElem_set_self _, rfl⟩

/-- The rule of a COMPUTE instruction writes a result to its destination or, for a divisor of 0, raises DivideByZero. -/
theorem ruleOf_compute {i : Instr} {rd : Reg} (hi : computeDest i = some rd) (env : CallEnv) (P : Proc) :
    (∃ r, ruleOf i env P = writeResult rd r P) ∨ ruleOf i env P = .raise .divideByZero := by
  cases i with
  | div h d a b =>
    cases hi
    by_cases hb : srcValue P.regs b = 0
    · exact .inr (divRule_zero hb rd a env)
    · exact .inl ⟨_, divRule_nonzero hb rd a env⟩
  | add | sub | mul | and | or | xor | shl | shr =>
    cases hi
    exact .inl ⟨_, rfl⟩
  | _ => cases hi

/-- A COMPUTE instruction that gives a next state and records no fault has completed with a result. -/
theorem exec_compute {i : Instr} {rd : Reg} {s s' : State} (hi : computeDest i = some rd) (e : exec i s = .next s')
    (hfaults : s'.faults = s.faults) :
    ∃ P t T r, Running s P t T ∧ s' = computed s P t i.hdr rd r := by
  rw [exec_eq_issue] at e
  obtain ⟨P, t, T, hr, hlat, ⟨-, rfl⟩ | ⟨-, rfl⟩⟩ := issue_next e
  · exact absurd hfaults (takeFault_faults_ne _ _ _ _)
  obtain ⟨r, hw⟩ | hraise := ruleOf_compute hi (callEnv s t) (accept i.hdr P)
  · exact ⟨P, t, T, r, hr, dispatchOn_writeResult (Nat.pos_of_ne_zero hlat) hw⟩
  · rw [dispatchOn_raise hraise] at hfaults
    exact absurd hfaults (takeFault_faults_ne _ _ _ _)

/-- Settles O28: without a fault the instruction completed with a result, and the flags were set from it. -/
theorem flagsAfterCompute : Obligations.FlagsAfterCompute := by
  intro i rd s s' P t T hr hi e hfaults
  obtain ⟨Q, u, U, r, hr', rfl⟩ := exec_compute hi e hfaults
  obtain ⟨rfl, rfl⟩ := hr.unique hr'
  obtain ⟨P', hP', hdest, hflags⟩ := computed_proc hr t i.hdr rd r
  refine ⟨P', hP', ?_, ?_, fun k hk => ?_⟩
  · rw [hflags, hdest, setFlags_zero]
  · rw [hflags, hdest, setFlags_negative]
  · rw [hflags, setFlags_high _ _ hk]

end Sys2Proof.Machine
end

section
/-! SUPPORT. The MEMORY instructions (42_memory_instr.md R200 to R207): the bytes as a processor sees them under a read
and a write of a word, what an accepted call is that makes one access, and the rules of LOAD, STORE, PUSH and POP on an
accessible address. -/

namespace Sys2Proof.Machine

/-! ### Bytes under the accesses (20_memory.md R74, R91) -/

/-- `DataRead` changes no byte: every byte lies in a word whose newest value is kept. -/
theorem coherentByte_dataRead {s : State} (h : Coherent s) {p : Nat} (hp : p < s.caches.length) (tid : Option Nat)
    {a : Word} (ha : Accessible s a) (b : Nat) :
    coherentByte (dataRead p tid a.toNat s).2 b = coherentByte s b := by
  rw [coherentByte, (dataRead_newest h hp tid ha).2 _ (by omega), coherentByte]

/-- `DataWrite` changes the four bytes of its word and no other: a byte lies inside the word exactly when the word that
holds the byte is the one written. -/
theorem coherentByte_dataWrite {s : State} (h : Coherent s) {p : Nat} (hp : p < s.caches.length) (tid : Option Nat)
    {a : Word} (ha : Accessible s a) (v : Word) (b : Nat) :
    coherentByte (dataWrite p tid a.toNat v s) b = storedByte a.toNat v (coherentByte s) b := by
  have hword : b - b % 4 = a.toNat ↔ a.toNat ≤ b ∧ b < a.toNat + 4 := by
    have := ha.1
    omega
  rw [coherentByte, dataWrite_newest h hp tid ha v (by omega), storedByte]
  by_cases hin : b - b % 4 = a.toNat
  · have hoffset : b % 4 = b - a.toNat := by omega
    rw [if_pos hin, if_pos (hword.1 hin), hoffset]
  · rw [if_neg hin, if_neg fun hb => hin (hword.2 hb), coherentByte]

/-! ### A call that completes (40_pipeline.md R154 to R160) -/

/-- Acceptance and the end of the call around a rule that leaves registers R. -/
theorem finishCall_accept {h : Hdr} (hlat : 1 ≤ h.lat) (R : RegSet) (P : Proc) (next : Word) (es : List Effect) :
    finishCall { accept h P with regs := R } next es = accepted h (writePc R next) es P := by
  have hcompleted : (h.lat - 1 == 0) = decide (h.lat = 1) := by
    rw [Bool.eq_iff_iff, beq_iff_eq, decide_eq_true_iff]
    omega
  rw [accepted, ← hcompleted]
  rfl

/-- Changing the registers of the calling processor changes those its call left. -/
theorem modRegs_called {s : State} {P : Proc} (hP : s.procs[s.cur]? = some P) (t : Nat) (Q : Proc)
    (f : RegSet → RegSet) : (called s t Q).modRegs s.cur f = called s t { Q with regs := f Q.regs } := by
  have hQ : (s.procs.set s.cur Q)[s.cur]? = some Q := List.getElem?_set_self (List.getElem?_eq_some_iff.1 hP).1
  simp only [called, State.modRegs, State.modProc, modify_eq_set_of_getElem? hQ, List.set_set]

/-- A change of registers does not see a change of the memory system. -/
theorem MemoryOnly.modRegs {s s' : State} (h : MemoryOnly s s') (p : Nat) (f : RegSet → RegSet) :
    MemoryOnly (s.modRegs p f) (s'.modRegs p f) := by
  rw [h]
  rfl

/-! ### A call that makes one access -/

/-- After a call the read of an effect gives its register the newest value there was before the call, which changes no
memory (49_environment.md R360). -/
theorem resolveReadReg_called {s : State} (h : Coherent s) {P : Proc} (hP : s.procs[s.cur]? = some P) (t : Nat)
    (Q : Proc) {a : Word} (ha : Accessible s a) (rd : Reg) :
    MemoryOnly (called s t { Q with regs := writeReg Q.regs rd (coherentWord s a.toNat) })
        (resolveReadReg s.cur a rd (called s t Q)) ∧
      ∀ b, coherentByte (resolveReadReg s.cur a rd (called s t Q)) b = coherentByte s b := by
  have hc : Coherent (called s t Q) := called_coherent h t Q
  have hp : s.cur < s.caches.length := h.cache_lt hP
  have hvalue : (dataRead s.cur _ a.toNat (called s t Q)).1 = coherentWord s a.toNat :=
    (dataRead_newest hc hp ((called s t Q).threadOn s.cur) ha).1
  refine ⟨?_, coherentByte_dataRead hc hp _ ha⟩
  rw [resolveReadReg, hvalue, ← modRegs_called hP t Q fun R => writeReg R rd (coherentWord s a.toNat)]
  exact (dataRead_step s.cur _ a.toNat (called s t Q)).only.modRegs s.cur _

section
variable {i : Instr} {s : State} {P P₀ : Proc} {t : Nat} {T : Thread} {R : RegSet} {next : Word}

/-- An instruction whose rule leaves registers R and emits effects gives the state its call leaves, with the effects
resolved. P₀ stands for P with whatever the rule has changed beside the registers. -/
theorem exec_done {es : List Effect} (hr : Running s P t T) (hm : MayRun i.hdr P)
    (e : ruleOf i (callEnv s t) (accept i.hdr P) = .done { accept i.hdr P₀ with regs := R } next es) :
    exec i s = .next (resolveAll s.cur t es (called s t (accepted i.hdr (writePc R next) es P₀))) := by
  rw [exec_eq_issue, issue_accepted _ hr hm, dispatchOn_done e, finishCall_accept hm.1]

/-- An instruction whose rule emits one read into a register completes with the newest value of the word in it, written
after every register the rule itself writes (49_environment.md R360). -/
theorem exec_readReg {a : Word} {rd : Reg} (hr : Running s P t T) (hm : MayRun i.hdr P) (h : Coherent s)
    (ha : Accessible s a)
    (e : ruleOf i (callEnv s t) (accept i.hdr P) =
      .done { accept i.hdr P₀ with regs := R } next [.memoryRead a (.reg rd)]) :
    ∃ s', exec i s = .next s' ∧
      MemoryOnly (called s t (accepted i.hdr (writeReg (writePc R next) rd (coherentWord s a.toNat))
        [.memoryRead a (.reg rd)] P₀)) s' ∧
      ∀ b, coherentByte s' b = coherentByte s b :=
  ⟨_, exec_done hr hm e, resolveReadReg_called h hr.proc t _ ha rd⟩

/-- An instruction whose rule emits one write completes and changes the bytes of that word (49_environment.md R361). -/
theorem exec_write {a v : Word} (hr : Running s P t T) (hm : MayRun i.hdr P) (h : Coherent s) (ha : Accessible s a)
    (e : ruleOf i (callEnv s t) (accept i.hdr P) = .done { accept i.hdr P₀ with regs := R } next [.memoryWrite a v]) :
    ∃ s', exec i s = .next s' ∧
      MemoryOnly (called s t (accepted i.hdr (writePc R next) [.memoryWrite a v] P₀)) s' ∧
      ∀ b, coherentByte s' b = storedByte a.toNat v (coherentByte s) b :=
  ⟨_, exec_done hr hm e, (dataWrite_step _ _ _ _ _).only,
    coherentByte_dataWrite (called_coherent h t _) (h.cache_lt hr.proc) _ ha v⟩

end

/-! ### The rules on an address that passes the check (R201 to R204) -/

section
variable {env : CallEnv} {a : Word} (P : Proc)

theorem loadRule_addr (rd : Reg) (ha : addrCheck env.memSize a = none) :
    loadRule rd (.addr a) env P = .done P (nextPc P.regs) [.memoryRead a (.reg rd)] := by
  simp only [loadRule, ha]

theorem storeRule_done (rs : Reg) (ha : addrCheck env.memSize a = none) :
    storeRule rs a env P = .done P (nextPc P.regs) [.memoryWrite a (readReg P.regs rs)] := by
  simp only [storeRule, ha]

/-- The value to push is fixed before SP changes (R206). -/
theorem pushWord_done (v next : Word) (log : List CfRecord) (ha : addrCheck env.memSize (spOf P.regs - 4) = none) :
    pushWord v next log env P =
      .done { P with regs := writeReg P.regs Reg.sp (spOf P.regs - 4), cflog := P.cflog ++ log } next
        [.memoryWrite (spOf P.regs - 4) v] := by
  simp only [pushWord, ha]

theorem pushRule_done (rs : Reg) (ha : addrCheck env.memSize (spOf P.regs - 4) = none) :
    pushRule rs env P =
      .done { P with regs := writeReg P.regs Reg.sp (spOf P.regs - 4) } (nextPc P.regs)
        [.memoryWrite (spOf P.regs - 4) (readReg P.regs rs)] := by
  rw [pushRule, pushWord_done P _ _ _ ha, List.append_nil]

theorem popRule_done (rd : Reg) (ha : addrCheck env.memSize (spOf P.regs) = none) :
    popRule rd env P =
      .done { P with regs := writeReg P.regs Reg.sp (spOf P.regs + 4) } (nextPc P.regs)
        [.memoryRead (spOf P.regs) (.reg rd)] := by
  simp only [popRule, ha]

end

/-! ### The statements -/

/-- Settles O29: the immediate form emits nothing to resolve in memory; the other emits the one read. -/
theorem loadResult : Obligations.LoadResult := by
  intro h rd s P t T hr hm
  refine ⟨fun v => exec_done (i := .load h rd (.imm v)) hr hm rfl, fun a hc ha => ?_⟩
  exact exec_readReg (i := .load h rd (.addr a)) hr hm hc ha
    (loadRule_addr (accept h P) rd (addrCheck_of_accessible ha))

/-- Settles O30: the rule of STORE leaves its processor as it is and emits the one write. -/
theorem storeResult : Obligations.StoreResult := by
  intro h rs a s P t T hr hm hc ha
  exact exec_write (i := .store h rs a) hr hm hc ha (storeRule_done (accept h P) rs (addrCheck_of_accessible ha))

/-- Settles O31: the rule of PUSH reads the register, lowers SP and emits the one write. -/
theorem pushResult : Obligations.PushResult := by
  intro h rs s P t T hr hm hc a ha
  exact exec_write (i := .push h rs) hr hm hc ha (pushRule_done (accept h P) rs (addrCheck_of_accessible ha))

/-- Settles O32: the rule of POP raises SP and emits the one read, whose register is written last. -/
theorem popResult : Obligations.PopResult := by
  intro h rd s P t T hr hm hc a ha
  exact exec_readReg (i := .pop h rd) hr hm hc ha (popRule_done (accept h P) rd (addrCheck_of_accessible ha))

end Sys2Proof.Machine
end

section
/-! SUPPORT. The BRANCH instructions (43_branch.md R220 to R226): what a transfer and a branch not taken leave, the push
of CALL, and RET's read into PC, which logs the transfer when it is resolved. -/

namespace Sys2Proof.Machine

/-! ### Transfers and branches (R220 to R223) -/

/-- The processor with the record of a transfer appended to its control-flow log (10_state.md R34). -/
def logged (P : Proc) (k : BranchKind) (target : Word) (plen : Nat) : Proc :=
  { P with cflog := P.cflog ++ [cfRecord k P.regs.pc target plen] }

/-- The state after a transfer that emits nothing: PC is the target and the record is appended (R221). -/
def transferred (s : State) (P : Proc) (t : Nat) (h : Hdr) (k : BranchKind) (target : Word) : State :=
  called s t (accepted h { P.regs with pc := target } [] (logged P k target (s.plen t)))

/-- The state after a branch not taken: only PC goes up by 1 (R222, R223). -/
def fallenThrough (s : State) (P : Proc) (t : Nat) (h : Hdr) : State :=
  called s t (accepted h { P.regs with pc := P.regs.pc + 1 } [] P)

section
variable {i : Instr} {s : State} {P : Proc} {t : Nat} {T : Thread} {k : BranchKind} {target : Word}

/-- An instruction whose rule is a transfer completes for every target. -/
theorem exec_transfer (hr : Running s P t T) (hm : MayRun i.hdr P)
    (e : ruleOf i (callEnv s t) (accept i.hdr P) = transfer k target (callEnv s t) (accept i.hdr P)) :
    exec i s = .next (transferred s P t i.hdr k target) :=
  exec_done (P₀ := logged P k target (s.plen t)) hr hm e

/-- A conditional branch tests FLAGS as they are before it. -/
theorem exec_branchRule {taken : Word → Bool} (hr : Running s P t T) (hm : MayRun i.hdr P)
    (hi : ruleOf i = branchRule k taken target) :
    exec i s = .next (if taken P.regs.flags = true then transferred s P t i.hdr k target
      else fallenThrough s P t i.hdr) := by
  by_cases htaken : taken P.regs.flags = true
  · rw [if_pos htaken]
    exact exec_transfer hr hm ((congrFun₂ hi _ _).trans (if_pos htaken))
  · rw [if_neg htaken]
    exact exec_done (P₀ := P) (R := P.regs) hr hm ((congrFun₂ hi _ _).trans (if_neg htaken))

end

/-- Settles O33: JMP is a transfer, JZ and JNZ are branches on ZERO and on its complement. -/
theorem jumpResults : Obligations.JumpResults := by
  intro h target s P t T hr hm taken notTaken
  refine ⟨exec_transfer (i := .jmp h target) hr hm rfl,
    exec_branchRule (i := .jz h target) (taken := flagZero) hr hm rfl, ?_⟩
  have hjnz := exec_branchRule (i := .jnz h target) (taken := fun f => !flagZero f) hr hm rfl
  simp only [Bool.not_eq_true', ← Bool.not_eq_true, ite_not] at hjnz
  exact hjnz

/-! ### CALL (R224) -/

/-- CALL pushes the index after its own as PUSH does, and logs with the same call. -/
theorem callRule_done {env : CallEnv} (P : Proc) (target : Word)
    (ha : addrCheck env.memSize (spOf P.regs - 4) = none) :
    callRule target env P =
      .done { logged P .call target env.plen with regs := writeReg P.regs Reg.sp (spOf P.regs - 4) } target
        [.memoryWrite (spOf P.regs - 4) (nextPc P.regs)] :=
  pushWord_done P _ _ _ ha

/-- Settles O34: the rule of CALL lowers SP, logs the transfer and emits the one write. -/
theorem callResult : Obligations.CallResult := by
  intro h target s P t T hr hm hc a ha
  exact exec_write (i := .call h target) (P₀ := logged P .call target (s.plen t)) hr hm hc ha
    (callRule_done (accept h P) target (addrCheck_of_accessible ha))

/-! ### RET (R225) -/

theorem retRule_done {env : CallEnv} (P : Proc) (ha : addrCheck env.memSize (spOf P.regs) = none) :
    retRule env P =
      .done { P with regs := writeReg P.regs Reg.sp (spOf P.regs + 4) } P.regs.pc
        [.memoryRead (spOf P.regs) .pc, .ret] := by
  simp only [retRule, ha]

/-- Changing the calling processor after its call changes what the call left of it. -/
theorem modProc_called {s : State} {P : Proc} (hP : s.procs[s.cur]? = some P) (t : Nat) (Q : Proc)
    (f : Proc → Proc) : (called s t Q).modProc s.cur f = called s t (f Q) := by
  have hQ : (s.procs.set s.cur Q)[s.cur]? = some Q := List.getElem?_set_self (List.getElem?_eq_some_iff.1 hP).1
  simp only [called, State.modProc, modify_eq_set_of_getElem? hQ, List.set_set]

/-- A change of a processor does not see a change of the memory system. -/
theorem MemoryOnly.modProc {s s' : State} (h : MemoryOnly s s') (p : Nat) (f : Proc → Proc) :
    MemoryOnly (s.modProc p f) (s'.modProc p f) := by
  rw [h]
  rfl

/-- Counting an instruction changes no thread's Program. -/
theorem called_plen (s : State) (t : Nat) (Q : Proc) (u : Nat) : (called s t Q).plen u = s.plen u := by
  simp only [State.plen, State.codeOf, called_threads, called_programs, List.getElem?_modify]
  cases s.threads[u]? with
  | none => rfl
  | some U => by_cases hu : t = u <;> simp [hu, countOne]

/-- The processor after RET's read gave v: the record names the index in PC as the origin, then PC is v
(49_environment.md R360). -/
def returned (Q : Proc) (v : Word) (plen : Nat) : Proc := { logged Q .ret v plen with regs := writePc Q.regs v }

/-- RET's read, resolved after its call, gives the newest value there was before the call, which changes no memory. -/
theorem resolveReadPc_called {s : State} (h : Coherent s) {P : Proc} (hP : s.procs[s.cur]? = some P) (t : Nat)
    (Q : Proc) {a : Word} (ha : Accessible s a) :
    MemoryOnly (called s t (returned Q (coherentWord s a.toNat) (s.plen t)))
        (resolveReadPc s.cur t a (called s t Q)) ∧
      ∀ b, coherentByte (resolveReadPc s.cur t a (called s t Q)) b = coherentByte s b := by
  have hc : Coherent (called s t Q) := called_coherent h t Q
  have hp : s.cur < s.caches.length := h.cache_lt hP
  have hvalue : (dataRead s.cur _ a.toNat (called s t Q)).1 = coherentWord s a.toNat :=
    (dataRead_newest hc hp ((called s t Q).threadOn s.cur) ha).1
  refine ⟨?_, coherentByte_dataRead hc hp _ ha⟩
  rw [resolveReadPc, hvalue, called_plen, ← modProc_called hP t Q fun P => returned P _ _]
  exact (dataRead_step s.cur _ a.toNat (called s t Q)).only.modProc s.cur _

/-- Settles O35: the call raises SP and leaves PC at RET's own index, which the resolution of the read logs as the
origin before PC gets the word. -/
theorem retResult : Obligations.RetResult := by
  intro h s P t T hr hm hc a ha v
  have hdone := exec_done (i := .ret h) (P₀ := P) hr hm (retRule_done (accept h P) (addrCheck_of_accessible ha))
  exact ⟨_, hdone, resolveReadPc_called hc hr.proc t _ ha⟩

end Sys2Proof.Machine
end

section
/-! SUPPORT. The SYNC instructions (44_sync.md R240 to R245), with SYSCALL and NOP, which emit as FENCE does: what the
resolution of each effect gives in each of its cases, and the tables of locks and barriers afterwards. -/

namespace Sys2Proof.Machine

/-- The calling processor after its call. -/
theorem called_proc_cur {s : State} {P : Proc} (hP : s.procs[s.cur]? = some P) (t : Nat) (Q : Proc) :
    (called s t Q).procs[s.cur]? = some Q :=
  List.getElem?_set_self (List.getElem?_eq_some_iff.1 hP).1

/-! ### FENCE, SYSCALL and NOP (R243, 45_system_special.md R263, R264) -/

/-- Settles O38: the resolution of what the three emit changes nothing. -/
theorem plainAdvance : Obligations.PlainAdvance := by
  intro h o s P t T hr hm on
  exact ⟨exec_done (i := .fence h) hr hm rfl, exec_done (i := .syscall h o) hr hm rfl,
    exec_done (i := .nop h) hr hm rfl⟩

/-! ### LOCK (R241, 49_environment.md R362) -/

/-- The lock table after a put: the lock put under its own id, every other lock as before. -/
theorem findLock_putLock {l : Lock} {id : Word} (hid : l.id = id) (ls : List Lock) :
    findLock id (putLock l ls) = some l ∧ ∀ id', id' ≠ id → findLock id' (putLock l ls) = findLock id' ls := by
  subst hid
  exact ⟨findLock_putLock_same l ls, fun _ hne => findLock_putLock_other hne ls⟩

section
variable {s : State} {p : Nat} {P : Proc} {id : Word} {l : Lock}

theorem resolveLock_free (hl : (findLock id s.locks).getD ⟨id, none, []⟩ = l) (hfree : l.holder = none) (p t : Nat) :
    resolveLock p t id s = { s with locks := putLock { l with holder := some t } s.locks } := by
  simp only [resolveLock, hl, hfree]

theorem resolveLock_held (hP : s.procs[p]? = some P) (hl : (findLock id s.locks).getD ⟨id, none, []⟩ = l)
    (hheld : l.holder ≠ none) (t : Nat) :
    resolveLock p t id s =
      { leaving p t .waiting P s with locks := putLock { l with queue := l.queue ++ [t] } s.locks } := by
  obtain ⟨u, hu⟩ := Option.ne_none_iff_exists'.1 hheld
  simp only [resolveLock, hl, hu]
  refine takeOff_eq_leaving ?_ t .waiting
  exact hP

end

/-- Settles O36: a case split on whether the lock, or a new one in its place, has a holder. -/
theorem lockResult : Obligations.LockResult := by
  intro h o s P t T hr hm id l Q
  have hdone : exec (.lock h o) s = .next (resolveLock s.cur t id (called s t Q)) :=
    exec_done (i := .lock h o) hr hm rfl
  have hid : l.id = id := findLock_getD_id id s.locks
  by_cases hfree : l.holder = none
  · rw [resolveLock_free (s := called s t Q) (l := l) rfl hfree] at hdone
    obtain ⟨hsame, hother⟩ := findLock_putLock (l := { l with holder := some t }) hid s.locks
    exact ⟨_, hdone, hother, fun _ => ⟨rfl, hsame⟩, fun hheld => absurd hfree hheld⟩
  · rw [resolveLock_held (l := l) (called_proc_cur hr.proc t Q) rfl hfree] at hdone
    obtain ⟨hsame, hother⟩ := findLock_putLock (l := { l with queue := l.queue ++ [t] }) hid s.locks
    exact ⟨_, hdone, hother, fun hnone => absurd hnone hfree, fun _ => ⟨rfl, hsame⟩⟩

/-! ### UNLOCK (R242, 49_environment.md R363) -/

/-- A release hands the lock to the head of its queue, if there is one. -/
theorem releaseLock_eq (l : Lock) :
    releaseLock l = ({ l with holder := l.queue.head?, queue := l.queue.tail }, l.queue.head?) := by
  obtain ⟨id, holder, _ | ⟨u, q⟩⟩ := l <;> rfl

section
variable {s : State} {t : Nat} {id : Word}

theorem resolveUnlock_holder {l : Lock} (hl : findLock id s.locks = some l) (hholder : l.holder = some t) (p : Nat) :
    resolveUnlock p t id s =
      { s with
        locks := putLock { l with holder := l.queue.head?, queue := l.queue.tail } s.locks
        threads := woken (l.queue.take 1) s.threads
        ready := s.ready ++ l.queue.take 1 } := by
  simp only [resolveUnlock, hl, if_pos hholder, releaseLock_eq, unblockAll_eq, List.take_one]

theorem resolveUnlock_other (hother : ∀ l, findLock id s.locks = some l → l.holder ≠ some t) (p : Nat) :
    resolveUnlock p t id s = vmFail p t .lockInconsistency id s := by
  cases hl : findLock id s.locks with
  | none => simp only [resolveUnlock, hl]
  | some l => simp only [resolveUnlock, hl, if_neg (hother l hl)]

end

/-- Settles O37: the holder's release, and the VMException of any other thread's. -/
theorem unlockResult : Obligations.UnlockResult := by
  intro h o s P t T hr hm id Q
  have hdone : exec (.unlock h o) s = .next (resolveUnlock s.cur t id (called s t Q)) :=
    exec_done (i := .unlock h o) hr hm rfl
  refine ⟨fun l hl hholder => ?_, fun hother => ?_⟩
  · rw [resolveUnlock_holder (s := called s t Q) hl hholder] at hdone
    have hid : l.id = id := findLock_id hl
    obtain ⟨hsame, hrest⟩ := findLock_putLock
      (l := { l with holder := l.queue.head?, queue := l.queue.tail }) hid s.locks
    exact ⟨_, hdone, rfl, hsame, hrest⟩
  · rw [hdone, resolveUnlock_other (s := called s t Q) hother]

/-! ### CAS (R244, 49_environment.md R365) -/

theorem casRule_done {env : CallEnv} {a : Word} (P : Proc) (e n : Src) (rd : Reg)
    (ha : addrCheck env.memSize a = none) :
    casRule a e n rd env P =
      .done P (nextPc P.regs) [.cas a (srcValue P.regs e) (srcValue P.regs n) rd] := by
  simp only [casRule, ha]

/-- A memory operation leaves the range of addresses alone. -/
theorem MemoryStep.accessible {s s' : State} (h : MemoryStep s s') {a : Word} (ha : Accessible s a) :
    Accessible s' a := by
  rw [Accessible, h.cfg]
  exact ha

/-- After a call the resolution of a Cas compares the newest value there was before the call, writes on a hit and only
then, and puts the answer in the result register. -/
theorem resolveCas_called {s : State} (h : Coherent s) {P : Proc} (hP : s.procs[s.cur]? = some P) (t : Nat) (Q : Proc)
    {a : Word} (ha : Accessible s a) (e n : Word) (rd : Reg) :
    MemoryOnly (called s t { Q with regs := writeReg Q.regs rd (if coherentWord s a.toNat = e then 1 else 0) })
        (resolveCas s.cur a e n rd (called s t Q)) ∧
      ∀ b, coherentByte (resolveCas s.cur a e n rd (called s t Q)) b =
        if coherentWord s a.toNat = e then storedByte a.toNat n (coherentByte s) b else coherentByte s b := by
  have hc : Coherent (called s t Q) := called_coherent h t Q
  have hp : s.cur < s.caches.length := h.cache_lt hP
  rw [resolveCas]
  generalize (called s t Q).threadOn s.cur = tid
  have hread : MemoryStep (called s t Q) (dataRead s.cur tid a.toNat (called s t Q)).2 := dataRead_step ..
  have hvalue : (dataRead s.cur tid a.toNat (called s t Q)).1 = coherentWord s a.toNat :=
    (dataRead_newest hc hp tid ha).1
  have hbytes : coherentByte (dataRead s.cur tid a.toNat (called s t Q)).2 = coherentByte s :=
    funext (coherentByte_dataRead hc hp tid ha)
  rw [hvalue]
  by_cases hhit : coherentWord s a.toNat = e
  · simp only [if_pos hhit]
    refine ⟨?_, fun b => ?_⟩
    · rw [← modRegs_called hP t Q fun R => writeReg R rd 1]
      exact (hread.trans (dataWrite_step _ _ _ _ _)).only.modRegs s.cur _
    · rw [← hbytes]
      exact coherentByte_dataWrite (dataRead_coherent hc hp tid ha) (hread.caches ▸ hp) tid (hread.accessible ha) n b
  · simp only [if_neg hhit]
    refine ⟨?_, congrFun hbytes⟩
    rw [← modRegs_called hP t Q fun R => writeReg R rd 0]
    exact hread.only.modRegs s.cur _

/-- Settles O39: the rule of CAS reads its operands and emits the one Cas, whose resolution writes the result register
last. -/
theorem casResult : Obligations.CasResult := by
  intro h a e n rd s P t T hr hm hc ha ev nv hit
  have hdone := exec_done (i := .cas h a e n rd) (P₀ := P) (R := P.regs) hr hm
    (casRule_done (accept h P) e n rd (addrCheck_of_accessible ha))
  exact ⟨_, hdone, resolveCas_called hc hr.proc t _ ha ev nv rd⟩

/-! ### BARRIER (R245, 49_environment.md R364) -/

/-- The barrier table after a put: the barrier put under its own id, every other barrier as before. -/
theorem findBarrier_putBarrier {b : Barrier} {id : Word} (hid : b.id = id) (bs : List Barrier) :
    findBarrier id (putBarrier b bs) = some b ∧
      ∀ id', id' ≠ id → findBarrier id' (putBarrier b bs) = findBarrier id' bs := by
  subst hid
  exact ⟨findBarrier_putBarrier_same b bs, fun _ hne => findBarrier_putBarrier_other hne bs⟩

/-- The barrier with an id, or a new one, has that id. -/
theorem findBarrier_getD_id (id n : Word) (bs : List Barrier) :
    ((findBarrier id bs).getD ⟨id, n, [], false, 0⟩).id = id := by
  cases h : findBarrier id bs with
  | none => rfl
  | some b => exact findBarrier_id h

/-- The others among the arrived threads, after the arrival of one that was not there, are those that were there. -/
theorem insertId_filter_ne {t : Nat} {us : List Nat} (h : t ∉ us) :
    ((insertId t us).filter fun u => u != t) = us := by
  induction us with
  | nil => simp [insertId]
  | cons v vs ih =>
    obtain ⟨htv, hvs⟩ := not_or.1 (mt List.mem_cons.2 h)
    rw [insertId, if_neg htv]
    split
    · rw [List.filter_cons_of_neg (by simp)]
      exact List.filter_eq_self.2 fun u hu => bne_iff_ne.2 fun e => h (e ▸ hu)
    · rw [List.filter_cons_of_pos (by simpa using Ne.symm htv), ih hvs]

section
variable {s : State} {p t : Nat} {P : Proc} {id n : Word} {b : Barrier}

theorem resolveBarrier_trips (hb : (findBarrier id s.barriers).getD ⟨id, n, [], false, 0⟩ = b) (hnew : t ∉ b.arrived)
    (hcount : b.arrived.length + 1 = n.toNat) (p : Nat) :
    resolveBarrier p t id n s =
      { s with
        barriers := putBarrier (trippedBarrier (arriveBarrier t n b)) s.barriers
        threads := woken b.arrived s.threads
        ready := s.ready ++ b.arrived } := by
  have hlen : (insertId t b.arrived).length = n.toNat := (insertId_perm hnew).length_eq.trans hcount
  simp only [resolveBarrier, hb, arriveBarrier, if_pos hlen, insertId_filter_ne hnew, unblockAll_eq]

theorem resolveBarrier_waits (hP : s.procs[p]? = some P)
    (hb : (findBarrier id s.barriers).getD ⟨id, n, [], false, 0⟩ = b) (hnew : t ∉ b.arrived)
    (hcount : b.arrived.length + 1 ≠ n.toNat) :
    resolveBarrier p t id n s =
      { leaving p t .waiting P s with barriers := putBarrier (arriveBarrier t n b) s.barriers } := by
  have hlen : (insertId t b.arrived).length ≠ n.toNat := fun e => hcount ((insertId_perm hnew).length_eq.symm.trans e)
  simp only [resolveBarrier, hb, arriveBarrier, if_neg hlen]
  refine takeOff_eq_leaving ?_ t .waiting
  exact hP

end

/-- Settles O40: a case split on the arrival count, which the arrival of a new thread makes one more than it was. -/
theorem barrierResult : Obligations.BarrierResult := by
  intro h o n s P t T hr hm id nv b Q hnew hasc
  have hdone : exec (.barrier h o n) s = .next (resolveBarrier s.cur t id nv (called s t Q)) :=
    exec_done (i := .barrier h o n) hr hm rfl
  have hid : b.id = id := findBarrier_getD_id id nv s.barriers
  by_cases hcount : b.arrived.length + 1 = nv.toNat
  · rw [resolveBarrier_trips (s := called s t Q) (b := b) rfl hnew hcount] at hdone
    obtain ⟨hsame, hother⟩ := findBarrier_putBarrier (b := trippedBarrier (arriveBarrier t nv b)) hid s.barriers
    exact ⟨_, hdone, hother, fun _ => ⟨rfl, hsame⟩, fun hwait => absurd hcount hwait⟩
  · rw [resolveBarrier_waits (b := b) (called_proc_cur hr.proc t Q) rfl hnew hcount] at hdone
    obtain ⟨hsame, hother⟩ := findBarrier_putBarrier (b := arriveBarrier t nv b) hid s.barriers
    exact ⟨_, hdone, hother, fun htrip => absurd htrip hcount,
      fun _ => ⟨rfl, _, insertId_perm hnew, insertId_ascending hasc, hsame⟩⟩

end Sys2Proof.Machine
end

section
/-! SUPPORT. The SYSTEM and SPECIAL instructions that end, suspend, create or await a thread (45_system_special.md R261,
R262, R265, R266): what the resolution of each effect gives, in the terms of Safety.lean. -/

namespace Sys2Proof.Machine

/-! ### HALT (R261, 49_environment.md R371) -/

/-- A thread that a termination hands a lock to waits in that lock's queue. -/
theorem mem_parked_of_handoffs {s : State} {u t : Nat} (h : u ∈ handoffs t s.locks) : u ∈ parked s := by
  obtain ⟨l, hl, hhead⟩ := List.mem_filterMap.1 h
  have hu : u ∈ l.queue := by
    split at hhead
    · exact List.mem_of_mem_head? hhead
    · cases hhead
  exact List.mem_append_left _ (List.mem_append_left _ (List.mem_flatMap.2 ⟨l, hl, hu⟩))

/-- A thread that waits for another to end is parked with it. -/
theorem mem_parked_of_joiners {s : State} {u t : Nat} {T : Thread} (hT : s.threads[t]? = some T)
    (h : u ∈ T.joiners) : u ∈ parked s :=
  List.mem_append_right _ (List.mem_flatMap.2 ⟨T, List.mem_of_getElem? hT, h⟩)

theorem joinersOf_eq {s : State} {t : Nat} {T : Thread} (hT : s.threads[t]? = some T) :
    joinersOf t s = sortIds T.joiners := by
  simp only [joinersOf, hT]

/-- A thread that is parked nowhere is not woken by its own termination. -/
theorem not_mem_wakes {s : State} {t : Nat} {T : Thread} (hT : s.threads[t]? = some T) (h : t ∉ parked s) :
    t ∉ wakes t s := by
  rw [wakes, joinersOf_eq hT, List.mem_append, mem_sortIds]
  rintro (hlock | hjoin)
  · exact h (mem_parked_of_handoffs hlock)
  · exact h (mem_parked_of_joiners hT hjoin)

/-- A termination is what `ended` says, as it does not make its own thread READY again. -/
theorem terminate_eq_ended {s : State} {p t : Nat} {P : Proc} {T : Thread} (hP : s.procs[p]? = some P)
    (hT : s.threads[t]? = some T) (h : t ∉ parked s) : terminate p t s = ended p t P T s := by
  have hwakes : wakes t s = handoffs t s.locks ++ sortIds T.joiners := by rw [wakes, joinersOf_eq hT]
  have hself : t ∉ handoffs t s.locks ++ sortIds T.joiners := hwakes ▸ not_mem_wakes hT h
  have hlt : t < s.threads.length := (List.getElem?_eq_some_iff.1 hT).1
  rw [terminate_eq hP, hwakes]
  simp only [ended, leaving, State.modThread, State.mk.injEq, true_and, and_true]
  apply List.ext_getElem?
  intro u
  rw [List.getElem?_modify, woken_getElem?, List.getElem?_modify, List.getElem?_set]
  by_cases hu : t = u
  · subst hu
    rw [hT]
    simp [hself, hlt]
  · simp [hu, woken_getElem?]

/-- Counting an instruction parks and frees no thread. -/
theorem parked_called (s : State) (t : Nat) (Q : Proc) : parked (called s t Q) = parked s :=
  parked_modThread (f := countOne) (fun _ => rfl) t s

/-- The record of a running thread after its call. -/
theorem called_thread {s : State} {t : Nat} {T : Thread} (hT : s.threads[t]? = some T) (Q : Proc) :
    (called s t Q).threads[t]? = some (countOne T) := by
  rw [called_threads, List.getElem?_modify, hT]
  simp

/-- Settles O41: the call advances PC, and its one effect terminates a thread that waits nowhere. -/
theorem haltResult : Obligations.HaltResult := by
  intro h s P t T hr hm hfree Q
  have hdone : exec (.halt h) s = .next (terminate s.cur t (called s t Q)) :=
    exec_done (i := .halt h) hr hm rfl
  rw [hdone, terminate_eq_ended (called_proc_cur hr.proc t Q) (called_thread hr.record Q)
    ((parked_called s t Q).symm ▸ hfree)]

/-! ### YIELD (R262, 49_environment.md R367) -/

/-- A thread suspended and unblocked at once is READY at the tail, and its processor is free. -/
theorem resolveYield_eq {s : State} {p : Nat} {P : Proc} (hP : s.procs[p]? = some P) (t : Nat) :
    resolveYield p t s = { leaving p t .ready P s with ready := s.ready ++ [t] } := by
  rw [resolveYield, suspend, takeOff_eq_leaving hP]
  simp only [unblock, State.modThread, leaving, List.modify_modify_eq]
  rfl

/-- Settles O42: the call advances PC, and its one effect moves the thread to the tail of the ready queue. -/
theorem yieldResult : Obligations.YieldResult := by
  intro h s P t T hr hm Q
  have hdone : exec (.yield h) s = .next (resolveYield s.cur t (called s t Q)) :=
    exec_done (i := .yield h) hr hm rfl
  rw [hdone, resolveYield_eq (called_proc_cur hr.proc t Q), called_ready]

/-! ### SPAWN (R265, 49_environment.md R354, R368) -/

theorem progOf_called {s : State} {t : Nat} {T : Thread} (hT : s.threads[t]? = some T) (Q : Proc) :
    (called s t Q).progOf t = T.prog := by
  simp only [State.progOf, called_thread hT, countOne]

/-- Creating a thread does not see a change of a processor. -/
theorem createThread_modRegs (g : Nat) (R : RegSet) (o : Option Nat) (p : Nat) (f : RegSet → RegSet) (s : State) :
    (createThread g R o s).modRegs p f = createThread g R o (s.modRegs p f) := rfl

/-- After a call a spawn creates the child of the same Program and level, and its id goes to the result register. -/
theorem resolveSpawn_called {s : State} {P : Proc} {t : Nat} {T : Thread} (hr : Running s P t T) (Q : Proc)
    (func arg : Word) (rd : Reg) :
    resolveSpawn s.cur t func arg rd (called s t Q) =
      createThread T.prog (childContext func arg Q.regs.priv) (some t)
        (called s t { Q with regs := writeReg Q.regs rd (BitVec.ofNat 32 s.threadCounter) }) := by
  rw [resolveSpawn, progOf_called hr.record, State.regsOf_eq (called_proc_cur hr.proc t Q), createThread_modRegs,
    modRegs_called hr.proc, called_threadCounter]

/-- Settles O43: the argument is read before the result register is written, and the child is the record
`create_thread` appends. -/
theorem spawnResult : Obligations.SpawnResult := by
  intro h func arg rd s P t T hr hm v Q child
  have hdone : exec (.spawn h func arg rd) s = .next (resolveSpawn s.cur t func v rd
      (called s t (accepted h { P.regs with pc := P.regs.pc + 1 } [.spawn func v rd] P))) :=
    exec_done (i := .spawn h func arg rd) hr hm rfl
  rw [hdone, resolveSpawn_called hr]
  rfl

/-! ### JOIN (R266, 49_environment.md R370) -/

section
variable {s : State} {P : Proc} {j : Word} {J : Thread}

theorem resolveJoin_terminated (hJ : s.threads[j.toNat]? = some J) (hended : J.state = .terminated) (p t : Nat) :
    resolveJoin p t j s = s.modProc p fun P => { P with state := .running } := by
  simp only [resolveJoin, hJ, if_pos hended]

theorem resolveJoin_waits {p : Nat} (hP : s.procs[p]? = some P) (hJ : s.threads[j.toNat]? = some J)
    (hlive : J.state ≠ .terminated) (t : Nat) :
    resolveJoin p t j s = leaving p t .waiting P
      { s with threads := s.threads.modify j.toNat fun U => { U with joiners := U.joiners ++ [t] } } := by
  simp only [resolveJoin, hJ, if_neg hlive]
  refine takeOff_eq_leaving ?_ t .waiting
  exact hP

theorem resolveJoin_unknown (h : s.threads.length ≤ j.toNat) (p t : Nat) :
    resolveJoin p t j s = vmFail p t .joinNonexistentThread j s := by
  simp only [resolveJoin, List.getElem?_eq_none h]

/-- What a JOIN gives after its call does not hang on the state the call left its processor in. -/
theorem resolveJoin_called_modState (hP : s.procs[s.cur]? = some P) (t : Nat) (j : Word) (Q : Proc)
    (x : ProcState) :
    resolveJoin s.cur t j (called s t { Q with state := x }) = resolveJoin s.cur t j (called s t Q) := by
  rw [← called_modState hP, resolveJoin_modState]

/-- Counting an instruction changes no thread's state. -/
theorem called_thread_state {u : Nat} (hJ : s.threads[u]? = some J) (t : Nat) (Q : Proc) :
    ∃ J', (called s t Q).threads[u]? = some J' ∧ J'.state = J.state := by
  rw [called_threads, List.getElem?_modify, hJ]
  refine ⟨_, rfl, ?_⟩
  by_cases hu : t = u <;> simp [hu, countOne]

end

/-- Settles O44: a case split on the target's record. The call leaves the processor WAITING, and the effect, which does
not hang on that, makes it RUNNING again, frees it, or fails. -/
theorem joinResult : Obligations.JoinResult := by
  intro h o s P t T hr hm j Q
  have hdone : exec (.join h o) s = .next (resolveJoin s.cur t j (called s t { Q with state := .waiting })) :=
    exec_done (i := .join h o) (P₀ := { P with state := .waiting }) (R := P.regs) hr hm rfl
  refine ⟨fun J hJ hended => ?_, fun J hJ hlive => ?_, fun hnone => ?_⟩
  · obtain ⟨J', hJ', hstate⟩ := called_thread_state hJ t { Q with state := .waiting }
    rw [hdone, resolveJoin_terminated hJ' (hstate.trans hended), called_modState hr.proc]
  · obtain ⟨J', hJ', hstate⟩ := called_thread_state hJ t Q
    have hlive' : J'.state ≠ .terminated := fun e => hlive (hstate.symm.trans e)
    rw [hdone, resolveJoin_called_modState hr.proc, resolveJoin_waits (called_proc_cur hr.proc t Q) hJ' hlive']
  · have hnone' : (called s t { Q with state := .waiting }).threads.length ≤ j.toNat := by
      rwa [called_threads, List.length_modify]
    rw [hdone, resolveJoin_unknown hnone']

end Sys2Proof.Machine
end

section
/-! SUPPORT. The line a cache holds (46_cache_ops.md R281, R285): what `Lookup` answers after one slot was replaced, and
what each bus message leaves of a line (R289 to R291, R294). -/

namespace Sys2Proof.Machine

/-! ### The slot that holds a line -/

/-- The slot of a cache that holds the line of address a. -/
def lineSlot (c : Config) (k : Cache) (a : Nat) : Option CacheSlot :=
  (lookup c k a).map (slotOf k (setIndex c a))

theorem lineStateIn_eq (c : Config) (k : Cache) (a : Nat) :
    lineStateIn c k a = (lineSlot c k a).elim .invalid fun sl => sl.state := by
  rw [lineStateIn, lineSlot]
  cases lookup c k a <;> rfl

theorem lineDataIn_eq (c : Config) (k : Cache) (a : Nat) :
    lineDataIn c k a = (lineSlot c k a).elim [] fun sl => sl.data := by
  rw [lineDataIn, lineSlot]
  cases lookup c k a <;> rfl

theorem lineStateIn_of_lookup {c : Config} {k : Cache} {a w : Nat} (h : lookup c k a = some w) :
    lineStateIn c k a = (slotOf k (setIndex c a) w).state := by
  rw [lineStateIn, h]

theorem lineDataIn_of_lookup {c : Config} {k : Cache} {a w : Nat} (h : lookup c k a = some w) :
    lineDataIn c k a = (slotOf k (setIndex c a) w).data := by
  rw [lineDataIn, h]

theorem lineStateIn_of_lookup_none {c : Config} {k : Cache} {a : Nat} (h : lookup c k a = none) :
    lineStateIn c k a = .invalid := by
  rw [lineStateIn, h]

/-- The slot `Lookup` answers is valid. -/
theorem slotOf_lookup_valid {c : Config} {k : Cache} {a w : Nat} (h : lookup c k a = some w) :
    (slotOf k (setIndex c a) w).state ≠ .invalid := by
  obtain ⟨hw, hv, -⟩ := lookup_some h
  rwa [slotOf_eq hw]

theorem lineStateIn_eq_invalid_iff {c : Config} {k : Cache} {a : Nat} :
    lineStateIn c k a = .invalid ↔ lookup c k a = none := by
  cases h : lookup c k a with
  | none => simp [lineStateIn_of_lookup_none h]
  | some w => simp [lineStateIn_of_lookup h, slotOf_lookup_valid h]

theorem lineSlot_of_noHolder {c : Config} {k : Cache} {a : Nat} (h : NoHolder k (lineAddr c a)) :
    lineSlot c k a = none := by
  rw [lineSlot, Option.map_eq_none_iff]
  cases hl : lookup c k a with
  | none => rfl
  | some w =>
    obtain ⟨hw, hv, ha⟩ := lookup_some hl
    exact absurd ha (h _ (mem_slots_of_mem_setOf (List.getElem_mem hw)) hv)

/-- The slot that holds a line does not hang on the use counter. -/
theorem lineSlot_of_sets {c : Config} {k k' : Cache} (h : k'.sets = k.sets) (a : Nat) :
    lineSlot c k' a = lineSlot c k a := by
  obtain ⟨sets, n⟩ := k'
  subst h
  rfl

/-- The slot that holds a line is the only one (10_state.md R40 I4). -/
theorem lineSlot_of_holder {c : Config} {k : Cache} (hc : c.ok = true) (hk : CacheOk c k) {a : Nat} {sl : CacheSlot}
    (hs : sl ∈ slots k) (hv : sl.state ≠ .invalid) (ha : sl.addr = lineAddr c a) : lineSlot c k a = some sl := by
  obtain ⟨w, hl⟩ := lookup_of_holder hc hk hs hv ha
  obtain ⟨hs', hv', ha', -⟩ := lookup_slot hc hk hl
  rw [lineSlot, hl, Option.map_some, slot_unique hk hs' hs hv' hv (ha'.trans ha.symm)]

/-! ### One slot replaced -/

theorem slotOf_putSlot_self {k : Cache} {si w : Nat} (hw : w < (setOf k si).length) (x : CacheSlot) :
    slotOf (putSlot k si w x) si w = x := by
  rw [slotOf_eq (by rwa [setOf_putSlot_length])]
  simp [setOf_putSlot]

theorem findIdx?_set_self {α : Type} {p : α → Bool} {l : List α} {w : Nat} {x : α} (hw : w < l.length)
    (h : l.findIdx? p = none ∨ l.findIdx? p = some w) (hx : p x = true) : (l.set w x).findIdx? p = some w := by
  rw [List.findIdx?_eq_some_iff_getElem]
  refine ⟨by rwa [List.length_set], by simpa using hx, fun j hj => ?_⟩
  rw [List.getElem_set_ne (Nat.ne_of_gt hj)]
  rcases h with h | h
  · simpa using List.findIdx?_eq_none_iff.1 h _ (List.getElem_mem _)
  · exact (List.findIdx?_eq_some_iff_getElem.1 h).2.2 j hj

/-- A slot of the line, put where the line is or, if it is nowhere, into any way of its set, is found there. -/
theorem lookup_putSlot_self {c : Config} {k : Cache} {a w : Nat} {x : CacheSlot}
    (hw : w < (setOf k (setIndex c a)).length) (h : lookup c k a = none ∨ lookup c k a = some w)
    (hv : x.state ≠ .invalid) (ha : x.addr = lineAddr c a) :
    lookup c (putSlot k (setIndex c a) w x) a = some w := by
  rw [lookup, setOf_putSlot, if_pos rfl]
  exact findIdx?_set_self hw h (by simp [holdsLine, hv, ha])

theorem lineSlot_putSlot_self {c : Config} {k : Cache} {a w : Nat} {x : CacheSlot}
    (hw : w < (setOf k (setIndex c a)).length) (h : lookup c k a = none ∨ lookup c k a = some w)
    (hv : x.state ≠ .invalid) (ha : x.addr = lineAddr c a) :
    lineSlot c (putSlot k (setIndex c a) w x) a = some x := by
  rw [lineSlot, lookup_putSlot_self hw h hv ha, Option.map_some, slotOf_putSlot_self hw]

/-- A slot of the line of a, put where that line is, is the line's slot, whatever the use counter. -/
theorem lineStateIn_putSlot_self {c : Config} {k k' : Cache} {a w : Nat} {x : CacheSlot}
    (hsets : k'.sets = (putSlot k (setIndex c a) w x).sets)
    (hw : w < (setOf k (setIndex c a)).length) (h : lookup c k a = none ∨ lookup c k a = some w)
    (hv : x.state ≠ .invalid) (ha : x.addr = lineAddr c a) : lineStateIn c k' a = x.state := by
  rw [lineStateIn_eq, lineSlot_of_sets hsets, lineSlot_putSlot_self hw h hv ha, Option.elim_some]

/-- A line that neither the new slot nor the one replaced holds stays where it is. -/
theorem lineSlot_putSlot_other {c : Config} {k : Cache} (hc : c.ok = true) (hk : CacheOk c k) {si w a : Nat}
    {x : CacheSlot} (hk' : CacheOk c (putSlot k si w x)) (hold : (slotOf k si w).addr ≠ lineAddr c a)
    (hx : x.addr ≠ lineAddr c a) : lineSlot c (putSlot k si w x) a = lineSlot c k a := by
  cases hl : lookup c k a with
  | none =>
    have hno := noHolder_of_lookup_none hc hk hl
    have hno' : NoHolder (putSlot k si w x) (lineAddr c a) := by
      intro sl hsl hv
      rcases mem_slots_putSlot hk hsl with rfl | ⟨hsl, -⟩
      · exact hx
      · exact hno sl hsl hv
    rw [lineSlot_of_noHolder hno, lineSlot_of_noHolder hno']
  | some v =>
    obtain ⟨hs, hv, ha, -⟩ := lookup_slot hc hk hl
    have hs' := mem_slots_putSlot_of_ne (x := x) hs fun e => hold (e ▸ ha)
    rw [lineSlot_of_holder hc hk hs hv ha, lineSlot_of_holder hc hk' hs' hv ha]

/-! ### What no bus message changes (R294) -/

/-- k' is k but for the state and the dirty bit of line `la`. -/
structure SnoopKeeps (c : Config) (k : Cache) (la : Nat) (k' : Cache) : Prop where
  ok     : CacheOk c k'
  useCtr : k'.useCtr = k.useCtr
  fields : (k'.sets.map fun set => set.map fun sl => (sl.addr, sl.data, sl.lastUse)) =
    (k.sets.map fun set => set.map fun sl => (sl.addr, sl.data, sl.lastUse))
  others : ∀ a, lineAddr c a ≠ lineAddr c la → lineSlot c k' a = lineSlot c k a

theorem SnoopKeeps.refl {c : Config} {k : Cache} (hk : CacheOk c k) (la : Nat) : SnoopKeeps c k la k :=
  ⟨hk, rfl, rfl, fun _ _ => rfl⟩

/-- Replacing a slot by one that agrees with it under f changes nothing of what f gives of each slot. -/
theorem map_sets_putSlot {α : Type} (f : CacheSlot → α) {k : Cache} {si w : Nat} {x : CacheSlot}
    (hx : f x = f (slotOf k si w)) :
    (putSlot k si w x).sets.map (List.map f) = k.sets.map (List.map f) := by
  refine List.ext_getElem (by simp) fun i h₁ h₂ => ?_
  simp only [List.length_map] at h₂
  simp only [putSlot, List.getElem_map, List.getElem_modify]
  split
  · subst_vars
    have hset : setOf k i = k.sets[i] := by simp [setOf, List.getD_eq_getElem?_getD, h₂]
    rw [List.map_set]
    by_cases hw : w < (setOf k i).length
    · rw [hx, slotOf_eq hw]
      simp only [hset]
      rw [← List.getElem_map f (h := by simpa [← hset] using hw), List.set_getElem_self]
    · exact List.set_eq_of_length_le (by simpa [← hset] using hw)
  · rfl

/-- Changing the state and the dirty bit of the slot that holds a line. -/
theorem snoopKeeps_putSlot {c : Config} {k : Cache} (hc : c.ok = true) (hk : CacheOk c k) {la w : Nat}
    (hl : lookup c k la = some w) {st : Mesi} {b : Bool} (hb : b = decide (st = .modified)) :
    SnoopKeeps c k la
      (putSlot k (setIndex c la) w { slotOf k (setIndex c la) w with state := st, dirty := b }) := by
  obtain ⟨-, hv, ha, hplaced, -⟩ := lookup_slot hc hk hl
  have hok := cacheOk_putSlot hk (slotFits_of_lookup
    (x := { slotOf k (setIndex c la) w with state := st, dirty := b }) hc hk hl ha (fun _ => (hplaced hv).2.2.2) hb)
  refine ⟨hok, rfl, map_sets_putSlot _ rfl, fun a hne => ?_⟩
  have hother : (slotOf k (setIndex c la) w).addr ≠ lineAddr c a := fun e => hne (e.symm.trans ha)
  exact lineSlot_putSlot_other hc hk hok hother hother

/-! ### The three messages -/

theorem handleBusInvalidate_none {c : Config} {k : Cache} {la : Nat} (h : lookup c k la = none) :
    handleBusInvalidate c k la = k := by
  rw [handleBusInvalidate, h]

theorem handleBusInvalidate_some {c : Config} {k : Cache} {la w : Nat} (h : lookup c k la = some w) :
    handleBusInvalidate c k la = if (slotOf k (setIndex c la) w).state = .modified then k
      else putSlot k (setIndex c la) w (clearedSlot (slotOf k (setIndex c la) w)) := by
  rw [handleBusInvalidate, h]

section
variable {c : Config} {k : Cache} (hc : c.ok = true) (hk : CacheOk c k) (la : Nat)
include hc hk

theorem handleBusRead_snoopKeeps : SnoopKeeps c k la (handleBusRead c k la).2 := by
  cases hl : lookup c k la with
  | none => rw [handleBusRead_none hl]; exact .refl hk la
  | some w => rw [handleBusRead_some hl]; exact snoopKeeps_putSlot hc hk hl rfl

theorem handleBusReadExclusive_snoopKeeps : SnoopKeeps c k la (handleBusReadExclusive c k la).2 := by
  cases hl : lookup c k la with
  | none => rw [handleBusReadExclusive_none hl]; exact .refl hk la
  | some w => rw [handleBusReadExclusive_some hl]; exact snoopKeeps_putSlot hc hk hl rfl

theorem handleBusInvalidate_snoopKeeps : SnoopKeeps c k la (handleBusInvalidate c k la) := by
  cases hl : lookup c k la with
  | none => rw [handleBusInvalidate_none hl]; exact .refl hk la
  | some w =>
    rw [handleBusInvalidate_some hl]
    split
    · exact .refl hk la
    · exact snoopKeeps_putSlot hc hk hl rfl

/-- The line cleared is INVALID. -/
theorem lineStateIn_clearedSlot {w : Nat} (hl : lookup c k la = some w) :
    lineStateIn c (putSlot k (setIndex c la) w (clearedSlot (slotOf k (setIndex c la) w))) la = .invalid := by
  rw [lineStateIn_eq, lineSlot_of_noHolder (noHolder_clearedSlot hc hk hl), Option.elim_none]

end

/-- A bus read leaves a held line SHARED with its data (R289). -/
theorem lineSlot_handleBusRead {c : Config} {k : Cache} (la : Nat) :
    lineSlot c (handleBusRead c k la).2 la = (lineSlot c k la).map sharedSlot := by
  cases hl : lookup c k la with
  | none => rw [handleBusRead_none hl, lineSlot, hl]; rfl
  | some w =>
    obtain ⟨hw, -, ha⟩ := lookup_some hl
    rw [← slotOf_eq hw] at ha
    rw [handleBusRead_some hl, lineSlot_putSlot_self (x := sharedSlot _) hw (.inr hl) (by simp [sharedSlot]) ha,
      lineSlot, hl]
    rfl

theorem lineStateIn_handleBusRead (c : Config) (k : Cache) (la : Nat) :
    lineStateIn c (handleBusRead c k la).2 la = if lineStateIn c k la = .invalid then .invalid else .shared := by
  rw [lineStateIn_eq, lineSlot_handleBusRead]
  cases hl : lookup c k la with
  | none => simp [lineStateIn_of_lookup_none hl, lineSlot, hl]
  | some w => simp [lineStateIn_of_lookup hl, slotOf_lookup_valid hl, lineSlot, hl, sharedSlot]

theorem lineDataIn_handleBusRead (c : Config) (k : Cache) (la : Nat) :
    lineDataIn c (handleBusRead c k la).2 la = lineDataIn c k la := by
  rw [lineDataIn_eq, lineSlot_handleBusRead, lineDataIn_eq]
  cases lineSlot c k la <;> rfl

/-- What a bus read returns (R289). -/
theorem handleBusRead_reply (c : Config) (k : Cache) (la : Nat) :
    (handleBusRead c k la).1 = if lineStateIn c k la = .invalid then none
      else some (lineDataIn c k la, decide (lineStateIn c k la = .modified)) := by
  cases hl : lookup c k la with
  | none => rw [handleBusRead_none hl, if_pos (lineStateIn_of_lookup_none hl)]
  | some w =>
    rw [handleBusRead_some hl, lineStateIn_of_lookup hl, lineDataIn_of_lookup hl, if_neg (slotOf_lookup_valid hl)]
    rfl

/-- What a read-exclusive returns (R290). -/
theorem handleBusReadExclusive_reply (c : Config) (k : Cache) (la : Nat) :
    (handleBusReadExclusive c k la).1 = if lineStateIn c k la = .invalid then .notHeld
      else if lineStateIn c k la = .modified then .heldDirty (lineDataIn c k la) else .heldClean := by
  cases hl : lookup c k la with
  | none => rw [handleBusReadExclusive_none hl, if_pos (lineStateIn_of_lookup_none hl)]
  | some w =>
    rw [handleBusReadExclusive_some hl, lineStateIn_of_lookup hl, lineDataIn_of_lookup hl,
      if_neg (slotOf_lookup_valid hl)]

theorem lineStateIn_handleBusReadExclusive {c : Config} {k : Cache} (hc : c.ok = true) (hk : CacheOk c k) (la : Nat) :
    lineStateIn c (handleBusReadExclusive c k la).2 la = .invalid := by
  cases hl : lookup c k la with
  | none => rw [handleBusReadExclusive_none hl, lineStateIn_of_lookup_none hl]
  | some w => rw [handleBusReadExclusive_some hl, lineStateIn_clearedSlot hc hk la hl]

/-- "MODIFIED blocks invalidation" (R291). -/
theorem handleBusInvalidate_of_modified {c : Config} {k : Cache} {la : Nat} (h : lineStateIn c k la = .modified) :
    handleBusInvalidate c k la = k := by
  cases hl : lookup c k la with
  | none => exact handleBusInvalidate_none hl
  | some w =>
    rw [lineStateIn_of_lookup hl] at h
    rw [handleBusInvalidate_some hl, if_pos h]

theorem lineStateIn_handleBusInvalidate {c : Config} {k : Cache} (hc : c.ok = true) (hk : CacheOk c k) (la : Nat) :
    lineStateIn c (handleBusInvalidate c k la) la =
      if lineStateIn c k la = .modified then .modified else .invalid := by
  by_cases hm : lineStateIn c k la = .modified
  · rw [handleBusInvalidate_of_modified hm, if_pos hm, hm]
  rw [if_neg hm]
  cases hl : lookup c k la with
  | none => rw [handleBusInvalidate_none hl, lineStateIn_of_lookup_none hl]
  | some w =>
    rw [lineStateIn_of_lookup hl] at hm
    rw [handleBusInvalidate_some hl, if_neg hm, lineStateIn_clearedSlot hc hk la hl]

/-- Settles O53: message by message, by what `Lookup` answers. -/
theorem snoopTransitions : Obligations.SnoopTransitions := by
  intro c k la hc hk st d k1 k2 k3
  refine ⟨handleBusRead_reply c k la, lineStateIn_handleBusRead c k la, handleBusReadExclusive_reply c k la,
    lineStateIn_handleBusReadExclusive hc hk la, lineStateIn_handleBusInvalidate hc hk la,
    handleBusInvalidate_of_modified, fun hst => ?_, lineDataIn_handleBusRead c k la, fun k' hk' => ?_⟩
  · have hl := lineStateIn_eq_invalid_iff.1 hst
    exact ⟨congrArg Prod.snd (handleBusRead_none hl), congrArg Prod.snd (handleBusReadExclusive_none hl),
      handleBusInvalidate_none hl⟩
  · have hkeep : SnoopKeeps c k la k' := by
      rcases hk' with rfl | rfl | rfl
      · exact handleBusRead_snoopKeeps hc hk la
      · exact handleBusReadExclusive_snoopKeeps hc hk la
      · exact handleBusInvalidate_snoopKeeps hc hk la
    refine ⟨hkeep.ok, hkeep.useCtr, hkeep.fields, fun a hne => ?_⟩
    simp only [lineStateIn_eq, lineDataIn_eq, hkeep.others a hne, and_self]

/-- Settles O54: the scenario is one run of a fixed cache. -/
theorem evictionScenario : Obligations.EvictionScenario := by
  unfold Obligations.EvictionScenario
  decide

end Sys2Proof.Machine
end

section
/-! SUPPORT. `FlushAll` (46_cache_ops.md R292) as one fold over the slots of every cache: it keeps the newest words of
every line, and main memory has them afterwards. -/

namespace Sys2Proof.Machine

theorem flushCache_eq_foldl_slots (m : Memory) (k : Cache) : flushCache m k = (slots k).foldl flushSlot m := by
  rw [flushCache, slots, List.foldl_flatten]

/-- `FlushAll` writes back slot after slot, cache after cache. -/
theorem foldl_flushCache (ks : List Cache) (m : Memory) :
    ks.foldl flushCache m = (ks.flatMap slots).foldl flushSlot m := by
  rw [List.foldl_flatMap]
  exact congrArg (fun f => ks.foldl f m) (funext₂ flushCache_eq_foldl_slots)

/-- Main memory has the newest words of line `la`. -/
def MemoryCurrent (s : State) (la : Nat) : Prop := memLineRead s.mem la s.cfg.lineWords = newestLine s la

/-- Main memory has the newest words of a line that no cache holds MODIFIED. -/
theorem memoryCurrent_of_modifiedSlot_none {s : State} {la : Nat} (h : modifiedSlot s la = none) :
    MemoryCurrent s la := by
  rw [MemoryCurrent, newestLine, h]

section
variable {s : State} (h : Coherent s) {q : Nat} {k : Cache} (hq : s.caches[q]? = some k) {sl : CacheSlot}
  (hs : sl ∈ slots k)
include h hq hs

/-- Writing back a MODIFIED slot makes main memory current at its line. -/
theorem memoryCurrent_flushSlot_self (hc : s.cfg.coherence = true) (hm : sl.state = .modified) :
    MemoryCurrent { s with mem := flushSlot s.mem sl } sl.addr := by
  rw [MemoryCurrent, newestLine_of_modified (coherent_flushSlot h hq hs) hq hs hm]
  exact (flushSlot_current h hc hq hs (by simp [hm])).symm

/-- Writing back a slot leaves main memory current where it is. -/
theorem memoryCurrent_flushSlot (hc : s.cfg.coherence = true) {la : Nat} (hla : la % s.cfg.lineSize = 0)
    (hcur : MemoryCurrent s la) : MemoryCurrent { s with mem := flushSlot s.mem sl } la := by
  by_cases hm : sl.state = .modified
  · by_cases ha : sl.addr = la
    · exact ha ▸ memoryCurrent_flushSlot_self h hq hs hc hm
    · obtain ⟨hal, hd⟩ := h.slot_line hq hs (by simp [hm])
      have hdis := lines_disjoint hla hal (Ne.symm ha)
      rw [← four_mul_lineWords h.configOk] at hdis
      rw [MemoryCurrent, sameLines_flushSlot h hq hs la hla, ← hcur, flushSlot, if_pos hm]
      exact memLineRead_memLineWrite_other h.memWf _ la (hd ▸ hdis)
  · rwa [flushSlot, if_neg hm]

end

/-- Writing back slots of the caches keeps the newest words of every line, and makes main memory current where one of
them is MODIFIED. -/
theorem foldl_flushSlot_current (sls : List CacheSlot) : ∀ {s : State}, Coherent s → s.cfg.coherence = true →
    (∀ sl ∈ sls, sl ∈ s.caches.flatMap slots) → ∀ {la : Nat}, la % s.cfg.lineSize = 0 →
    (MemoryCurrent s la ∨ ∃ sl ∈ sls, sl.state = .modified ∧ sl.addr = la) →
    newestLine { s with mem := sls.foldl flushSlot s.mem } la = newestLine s la ∧
      MemoryCurrent { s with mem := sls.foldl flushSlot s.mem } la := by
  induction sls with
  | nil =>
    intro s h hc hsub la hla hcur
    exact ⟨rfl, by simpa using hcur⟩
  | cons sl sls ih =>
    intro s h hc hsub la hla hcur
    obtain ⟨k, hk, hs⟩ := List.mem_flatMap.1 (hsub sl List.mem_cons_self)
    obtain ⟨q, hq⟩ := List.mem_iff_getElem?.1 hk
    have hcur' : MemoryCurrent { s with mem := flushSlot s.mem sl } la ∨
        ∃ b ∈ sls, b.state = .modified ∧ b.addr = la := by
      rcases hcur with hcur | ⟨b, hb, hm, rfl⟩
      · exact .inl (memoryCurrent_flushSlot h hq hs hc hla hcur)
      · rcases List.mem_cons.1 hb with rfl | hb
        · exact .inl (memoryCurrent_flushSlot_self h hq hs hc hm)
        · exact .inr ⟨b, hb, hm, rfl⟩
    obtain ⟨hnew, hfin⟩ := ih (s := { s with mem := flushSlot s.mem sl }) (coherent_flushSlot h hq hs) hc
      (fun b hb => hsub b (List.mem_cons_of_mem _ hb)) hla hcur'
    exact ⟨hnew.trans (sameLines_flushSlot h hq hs la hla), hfin⟩

theorem flushAll_eq {s : State} (hc : s.cfg.coherence = true) :
    flushAll s = { s with mem := (s.caches.flatMap slots).foldl flushSlot s.mem } := by
  rw [flushAll, if_pos hc, foldl_flushCache]

theorem flushAll_flat {s : State} (hc : s.cfg.coherence = false) : flushAll s = s := by
  simp [flushAll, hc]

/-- After `FlushAll` main memory has the newest words of every line. -/
theorem memLineRead_flushAll {s : State} (h : Coherent s) (hc : s.cfg.coherence = true) {la : Nat}
    (hla : la % s.cfg.lineSize = 0) : memLineRead (flushAll s).mem la s.cfg.lineWords = newestLine s la := by
  have hstart : MemoryCurrent s la ∨ ∃ sl ∈ s.caches.flatMap slots, sl.state = .modified ∧ sl.addr = la := by
    cases e : modifiedSlot s la with
    | none => exact .inl (memoryCurrent_of_modifiedSlot_none e)
    | some sl =>
      obtain ⟨q, k, hq, hs, hm, ha⟩ := modifiedSlot_some e
      exact .inr ⟨sl, List.mem_flatMap.2 ⟨k, List.mem_of_getElem? hq, hs⟩, hm, ha⟩
  obtain ⟨hnew, hcur⟩ := foldl_flushSlot_current _ h hc (fun _ hsl => hsl) hla hstart
  rw [flushAll_eq hc]
  exact hcur.trans hnew

/-- Settles O50, by the newest words of the word's line; without coherence there is nothing to write back. -/
theorem flushMakesMemoryCurrent : Obligations.FlushMakesMemoryCurrent := by
  intro s h
  rw [hostFlushAll]
  cases hc : s.cfg.coherence with
  | false =>
    rw [flushAll_flat hc]
    exact ⟨rfl, fun a _ _ => (coherentWord_flat hc a).symm⟩
  | true =>
    refine ⟨by rw [flushAll_eq hc], fun a ha _ => ?_⟩
    have hok := h.configOk
    rw [coherentWord_eq_newestLine hok hc ha, ← memLineRead_flushAll h hc (lineAddr_mod _ _),
      memLineRead_getD _ _ _ _ (wordIndex_lt hok a), lineAddr_add_wordIndex hok ha]

end Sys2Proof.Machine
end

section
/-! SUPPORT. The local rows of the MESI table (46_cache_ops.md R280, R285, 47_bus_ops.md R330 to R332): what `DataRead`
and `DataWrite` submit to the bus, and the state in which they leave the line in every cache. -/

namespace Sys2Proof.Machine

/-! ### The requests of one access (R41, R326) -/

/-- From b to b' the queue has grown by requests of processor p and thread id `tid`. -/
def QueuesFor (p : Nat) (tid : Option Nat) (b b' : Bus) : Prop :=
  ∃ new, b'.queue = b.queue ++ new ∧ ∀ r ∈ new, r.pid = p ∧ r.tid = tid

section
variable {p : Nat} {tid : Option Nat} {b b' b'' : Bus}

theorem QueuesFor.of_eq (h : b' = b) : QueuesFor p tid b b' := ⟨[], by simp [h], by simp⟩

theorem QueuesFor.trans (h : QueuesFor p tid b b') (h' : QueuesFor p tid b' b'') : QueuesFor p tid b b'' := by
  obtain ⟨new, hq, hnew⟩ := h
  obtain ⟨new', hq', hnew'⟩ := h'
  refine ⟨new ++ new', by rw [hq', hq, List.append_assoc], fun r hr => ?_⟩
  exact (List.mem_append.1 hr).elim (hnew r) (hnew' r)

/-- The requests queued before stand first, and the later ones are the access's own. -/
theorem QueuesFor.queue_and_new (h : QueuesFor p tid b b') :
    b.queue <+: b'.queue ∧ ∀ r ∈ b'.queue.drop b.queue.length, r.pid = p ∧ r.tid = tid := by
  obtain ⟨new, hq, hnew⟩ := h
  rw [hq, List.drop_left]
  exact ⟨⟨new, rfl⟩, hnew⟩

end

theorem submit_queuesFor (op : BusOp) (la p : Nat) (tid : Option Nat) (payload : Option (List Word)) (s : State) :
    QueuesFor p tid s.bus (submit op la p tid payload s).2.bus :=
  ⟨[⟨op, la, p, tid, payload, false, (submit op la p tid payload s).1, s.cfg.busLatency⟩], by rw [submit_bus],
    by simp⟩

/-- What an installation makes of the bus: nothing, or one write-back of the access (R332). -/
theorem install_bus (p la : Nat) (d : List Word) (st : Mesi) (tid : Option Nat) (s : State) :
    (install p la d st tid s).bus = s.bus ∨ ∃ la' payload s₀, s₀.bus = s.bus ∧
      (install p la d st tid s).bus = (submit .writeBack la' p tid payload s₀).2.bus := by
  simp only [install]
  split
  · rename_i ev _
    split
    · exact .inr ⟨ev.addr, some ev.data, _, rfl, rfl⟩
    · exact .inl rfl
  · exact .inl rfl

theorem install_queuesFor (p la : Nat) (d : List Word) (st : Mesi) (tid : Option Nat) (s : State) :
    QueuesFor p tid s.bus (install p la d st tid s).bus := by
  rcases install_bus p la d st tid s with h | ⟨la', payload, s₀, h₀, h⟩
  · exact .of_eq h
  · rw [h, ← h₀]
    exact submit_queuesFor ..

/-- An installation counts no read and no invalidation request. -/
theorem install_counts (p la : Nat) (d : List Word) (st : Mesi) (tid : Option Nat) (s : State) :
    (install p la d st tid s).bus.readRequests = s.bus.readRequests ∧
      (install p la d st tid s).bus.invalidationRequests = s.bus.invalidationRequests := by
  rcases install_bus p la d st tid s with h | ⟨la', payload, s₀, h₀, h⟩
  · rw [h]
    exact ⟨rfl, rfl⟩
  · rw [h, submit_bus, ← h₀]
    exact ⟨rfl, rfl⟩

@[simp] theorem writeLooked_bus (p a : Nat) (f : Cache → Nat → CacheSlot → Cache) (s : State) :
    (writeLooked p a f s).bus = s.bus := by
  simp only [writeLooked]
  split <;> rfl

@[simp] theorem writeLooked_mem (p a : Nat) (f : Cache → Nat → CacheSlot → Cache) (s : State) :
    (writeLooked p a f s).mem = s.mem := by
  simp only [writeLooked]
  split <;> rfl

theorem coherentRead_queuesFor (p : Nat) (tid : Option Nat) (a : Nat) (s : State) :
    QueuesFor p tid s.bus (coherentRead p tid a s).2.bus := by
  simp only [coherentRead]
  split
  · exact .of_eq rfl
  · exact (submit_queuesFor ..).trans (install_queuesFor ..)

theorem coherentWrite_queuesFor (p : Nat) (tid : Option Nat) (a : Nat) (v : Word) (s : State) :
    QueuesFor p tid s.bus (coherentWrite p tid a v s).bus := by
  simp only [coherentWrite]
  split
  · exact .of_eq rfl
  · rw [writeLooked_bus]
    exact submit_queuesFor ..
  · rw [writeLooked_bus]
    exact (submit_queuesFor ..).trans (install_queuesFor ..)

/-! ### The caches of the machine -/

theorem lineState_eq {s : State} {q : Nat} {k : Cache} (hq : s.caches[q]? = some k) (la : Nat) :
    lineState s q la = lineStateIn s.cfg k la := by
  rw [lineState, State.cacheAt_eq hq]

theorem cacheAt_set_ne {s s' : State} {p q : Nat} {k : Cache} (h : s'.caches = s.caches.set p k) (hne : q ≠ p) :
    s'.cacheAt q = s.cacheAt q := by
  simp [State.cacheAt, List.getD_eq_getElem?_getD, h, hne.symm]

/-- A cache that holds a line is a cache of the machine. -/
theorem caches_of_lineState {s : State} {q la : Nat} (h : lineState s q la ≠ .invalid) :
    s.caches[q]? = some (s.cacheAt q) := by
  by_cases hq : q < s.caches.length
  · simp [State.cacheAt, hq]
  · have hempty : s.cacheAt q = ⟨[], 0⟩ := by
      simp [State.cacheAt, List.getD_eq_getElem?_getD, List.getElem?_eq_none (Nat.le_of_not_lt hq)]
    rw [lineState, hempty] at h
    exact absurd rfl h

/-- The slot of a line that a cache of a coherent state holds. -/
theorem Coherent.holder_of_lineState {s : State} (h : Coherent s) {q a : Nat} (hv : lineState s q a ≠ .invalid) :
    ∃ sl ∈ slots (s.cacheAt q), sl.state = lineState s q a ∧ sl.addr = lineAddr s.cfg a := by
  have hk := h.cacheOk (caches_of_lineState hv)
  cases hl : lookup s.cfg (s.cacheAt q) a with
  | none => exact absurd (lineStateIn_of_lookup_none hl) hv
  | some w =>
    obtain ⟨hs, -, ha, -⟩ := lookup_slot h.configOk hk hl
    exact ⟨_, hs, (lineStateIn_of_lookup hl).symm, ha⟩

/-- A line that one cache holds and another holds too is SHARED (10_state.md R40 I1 to I3). -/
theorem Coherent.lineState_share {s : State} (h : Coherent s) {p q a : Nat} (hne : p ≠ q)
    (hp : lineState s p a ≠ .invalid) (hq : lineState s q a ≠ .invalid) : lineState s p a = .shared := by
  obtain ⟨b, hb, hbs, hba⟩ := h.holder_of_lineState hp
  obtain ⟨b', hb', hbs', hba'⟩ := h.holder_of_lineState hq
  have hshare := h.share (caches_of_lineState hp) (caches_of_lineState hq) hne
  rw [← hbs]
  exact (hshare b hb b' hb' (hbs ▸ hp) (hbs' ▸ hq) (hba.trans hba'.symm)).1

/-- An address and its line have the same state. -/
theorem lineState_lineAddr {s s' : State} (hok : s.cfg.ok = true) (hcfg : s'.cfg = s.cfg) (q a : Nat) :
    lineState s' q (lineAddr s.cfg a) = lineState s' q a := by
  simp only [lineState, lineStateIn, hcfg, lookup_lineAddr hok, setIndex_lineAddr hok]

theorem lineState_eq_invalid_iff {s : State} {q la : Nat} :
    lineState s q la = .invalid ↔ lookup s.cfg (s.cacheAt q) la = none := lineStateIn_eq_invalid_iff

theorem lookup_of_lineState {s : State} {p a : Nat} (h : lineState s p a ≠ .invalid) :
    ∃ w, lookup s.cfg (s.cacheAt p) a = some w :=
  Option.ne_none_iff_exists'.1 fun hn => h (lineState_eq_invalid_iff.2 hn)

/-! ### READ_SHARED, cache by cache (R333) -/

/-- Every cache but the requester's handles the bus read. -/
theorem snoopRead_getElem? (c : Config) (la pid : Nat) (ks : List Cache) : ∀ (q i : Nat) (acc : SnoopAcc),
    (snoopRead c la pid q ks acc).1[i]? =
      (ks[i]?).map fun k => if q + i = pid then k else (handleBusRead c k la).2 := by
  induction ks with
  | nil => intros; rfl
  | cons k ks ih =>
    intro q i acc
    simp only [snoopRead]
    cases i with
    | zero => split <;> simp [*]
    | succ i =>
      have he : q + 1 + i = q + (i + 1) := by omega
      split <;> simp only [List.getElem?_cons_succ, ih, he]

theorem exists_getElem?_cons {α : Type} {x : α} {l : List α} {P : Nat → α → Prop} :
    (∃ i y, (x :: l)[i]? = some y ∧ P i y) ↔ P 0 x ∨ ∃ i y, l[i]? = some y ∧ P (i + 1) y := by
  rw [← Nat.or_exists_add_one]
  simp

theorem snoopReadReply_held_iff {la : Nat} {acc : SnoopAcc} {r : Option (List Word × Bool)} :
    (snoopReadReply la acc r).held = true ↔ acc.held = true ∨ r ≠ none := by
  rcases r with _ | ⟨d, _ | _⟩ <;> simp [snoopReadReply]

theorem handleBusRead_reply_ne_none {c : Config} {k : Cache} {la : Nat} :
    (handleBusRead c k la).1 ≠ none ↔ lineStateIn c k la ≠ .invalid := by
  rw [handleBusRead_reply]
  split <;> simp [*]

/-- The snoops find the line held where some cache but the requester's has it. -/
theorem snoopRead_held (c : Config) (la pid : Nat) (ks : List Cache) : ∀ (q : Nat) (acc : SnoopAcc),
    (snoopRead c la pid q ks acc).2.held = true ↔
      acc.held = true ∨ ∃ i k, ks[i]? = some k ∧ q + i ≠ pid ∧ lineStateIn c k la ≠ .invalid := by
  induction ks with
  | nil => intro q acc; simp [snoopRead]
  | cons k ks ih =>
    intro q acc
    have he : ∀ i, q + 1 + i = q + (i + 1) := fun i => by omega
    rw [exists_getElem?_cons, Nat.add_zero]
    simp only [snoopRead]
    split
    · rename_i hpid
      simp only [ih, he]
      simp [hpid]
    · rename_i hpid
      simp only [ih, he, snoopReadReply_held_iff, handleBusRead_reply_ne_none, ne_eq, hpid, not_false_eq_true,
        true_and, or_assoc]

section
variable (la p : Nat) (tid : Option Nat) (s : State)

theorem submit_readShared_cacheAt {q : Nat} (hne : q ≠ p) :
    (submit .readShared la p tid none s).2.cacheAt q = (handleBusRead s.cfg (s.cacheAt q) la).2 := by
  have h : (submit .readShared la p tid none s).2.caches[q]? =
      (s.caches[q]?).map fun k => if 0 + q = p then k else (handleBusRead s.cfg k la).2 :=
    snoopRead_getElem? s.cfg la p s.caches 0 q _
  simp only [Nat.zero_add, if_neg hne] at h
  simp only [State.cacheAt, List.getD_eq_getElem?_getD, h]
  cases s.caches[q]? <;> rfl

/-- Every other holder of the line is left SHARED. -/
theorem submit_readShared_lineState {q : Nat} (hne : q ≠ p) :
    lineState (submit .readShared la p tid none s).2 q la =
      if lineState s q la = .invalid then .invalid else .shared := by
  rw [lineState, submit_readShared_cacheAt la p tid s hne, (submit_step ..).cfg]
  exact lineStateIn_handleBusRead ..

/-- The line comes SHARED when another cache holds it, else EXCLUSIVE. -/
theorem submit_readShared_state :
    ((∃ q, q ≠ p ∧ lineState s q la ≠ .invalid) → (lineOf (submit .readShared la p tid none s).1).2 = .shared) ∧
    ((∀ q, q ≠ p → lineState s q la = .invalid) → (lineOf (submit .readShared la p tid none s).1).2 = .exclusive) := by
  have hst : (lineOf (submit .readShared la p tid none s).1).2 =
      if (snoopRead s.cfg la p 0 s.caches { mem := s.mem, data := none, held := false }).2.held then .shared
        else .exclusive := rfl
  have hheld := snoopRead_held s.cfg la p s.caches 0 { mem := s.mem, data := none, held := false }
  simp only [Bool.false_eq_true, false_or, Nat.zero_add] at hheld
  rw [hst]
  refine ⟨fun ⟨q, hne, hv⟩ => if_pos (hheld.2 ⟨q, _, caches_of_lineState hv, hne, hv⟩), fun hno => if_neg ?_⟩
  rw [hheld]
  rintro ⟨q, k, hq, hne, hv⟩
  exact hv (lineState_eq hq la ▸ hno q hne)

end

/-! ### The line in the requester's own cache -/

/-- A line the requester does not hold is there after its installation, in the state asked for. -/
theorem lineState_install {s : State} (h : Coherent s) {p : Nat} {k : Cache} (hp : s.caches[p]? = some k) {la : Nat}
    (hla : la % s.cfg.lineSize = 0) (hno : lineState s p la = .invalid) (d : List Word) {st : Mesi}
    (hst : st ≠ .invalid) (tid : Option Nat) : lineState (install p la d st tid s) p la = st := by
  rw [lineState_eq_invalid_iff, State.cacheAt_eq hp] at hno
  obtain ⟨w, hw, hcaches, -⟩ := install_of_lookup_none (h.cacheOk hp) hp h.configOk hno d st tid
  have hlt := (List.getElem?_eq_some_iff.1 hp).1
  rw [lineState_eq (by rw [hcaches, List.getElem?_set_self hlt]), (install_step ..).cfg]
  exact lineStateIn_putSlot_self (x := { filledSlot la d st with lastUse := k.useCtr + 1 }) rfl hw (.inl hno) hst
    (lineAddr_of_aligned hla).symm

theorem lineState_install_ne {p q : Nat} (hne : q ≠ p) (la' : Nat) (d : List Word) (st : Mesi) (tid : Option Nat)
    (s : State) (la : Nat) : lineState (install p la' d st tid s) q la = lineState s q la := by
  rw [lineState, (install_step ..).cfg, cacheAt_set_ne (install_caches ..) hne, lineState]

/-- A request leaves the requester's own lines in their states. -/
theorem KeepsLines.lineState_own {p : Nat} {s s' : State} (h : KeepsLines p s s') (hcfg : s'.cfg = s.cfg) (la : Nat) :
    lineState s' p la = lineState s p la := by
  simp only [lineState, State.cacheAt, List.getD_eq_getElem?_getD, h.own, hcfg]

/-- Replacing the slot of a line by another of it. -/
theorem lineState_putCache {s : State} {p a w : Nat} (hl : lookup s.cfg (s.cacheAt p) a = some w) {k' : Cache}
    {x : CacheSlot} (hsets : k'.sets = (putSlot (s.cacheAt p) (setIndex s.cfg a) w x).sets)
    (hxa : x.addr = (slotOf (s.cacheAt p) (setIndex s.cfg a) w).addr) (hxv : x.state ≠ .invalid) :
    lineState (s.putCache p k') p a = x.state := by
  have hv : lineState s p a ≠ .invalid := fun e => by simp [lineState_eq_invalid_iff.1 e] at hl
  have hlt := (List.getElem?_eq_some_iff.1 (caches_of_lineState hv)).1
  obtain ⟨hw, -, ha⟩ := lookup_some hl
  have hx : x.addr = lineAddr s.cfg a := by rw [hxa, slotOf_eq hw, ha]
  rw [lineState_eq (s := s.putCache p k') (by rw [State.putCache_caches, List.getElem?_set_self hlt])]
  exact lineStateIn_putSlot_self hsets hw (.inr hl) hxv hx

theorem lineState_putTouched {s : State} {p a w : Nat} (hl : lookup s.cfg (s.cacheAt p) a = some w) {x : CacheSlot}
    (hxa : x.addr = (slotOf (s.cacheAt p) (setIndex s.cfg a) w).addr) (hxv : x.state ≠ .invalid) :
    lineState (s.putCache p (putTouched (s.cacheAt p) (setIndex s.cfg a) w x)) p a = x.state :=
  lineState_putCache hl (x := { x with lastUse := (s.cacheAt p).useCtr + 1 }) rfl hxa hxv

/-- Looking the line up again and making its slot MODIFIED. -/
theorem lineState_writeLooked {s : State} {c : Config} (hcfg : s.cfg = c) {p a : Nat} (hv : lineState s p a ≠ .invalid)
    {f : Cache → Nat → CacheSlot → Cache}
    (hf : ∀ k w, (slotOf k (setIndex c a) w).state = lineState s p a →
      ∃ x, (f k w (slotOf k (setIndex c a) w)).sets = (putSlot k (setIndex c a) w x).sets ∧
        x.addr = (slotOf k (setIndex c a) w).addr ∧ x.state = .modified) :
    lineState (writeLooked p a f s) p a = .modified := by
  subst hcfg
  obtain ⟨w, hl⟩ := lookup_of_lineState hv
  obtain ⟨x, hsets, hxa, hxm⟩ := hf (s.cacheAt p) w (lineStateIn_of_lookup hl).symm
  rw [writeLooked_of_lookup (caches_of_lineState hv) hl, lineState_putCache hl hsets hxa (by simp [hxm]), hxm]

/-! ### The local read row (R330) -/

/-- A read hit touches the line in its own cache. -/
theorem coherentRead_hit {s : State} {p a : Nat} (h : lineState s p a ≠ .invalid) (tid : Option Nat) :
    ∃ w, lookup s.cfg (s.cacheAt p) a = some w ∧ (coherentRead p tid a s).2 = s.putCache p
      (putTouched (s.cacheAt p) (setIndex s.cfg a) w (slotOf (s.cacheAt p) (setIndex s.cfg a) w)) := by
  obtain ⟨w, hl⟩ := lookup_of_lineState h
  exact ⟨w, hl, by simp [coherentRead, cacheRead, hl]⟩

/-- A read miss submits a READ_SHARED and installs what it answers. -/
theorem coherentRead_miss {s : State} {p a : Nat} {tid : Option Nat} {d : List Word} {st : Mesi}
    (h : lineState s p a = .invalid) (hr : (submit .readShared (lineAddr s.cfg a) p tid none s).1 = .line d st) :
    (coherentRead p tid a s).2 =
      install p (lineAddr s.cfg a) d st tid (submit .readShared (lineAddr s.cfg a) p tid none s).2 := by
  simp [coherentRead, cacheRead, lineState_eq_invalid_iff.1 h, hr, lineOf]

theorem coherentRead_hit_row {s : State} {p a : Nat} (hv : lineState s p a ≠ .invalid) (tid : Option Nat) :
    let s' := (coherentRead p tid a s).2
    lineState s' p a = lineState s p a ∧ s'.mem = s.mem ∧ s'.bus = s.bus ∧
      ∀ q, q ≠ p → s'.cacheAt q = s.cacheAt q := by
  obtain ⟨w, hl, e⟩ := coherentRead_hit hv tid
  rw [e]
  refine ⟨?_, rfl, rfl, fun q hne => cacheAt_set_ne rfl hne⟩
  rw [lineState_putTouched hl rfl (slotOf_lookup_valid hl)]
  exact (lineStateIn_of_lookup hl).symm

section
variable {s : State} (h : Coherent s) (hc : s.cfg.coherence = true) {p : Nat} (hp : p < s.caches.length) {a : Nat}
  (tid : Option Nat)

include h in
/-- A line whose state is INVALID in a cache is held by no slot of it. -/
theorem Coherent.noHolder_of_lineState (hv : lineState s p a = .invalid) :
    ∀ k, s.caches[p]? = some k → NoHolder k (lineAddr s.cfg a) := by
  intro k hk
  refine h.noHolder hk ?_ k hk
  rw [← State.cacheAt_eq hk]
  exact lineState_eq_invalid_iff.1 hv

include h hc hp in
theorem coherentRead_miss_row (hv : lineState s p a = .invalid) :
    let la := lineAddr s.cfg a
    let s' := (coherentRead p tid a s).2
    lineState s' p la = (lineOf (submit .readShared la p tid none s).1).2 ∧
      (∀ q, q ≠ p → lineState s' q la = if lineState s q la = .invalid then .invalid else .shared) ∧
      s'.bus.readRequests = s.bus.readRequests + 1 ∧
      s'.bus.invalidationRequests = s.bus.invalidationRequests := by
  intro la s'
  have hla : la % s.cfg.lineSize = 0 := lineAddr_mod s.cfg a
  have hcfg := (submit_step .readShared la p tid none s).cfg
  obtain ⟨st, hr, hst, -, hkeep⟩ := submit_readShared_newest h hc hla (h.noHolder_of_lineState hv) tid
  obtain ⟨_, _, -, -, hcoh, -⟩ := submit_readShared_coherent h hc hla p tid
  have hk := hkeep.own.trans (List.getElem?_eq_getElem hp)
  have hno : lineState (submit .readShared la p tid none s).2 p la = .invalid := by
    rw [hkeep.lineState_own hcfg, lineState_lineAddr h.configOk rfl, hv]
  have e : s' = install p la (newestLine s la) st tid (submit .readShared la p tid none s).2 := coherentRead_miss hv hr
  obtain ⟨hreads, hinvs⟩ := install_counts p la (newestLine s la) st tid (submit .readShared la p tid none s).2
  rw [e, hr, hreads, hinvs, submit_bus]
  refine ⟨lineState_install hcoh hk (hcfg ▸ hla) hno _ hst tid, fun q hne => ?_, rfl, rfl⟩
  rw [lineState_install_ne hne, submit_readShared_lineState la p tid s hne]

end

/-- Settles O51: a hit and a miss exclude each other by the line's state. -/
theorem localReadTransition : Obligations.LocalReadTransition := by
  intro s p tid a h hc hp ha
  have hok := h.configOk
  have hcfg := (dataRead_step p tid a.toNat s).cfg
  have e : dataRead p tid a.toNat s = coherentRead p tid a.toNat s := by simp [dataRead, hc]
  rw [e] at hcfg ⊢
  have hqueue := (coherentRead_queuesFor p tid a.toNat s).queue_and_new
  have hown : lineState s p (lineAddr s.cfg a.toNat) = lineState s p a.toNat := lineState_lineAddr hok rfl p _
  refine ⟨hqueue.1, hqueue.2, fun hv => ?_, fun hv => ?_⟩
  · rw [lineState_lineAddr hok hcfg, hown]
    exact coherentRead_hit_row (hown ▸ hv) tid
  · obtain ⟨hst, hothers, hreads, hinvs⟩ :=
      coherentRead_miss_row h hc (h.2.2.2.1.symm ▸ hp) tid (hown ▸ hv)
    obtain ⟨hshared, hexclusive⟩ := submit_readShared_state (lineAddr s.cfg a.toNat) p tid s
    rw [hst]
    exact ⟨hshared, hexclusive, hothers, hreads, hinvs⟩

/-! ### The local write row (R331) -/

/-- A line held EXCLUSIVE or MODIFIED is written in its own cache. -/
theorem coherentWrite_owned_row {s : State} {p a : Nat} (hv : lineState s p a ≠ .invalid)
    (hs : lineState s p a ≠ .shared) (tid : Option Nat) (v : Word) :
    let s' := coherentWrite p tid a v s
    lineState s' p a = .modified ∧ s'.bus = s.bus ∧ s'.mem = s.mem := by
  obtain ⟨w, hl⟩ := lookup_of_lineState hv
  have hns : (slotOf (s.cacheAt p) (setIndex s.cfg a) w).state ≠ .shared := fun e =>
    hs ((lineStateIn_of_lookup hl).trans e)
  have e : coherentWrite p tid a v s = s.putCache p (putTouched (s.cacheAt p) (setIndex s.cfg a) w
      (writtenSlot s.cfg a v (slotOf (s.cacheAt p) (setIndex s.cfg a) w))) := by
    simp [coherentWrite, cacheWrite, hl, hns]
  rw [e]
  exact ⟨lineState_putTouched hl rfl (by simp [writtenSlot]), rfl, rfl⟩

section
variable {s : State} (h : Coherent s) {p a : Nat} (tid : Option Nat) (v : Word)
include h

/-- A line held SHARED is written after one INVALIDATE. -/
theorem coherentWrite_shared_row (hs : lineState s p a = .shared) :
    let s' := coherentWrite p tid a v s
    lineState s' p a = .modified ∧ s'.bus = (submit .invalidate (lineAddr s.cfg a) p tid none s).2.bus ∧
      s'.mem = s.mem := by
  have hv : lineState s p a ≠ .invalid := by simp [hs]
  obtain ⟨w, hl⟩ := lookup_of_lineState hv
  obtain ⟨sl, hsl, hst, hadr⟩ := h.holder_of_lineState hv
  have hno := h.no_modified_of_shared (caches_of_lineState hv) hsl (hst.trans hs)
  have hkeep := submit_invalidate_newest h (lineAddr_mod s.cfg a) (hadr ▸ hno) p tid
  have hcfg := (submit_step .invalidate (lineAddr s.cfg a) p tid none s).cfg
  have hshared : (slotOf (s.cacheAt p) (setIndex s.cfg a) w).state = .shared := (lineStateIn_of_lookup hl).symm.trans hs
  have e : cacheWrite s.cfg (s.cacheAt p) a v = (.needInvalidate, s.cacheAt p) := by
    simp [cacheWrite, hl, hshared]
  simp only [coherentWrite, e]
  refine ⟨lineState_writeLooked hcfg (by rwa [hkeep.lineState_own hcfg]) fun k w _ => ?_, writeLooked_bus ..,
    writeLooked_mem ..⟩
  exact ⟨{ writtenSlot s.cfg a v (slotOf k (setIndex s.cfg a) w) with lastUse := k.useCtr + 1 }, rfl, rfl, rfl⟩

/-- A line not held is installed MODIFIED by one READ_EXCLUSIVE, and then written. -/
theorem coherentWrite_miss_row (hc : s.cfg.coherence = true) (hp : p < s.caches.length)
    (hv : lineState s p a = .invalid) :
    let s' := coherentWrite p tid a v s
    lineState s' p a = .modified ∧ s'.bus.readRequests = s.bus.readRequests + 1 ∧
      s'.bus.invalidationRequests = s.bus.invalidationRequests := by
  have hla := lineAddr_mod s.cfg a
  have hcfg := (submit_step .readExclusive (lineAddr s.cfg a) p tid none s).cfg
  obtain ⟨hr, hkeep⟩ := submit_readExclusive_newest h hc hla (h.noHolder_of_lineState hv) tid
  obtain ⟨_, -, -, hcoh, -⟩ := submit_readExclusive_coherent h hc hla p tid
  have hk := hkeep.own.trans (List.getElem?_eq_getElem hp)
  have hno : lineState (submit .readExclusive (lineAddr s.cfg a) p tid none s).2 p (lineAddr s.cfg a) = .invalid := by
    rw [hkeep.lineState_own hcfg, lineState_lineAddr h.configOk rfl, hv]
  have e : cacheWrite s.cfg (s.cacheAt p) a v = (.miss, s.cacheAt p) := by
    simp [cacheWrite, lineState_eq_invalid_iff.1 hv]
  simp only [coherentWrite, e, hr, lineOf, writeLooked_bus]
  have hinst := lineState_install hcoh hk (hcfg ▸ hla) hno (newestLine s (lineAddr s.cfg a)) (st := .modified)
    (by simp) tid
  have hcfg' := (install_step p (lineAddr s.cfg a) (newestLine s (lineAddr s.cfg a)) .modified tid
    (submit .readExclusive (lineAddr s.cfg a) p tid none s).2).cfg.trans hcfg
  rw [lineState_lineAddr h.configOk hcfg'] at hinst
  refine ⟨lineState_writeLooked hcfg' (by simp [hinst]) fun k w hst => ?_, ?_⟩
  · exact ⟨{ slotOf k (setIndex s.cfg a) w with
      data := (slotOf k (setIndex s.cfg a) w).data.set (wordIndex s.cfg a) v }, rfl, rfl, hst.trans hinst⟩
  · obtain ⟨hreads, hinvs⟩ := install_counts p (lineAddr s.cfg a) (newestLine s (lineAddr s.cfg a)) .modified tid
      (submit .readExclusive (lineAddr s.cfg a) p tid none s).2
    rw [hreads, hinvs, submit_bus]
    exact ⟨rfl, rfl⟩

/-- A write leaves the line MODIFIED in its own cache, whatever it was. -/
theorem lineState_coherentWrite (hc : s.cfg.coherence = true) (hp : p < s.caches.length) :
    lineState (coherentWrite p tid a v s) p a = .modified := by
  by_cases hv : lineState s p a = .invalid
  · exact (coherentWrite_miss_row h tid v hc hp hv).1
  · by_cases hs : lineState s p a = .shared
    · exact (coherentWrite_shared_row h tid v hs).1
    · exact (coherentWrite_owned_row hv hs tid v).1

end

/-- A line that one cache holds MODIFIED no other cache holds (10_state.md R40 I1). -/
theorem Coherent.lineState_of_modified {s : State} (h : Coherent s) {p q la : Nat}
    (hm : lineState s p la = .modified) (hne : q ≠ p) : lineState s q la = .invalid := by
  by_contra hv
  have hshared := h.lineState_share hne.symm (by simp [hm]) hv
  simp [hm] at hshared

/-- Settles O52, by the state of the line before; that no other cache holds it after is the invariant of the state
reached. -/
theorem localWriteTransition : Obligations.LocalWriteTransition := by
  intro s p tid a v h hc hp ha
  have hok := h.configOk
  have hp' : p < s.caches.length := h.2.2.2.1.symm ▸ hp
  have hcfg := (dataWrite_step p tid a.toNat v s).cfg
  have hcoh := dataWrite_coherent h hp' tid ha v
  have e : dataWrite p tid a.toNat v s = coherentWrite p tid a.toNat v s := by simp [dataWrite, hc]
  rw [e] at hcfg hcoh ⊢
  have hqueue := (coherentWrite_queuesFor p tid a.toNat v s).queue_and_new
  have hmod : lineState (coherentWrite p tid a.toNat v s) p (lineAddr s.cfg a.toNat) = .modified :=
    (lineState_lineAddr hok hcfg p _).trans (lineState_coherentWrite h tid v hc hp')
  have hown : lineState s p (lineAddr s.cfg a.toNat) = lineState s p a.toNat := lineState_lineAddr hok rfl p _
  refine ⟨hqueue.1, hqueue.2, hmod, fun q hne => hcoh.lineState_of_modified hmod hne, ?_, ?_, ?_⟩
  · rw [hown]
    intro hst
    exact (coherentWrite_owned_row (by rcases hst with e | e <;> simp [e]) (by rcases hst with e | e <;> simp [e])
      tid v).2
  · rw [hown]
    intro hs
    obtain ⟨-, hbus, hmem⟩ := coherentWrite_shared_row h tid v hs
    rw [hbus, submit_bus]
    exact ⟨rfl, rfl, hmem⟩
  · rw [hown]
    exact fun hv => (coherentWrite_miss_row h tid v hc hp' hv).2

end Sys2Proof.Machine
end

section
/-! SUPPORT. The host's calls on the memory system (49_environment.md R377, 46_cache_ops.md R288, R292, 47_bus_ops.md
R321 to R323): when each answers a next state, and that the invariants of the cache system are kept. -/

namespace Sys2Proof.Machine

/-! ### The host's accesses (R377) -/

/-- The host's read answers at an accessible address of a processor there is, and is then the access that carries no
thread id. -/
theorem hostDataRead_eq_next {s : State} {p : Nat} {a : Word} {r : Word × State} :
    hostDataRead p a s = .next r ↔ p < s.cfg.nproc ∧ Accessible s a ∧ dataRead p none a.toNat s = r := by
  rw [hostDataRead, Accessible, ← addrCheck_eq_none]
  by_cases hp : p < s.cfg.nproc
  · rw [if_neg (by omega)]
    cases h : addrCheck s.cfg.memSize a <;> simp [hp]
  · simp [Nat.le_of_not_lt hp, hp]

/-- The same of the host's write. -/
theorem hostDataWrite_eq_next {s s' : State} {p : Nat} {a v : Word} :
    hostDataWrite p a v s = .next s' ↔ p < s.cfg.nproc ∧ Accessible s a ∧ dataWrite p none a.toNat v s = s' := by
  rw [hostDataWrite, Accessible, ← addrCheck_eq_none]
  by_cases hp : p < s.cfg.nproc
  · rw [if_neg (by omega)]
    cases h : addrCheck s.cfg.memSize a <;> simp [hp]
  · simp [Nat.le_of_not_lt hp, hp]

/-- Without coherence a read is main memory's word and changes nothing (20_memory.md R97). -/
theorem dataRead_flat {s : State} (hc : s.cfg.coherence = false) (p : Nat) (tid : Option Nat) (a : Nat) :
    dataRead p tid a s = (memReadWord s.mem a, s) := by
  simp [dataRead, hc]

/-- Without coherence a write goes to main memory alone (20_memory.md R97). -/
theorem dataWrite_flat {s : State} (hc : s.cfg.coherence = false) (p : Nat) (tid : Option Nat) (a : Nat) (v : Word) :
    dataWrite p tid a v s = { s with mem := memWriteWord s.mem a v } := by
  simp [dataWrite, hc]

/-- A coherent state has a cache for each processor. -/
theorem Coherent.cache_lt_of_nproc {s : State} (h : Coherent s) {p : Nat} (hp : p < s.cfg.nproc) :
    p < s.caches.length := h.2.2.2.1.symm ▸ hp

/-- Settles O48: the read answers its word's newest value and keeps that of every word, and so every byte. -/
theorem dataReadReturnsNewest : Obligations.DataReadReturnsNewest := by
  intro s p tid a h hp ha r
  have hp' := h.cache_lt_of_nproc hp
  refine ⟨(dataRead_newest h hp' tid ha).1, dataRead_coherent h hp' tid ha, coherentByte_dataRead h hp' tid ha,
    (dataRead_step p tid a.toNat s).only, fun hc => congrArg Prod.snd (dataRead_flat hc p tid a.toNat), ?_⟩
  rintro rfl
  exact hostDataRead_eq_next.2 ⟨hp, ha, rfl⟩

/-- Settles O49: the word written gets the value as its newest, and every other word keeps its own. -/
theorem dataWriteStores : Obligations.DataWriteStores := by
  intro s p tid a v h hp ha s'
  have hp' := h.cache_lt_of_nproc hp
  have hflat (hc : s.cfg.coherence = false) : s' = { s with mem := s'.mem } := by
    rw [show s' = _ from dataWrite_flat hc p tid a.toNat v]
  refine ⟨dataWrite_coherent h hp' tid ha v, coherentByte_dataWrite h hp' tid ha v,
    (dataWrite_step p tid a.toNat v s).only, hflat, ?_⟩
  rintro rfl
  exact hostDataWrite_eq_next.2 ⟨hp, ha, rfl⟩

/-! ### Eviction and `FlushAll` (46_cache_ops.md R288, R292) -/

/-- `Evict` clears the line where the cache holds it, and else leaves the cache as it is. -/
theorem evict_cases (c : Config) (k : Cache) (la : Nat) :
    (lookup c k la = none ∧ evict c k la = (none, k)) ∨
    ∃ w, lookup c k la = some w ∧ evict c k la =
      (some (evictedOf (slotOf k (setIndex c la) w)),
        putSlot k (setIndex c la) w (clearedSlot (slotOf k (setIndex c la) w))) := by
  cases h : lookup c k la with
  | none => exact .inl ⟨rfl, by simp [evict, h]⟩
  | some w => exact .inr ⟨w, rfl, by simp [evict, h]⟩

/-- An eviction keeps the invariants, also where the line leaves unwritten. -/
theorem evict_coherent {s : State} (h : Coherent s) {p : Nat} (hp : p < s.caches.length) (la : Nat) :
    Coherent (s.putCache p (evict s.cfg (s.cacheAt p) la).2) := by
  have hk := List.getElem?_eq_getElem hp
  rw [State.cacheAt_eq hk]
  rcases evict_cases s.cfg s.caches[p] la with ⟨-, e⟩ | ⟨w, hl, e⟩
  · rw [e, State.putCache, set_of_getElem? hk]
    exact h
  · rw [e]
    exact coherent_clearedSlot h hk hl

/-- Writing back slots of the caches keeps the invariants. -/
theorem foldl_flushSlot_coherent (sls : List CacheSlot) : ∀ {s : State}, Coherent s →
    (∀ sl ∈ sls, sl ∈ s.caches.flatMap slots) → Coherent { s with mem := sls.foldl flushSlot s.mem } := by
  induction sls with
  | nil => exact fun h _ => h
  | cons sl sls ih =>
    intro s h hsub
    obtain ⟨k, hk, hs⟩ := List.mem_flatMap.1 (hsub sl List.mem_cons_self)
    obtain ⟨q, hq⟩ := List.mem_iff_getElem?.1 hk
    exact ih (coherent_flushSlot h hq hs) fun b hb => hsub b (List.mem_cons_of_mem _ hb)

/-- `FlushAll` keeps the invariants. -/
theorem flushAll_coherent {s : State} (h : Coherent s) : Coherent (flushAll s) := by
  cases hc : s.cfg.coherence with
  | false => rwa [flushAll_flat hc]
  | true =>
    rw [flushAll_eq hc]
    exact foldl_flushSlot_coherent _ h fun _ hsl => hsl

/-! ### A raw write to main memory (70_reset_and_hazards.md R452) -/

/-- A line read depends on the bytes of the line only. -/
theorem memLineRead_congr {m m' : Memory} (n : Nat) : ∀ la,
    (∀ b, la ≤ b → b < la + 4 * n → memByte m b = memByte m' b) → memLineRead m la n = memLineRead m' la n := by
  induction n with
  | zero => intros; rfl
  | succ n ih =>
    intro la h
    have hword : memReadWord m la = memReadWord m' la :=
      congrArg (BitVec.ofNat 32) (memRead_congr 4 la fun b hb hb' => h b hb (by omega))
    rw [memLineRead, memLineRead, hword, ih (la + 4) fun b hb hb' => h b (by omega) (by omega)]

/-- The line of every byte of a line is that line. -/
theorem lineAddr_of_mem_line {c : Config} {la b : Nat} (hla : la % c.lineSize = 0) (hb : la ≤ b)
    (hb' : b < la + c.lineSize) : lineAddr c b = la := by
  obtain ⟨i, rfl⟩ := Nat.dvd_of_mod_eq_zero hla
  obtain ⟨j, rfl⟩ := Nat.exists_eq_add_of_le hb
  rw [lineAddr, Nat.mul_add_mod, Nat.mod_eq_of_lt (by omega), Nat.add_sub_cancel]

/-- A range no cache holds a line of has no byte in common with a valid slot. -/
theorem Coherent.slot_outside_of_not_rangeHeld {s : State} (h : Coherent s) {a n : Nat}
    (hfree : rangeHeld s a n = false) {q : Nat} {k : Cache} (hq : s.caches[q]? = some k) {sl : CacheSlot}
    (hs : sl ∈ slots k) (hv : sl.state ≠ .invalid) {b : Nat} (hb : sl.addr ≤ b)
    (hb' : b < sl.addr + s.cfg.lineSize) : ¬ (a ≤ b ∧ b < a + n) := by
  rintro ⟨hab, hbn⟩
  have hmiss : lookup s.cfg k b = none := by
    have hcache := List.any_eq_false.1 hfree k (List.mem_of_getElem? hq)
    rw [Bool.not_eq_true, List.any_eq_false] at hcache
    have hbyte := hcache (b - a) (List.mem_range.2 (by omega))
    rwa [Nat.add_sub_cancel' hab, Option.not_isSome_iff_eq_none] at hbyte
  have hline := lineAddr_of_mem_line (h.slot_line hq hs hv).1 hb hb'
  exact noHolder_of_lookup_none h.configOk (h.cacheOk hq) hmiss sl hs hv hline.symm

/-- A write to main memory where no cache holds a line keeps the invariants: no clean slot sees it. -/
theorem memWrite_coherent {s : State} (h : Coherent s) {a n : Nat} (hfree : rangeHeld s a n = false) (v : Nat) :
    Coherent { s with mem := memWrite s.mem a n v } := by
  obtain ⟨hok, hwf, hpl, hcl, hks, hsh, hclean⟩ := id h
  refine ⟨hok, memWrite_wf n a v hwf, hpl, hcl, hks, hsh, fun hc k hk sl hs hst => ?_⟩
  obtain ⟨q, hq⟩ := List.mem_iff_getElem?.1 hk
  have hv : sl.state ≠ .invalid := by rcases hst with e | e <;> simp [e]
  rw [hclean hc k hk sl hs hst]
  refine memLineRead_congr _ _ fun b hb hb' => ?_
  rw [four_mul_lineWords hok] at hb'
  rw [memByte_memWrite n a v b hwf, if_neg (h.slot_outside_of_not_rangeHeld hfree hq hs hv hb hb')]

/-! ### Raw submissions (47_bus_ops.md R321) -/

/-- The snoop of one cache by an INVALIDATE keeps the invariants: a MODIFIED line stays (46_cache_ops.md R291). -/
theorem handleBusInvalidate_coherent {s : State} (h : Coherent s) {q : Nat} {k : Cache} (hq : s.caches[q]? = some k)
    (la : Nat) : Coherent (s.putCache q (handleBusInvalidate s.cfg k la)) := by
  have hsame : s.putCache q k = s := by rw [State.putCache, set_of_getElem? hq]
  cases hl : lookup s.cfg k la with
  | none => rwa [handleBusInvalidate_none hl, hsame]
  | some w =>
    rw [handleBusInvalidate_some hl]
    split
    · rwa [hsame]
    · exact coherent_clearedSlot h hq hl

/-- A raw INVALIDATE keeps the invariants, also of a line some cache holds MODIFIED. -/
theorem busInvalidate_keeps_coherent {s : State} (h : Coherent s) (la pid : Nat) :
    Coherent (busInvalidate la pid s).2 := by
  have key := snoopAll_keeps_all (pid := pid)
    (f := fun k (_ : Unit) => (handleBusInvalidate s.cfg k la, ()))
    (I := fun ks _ => Coherent { s with caches := ks }) (D := fun _ _ => True)
    (fun _ _ _ _ _ hq hI => ⟨handleBusInvalidate_coherent hI hq la, trivial⟩) (fun _ _ _ hD => hD)
    (ks := s.caches) (acc := ()) h
  simp only [← snoopInvalidate_eq_snoopAll] at key
  exact key.1

/-- The bus side of every request but a WRITE_BACK keeps the invariants, whoever submits it. -/
theorem busSide_coherent {s : State} (h : Coherent s) (hc : s.cfg.coherence = true) {la : Nat}
    (hla : la % s.cfg.lineSize = 0) {op : BusOp} (hop : op ≠ .writeBack) (pid : Nat) (payload : Option (List Word)) :
    Coherent (busSide op la pid payload s).2 := by
  cases op with
  | readShared =>
    obtain ⟨d, st, -, -, hcoh, -⟩ := busReadShared_coherent h hc hla pid
    exact hcoh
  | readExclusive =>
    obtain ⟨d, -, -, hcoh, -⟩ := busReadExclusive_coherent h hc hla pid
    exact hcoh
  | writeBack => exact absurd rfl hop
  | invalidate => exact busInvalidate_keeps_coherent h la pid

/-- A change of the bus alone keeps the invariants. -/
theorem Coherent.withBus {s : State} (h : Coherent s) (b : Bus) : Coherent { s with bus := b } :=
  h.congr rfl rfl rfl rfl

/-- A submission of any request but a WRITE_BACK keeps the invariants. -/
theorem submit_coherent {s : State} (h : Coherent s) (hc : s.cfg.coherence = true) {la : Nat}
    (hla : la % s.cfg.lineSize = 0) {op : BusOp} (hop : op ≠ .writeBack) (pid : Nat) (tid : Option Nat)
    (payload : Option (List Word)) : Coherent (submit op la pid tid payload s).2 :=
  (busSide_coherent (h.withBus (countRequest op s.bus)) hc hla hop pid payload).withBus _

/-! ### The calls that answer a next state -/

theorem hostEvict_next {s s' : State} {p la : Nat} {e : Option Evicted} (h : hostEvict p la s = .next (e, s')) :
    p < s.cfg.nproc ∧ s' = s.putCache p (evict s.cfg (s.cacheAt p) la).2 := by
  rw [hostEvict] at h
  split at h
  · cases h
  · cases h
    exact ⟨by omega, rfl⟩

theorem hostMemWrite_next {s s' : State} {a n v : Nat} (h : hostMemWrite a n v s = .next s') :
    rangeHeld s a n = false ∧ s' = { s with mem := memWrite s.mem a n v } := by
  rw [hostMemWrite] at h
  split at h
  · cases h
  · split at h
    · cases h
    · cases h
      exact ⟨by simp_all, rfl⟩

theorem hostSubmit_next {s s' : State} {op : BusOp} {la pid : Nat} {tid : Option Nat} {payload : Option (List Word)}
    {r : BusResult} (h : hostSubmit op la pid tid payload s = .next (r, s')) :
    s.cfg.coherence = true ∧ la % s.cfg.lineSize = 0 ∧ s' = (submit op la pid tid payload s).2 := by
  rw [hostSubmit] at h
  split at h
  · cases h
  · rename_i hc
    split at h
    · cases h
    · rename_i hla
      refine ⟨by simpa using hc, by omega, ?_⟩
      rw [Host.Outcome.next.inj h]

/-- Settles O10, call by call: each is an operation on the memory system that keeps the invariants, at arguments the
call has checked. -/
theorem hostCallsKeepCoherence : Obligations.HostCallsKeepCoherence := by
  intro s h
  refine ⟨fun p a v s' e => ?read, fun p a v s' e => ?write, fun p la ev s' e => ?evict, fun a n v s' e => ?memWrite,
    fun op la pid tid payload r s' hop e => ?submit, flushAll_coherent h, h.withBus _⟩
  case read =>
    obtain ⟨hp, ha, hr⟩ := hostDataRead_eq_next.1 e
    obtain rfl : (dataRead p none a.toNat s).2 = s' := congrArg Prod.snd hr
    exact dataRead_coherent h (h.cache_lt_of_nproc hp) none ha
  case write =>
    obtain ⟨hp, ha, rfl⟩ := hostDataWrite_eq_next.1 e
    exact dataWrite_coherent h (h.cache_lt_of_nproc hp) none ha v
  case evict =>
    obtain ⟨hp, rfl⟩ := hostEvict_next e
    exact evict_coherent h (h.cache_lt_of_nproc hp) la
  case memWrite =>
    obtain ⟨hfree, rfl⟩ := hostMemWrite_next e
    exact memWrite_coherent h hfree v
  case submit =>
    obtain ⟨hc, hla, rfl⟩ := hostSubmit_next e
    exact submit_coherent h hc hla hop pid tid payload

end Sys2Proof.Machine
end

section
/-! SUPPORT. The queue of the bus (47_bus_ops.md R321, R322, R326): which requests each later tick completes. -/

namespace Sys2Proof.Machine

/-! ### One tick (R322) -/

/-- What a tick completes and what it leaves in the queue, of a queue in two parts: of each part what it would be alone,
whatever the statistics. -/
theorem tick_of_queue_append {b b₁ b₂ : Bus} (h : b.queue = b₁.queue ++ b₂.queue) :
    (tick b).1 = (tick b₁).1 ++ (tick b₂).1 ∧ (tick b).2.queue = (tick b₁).2.queue ++ (tick b₂).2.queue := by
  have happend := tick_append b b₁.queue b₂.queue
  rwa [← h] at happend

theorem tick_of_queue_nil {b : Bus} (h : b.queue = []) : (tick b).1 = [] ∧ (tick b).2.queue = [] := by
  simp [tick, h]

/-- The last tick of a request that is alone in the queue. -/
theorem tick_of_queue_last {b : Bus} {r : BusRequest} (h : b.queue = [r]) (hr : r.remaining = 1) :
    (tick b).1 = [{ r with completed := true, remaining := 0 }] ∧ (tick b).2.queue = [] := by
  simp [tick, h, hr]

/-- Every tick before that. -/
theorem tick_of_queue_waiting {b : Bus} {r : BusRequest} (h : b.queue = [r]) (hr : 2 ≤ r.remaining) :
    (tick b).1 = [] ∧ (tick b).2.queue = [{ r with remaining := r.remaining - 1 }] := by
  have hleft : r.remaining - 1 ≠ 0 := by omega
  simp [tick, h, hleft]

/-! ### Ticks in a row -/

/-- The bus after k ticks. -/
def busAfter (k : Nat) (b : Bus) : Bus := (fun b => (tick b).2)^[k] b

/-- The requests that the tick after k ticks completes. -/
def completedAt (k : Nat) (b : Bus) : List BusRequest := (tick (busAfter k b)).1

theorem busAfter_succ (k : Nat) (b : Bus) : busAfter (k + 1) b = busAfter k (tick b).2 := rfl

theorem completedAt_zero (b : Bus) : completedAt 0 b = (tick b).1 := rfl

theorem completedAt_succ (k : Nat) (b : Bus) : completedAt (k + 1) b = completedAt k (tick b).2 := rfl

/-- Ticks count no request. -/
theorem busAfter_totalRequests (k : Nat) : ∀ b, (busAfter k b).totalRequests = b.totalRequests := by
  induction k with
  | zero => intro b; rfl
  | succ k ih => intro b; rw [busAfter_succ, ih, (tick_counts b).1]

/-- Two parts of a queue are completed independently of each other, those of the first part first. -/
theorem completedAt_of_queue_append (k : Nat) : ∀ {b b₁ b₂ : Bus}, b.queue = b₁.queue ++ b₂.queue →
    completedAt k b = completedAt k b₁ ++ completedAt k b₂ := by
  induction k with
  | zero => exact fun h => (tick_of_queue_append h).1
  | succ k ih => exact fun h => ih (tick_of_queue_append h).2

/-- An empty queue completes nothing. -/
theorem completedAt_of_queue_nil (k : Nat) : ∀ {b : Bus}, b.queue = [] → completedAt k b = [] := by
  induction k with
  | zero => exact fun h => (tick_of_queue_nil h).1
  | succ k ih => exact fun h => ih (tick_of_queue_nil h).2

/-- A request alone in the queue is completed by the tick that takes its remaining ticks to 0, and by no other. -/
theorem completedAt_of_queue_singleton (k : Nat) : ∀ {b : Bus} {r : BusRequest}, b.queue = [r] →
    1 ≤ r.remaining → completedAt k b =
      if k + 1 = r.remaining then [{ r with completed := true, remaining := 0 }] else [] := by
  induction k with
  | zero =>
    intro b r h hr
    rw [completedAt_zero]
    by_cases hlast : r.remaining = 1
    · rw [(tick_of_queue_last h hlast).1, if_pos (by omega)]
    · rw [(tick_of_queue_waiting h (by omega)).1, if_neg (by omega)]
  | succ k ih =>
    intro b r h hr
    rw [completedAt_succ]
    by_cases hlast : r.remaining = 1
    · rw [completedAt_of_queue_nil k (tick_of_queue_last h hlast).2, if_neg (by omega)]
    · have hcount : k + 1 = r.remaining - 1 ↔ k + 1 + 1 = r.remaining := by omega
      rw [ih (tick_of_queue_waiting h (by omega)).2 (Nat.le_sub_one_of_lt (by omega)), if_congr hcount rfl rfl]

/-! ### A submission (R321, R326) -/

/-- Every request is counted in the total. -/
theorem countRequest_totalRequests (op : BusOp) (b : Bus) :
    (countRequest op b).totalRequests = b.totalRequests + 1 := by
  cases op <;> rfl

/-- Settles O55: the queue after the submission is the queue before it and the request, and the two parts are completed
independently. -/
theorem busRequestCompletesAfterLatency : Obligations.BusRequestCompletesAfterLatency := by
  intro op la pid tid payload s hlat r ticks k
  have hbus := submit_bus op la pid tid payload s
  have hqueue : r.2.bus.queue = s.bus.queue ++ [⟨op, la, pid, tid, payload, false, r.1, s.cfg.busLatency⟩] := by
    rw [hbus]
  have htotal : r.2.bus.totalRequests = s.bus.totalRequests + 1 := by
    rw [hbus]
    exact countRequest_totalRequests op s.bus
  refine ⟨?_, (busAfter_totalRequests k _).trans htotal⟩
  calc completedAt k r.2.bus
      = completedAt k s.bus ++
          completedAt k { s.bus with queue := [⟨op, la, pid, tid, payload, false, r.1, s.cfg.busLatency⟩] } :=
        completedAt_of_queue_append k hqueue
    _ = _ := congrArg _ (completedAt_of_queue_singleton k rfl hlat)

end Sys2Proof.Machine
end

section
/-! SUPPORT. The driver's `step()` (49_environment.md R351, R356, R372): the turns, the scheduler's order and the end of
a step, and the switch of a thread onto a processor and off it (R355, R358). -/

namespace Sys2Proof.Machine

/-! ### The turns (R351, 40_pipeline.md R160) -/

/-- A processor that is not RUNNING has no turn. -/
theorem turn_notRunning {s : State} {p : Nat} (h : ∀ P, s.procs[p]? = some P → P.state ≠ .running) :
    turn p s = .next s := by
  cases hP : s.procs[p]? with
  | none => simp only [turn, hP]
  | some P => simp only [turn, hP, if_neg (h P hP)]

/-- The turn of a processor that fetches the word of an instruction is the instruction's call. -/
theorem turn_decoded {s : State} {p t : Nat} {P : Proc} {T : Thread} {w : InstrWord} {i : Instr}
    (hr : Running { s with cur := p } P t T) (hrun : P.state = .running) (hstall : P.stall = 0)
    (hfetch : (s.codeOf t)[P.regs.pc.toNat]? = some w) (hd : decode w = .ok i) :
    turn p s = exec i { s with cur := p } := by
  rw [turn_fetched hr hrun hstall hfetch]
  simp only [runWord, hd]

theorem step_of_not_finished {s : State} (h : s.vm ≠ .finished) :
    step s = andThen (turns (List.range s.cfg.nproc) (beginStep s)) fun s' => .next (finishStep s') := if_neg h

theorem step_of_finished {s : State} (h : s.vm = .finished) :
    step s = .next { s with out := { raised := none, stillRunning := false, ticked := [] } } := if_pos h

/-- Settles O19, clause by clause: the turn of a processor, the turns in a row, and the step around them. -/
theorem stepRunsTheDecodedInstruction : Obligations.StepRunsTheDecodedInstruction :=
  ⟨fun _ _ _ _ _ _ _ hr hrun hstall hfetch hd => turn_decoded hr hrun hstall hfetch hd,
    fun _ _ h => turn_notRunning h, fun _ => rfl, fun _ _ _ => rfl, fun _ h => step_of_not_finished h,
    fun _ h => step_of_finished h⟩

/-- Processors of which none is RUNNING have no turns. -/
theorem turns_notRunning {ps : List Nat} {s : State}
    (h : ∀ q ∈ ps, ∀ Q, s.procs[q]? = some Q → Q.state ≠ .running) : turns ps s = .next s := by
  induction ps with
  | nil => rfl
  | cons q qs ih =>
    rw [turns, turn_notRunning (h q List.mem_cons_self)]
    exact ih fun q' hq' => h q' (List.mem_cons_of_mem q hq')

theorem andThen_assoc (o : Host.Outcome State Fault Refusal) (f g : State → Host.Outcome State Fault Refusal) :
    andThen (andThen o f) g = andThen o fun s => andThen (f s) g := by
  cases o <;> rfl

theorem turns_append (ps qs : List Nat) (s : State) : turns (ps ++ qs) s = andThen (turns ps s) (turns qs) := by
  induction ps generalizing s with
  | nil => rfl
  | cons p ps ih =>
    rw [List.cons_append, turns, turns, andThen_assoc]
    exact congrArg (andThen (turn p s)) (funext ih)

/-- Going on with what gives every next state back changes nothing. -/
theorem andThen_next_congr {o : Host.Outcome State Fault Refusal} {f : State → Host.Outcome State Fault Refusal}
    (h : ∀ s, o = .next s → f s = .next s) : andThen o f = o := by
  cases o with
  | next s => exact h s rfl
  | fault r => rfl
  | refused r => rfl

/-- Of turns in which one processor is RUNNING, only that processor's turn counts, as its call changes no other. -/
theorem turns_of_one {ps : List Nat} (hnodup : ps.Nodup) {p : Nat} (hp : p ∈ ps) {s : State} {i : Instr}
    (hothers : ∀ q Q, q ≠ p → s.procs[q]? = some Q → Q.state ≠ .running)
    (hturn : turn p s = exec i { s with cur := p }) : turns ps s = exec i { s with cur := p } := by
  obtain ⟨before, after, rfl⟩ := List.append_of_mem hp
  have hne : ∀ q ∈ before ++ after, q ≠ p := by
    rintro q hq rfl
    exact (List.nodup_cons.1 (List.nodup_middle.1 hnodup)).1 hq
  have hbefore : turns before s = .next s :=
    turns_notRunning fun q hq Q => hothers q Q (hne q (List.mem_append_left _ hq))
  have hafter : ∀ s', exec i { s with cur := p } = .next s' → turns after s' = .next s' := by
    intro s' e
    refine turns_notRunning fun q hq Q hQ => ?_
    have hq : q ≠ p := hne q (List.mem_append_right _ hq)
    rw [(exec_call e).others q hq] at hQ
    exact hothers q Q hq hQ
  calc turns (before ++ p :: after) s = andThen (turns before s) (turns (p :: after)) := turns_append before _ s
    _ = andThen (turn p s) (turns after) := by rw [hbefore]; rfl
    _ = exec i { s with cur := p } := by rw [hturn, andThen_next_congr hafter]

/-- Settles O20: the turns of the step come to the one RUNNING processor's. -/
theorem stepOfOneRunningProcessor : Obligations.StepOfOneRunningProcessor := by
  intro s p P t T w i hvm hp hr hrun hstall hothers hfetch hd
  have hturn := turn_decoded hr hrun hstall hfetch hd
  rw [step_of_not_finished hvm, turns_of_one List.nodup_range (List.mem_range.2 hp) hothers hturn]

/-! ### Onto a processor and off it (R355, R358) -/

theorem switchIn_eq {s : State} {p t : Nat} {P : Proc} {T : Thread} (hP : s.procs[p]? = some P)
    (hT : s.threads[t]? = some T) :
    switchIn p t s = { s with
      procs := s.procs.set p (switchedIn t T.ctx P)
      threads := s.threads.set t { T with state := .running, proc := some p }
      switches := s.switches + 1 } := by
  rw [switchIn_some hT, modify_eq_set_of_getElem? hP, modify_eq_set_of_getElem? hT]

/-- A suspended thread's saved context is the register set of the processor it left. -/
theorem leaving_thread {s : State} {t : Nat} {T : Thread} (hT : s.threads[t]? = some T) (p : Nat) (st : ThreadState)
    (P : Proc) :
    (leaving p t st P s).threads[t]? = some { T with ctx := P.regs, state := st, proc := none } := by
  simp [leaving, hT]

/-- Settles O57: a switch in reads the saved context, which a suspension writes. -/
theorem contextSwitchPreservesRegisters : Obligations.ContextSwitchPreservesRegisters := by
  intro s p t P T hP hT
  have hsuspend : suspend p t s = leaving p t .waiting P s := takeOff_eq_leaving hP t .waiting
  refine ⟨switchIn_eq hP hT, hsuspend, fun q Q hQ => ?_⟩
  rw [hsuspend] at hQ ⊢
  rw [switchIn_eq hQ (leaving_thread hT p .waiting P)]
  exact List.getElem?_set_self (List.getElem?_eq_some_iff.1 hQ).1

/-! ### The end of a step (R372, 60_exceptions.md R407) -/

/-- No processor is RUNNING and no thread is READY. -/
abbrev Stuck (s : State) : Prop := (∀ P ∈ s.procs, P.state ≠ .running) ∧ s.ready = []

theorem stuck_iff (s : State) : Stuck s ↔ (anyRunning s || !s.ready.isEmpty) = false := by
  simp [Stuck, anyRunning]

theorem mem_waitingThreads {s : State} {t : Nat} :
    t ∈ waitingThreads s ↔ ∃ T, s.threads[t]? = some T ∧ T.state = .waiting := by
  rw [waitingThreads, List.mem_filter, List.mem_range]
  constructor
  · rintro ⟨hlt, hwait⟩
    rw [List.getElem?_eq_getElem hlt] at hwait ⊢
    exact ⟨_, rfl, by simpa using hwait⟩
  · rintro ⟨T, hT, hwait⟩
    exact ⟨(List.getElem?_eq_some_iff.1 hT).1, by simp [hT, hwait]⟩

theorem waitingThreads_ascending (s : State) : (waitingThreads s).Pairwise (· < ·) :=
  List.Pairwise.filter _ List.pairwise_lt_range

theorem waitingThreads_eq_nil {s : State} : waitingThreads s = [] ↔ ∀ T ∈ s.threads, T.state ≠ .waiting := by
  rw [List.eq_nil_iff_forall_not_mem]
  constructor
  · intro h T hT hwait
    obtain ⟨t, ht⟩ := List.mem_iff_getElem?.1 hT
    exact h t (mem_waitingThreads.2 ⟨T, ht, hwait⟩)
  · intro h t ht
    obtain ⟨T, hT, hwait⟩ := mem_waitingThreads.1 ht
    exact h T (List.mem_of_getElem? hT) hwait

section
variable {s : State}

theorem endOfStep_pending {r : FaultRecord} {rs : List FaultRecord} (h : s.pending = r :: rs) :
    endOfStep s = (some (.vmException r), .paused) := by
  simp only [endOfStep, h]

theorem endOfStep_goesOn (h : s.pending = []) (hgo : ¬ Stuck s) : endOfStep s = (none, s.vm) := by
  rw [stuck_iff, Bool.not_eq_false] at hgo
  simp only [endOfStep, h, if_pos hgo]

theorem endOfStep_finished (h : s.pending = []) (hstuck : Stuck s) (hnone : waitingThreads s = []) :
    endOfStep s = (none, .finished) := by
  rw [stuck_iff] at hstuck
  simp [endOfStep, h, hstuck, hnone]

theorem endOfStep_deadlock (h : s.pending = []) (hstuck : Stuck s) (hsome : waitingThreads s ≠ []) :
    endOfStep s = (some (.deadlock (waitingThreads s)), .paused) := by
  rw [stuck_iff] at hstuck
  simp [endOfStep, h, hstuck, hsome]

end

theorem finishStep_vm (s : State) : (finishStep s).vm = (endOfStep s).2 := rfl

theorem finishStep_raised (s : State) : (finishStep s).out.raised = (endOfStep s).1 := rfl

/-- Settles O59: the tick and what is given back do not hang on how the step ends; how it ends is a case split in the
order of R372. -/
theorem stepEnds : Obligations.StepEnds := by
  intro s s' stuck
  refine ⟨rfl, rfl, bne_iff_ne, fun r rs h => ?_, fun h hgo => ?_, fun h hstuck hnone => ?_,
    fun h hstuck hwait => ?_⟩
  · rw [finishStep_vm, finishStep_raised, endOfStep_pending h]
    exact ⟨rfl, rfl⟩
  · rw [finishStep_vm, finishStep_raised, endOfStep_goesOn h hgo]
    exact ⟨rfl, rfl⟩
  · rw [finishStep_vm, finishStep_raised, endOfStep_finished h hstuck (waitingThreads_eq_nil.2 hnone)]
    exact ⟨rfl, rfl⟩
  · have hsome : waitingThreads s ≠ [] := by
      obtain ⟨T, hT, hTwait⟩ := hwait
      exact fun hnil => waitingThreads_eq_nil.1 hnil T hT hTwait
    rw [finishStep_vm, finishStep_raised, endOfStep_deadlock h hstuck hsome]
    exact ⟨rfl, _, rfl, waitingThreads_ascending s, fun t => mem_waitingThreads⟩

/-! ### The ending of a thread (R371, R373, 60_exceptions.md R404) -/

theorem sortIds_ascending (us : List Nat) : (sortIds us).Pairwise (· < ·) := by
  induction us with
  | nil => exact .nil
  | cons u us ih => exact insertId_ascending ih

/-- Settles O47: a fault and a VMException are a record and then a termination, which does not wake its own thread. -/
theorem threadEnds : Obligations.ThreadEnds := by
  intro s p t P T hP hT hfree
  refine ⟨terminate_eq_ended hP hT hfree, sortIds_ascending _, fun u => mem_sortIds u _, fun f => ?_,
    fun e info => ?_⟩
  · rw [takeFault, State.regsOf_eq hP]
    cases f <;> exact terminate_eq_ended hP hT hfree
  · rw [vmFail, State.regsOf_eq hP]
    exact terminate_eq_ended hP hT hfree

end Sys2Proof.Machine
end

section
/-! SUPPORT. The scheduler (49_environment.md R356): the idle processors of a list take the ready threads in order. -/

namespace Sys2Proof.Machine

/-- The idle ones among processors ps, in their order. -/
def idleAmong (ps : List Nat) (s : State) : List Nat :=
  ps.filter fun p => (s.procs[p]?.map fun P => P.state) == some .idle

theorem idleProcs_eq (s : State) : idleProcs s = idleAmong (List.range s.procs.length) s := rfl

/-- Which processors are idle hangs on those processors only. -/
theorem idleAmong_congr {ps : List Nat} {s s' : State} (h : ∀ p ∈ ps, s'.procs[p]? = s.procs[p]?) :
    idleAmong ps s' = idleAmong ps s :=
  List.filter_congr fun p hp => by rw [h p hp]

theorem idleAmong_cons_idle {p : Nat} {ps : List Nat} {s : State} {P : Proc} (hP : s.procs[p]? = some P)
    (hidle : P.state = .idle) : idleAmong (p :: ps) s = p :: idleAmong ps s :=
  List.filter_cons_of_pos (by simp [hP, hidle])

theorem idleAmong_cons_busy {p : Nat} {ps : List Nat} {s : State}
    (h : ∀ P, s.procs[p]? = some P → P.state ≠ .idle) : idleAmong (p :: ps) s = idleAmong ps s :=
  List.filter_cons_of_neg (by simpa using h)

/-! ### The scheduler at one processor -/

section
variable {s : State} {p : Nat}

theorem scheduleOn_busy (h : ∀ P, s.procs[p]? = some P → P.state ≠ .idle) : scheduleOn s p = s := by
  obtain e | ⟨P, t, ts, hP, hidle, -, -⟩ := scheduleOn_cases s p
  · exact e
  · exact absurd hidle (h P hP)

theorem scheduleOn_nobody (h : s.ready = []) : scheduleOn s p = s := by
  obtain e | ⟨P, t, ts, -, -, hready, -⟩ := scheduleOn_cases s p
  · exact e
  · rw [h] at hready
    cases hready

theorem scheduleOn_idle {P : Proc} {t : Nat} {ts : List Nat} (hP : s.procs[p]? = some P) (hidle : P.state = .idle)
    (hready : s.ready = t :: ts) : scheduleOn s p = switchIn p t { s with ready := ts } := by
  simp only [scheduleOn, hP, if_pos hidle, hready]

end

/-- With nobody ready the scheduler does nothing. -/
theorem foldl_scheduleOn_nobody {s : State} (h : s.ready = []) (ps : List Nat) : ps.foldl scheduleOn s = s := by
  induction ps with
  | nil => rfl
  | cons p ps ih => rw [List.foldl_cons, scheduleOn_nobody h, ih]

/-! ### The idle processors and the ready threads in step -/

/-- In s' the n-th of the processors `idle` runs the n-th thread that is ready in s, as far as there is one; these
threads have left the queue, each was one switch, and every other processor is as in s. -/
structure Dealt (idle : List Nat) (s s' : State) : Prop where
  ready    : s'.ready = s.ready.drop idle.length
  switches : s'.switches = s.switches + min idle.length s.ready.length
  taken    : ∀ (n p t : Nat) (P : Proc) (T : Thread), idle[n]? = some p → s.ready[n]? = some t →
    s.procs[p]? = some P → s.threads[t]? = some T → s'.procs[p]? = some (switchedIn t T.ctx P)
  others   : ∀ p, p ∉ idle → s'.procs[p]? = s.procs[p]?
  spare    : ∀ n p, idle[n]? = some p → s.ready.length ≤ n → s'.procs[p]? = s.procs[p]?

theorem Dealt.of_nobody {s : State} (h : s.ready = []) (idle : List Nat) : Dealt idle s s where
  ready := by simp [h]
  switches := by simp [h]
  taken n p t P T _ hready := by simp [h] at hready
  others _ _ := rfl
  spare _ _ _ _ := rfl

theorem Dealt.of_noneIdle (s : State) : Dealt [] s s where
  ready := rfl
  switches := by simp
  taken n p t P T hidle := by simp at hidle
  others _ _ := rfl
  spare _ _ _ _ := rfl

/-- The first idle processor takes the first ready thread, and the others the rest. -/
theorem Dealt.cons {idle ts : List Nat} {s s' : State} {p t : Nat} {P : Proc} {T : Thread} (hp : p ∉ idle)
    (hready : s.ready = t :: ts) (hP : s.procs[p]? = some P) (hT : s.threads[t]? = some T)
    (h : Dealt idle (switchIn p t { s with ready := ts }) s') : Dealt (p :: idle) s s' := by
  have hfirst : s'.procs[p]? = some (switchedIn t T.ctx P) := by
    rw [h.others p hp, switchIn_eq (s := { s with ready := ts }) hP hT]
    exact List.getElem?_set_self (List.getElem?_eq_some_iff.1 hP).1
  rw [switchIn_eq (s := { s with ready := ts }) hP hT] at h
  obtain ⟨hdrop, hcount, htaken, hothers, hspare⟩ := h
  have hsame : ∀ q, q ≠ p → (s.procs.set p (switchedIn t T.ctx P))[q]? = s.procs[q]? := fun q hq =>
    List.getElem?_set_ne (Ne.symm hq)
  have hctx : ∀ (u : Nat) (U : Thread), s.threads[u]? = some U →
      ∃ U', (s.threads.set t { T with state := .running, proc := some p })[u]? = some U' ∧ U'.ctx = U.ctx := by
    intro u U hU
    by_cases hu : t = u
    · subst hu
      obtain rfl : T = U := Option.some.inj (hT.symm.trans hU)
      exact ⟨_, List.getElem?_set_self (List.getElem?_eq_some_iff.1 hT).1, rfl⟩
    · exact ⟨U, (List.getElem?_set_ne hu).trans hU, rfl⟩
  refine ⟨by simp [hdrop, hready], ?_, fun n q u Q U hq hu hQ hU => ?_, fun q hq => ?_, fun n q hq hn => ?_⟩
  · simp only [hcount, hready, List.length_cons]
    omega
  · rw [hready] at hu
    cases n with
    | zero =>
      cases hq
      cases hu
      obtain rfl : P = Q := Option.some.inj (hP.symm.trans hQ)
      obtain rfl : T = U := Option.some.inj (hT.symm.trans hU)
      exact hfirst
    | succ n =>
      have hne : q ≠ p := fun e => hp (e ▸ List.mem_of_getElem? hq)
      obtain ⟨U', hU', hc⟩ := hctx u U hU
      rw [← hc]
      exact htaken n q u Q U' hq hu ((hsame q hne).trans hQ) hU'
  · obtain ⟨hne, hmem⟩ := not_or.1 (mt List.mem_cons.2 hq)
    exact (hothers q hmem).trans (hsame q hne)
  · rw [hready] at hn
    cases n with
    | zero => simp at hn
    | succ n =>
      have hne : q ≠ p := fun e => hp (e ▸ List.mem_of_getElem? hq)
      exact (hspare n q hq (Nat.le_of_succ_le_succ hn)).trans (hsame q hne)

/-- The scheduler over processors ps, each visited once. -/
theorem foldl_scheduleOn_dealt {ps : List Nat} (hnodup : ps.Nodup) {s : State}
    (hready : ∀ t ∈ s.ready, t < s.threads.length) : Dealt (idleAmong ps s) s (ps.foldl scheduleOn s) := by
  induction ps generalizing s with
  | nil => exact .of_noneIdle s
  | cons p ps ih =>
    obtain ⟨hp, hps⟩ := List.nodup_cons.1 hnodup
    rw [List.foldl_cons]
    by_cases hidle : ∃ P, s.procs[p]? = some P ∧ P.state = .idle
    · obtain ⟨P, hP, hst⟩ := hidle
      cases hq : s.ready with
      | nil =>
        rw [scheduleOn_nobody hq, foldl_scheduleOn_nobody hq]
        exact .of_nobody hq _
      | cons t ts =>
        have hlt : t < s.threads.length := hready t (hq ▸ List.mem_cons_self)
        have hT := List.getElem?_eq_getElem hlt
        have hswitch := switchIn_eq (s := { s with ready := ts }) hP hT
        have hsame : idleAmong ps (switchIn p t { s with ready := ts }) = idleAmong ps s :=
          idleAmong_congr fun q hmem => by
            rw [hswitch]
            exact List.getElem?_set_ne fun e : p = q => hp (e ▸ hmem)
        rw [idleAmong_cons_idle hP hst, scheduleOn_idle hP hst hq]
        refine Dealt.cons (fun hmem => hp (List.mem_filter.1 hmem).1) hq hP hT ?_
        rw [← hsame]
        refine ih hps fun u hu => ?_
        rw [hswitch] at hu ⊢
        simpa using hready u (hq ▸ List.mem_cons_of_mem t hu)
    · have hbusy : ∀ P, s.procs[p]? = some P → P.state ≠ .idle := fun P hP hst => hidle ⟨P, hP, hst⟩
      rw [idleAmong_cons_busy hbusy, scheduleOn_busy hbusy]
      exact ih hps hready

/-- Settles O58: the scheduler visits every processor once. -/
theorem scheduleIsFifo : Obligations.ScheduleIsFifo := by
  intro s hlen hready s' idle
  have h : Dealt (idleProcs s) s (scheduleThreads s) := by
    rw [idleProcs_eq, scheduleThreads, ← hlen]
    exact foldl_scheduleOn_dealt List.nodup_range hready
  exact ⟨h.ready, h.switches, h.taken, h.others, h.spare⟩

end Sys2Proof.Machine
end

section
/-! SUPPORT. A TERMINATED thread is in no place of the scheduler, so no operation of a step reaches its record
(49_environment.md R371, 60_exceptions.md R406). -/

namespace Sys2Proof.Machine

/-! ### What a call on another thread leaves of a thread's record -/

section
variable {s : State} {p t u : Nat} {P : Proc}

theorem woken_of_not_mem {us : List Nat} (h : u ∉ us) (ts : List Thread) : (woken us ts)[u]? = ts[u]? := by
  rw [woken_getElem?]
  simp [h]

/-- Whoever a termination wakes was parked. -/
theorem mem_parked_of_wakes (h : u ∈ wakes t s) : u ∈ parked s := by
  rcases List.mem_append.1 h with hlock | hjoin
  · exact mem_parked_of_handoffs hlock
  · cases hT : s.threads[t]? with
    | none => simp [joinersOf, hT] at hjoin
    | some T =>
      rw [joinersOf_eq hT, mem_sortIds] at hjoin
      exact mem_parked_of_joiners hT hjoin

theorem takeOff_thread_other (hu : u ≠ t) (st : ThreadState) :
    (takeOff p t st s).threads[u]? = s.threads[u]? := by
  rw [takeOff_threads, List.getElem?_modify_ne _ _ (Ne.symm hu)]

theorem terminate_thread_other (hP : s.procs[p]? = some P) (hu : u ≠ t) (hfree : u ∉ parked s) :
    (terminate p t s).threads[u]? = s.threads[u]? := by
  have hwakes : u ∉ wakes t s := fun h => hfree (mem_parked_of_wakes h)
  rw [terminate_eq hP, State.modThread_threads, List.getElem?_modify_ne _ _ (Ne.symm hu), woken_of_not_mem hwakes]
  exact List.getElem?_modify_ne _ _ (Ne.symm hu)

theorem takeFault_thread_other (hP : s.procs[p]? = some P) (hu : u ≠ t) (hfree : u ∉ parked s) (f : ThreadFault) :
    (takeFault p t f s).threads[u]? = s.threads[u]? := by
  refine terminate_thread_other (P := P) ?_ hu hfree
  exact hP

theorem vmFail_thread_other (hP : s.procs[p]? = some P) (hu : u ≠ t) (hfree : u ∉ parked s) (e : VmException)
    (info : Word) : (vmFail p t e info s).threads[u]? = s.threads[u]? := by
  refine terminate_thread_other (P := P) ?_ hu hfree
  exact hP

theorem resolveLock_thread_other (hu : u ≠ t) (id : Word) :
    (resolveLock p t id s).threads[u]? = s.threads[u]? := by
  simp only [resolveLock]
  split
  · rfl
  · exact takeOff_thread_other hu .waiting

/-- The thread a release hands the lock to waits in the lock's queue. -/
theorem mem_parked_of_release {id : Word} {l : Lock} (hl : findLock id s.locks = some l)
    (h : u ∈ l.queue.take 1) : u ∈ parked s :=
  List.mem_append_left _ (List.mem_append_left _
    (List.mem_flatMap.2 ⟨l, List.mem_of_find?_eq_some hl, List.mem_of_mem_take h⟩))

theorem resolveUnlock_thread_other (hP : s.procs[p]? = some P) (hu : u ≠ t) (hfree : u ∉ parked s) (id : Word) :
    (resolveUnlock p t id s).threads[u]? = s.threads[u]? := by
  by_cases hholder : ∃ l, findLock id s.locks = some l ∧ l.holder = some t
  · obtain ⟨l, hl, ht⟩ := hholder
    rw [resolveUnlock_holder hl ht]
    exact woken_of_not_mem (fun h => hfree (mem_parked_of_release hl h)) _
  · rw [resolveUnlock_other fun l hl ht => hholder ⟨l, hl, ht⟩]
    exact vmFail_thread_other hP hu hfree _ _

theorem resolveBarrier_thread_other (htables : TablesAscending s) (hu : u ≠ t) (hfree : u ∉ parked s)
    (id n : Word) : (resolveBarrier p t id n s).threads[u]? = s.threads[u]? := by
  obtain ⟨b, hb⟩ : ∃ b, (findBarrier id s.barriers).getD ⟨id, n, [], false, 0⟩ = b := ⟨_, rfl⟩
  obtain ⟨-, -, hparked⟩ := findBarrier_getD htables hb
  simp only [resolveBarrier, hb]
  split
  · rw [unblockAll_eq]
    refine woken_of_not_mem (fun h => ?_) _
    have harrived : u ∈ insertId t b.arrived := (List.mem_filter.1 h).1
    exact hfree (hparked u (((mem_insertId t u _).1 harrived).resolve_left hu))
  · exact takeOff_thread_other hu .waiting

/-- A JOIN writes the record of a live thread only. -/
theorem resolveJoin_thread_other (hP : s.procs[p]? = some P) (hu : u ≠ t) (hfree : u ∉ parked s) {U : Thread}
    (hU : s.threads[u]? = some U) (hended : U.state = .terminated) (j : Word) :
    (resolveJoin p t j s).threads[u]? = s.threads[u]? := by
  simp only [resolveJoin]
  split
  · exact vmFail_thread_other hP hu hfree _ _
  · rename_i J hJ
    split
    · rfl
    · rename_i hlive
      have hne : j.toNat ≠ u := by
        rintro rfl
        obtain rfl : J = U := Option.some.inj (hJ.symm.trans hU)
        exact hlive hended
      exact (takeOff_thread_other hu .waiting).trans (List.getElem?_modify_ne _ _ hne)

theorem resolveCas_threads (p : Nat) (a e n : Word) (r : Reg) (s : State) :
    (resolveCas p a e n r s).threads = s.threads := by
  simp only [resolveCas]
  split
  · exact ((dataRead_step p _ a.toNat s).trans (dataWrite_step p _ _ n _)).threads
  · exact (dataRead_step p _ a.toNat s).threads

/-- The resolution of an effect of thread t leaves the record of another thread alone that has terminated and is parked
nowhere. -/
theorem resolve_terminated (hP : s.procs[p]? = some P) (htables : TablesAscending s) (hu : u ≠ t)
    (hfree : u ∉ parked s) {U : Thread} (hU : s.threads[u]? = some U) (hended : U.state = .terminated) (e : Effect) :
    (resolve p t e s).threads[u]? = some U := by
  refine Eq.trans ?_ hU
  cases e with
  | registersModified rs => rfl
  | memoryRead a d =>
    have hread : (dataRead p (s.threadOn p) a.toNat s).2.threads[u]? = s.threads[u]? := by
      rw [(dataRead_step p _ a.toNat s).threads]
    cases d with
    | reg r => exact hread
    | pc => exact hread
  | memoryWrite a v =>
    exact congrArg (fun ts : List Thread => ts[u]?) (dataWrite_step p (s.threadOn p) a.toNat v s).threads
  | ret => rfl
  | syncLock id => exact resolveLock_thread_other hu id
  | syncUnlock id => exact resolveUnlock_thread_other hP hu hfree id
  | fence => rfl
  | cas a x n r => exact congrArg (fun ts : List Thread => ts[u]?) (resolveCas_threads p a x n r s)
  | barrier id n => exact resolveBarrier_thread_other htables hu hfree id n
  | halt => exact terminate_thread_other hP hu hfree
  | yield =>
    exact (List.getElem?_modify_ne _ _ (Ne.symm hu)).trans (takeOff_thread_other hu .waiting)
  | syscall n => rfl
  | spawn f a r => exact List.getElem?_append_left (List.getElem?_eq_some_iff.1 hU).1
  | join j => exact resolveJoin_thread_other hP hu hfree hU hended j

end

/-! ### A terminated thread through a step -/

/-- A terminated thread is on no processor, not in the ready queue, and parked nowhere. -/
theorem Scheduled.terminated_nowhere {s : State} (h : Scheduled s) {u : Nat} {U : Thread}
    (hU : s.threads[u]? = some U) (hended : U.state = .terminated) : u ∉ hosted s ∧ u ∉ s.ready ∧ u ∉ parked s := by
  obtain ⟨hrunning, hready, hwaiting⟩ := ((scheduled_iff s).1 h).1.state u U List.not_mem_nil hU
  simp only [hended, reduceCtorEq, false_iff] at hrunning hready hwaiting
  exact ⟨hrunning, hready, hwaiting⟩

/-- The thread whose call is being made is on a processor. -/
theorem Running.mem_hosted {s : State} {P : Proc} {t : Nat} {T : Thread} (hr : Running s P t T) : t ∈ hosted s :=
  Machine.mem_hosted.2 ⟨s.cur, (threadOn_eq hr.proc).trans hr.thread⟩

section
variable {s s' : State} {u : Nat} {U : Thread}

/-- Counting a call of another thread leaves a thread's record alone. -/
theorem called_thread_other {t : Nat} (hne : u ≠ t) (hU : s.threads[u]? = some U) (Q : Proc) :
    (called s t Q).threads[u]? = some U := by
  rw [called_threads, List.getElem?_modify_ne _ _ (Ne.symm hne), hU]

/-- A fault of the thread whose call is being made, before the call is counted and after. -/
theorem takeFault_terminated {P : Proc} {t : Nat} (hP : s.procs[s.cur]? = some P) (hne : u ≠ t) (hfree : u ∉ parked s)
    (hU : s.threads[u]? = some U) (f : ThreadFault) (Q : Proc) :
    (takeFault s.cur t f (s.putProc s.cur Q)).threads[u]? = some U ∧
      (takeFault s.cur t f (called s t Q)).threads[u]? = some U := by
  have hQ := called_proc_cur hP t Q
  have hcalled := takeFault_thread_other hQ hne ((parked_called s t Q).symm ▸ hfree) f
  exact ⟨(takeFault_thread_other (s := s.putProc s.cur Q) hQ hne hfree f).trans hU,
    hcalled.trans (called_thread_other hne hU Q)⟩

/-- The thread whose call is being made has not terminated, and one that has is parked nowhere. -/
theorem Scheduled.ne_of_running (h : Scheduled s) {P : Proc} {t : Nat} {T : Thread} (hr : Running s P t T)
    (hU : s.threads[u]? = some U) (hended : U.state = .terminated) : u ≠ t ∧ u ∉ parked s := by
  obtain ⟨hhosted, -, hfree⟩ := h.terminated_nowhere hU hended
  exact ⟨fun e => hhosted (e ▸ hr.mem_hosted), hfree⟩

theorem exec_terminated {i : Instr} (h : Scheduled s) (e : exec i s = .next s') (hU : s.threads[u]? = some U)
    (hended : U.state = .terminated) : s'.threads[u]? = some U := by
  obtain ⟨P, t, T, hr, hres⟩ := exec_result e
  obtain ⟨hne, hfree⟩ := h.ne_of_running hr hU hended
  cases hres with
  | blocked f h' => exact h' ▸ (takeFault_terminated hr.proc hne hfree hU f _).1
  | fault f h' => exact h' ▸ (takeFault_terminated hr.proc hne hfree hU f _).2
  | done Q next es x _ _ _ h' =>
    have htables : TablesAscending (called s t (finishCall Q next es)) := ((scheduled_iff s).1 h).2
    exact h' ▸ resolve_terminated (called_proc_cur hr.proc t _) htables hne
      ((parked_called s t _).symm ▸ hfree) (called_thread_other hne hU _) hended x

theorem issueInvalid_terminated {hdr : Hdr} {why : DecodeFault} (h : Scheduled s)
    (e : issueInvalid hdr why s = .next s') (hU : s.threads[u]? = some U) (hended : U.state = .terminated) :
    s'.threads[u]? = some U := by
  obtain ⟨P, t, T, f, hr, hs'⟩ := issueInvalid_result e
  obtain ⟨hne, hfree⟩ := h.ne_of_running hr hU hended
  rcases hs' with rfl | rfl
  · exact (takeFault_terminated hr.proc hne hfree hU f _).1
  · exact (takeFault_terminated hr.proc hne hfree hU f _).2

theorem turn_terminated {p : Nat} (h : Scheduled s) (e : turn p s = .next s') (hU : s.threads[u]? = some U)
    (hended : U.state = .terminated) : s'.threads[u]? = some U := by
  have hcur : Scheduled { s with cur := p } := h
  obtain ⟨rfl, -⟩ | ⟨P, hP, -, ⟨-, rfl⟩ | ⟨t, T, -, hr, ⟨-, rfl⟩ | ⟨w, -, ⟨i, -, e⟩ | ⟨d, -, e⟩⟩⟩⟩ := turn_next e
  · exact hU
  · exact hU
  · obtain ⟨hne, hfree⟩ := hcur.ne_of_running hr hU hended
    exact (takeFault_terminated hr.proc hne hfree hU .fetchOutOfRange (silent P)).1
  · exact exec_terminated hcur e hU hended
  · exact issueInvalid_terminated hcur e hU hended

/-- The scheduler takes threads from the ready queue only. -/
theorem scheduleOn_terminated (h : Scheduled s) (hU : s.threads[u]? = some U) (hended : U.state = .terminated)
    (p : Nat) : (scheduleOn s p).threads[u]? = some U := by
  obtain e | ⟨P, t, ts, -, -, hready, e⟩ := scheduleOn_cases s p
  · rwa [e]
  · have hne : t ≠ u := by
      rintro rfl
      exact (h.terminated_nowhere hU hended).2.1 (hready ▸ List.mem_cons_self)
    rw [e]
    cases hT : s.threads[t]? with
    | none => rwa [switchIn_none (s := { s with ready := ts }) hT]
    | some T =>
      rw [switchIn_some (s := { s with ready := ts }) hT]
      exact (List.getElem?_modify_ne _ _ hne).trans hU

end

/-- Settles O12: with the scheduling invariant, which every part of a step keeps, every part leaves the record alone. -/
theorem terminatedThreadsStay : Obligations.TerminatedThreadsStay := by
  intro s s' h e t T hT hended
  have hkept := step_keeps (R := fun s₁ => Scheduled s₁ ∧ s₁.threads[t]? = some T) (fun _ _ _ h => h)
    (fun p s₁ h₁ => ⟨?_, scheduleOn_terminated h₁.1 h₁.2 hended p⟩)
    (fun p s₁ s₂ h₁ e₁ => ⟨?_, turn_terminated h₁.1 e₁ h₁.2 hended⟩) (fun _ h => h) (fun _ _ h => h) ⟨h, hT⟩ e
  · exact hkept.2
  · exact (SchedOk.iff_scheduled _).1 (scheduleOn_schedOk ((SchedOk.iff_scheduled _).2 h₁.1) p)
  · exact (SchedOk.iff_scheduled _).1 (turn_schedOk ((SchedOk.iff_scheduled _).2 h₁.1) e₁)

end Sys2Proof.Machine
end

section
/-! SUPPORT. What a call adds to the logs of the machine (60_exceptions.md R402, R403, 49_environment.md R378): the
operations that record no fault and only count up, the two that record one, and which of them an instruction is. -/

namespace Sys2Proof.Machine

/-! ### Counting up -/

/-- The statistics of b' are no lower than those of b, and add up if those of b do (47_bus_ops.md R326). -/
structure BusGrown (b b' : Bus) : Prop where
  total         : b.totalRequests ≤ b'.totalRequests
  reads         : b.readRequests ≤ b'.readRequests
  writes        : b.writeRequests ≤ b'.writeRequests
  invalidations : b.invalidationRequests ≤ b'.invalidationRequests
  add           : StatisticsAdd b → StatisticsAdd b'

theorem BusGrown.refl (b : Bus) : BusGrown b b := ⟨le_rfl, le_rfl, le_rfl, le_rfl, id⟩

theorem BusGrown.trans {b b' b'' : Bus} (h : BusGrown b b') (h' : BusGrown b' b'') : BusGrown b b'' :=
  ⟨h.total.trans h'.total, h.reads.trans h'.reads, h.writes.trans h'.writes,
    h.invalidations.trans h'.invalidations, fun hadd => h'.add (h.add hadd)⟩

/-- Counting a request raises the total and one of the other three. -/
theorem countRequest_grown (op : BusOp) (b : Bus) : BusGrown b (countRequest op b) := by
  cases op <;> constructor <;> simp only [countRequest, StatisticsAdd] <;> omega

/-- T' has counted no fewer instructions than T, and was created when T was (10_state.md R45). -/
structure ThreadGrown (T T' : Thread) : Prop where
  count   : T.execCycles ≤ T'.execCycles
  created : T'.created = T.created

theorem ThreadGrown.refl (T : Thread) : ThreadGrown T T := ⟨le_rfl, rfl⟩

/-- Bus statistics, threads and control-flow logs of s' have grown from those of s; without `COHERENCE_EN` the bus has
counted nothing (20_memory.md R97). -/
structure Grown (s s' : State) : Prop where
  cfg     : s'.cfg = s.cfg
  bus     : BusGrown s.bus s'.bus
  busOff  : s.cfg.coherence = false → s'.bus = { s.bus with queue := s'.bus.queue }
  threads : ∀ (t : Nat) (T : Thread), s.threads[t]? = some T → ∃ T', s'.threads[t]? = some T' ∧ ThreadGrown T T'
  logs    : ∀ (p : Nat) (P : Proc), s.procs[p]? = some P → ∃ P', s'.procs[p]? = some P' ∧ P.cflog <+: P'.cflog

section
variable {s s' s'' : State}

theorem Grown.of_eq (hcfg : s'.cfg = s.cfg) (hbus : s'.bus = s.bus) (hthreads : s'.threads = s.threads)
    (hprocs : s'.procs = s.procs) : Grown s s' where
  cfg := hcfg
  bus := hbus ▸ .refl s.bus
  busOff _ := by rw [hbus]
  threads _ T hT := ⟨T, hthreads ▸ hT, .refl T⟩
  logs _ P hP := ⟨P, hprocs ▸ hP, List.prefix_rfl⟩

theorem Grown.trans (h : Grown s s') (h' : Grown s' s'') : Grown s s'' where
  cfg := h'.cfg.trans h.cfg
  bus := h.bus.trans h'.bus
  busOff hoff := by rw [h'.busOff (h.cfg ▸ hoff), h.busOff hoff]
  threads t T hT := by
    obtain ⟨T', hT', k⟩ := h.threads t T hT
    obtain ⟨T'', hT'', k'⟩ := h'.threads t T' hT'
    exact ⟨T'', hT'', k.count.trans k'.count, k'.created.trans k.created⟩
  logs p P hP := by
    obtain ⟨P', hP', k⟩ := h.logs p P hP
    obtain ⟨P'', hP'', k'⟩ := h'.logs p P' hP'
    exact ⟨P'', hP'', k.trans k'⟩

/-- Changing one processor, whose log only grows. -/
theorem grown_modProc (p : Nat) {f : Proc → Proc} (hf : ∀ P, P.cflog <+: (f P).cflog) (s : State) :
    Grown s (s.modProc p f) where
  cfg := rfl
  bus := .refl s.bus
  busOff _ := rfl
  threads _ T hT := ⟨T, hT, .refl T⟩
  logs q P hP := by
    refine ⟨if p = q then f P else P, by simp [List.getElem?_modify, hP], ?_⟩
    split
    · exact hf P
    · exact List.prefix_rfl

/-- Changing one thread, whose count only grows. -/
theorem grown_modThread (t : Nat) {f : Thread → Thread} (hf : ∀ T, ThreadGrown T (f T)) (s : State) :
    Grown s (s.modThread t f) where
  cfg := rfl
  bus := .refl s.bus
  busOff _ := rfl
  threads u T hT := by
    refine ⟨if t = u then f T else T, by simp [List.getElem?_modify, hT], ?_⟩
    split
    · exact hf T
    · exact .refl T
  logs _ P hP := ⟨P, hP, List.prefix_rfl⟩

/-- Creating a thread leaves the records there are alone. -/
theorem grown_createThread (g : Nat) (R : RegSet) (o : Option Nat) (s : State) : Grown s (createThread g R o s) where
  cfg := rfl
  bus := .refl s.bus
  busOff _ := rfl
  threads t T hT := by
    refine ⟨T, ?_, .refl T⟩
    rw [createThread_threads, List.getElem?_append_left (List.getElem?_eq_some_iff.1 hT).1, hT]
  logs _ P hP := ⟨P, hP, List.prefix_rfl⟩

end

/-! ### The bus under an access (47_bus_ops.md R321, R326, R330 to R332) -/

theorem submit_busGrown (op : BusOp) (la pid : Nat) (tid : Option Nat) (payload : Option (List Word)) (s : State) :
    BusGrown s.bus (submit op la pid tid payload s).2.bus := by
  obtain ⟨h1, h2, h3, h4, h5⟩ := countRequest_grown op s.bus
  rw [submit_bus]
  exact ⟨h1, h2, h3, h4, h5⟩

theorem install_busGrown (p la : Nat) (data : List Word) (st : Mesi) (tid : Option Nat) (s : State) :
    BusGrown s.bus (install p la data st tid s).bus := by
  rcases install_bus p la data st tid s with h | ⟨la', payload, s₀, h₀, h⟩
  · rw [h]
    exact .refl s.bus
  · rw [h, ← h₀]
    exact submit_busGrown ..

theorem coherentRead_busGrown (p : Nat) (tid : Option Nat) (a : Nat) (s : State) :
    BusGrown s.bus (coherentRead p tid a s).2.bus := by
  simp only [coherentRead]
  split
  · exact .refl s.bus
  · exact (submit_busGrown _ _ _ _ _ _).trans (install_busGrown _ _ _ _ _ _)

theorem coherentWrite_busGrown (p : Nat) (tid : Option Nat) (a : Nat) (v : Word) (s : State) :
    BusGrown s.bus (coherentWrite p tid a v s).bus := by
  simp only [coherentWrite]
  split
  · exact .refl s.bus
  · rw [writeLooked_bus]
    exact submit_busGrown _ _ _ _ _ _
  · rw [writeLooked_bus]
    exact (submit_busGrown _ _ _ _ _ _).trans (install_busGrown _ _ _ _ _ _)

/-- A memory operation that counts up on the bus, and leaves it alone without `COHERENCE_EN`. -/
theorem MemoryStep.grown {s s' : State} (h : MemoryStep s s') (hbus : BusGrown s.bus s'.bus)
    (hoff : s.cfg.coherence = false → s'.bus = s.bus) : Grown s s' where
  cfg := h.cfg
  bus := hbus
  busOff hc := by rw [hoff hc]
  threads _ T hT := ⟨T, h.threads ▸ hT, .refl T⟩
  logs _ P hP := ⟨P, h.procs ▸ hP, List.prefix_rfl⟩

theorem dataRead_grown (p : Nat) (tid : Option Nat) (a : Nat) (s : State) : Grown s (dataRead p tid a s).2 := by
  refine (dataRead_step p tid a s).grown ?_ fun hoff => ?_
  · simp only [dataRead]
    split
    · exact coherentRead_busGrown p tid a s
    · exact .refl s.bus
  · simp [dataRead, hoff]

theorem dataWrite_grown (p : Nat) (tid : Option Nat) (a : Nat) (v : Word) (s : State) :
    Grown s (dataWrite p tid a v s) := by
  refine (dataWrite_step p tid a v s).grown ?_ fun hoff => ?_
  · simp only [dataWrite]
    split
    · exact coherentWrite_busGrown p tid a v s
    · exact .refl s.bus
  · simp [dataWrite, hoff]

/-! ### Operations that record no fault -/

/-- s' has grown from s at the same clock, and no fault has been recorded. -/
structure Quiet (s s' : State) : Prop where
  grown   : Grown s s'
  clock   : s'.clock = s.clock
  faults  : s'.faults = s.faults
  pending : s'.pending = s.pending

section
variable {s s' s'' : State}

theorem Quiet.refl (s : State) : Quiet s s := ⟨.of_eq rfl rfl rfl rfl, rfl, rfl, rfl⟩

theorem Quiet.trans (h : Quiet s s') (h' : Quiet s' s'') : Quiet s s'' :=
  ⟨h.grown.trans h'.grown, h'.clock.trans h.clock, h'.faults.trans h.faults, h'.pending.trans h.pending⟩

/-- Changing the ready queue and the tables. -/
theorem quiet_tables (ready : List Nat) (locks : List Lock) (barriers : List Barrier) (s : State) :
    Quiet s { s with ready := ready, locks := locks, barriers := barriers } :=
  ⟨.of_eq rfl rfl rfl rfl, rfl, rfl, rfl⟩

theorem quiet_modProc (p : Nat) {f : Proc → Proc} (hf : ∀ P, P.cflog <+: (f P).cflog) (s : State) :
    Quiet s (s.modProc p f) := ⟨grown_modProc p hf s, rfl, rfl, rfl⟩

theorem quiet_modRegs (p : Nat) (f : RegSet → RegSet) (s : State) : Quiet s (s.modRegs p f) :=
  quiet_modProc p (f := fun P => { P with regs := f P.regs }) (fun _ => List.prefix_rfl) s

theorem quiet_modThread (t : Nat) {f : Thread → Thread} (hf : ∀ T, ThreadGrown T (f T)) (s : State) :
    Quiet s (s.modThread t f) := ⟨grown_modThread t hf s, rfl, rfl, rfl⟩

theorem quiet_takeOff (p t : Nat) (st : ThreadState) (s : State) : Quiet s (takeOff p t st s) := by
  refine (quiet_modThread t ?_ s).trans (quiet_modProc p ?_ _)
  · exact fun _ => ⟨le_rfl, rfl⟩
  · exact fun _ => List.prefix_rfl

theorem quiet_unblock (u : Nat) (s : State) : Quiet s (unblock u s) := by
  refine (quiet_modThread u (f := fun T => { T with state := .ready }) (fun _ => ⟨le_rfl, rfl⟩) s).trans ?_
  exact quiet_tables _ _ _ _

theorem quiet_unblockAll (us : List Nat) (s : State) : Quiet s (unblockAll us s) := by
  induction us generalizing s with
  | nil => exact .refl s
  | cons u us ih => exact (quiet_unblock u s).trans (ih _)

theorem quiet_terminate (p t : Nat) (s : State) : Quiet s (terminate p t s) := by
  simp only [terminate]
  refine Quiet.trans (Quiet.trans (quiet_takeOff p t .terminated s) ?_) (quiet_modThread t ?_ _)
  · refine Quiet.trans ?_ ((quiet_unblockAll _ _).trans (quiet_unblockAll _ _))
    exact quiet_tables _ _ _ _
  · exact fun _ => ⟨le_rfl, rfl⟩

/-- An access: a memory operation touches neither clock nor logs. -/
theorem MemoryStep.quiet (h : MemoryStep s s') (hgrown : Grown s s') : Quiet s s' :=
  ⟨hgrown, by rw [h.only], by rw [h.only], by rw [h.only]⟩

theorem quiet_dataRead (p : Nat) (tid : Option Nat) (a : Nat) (s : State) : Quiet s (dataRead p tid a s).2 :=
  (dataRead_step p tid a s).quiet (dataRead_grown p tid a s)

theorem quiet_dataWrite (p : Nat) (tid : Option Nat) (a : Nat) (v : Word) (s : State) :
    Quiet s (dataWrite p tid a v s) := (dataWrite_step p tid a v s).quiet (dataWrite_grown p tid a v s)

/-- Replacing a processor by one whose log has only grown. -/
theorem quiet_putProc {p : Nat} {P Q : Proc} (hP : s.procs[p]? = some P) (hlog : P.cflog <+: Q.cflog) :
    Quiet s (s.putProc p Q) := by
  refine ⟨⟨rfl, .refl _, fun _ => rfl, fun _ T hT => ⟨T, hT, .refl T⟩, fun q R hR => ?_⟩, rfl, rfl, rfl⟩
  by_cases hq : p = q
  · subst hq
    obtain rfl : P = R := Option.some.inj (hP.symm.trans hR)
    exact ⟨Q, List.getElem?_set_self (List.getElem?_eq_some_iff.1 hP).1, hlog⟩
  · exact ⟨R, (List.getElem?_set_ne hq).trans hR, List.prefix_rfl⟩

/-- The same with the call counted. -/
theorem quiet_called {P Q : Proc} (hP : s.procs[s.cur]? = some P) (hlog : P.cflog <+: Q.cflog) (t : Nat) :
    Quiet s (called s t Q) :=
  (quiet_putProc hP hlog).trans (quiet_modThread t (f := countOne) (fun _ => ⟨Nat.le_succ _, rfl⟩) _)

end

/-! ### The two operations that record a fault (60_exceptions.md R404, 49_environment.md R373) -/

theorem takeFault_faults (p t : Nat) (f : ThreadFault) (s : State) :
    (takeFault p t f s).faults =
      s.faults ++ [⟨s.clock, p, t, .thread f, (s.regsOf p).pc, faultInfo f (s.regsOf p).pc⟩] :=
  (quiet_terminate p t _).faults

theorem takeFault_pending (p t : Nat) (f : ThreadFault) (s : State) : (takeFault p t f s).pending = s.pending :=
  (quiet_terminate p t _).pending

theorem takeFault_grown (p t : Nat) (f : ThreadFault) (s : State) : Grown s (takeFault p t f s) := by
  refine Grown.trans ?_ (quiet_terminate p t _).grown
  exact .of_eq rfl rfl rfl rfl

theorem vmFail_faults (p t : Nat) (e : VmException) (info : Word) (s : State) :
    (vmFail p t e info s).faults = s.faults ++ [⟨s.clock, p, t, .vm e, (s.regsOf p).pc - 1, info⟩] :=
  (quiet_terminate p t _).faults

theorem vmFail_pending (p t : Nat) (e : VmException) (info : Word) (s : State) :
    (vmFail p t e info s).pending = s.pending ++ [⟨s.clock, p, t, .vm e, (s.regsOf p).pc - 1, info⟩] :=
  (quiet_terminate p t _).pending

theorem vmFail_grown (p t : Nat) (e : VmException) (info : Word) (s : State) : Grown s (vmFail p t e info s) := by
  refine Grown.trans ?_ (quiet_terminate p t _).grown
  exact .of_eq rfl rfl rfl rfl

/-! ### The resolution of effects -/

/-- An effect whose resolution can raise a VMException (60_exceptions.md R402). -/
def failsInVm : Effect → Bool
  | .syncUnlock _ | .join _ => true
  | .registersModified _ | .memoryRead _ _ | .memoryWrite _ _ | .ret | .syncLock _ | .fence | .cas _ _ _ _
  | .barrier _ _ | .halt | .yield | .syscall _ | .spawn _ _ _ => false

section
variable (p t : Nat) (s : State)

theorem quiet_resolveCas (a e n : Word) (r : Reg) : Quiet s (resolveCas p a e n r s) := by
  simp only [resolveCas]
  split
  · exact ((quiet_dataRead p _ a.toNat s).trans (quiet_dataWrite p _ _ n _)).trans (quiet_modRegs p _ _)
  · exact (quiet_dataRead p _ a.toNat s).trans (quiet_modRegs p _ _)

theorem quiet_resolveLock (id : Word) : Quiet s (resolveLock p t id s) := by
  simp only [resolveLock]
  split
  · exact quiet_tables _ _ _ _
  · refine Quiet.trans ?_ (quiet_takeOff p t .waiting _)
    exact quiet_tables _ _ _ _

theorem quiet_resolveBarrier (id n : Word) : Quiet s (resolveBarrier p t id n s) := by
  simp only [resolveBarrier]
  split
  · refine Quiet.trans ?_ (quiet_unblockAll _ _)
    exact quiet_tables _ _ _ _
  · refine Quiet.trans ?_ (quiet_takeOff p t .waiting _)
    exact quiet_tables _ _ _ _

theorem quiet_resolveSpawn (f arg : Word) (r : Reg) : Quiet s (resolveSpawn p t f arg r s) := by
  simp only [resolveSpawn]
  refine Quiet.trans ?_ (quiet_modRegs p _ _)
  exact ⟨grown_createThread _ _ _ s, rfl, rfl, rfl⟩

/-- The resolution of an effect that cannot raise a VMException records nothing. -/
theorem quiet_resolve {e : Effect} (he : failsInVm e = false) : Quiet s (resolve p t e s) := by
  cases e with
  | registersModified rs => exact .refl s
  | memoryRead a d =>
    have hread := quiet_dataRead p (s.threadOn p) a.toNat s
    cases d with
    | reg r =>
      refine hread.trans (s'' := State.modProc _ p _) (quiet_modProc p ?_ _)
      exact fun _ => List.prefix_rfl
    | pc =>
      refine hread.trans (s'' := State.modProc _ p _) (quiet_modProc p ?_ _)
      exact fun _ => List.prefix_append _ _
  | memoryWrite a v => exact quiet_dataWrite p (s.threadOn p) a.toNat v s
  | ret => exact .refl s
  | syncLock id => exact quiet_resolveLock p t s id
  | fence => exact .refl s
  | cas a x n r => exact quiet_resolveCas p s a x n r
  | barrier id n => exact quiet_resolveBarrier p t s id n
  | halt => exact quiet_terminate p t s
  | yield => exact (quiet_takeOff p t .waiting s).trans (quiet_unblock t _)
  | syscall n => exact .refl s
  | spawn f a r => exact quiet_resolveSpawn p t s f a r
  | syncUnlock | join => cases he

/-- The resolution of an UNLOCK or a JOIN records nothing, or raises a VMException. -/
theorem resolve_quiet_or_vmFail {e : Effect} (he : failsInVm e = true) :
    Quiet s (resolve p t e s) ∨ ∃ x info, resolve p t e s = vmFail p t x info s := by
  cases e with
  | syncUnlock id =>
    simp only [resolve, resolveUnlock]
    split
    · exact .inr ⟨_, _, rfl⟩
    · split
      · refine .inl (Quiet.trans ?_ (quiet_unblockAll _ _))
        exact quiet_tables _ _ _ _
      · exact .inr ⟨_, _, rfl⟩
  | join j =>
    simp only [resolve, resolveJoin]
    split
    · exact .inr ⟨_, _, rfl⟩
    · split
      · refine .inl (quiet_modProc p ?_ s)
        exact fun _ => List.prefix_rfl
      · refine .inl ((quiet_modThread _ ?_ s).trans (quiet_takeOff p t .waiting _))
        exact fun _ => ⟨le_rfl, rfl⟩
  | _ => cases he

theorem quiet_resolveAll {es : List Effect} (hes : ∀ e ∈ es, failsInVm e = false) : Quiet s (resolveAll p t es s) := by
  induction es generalizing s with
  | nil => exact .refl s
  | cons e es ih =>
    exact (quiet_resolve p t s (hes e List.mem_cons_self)).trans (ih _ fun x hx => hes x (List.mem_cons_of_mem e hx))

end

/-! ### The rules of the instructions -/

/-- A rule that completes on P only appends to the control-flow log. -/
def Dispatch.AppendsLog (P : Proc) : Dispatch → Prop
  | .raise _ => True
  | .done Q _ _ => P.cflog <+: Q.cflog

theorem pushWord_appendsLog (v next : Word) (log : List CfRecord) (env : CallEnv) (P : Proc) :
    (pushWord v next log env P).AppendsLog P := by
  simp only [pushWord]
  split
  · trivial
  · exact List.prefix_append _ _

/-- Only transfers append, and RET's record comes with the resolution of its read. -/
theorem ruleOf_appendsLog (i : Instr) (env : CallEnv) (P : Proc) : (ruleOf i env P).AppendsLog P := by
  cases i with
  | load h rd src =>
    cases src with
    | imm v => exact List.prefix_rfl
    | addr a =>
      simp only [ruleOf, loadRule]
      split
      · trivial
      · exact List.prefix_rfl
  | div | store | pop | ret | cas =>
    simp only [ruleOf, divRule, storeRule, popRule, retRule, casRule]
    split
    · trivial
    · exact List.prefix_rfl
  | jmp => exact List.prefix_append _ _
  | jz | jnz =>
    simp only [ruleOf, branchRule]
    split
    · exact List.prefix_append _ _
    · exact List.prefix_rfl
  | push => exact pushWord_appendsLog ..
  | call => exact pushWord_appendsLog ..
  | _ => exact List.prefix_rfl

/-- The effects emitted cannot raise a VMException. -/
def Dispatch.EmitsQuiet : Dispatch → Prop
  | .raise _ => True
  | .done _ _ es => ∀ e ∈ es, failsInVm e = false

theorem pushWord_emitsQuiet (v next : Word) (log : List CfRecord) (env : CallEnv) (P : Proc) :
    (pushWord v next log env P).EmitsQuiet := by
  simp only [pushWord]
  split
  · trivial
  · exact List.forall_mem_singleton.2 rfl

/-- Only UNLOCK and JOIN emit an effect that can raise a VMException. -/
theorem ruleOf_emitsQuiet {i : Instr} (hi : mayFailInVm i = false) (env : CallEnv) (P : Proc) :
    (ruleOf i env P).EmitsQuiet := by
  cases i with
  | load h rd src =>
    cases src with
    | imm v => exact List.forall_mem_singleton.2 rfl
    | addr a =>
      simp only [ruleOf, loadRule]
      split
      · trivial
      · exact List.forall_mem_singleton.2 rfl
  | div | store | pop | cas =>
    simp only [ruleOf, divRule, storeRule, popRule, casRule]
    split
    · trivial
    · exact List.forall_mem_singleton.2 rfl
  | ret =>
    simp only [ruleOf, retRule]
    split
    · trivial
    · exact List.forall_mem_cons.2 ⟨rfl, List.forall_mem_singleton.2 rfl⟩
  | jmp | nop => exact List.forall_mem_nil _
  | jz | jnz =>
    simp only [ruleOf, branchRule]
    split <;> exact List.forall_mem_nil _
  | push => exact pushWord_emitsQuiet ..
  | call => exact pushWord_emitsQuiet ..
  | unlock | join => cases hi
  | _ => exact List.forall_mem_singleton.2 rfl

/-- UNLOCK and JOIN cannot fault at dispatch, and emit one effect. -/
theorem ruleOf_of_mayFailInVm {i : Instr} (hi : mayFailInVm i = true) (env : CallEnv) (P : Proc) :
    ∃ Q next e, ruleOf i env P = .done Q next [e] ∧ failsInVm e = true := by
  cases i with
  | unlock | join => exact ⟨_, _, _, rfl, rfl⟩
  | _ => cases hi

/-- A fault raised at dispatch has its condition: an access that fails the address check, or a divisor of 0. -/
def Dispatch.RaisesFor (i : Instr) (env : CallEnv) (P : Proc) : Dispatch → Prop
  | .raise f => (∃ a, accessAddr P.regs i = some a ∧ addrCheck env.memSize a = some f) ∨
      dividesByZero P.regs i = true
  | .done _ _ _ => True

theorem ruleOf_raisesFor (i : Instr) (env : CallEnv) (P : Proc) : (ruleOf i env P).RaisesFor i env P := by
  cases i with
  | div h rd a b =>
    simp only [ruleOf, divRule]
    split
    · rename_i hzero
      exact .inr (beq_iff_eq.2 hzero)
    · trivial
  | load h rd src =>
    cases src with
    | imm v => trivial
    | addr a =>
      simp only [ruleOf, loadRule]
      split
      · rename_i hcheck
        exact .inl ⟨_, rfl, hcheck⟩
      · trivial
  | store | push | pop | call | ret | cas =>
    simp only [ruleOf, storeRule, pushRule, pushWord, popRule, callRule, retRule, casRule]
    split
    · rename_i hcheck
      exact .inl ⟨_, rfl, hcheck⟩
    · trivial
  | jz | jnz =>
    simp only [ruleOf, branchRule]
    split <;> trivial
  | _ => trivial

/-! ### One call -/

/-- The conditions under which a call ends its thread with a fault of its own (60_exceptions.md R402, R403). -/
def FaultCondition (i : Instr) (s : State) (P : Proc) : Prop :=
  Blocked i.hdr P ∨ (∃ a, accessAddr P.regs i = some a ∧ ¬ Accessible s a) ∨ dividesByZero P.regs i = true

/-- Every way a call on thread t can record: nothing; one fault, under its condition; one VMException, by an UNLOCK or a
JOIN. -/
inductive CallRecords (i : Instr) (s : State) (P : Proc) (t : Nat) (s' : State) : Prop
  | nothing (h : Quiet s s')
  | fault (f : ThreadFault) (s₁ : State) (before : Quiet s s₁) (why : FaultCondition i s P)
      (h : s' = takeFault s.cur t f s₁)
  | vmException (e : VmException) (info : Word) (s₁ : State) (before : Quiet s s₁) (which : mayFailInVm i = true)
      (h : s' = vmFail s.cur t e info s₁)

theorem dispatchOn_records (i : Instr) {s : State} {P : Proc} {t : Nat} {T : Thread} (hr : Running s P t T) :
    CallRecords i s P t (dispatchOn i.hdr (ruleOf i) P t s) := by
  have happends := ruleOf_appendsLog i (callEnv s t) (accept i.hdr P)
  cases hvm : mayFailInVm i with
  | true =>
    obtain ⟨Q, next, e, hd, he⟩ := ruleOf_of_mayFailInVm hvm (callEnv s t) (accept i.hdr P)
    rw [hd] at happends
    have hcalled : Quiet s (called s t (finishCall Q next [e])) :=
      quiet_called (Q := finishCall Q next [e]) hr.proc happends t
    have hone : dispatchOn i.hdr (ruleOf i) P t s = resolve s.cur t e (called s t (finishCall Q next [e])) :=
      dispatchOn_done hd
    rw [hone]
    obtain hquiet | ⟨x, info, hfail⟩ := resolve_quiet_or_vmFail s.cur t (called s t (finishCall Q next [e])) he
    · exact .nothing (hcalled.trans hquiet)
    · exact .vmException x info _ hcalled hvm hfail
  | false =>
    have hemits := ruleOf_emitsQuiet hvm (callEnv s t) (accept i.hdr P)
    have hraises := ruleOf_raisesFor i (callEnv s t) (accept i.hdr P)
    cases hd : ruleOf i (callEnv s t) (accept i.hdr P) with
    | raise f =>
      rw [hd] at hraises
      have hcalled : Quiet s (called s t (acceptedFault i.hdr P)) :=
        quiet_called (Q := acceptedFault i.hdr P) hr.proc List.prefix_rfl t
      refine .fault f _ hcalled (.inr ?_) (dispatchOn_raise hd)
      refine hraises.imp_left fun ⟨a, ha, hcheck⟩ => ⟨a, ha, fun hacc => ?_⟩
      have hnone : addrCheck s.cfg.memSize a = none := addrCheck_of_accessible hacc
      exact Option.some_ne_none f (hcheck.symm.trans hnone)
    | done Q next es =>
      rw [hd] at happends hemits
      rw [dispatchOn_done hd]
      have hcalled : Quiet s (called s t (finishCall Q next es)) :=
        quiet_called (Q := finishCall Q next es) hr.proc happends t
      exact .nothing (hcalled.trans (quiet_resolveAll s.cur t _ hemits))

theorem exec_records {i : Instr} {s s' : State} (e : exec i s = .next s') :
    ∃ P t T, Running s P t T ∧ CallRecords i s P t s' := by
  rw [exec_eq_issue] at e
  obtain ⟨P, t, T, hr, -, ⟨hblocked, rfl⟩ | ⟨-, rfl⟩⟩ := issue_next e
  · exact ⟨P, t, T, hr, .fault _ _ (quiet_putProc (Q := silent P) hr.proc List.prefix_rfl) (.inl hblocked) rfl⟩
  · exact ⟨P, t, T, hr, dispatchOn_records i hr⟩

/-- Settles O46: a case split on what the call records; a fault has its condition, and a VMException its instruction. -/
theorem whichInstructionsFault : Obligations.WhichInstructionsFault := by
  intro i s s' P t T hr e
  obtain ⟨Q, u, U, hr', hrec⟩ := exec_records e
  obtain ⟨rfl, rfl⟩ := hr.unique hr'
  cases hrec with
  | nothing h => exact ⟨.inl h.faults, fun _ => ⟨h.pending, fun _ _ _ => h.faults⟩⟩
  | fault f s₁ before why h =>
    have hfaults := takeFault_faults s.cur t f s₁
    rw [← h, before.faults, before.clock] at hfaults
    refine ⟨.inr ⟨_, _, _, hfaults⟩, fun _ => ⟨?_, fun hpass haccess hdivisor => ?_⟩⟩
    · rw [h, takeFault_pending, before.pending]
    · obtain hblocked | ⟨a, ha, hbad⟩ | hzero := why
      · exact absurd hblocked hpass
      · exact absurd (haccess a ha) hbad
      · exact absurd (hzero.symm.trans hdivisor) (by decide)
  | vmException x info s₁ before which h =>
    have hfaults := vmFail_faults s.cur t x info s₁
    rw [← h, before.faults, before.clock] at hfaults
    exact ⟨.inr ⟨_, _, _, hfaults⟩, fun hnot => absurd (which.symm.trans hnot) (by decide)⟩

end Sys2Proof.Machine
end

section
/-! SUPPORT. What a step adds to the counters and logs of the machine (60_exceptions.md R414, 10_state.md R32, R34, R45,
R47, 47_bus_ops.md R326): the parts of a step one after the other, and the acceptances on each processor counted. -/

namespace Sys2Proof.Machine

/-! ### A turn as a call -/

/-- A turn leaves the state alone or is a call on its processor. -/
theorem turn_call {p : Nat} {s s' : State} (e : turn p s = .next s') : s' = s ∨ CallStep p { s with cur := p } s' := by
  obtain ⟨rfl, -⟩ | ⟨P, -, -, ⟨-, rfl⟩ | ⟨t, T, -, -, ⟨-, rfl⟩ | ⟨w, -, ⟨i, -, e⟩ | ⟨d, -, e⟩⟩⟩⟩ := turn_next e
  · exact .inl rfl
  · exact .inr (putProc_call p (stallCycle P) { s with cur := p })
  · exact .inr ((putProc_call p (silent P) { s with cur := p }).trans (takeFault_call p t _ _))
  · exact .inr (exec_call e)
  · exact .inr (issue_call e)

/-! ### Counters and logs of the machine -/

/-- The counters of s' are no lower than those of s, and its logs continue those of s. -/
structure StepGrown (s s' : State) : Prop where
  grown    : Grown s s'
  switches : s.switches ≤ s'.switches
  faults   : s.faults <+: s'.faults
  pending  : s.pending <+: s'.pending

section
variable {s s' s'' : State}

theorem StepGrown.trans (h : StepGrown s s') (h' : StepGrown s' s'') : StepGrown s s'' :=
  ⟨h.grown.trans h'.grown, h.switches.trans h'.switches, h.faults.trans h'.faults, h.pending.trans h'.pending⟩

theorem Grown.step (h : Grown s s') (hswitches : s.switches ≤ s'.switches) (hfaults : s'.faults = s.faults)
    (hpending : s'.pending = s.pending) : StepGrown s s' :=
  ⟨h, hswitches, hfaults ▸ List.prefix_rfl, hpending ▸ List.prefix_rfl⟩

/-- Writing fields that are neither counters nor logs. -/
theorem StepGrown.of_eq (h : s' = { s with vm := s'.vm, clock := s'.clock, cur := s'.cur, out := s'.out }) :
    StepGrown s s' := by
  rw [h]
  exact Grown.step (.of_eq rfl rfl rfl rfl) le_rfl rfl rfl

theorem Quiet.step (h : Quiet s s') (hswitches : s'.switches = s.switches) : StepGrown s s' :=
  h.grown.step (Nat.le_of_eq hswitches.symm) h.faults h.pending

theorem takeFault_stepGrown (p t : Nat) (f : ThreadFault) (s : State) : StepGrown s (takeFault p t f s) where
  grown := takeFault_grown p t f s
  switches := Nat.le_of_eq (takeFault_call p t f s).switches.symm
  faults := takeFault_faults p t f s ▸ List.prefix_append _ _
  pending := takeFault_pending p t f s ▸ List.prefix_rfl

/-- A call that records what `CallRecords` says, with the switch counter left alone. -/
theorem CallRecords.step {i : Instr} {P : Proc} {t : Nat} (h : CallRecords i s P t s')
    (hswitches : s'.switches = s.switches) : StepGrown s s' := by
  have hle : s.switches ≤ s'.switches := Nat.le_of_eq hswitches.symm
  cases h with
  | nothing h => exact h.step hswitches
  | fault f s₁ before _ h =>
    subst h
    refine ⟨before.grown.trans (takeFault_grown _ _ _ _), hle, ?_, ?_⟩
    · rw [takeFault_faults, before.faults]
      exact List.prefix_append _ _
    · rw [takeFault_pending, before.pending]
  | vmException x info s₁ before _ h =>
    subst h
    refine ⟨before.grown.trans (vmFail_grown _ _ _ _ _), hle, ?_, ?_⟩
    · rw [vmFail_faults, before.faults]
      exact List.prefix_append _ _
    · rw [vmFail_pending, before.pending]
      exact List.prefix_append _ _

theorem exec_stepGrown {i : Instr} (e : exec i s = .next s') : StepGrown s s' := by
  obtain ⟨P, t, T, -, hrec⟩ := exec_records e
  exact hrec.step (exec_call e).switches

theorem issueInvalid_stepGrown {h : Hdr} {why : DecodeFault} (e : issueInvalid h why s = .next s') :
    StepGrown s s' := by
  obtain ⟨P, t, T, f, hr, rfl | rfl⟩ := issueInvalid_result e
  · exact ((quiet_putProc (Q := silent P) hr.proc List.prefix_rfl).step rfl).trans (takeFault_stepGrown ..)
  · exact ((quiet_called (Q := acceptedFault h P) hr.proc List.prefix_rfl t).step rfl).trans (takeFault_stepGrown ..)

theorem turn_stepGrown {p : Nat} (e : turn p s = .next s') : StepGrown s s' := by
  have hcur : StepGrown s { s with cur := p } := .of_eq rfl
  have hput : ∀ P Q : Proc, s.procs[p]? = some P → P.cflog <+: Q.cflog →
      StepGrown s ({ s with cur := p }.putProc p Q) := fun P Q hP hlog =>
    hcur.trans ((quiet_putProc (s := { s with cur := p }) hP hlog).step rfl)
  obtain ⟨rfl, -⟩ | ⟨P, hP, -, ⟨-, rfl⟩ | ⟨t, T, -, -, ⟨-, rfl⟩ | ⟨w, -, ⟨i, -, e⟩ | ⟨d, -, e⟩⟩⟩⟩ := turn_next e
  · exact .of_eq rfl
  · exact hput P (stallCycle P) hP List.prefix_rfl
  · exact (hput P (silent P) hP List.prefix_rfl).trans (takeFault_stepGrown ..)
  · exact hcur.trans (exec_stepGrown e)
  · exact hcur.trans (issueInvalid_stepGrown e)

/-- The scheduler counts a switch for each thread it takes. -/
theorem scheduleOn_stepGrown (p : Nat) (s : State) : StepGrown s (scheduleOn s p) := by
  obtain e | ⟨P, t, ts, -, -, -, e⟩ := scheduleOn_cases s p
  · rw [e]
    exact .of_eq rfl
  · have hqueue : StepGrown s { s with ready := ts } := (quiet_tables ts s.locks s.barriers s).step rfl
    rw [e]
    refine hqueue.trans ?_
    generalize { s with ready := ts } = s₁
    cases hT : s₁.threads[t]? with
    | none =>
      rw [switchIn_none hT]
      exact .of_eq rfl
    | some T =>
      have hproc : Quiet s₁ (s₁.modProc p (switchedIn t T.ctx)) :=
        quiet_modProc p (f := switchedIn t T.ctx) (fun _ => List.prefix_rfl) s₁
      have hthread : Quiet s₁ (s₁.modThread t fun U => { U with state := .running, proc := some p }) :=
        quiet_modThread t (f := fun U => { U with state := .running, proc := some p }) (fun _ => ⟨le_rfl, rfl⟩) s₁
      rw [switchIn_some hT]
      exact Grown.step ⟨rfl, .refl _, fun _ => rfl, hthread.grown.threads, hproc.grown.logs⟩ (Nat.le_succ _) rfl rfl

/-- The tick changes the queue only. -/
theorem finishStep_stepGrown (s : State) : StepGrown s (finishStep s) :=
  Grown.step ⟨rfl, ⟨le_rfl, le_rfl, le_rfl, le_rfl, id⟩, fun _ => rfl, fun _ T hT => ⟨T, hT, .refl T⟩,
    fun _ P hP => ⟨P, hP, List.prefix_rfl⟩⟩ le_rfl rfl rfl

theorem step_stepGrown (e : step s = .next s') : StepGrown s s' :=
  step_keeps (R := StepGrown s) (fun _ _ _ h => h.trans (.of_eq rfl))
    (fun p s₁ h => h.trans (scheduleOn_stepGrown p s₁)) (fun _ _ _ h e => h.trans (turn_stepGrown e))
    (fun s₁ h => h.trans (finishStep_stepGrown s₁)) (fun _ _ h => h.trans (.of_eq rfl)) (.of_eq rfl) e

end

/-! ### The clock -/

theorem switchIn_clock (p t : Nat) (s : State) : (switchIn p t s).clock = s.clock := by
  simp only [switchIn]
  split <;> rfl

theorem scheduleOn_clock (s : State) (p : Nat) : (scheduleOn s p).clock = s.clock := by
  obtain e | ⟨P, t, ts, -, -, -, e⟩ := scheduleOn_cases s p
  · rw [e]
  · rw [e, switchIn_clock]

theorem beginStep_clock (s : State) : (beginStep s).clock = s.clock + 1 :=
  scheduleThreads_keep (R := fun s' => s'.clock = s.clock + 1) (fun p s' h => (scheduleOn_clock s' p).trans h) _ rfl

theorem turn_clock {p : Nat} {s s' : State} (e : turn p s = .next s') : s'.clock = s.clock := by
  obtain rfl | hcall := turn_call e
  · rfl
  · exact hcall.clock

/-- A step of a machine that is not FINISHED is one tick of the clock. -/
theorem step_clock {s s' : State} (hvm : s.vm ≠ .finished) (e : step s = .next s') : s'.clock = s.clock + 1 := by
  obtain ⟨hend, -⟩ | ⟨-, s₁, e₁, rfl⟩ := step_next e
  · exact absurd hend hvm
  · have hturns : s₁.clock = s.clock + 1 := turns_keep (R := fun s' => s'.clock = s.clock + 1) _
      (fun _ _ _ _ h e => (turn_clock e).trans h) _ _ (beginStep_clock s) e₁
    exact hturns

/-! ### Acceptances on each processor (10_state.md R32) -/

/-- The cycle counter of each processor q has risen by n q at most, and has not fallen. -/
def CyclesWithin (n : Nat → Nat) (s s' : State) : Prop :=
  ∀ (q : Nat) (P : Proc), s.procs[q]? = some P →
    ∃ P', s'.procs[q]? = some P' ∧ P.cycles ≤ P'.cycles ∧ P'.cycles ≤ P.cycles + n q

section
variable {s s' s'' : State}

theorem CyclesWithin.of_eq {n : Nat → Nat} (h : s'.procs = s.procs) : CyclesWithin n s s' :=
  fun _ P hP => ⟨P, h ▸ hP, le_rfl, Nat.le_add_right _ _⟩

theorem CyclesWithin.trans {n n' m : Nat → Nat} (h : CyclesWithin n s s') (h' : CyclesWithin n' s' s'')
    (hm : ∀ q, n q + n' q ≤ m q) : CyclesWithin m s s'' := by
  intro q P hP
  obtain ⟨P', hP', hlow, hhigh⟩ := h q P hP
  obtain ⟨P'', hP'', hlow', hhigh'⟩ := h' q P' hP'
  have := hm q
  exact ⟨P'', hP'', by omega, by omega⟩

/-- The cycle counter of processor p has stayed, or risen by 1 at an acceptance. -/
def AcceptsOnce (p : Nat) (s s' : State) : Prop :=
  ∃ P P', s.procs[p]? = some P ∧ s'.procs[p]? = some P' ∧ (P'.cycles = P.cycles ∨ P'.cycles = P.cycles + 1)

/-- A call on processor p changes the cycle counter of p only. -/
theorem CallStep.cyclesWithin {p : Nat} (h : CallStep p s s') (haccepts : AcceptsOnce p s s') :
    CyclesWithin (fun q => if p = q then 1 else 0) s s' := by
  obtain ⟨P, P', hP, hP', hc⟩ := haccepts
  intro q Q hQ
  rcases eq_or_ne p q with rfl | hne
  · obtain rfl : P = Q := Option.some.inj (hP.symm.trans hQ)
    simp only [if_true]
    exact ⟨P', hP', by omega, by omega⟩
  · exact ⟨Q, (h.others q (Ne.symm hne)).trans hQ, le_rfl, Nat.le_add_right _ _⟩

theorem putProc_proc {p : Nat} {P : Proc} (hP : s.procs[p]? = some P) (Q : Proc) :
    (s.putProc p Q).procs[p]? = some Q :=
  List.getElem?_set_self (List.getElem?_eq_some_iff.1 hP).1

/-- A fault of the thread on processor p, after p was replaced by Q. -/
theorem takeFault_acceptsOnce {p : Nat} {P Q : Proc} (hP : s.procs[p]? = some P) (hQ : s'.procs[p]? = some Q)
    (hc : Q.cycles = P.cycles ∨ Q.cycles = P.cycles + 1) (t : Nat) (f : ThreadFault) :
    AcceptsOnce p s (takeFault p t f s') := by
  obtain ⟨P', hP', hcounters⟩ := (takeFault_sameCounters p t f s').get hQ
  have hcycles : P'.cycles = Q.cycles := congrArg Counters.cycles hcounters
  exact ⟨P, P', hP, hP', hcycles ▸ hc⟩

theorem exec_acceptsOnce {i : Instr} (e : exec i s = .next s') : AcceptsOnce s.cur s s' := by
  rw [exec_eq_issue] at e
  obtain ⟨P, t, T, hr, -, ⟨-, rfl⟩ | ⟨-, rfl⟩⟩ := issue_next e
  · exact takeFault_acceptsOnce hr.proc (putProc_proc hr.proc (silent P)) (.inl rfl) t _
  · obtain ⟨P', hP', -, hc, -⟩ := dispatchOn_counters i hr
    exact ⟨P, P', hr.proc, hP', .inr hc⟩

theorem issueInvalid_acceptsOnce {h : Hdr} {why : DecodeFault} (e : issueInvalid h why s = .next s') :
    AcceptsOnce s.cur s s' := by
  obtain ⟨P, t, T, f, hr, rfl | rfl⟩ := issueInvalid_result e
  · exact takeFault_acceptsOnce hr.proc (putProc_proc hr.proc (silent P)) (.inl rfl) t _
  · exact takeFault_acceptsOnce hr.proc (called_proc_cur hr.proc t (acceptedFault h P)) (.inr rfl) t f

/-- In a turn of processor p only p can accept, and once at most. -/
theorem turn_cycles {p : Nat} (e : turn p s = .next s') : CyclesWithin (fun q => if p = q then 1 else 0) s s' := by
  obtain rfl | hcall := turn_call e
  · exact .of_eq rfl
  obtain ⟨rfl, -⟩ | ⟨P, hP, -, ⟨-, rfl⟩ | ⟨t, T, -, -, ⟨-, rfl⟩ | ⟨w, -, ⟨i, -, e⟩ | ⟨d, -, e⟩⟩⟩⟩ := turn_next e
  · exact .of_eq rfl
  · exact hcall.cyclesWithin ⟨P, stallCycle P, hP, putProc_proc hP (stallCycle P), .inl rfl⟩
  · exact hcall.cyclesWithin (takeFault_acceptsOnce (s := { s with cur := p }) hP
      (putProc_proc (s := { s with cur := p }) hP (silent P)) (.inl rfl) t _)
  · exact hcall.cyclesWithin (exec_acceptsOnce e)
  · exact hcall.cyclesWithin (issueInvalid_acceptsOnce e)

/-- In the turns of a list of processors each accepts as often as it is listed, at most. -/
theorem turns_cycles {ps : List Nat} (e : turns ps s = .next s') : CyclesWithin (fun q => ps.count q) s s' := by
  induction ps generalizing s with
  | nil =>
    cases e
    exact .of_eq rfl
  | cons p ps ih =>
    obtain ⟨s₁, e₁, e₂⟩ := andThen_next e
    refine (turn_cycles e₁).trans (ih e₂) fun q => ?_
    simp only [List.count_cons, beq_iff_eq]
    omega

/-- A switch in accepts nothing. -/
theorem scheduleOn_cycles (s : State) (p : Nat) : CyclesWithin (fun _ => 0) s (scheduleOn s p) := by
  obtain e | ⟨P, t, ts, -, -, -, e⟩ := scheduleOn_cases s p
  · exact .of_eq (by rw [e])
  · rw [e]
    cases hT : s.threads[t]? with
    | none => exact .of_eq (by rw [switchIn_none (s := { s with ready := ts }) hT])
    | some T =>
      rw [switchIn_some (s := { s with ready := ts }) hT]
      intro q Q hQ
      refine ⟨if p = q then switchedIn t T.ctx Q else Q, by simp [List.getElem?_modify, hQ], ?_⟩
      split <;> exact ⟨le_rfl, le_rfl⟩

theorem beginStep_cycles (s : State) : CyclesWithin (fun _ => 0) s (beginStep s) :=
  scheduleThreads_keep (R := CyclesWithin (fun _ => 0) s)
    (fun p s' h => h.trans (scheduleOn_cycles s' p) fun _ => le_rfl) _ (.of_eq rfl)

/-- In a step each processor accepts once at most. -/
theorem step_cycles (e : step s = .next s') : CyclesWithin (fun _ => 1) s s' := by
  obtain ⟨-, rfl⟩ | ⟨-, s₁, e₁, rfl⟩ := step_next e
  · exact .of_eq rfl
  · have honce : ∀ q, (List.range s.cfg.nproc).count q ≤ 1 := List.nodup_iff_count_le_one.1 List.nodup_range
    have hturns : CyclesWithin (fun _ => 1) s s₁ :=
      (beginStep_cycles s).trans (turns_cycles e₁) fun q => (Nat.zero_add _).trans_le (honce q)
    exact hturns

end

/-- Settles O14: the clock, the counters and logs, and the acceptances, each from the parts of the step. -/
theorem countersOnlyCountUp : Obligations.CountersOnlyCountUp := by
  intro s s' e
  obtain ⟨⟨-, hbus, hoff, hthreads, hlogs⟩, hswitches, hfaults, hpending⟩ := step_stepGrown e
  refine ⟨fun hvm => step_clock hvm e, hswitches, hbus.total, hbus.reads, hbus.writes, hbus.invalidations, hbus.add,
    hfaults, hpending, hoff, fun t T hT => ?_, fun p P hP => ?_⟩
  · obtain ⟨T', hT', k⟩ := hthreads t T hT
    exact ⟨T', hT', k.count, k.created⟩
  · obtain ⟨P', hP', hlow, hhigh⟩ := step_cycles e p P hP
    obtain ⟨P'', hP'', hlog⟩ := hlogs p P hP
    obtain rfl : P' = P'' := Option.some.inj (hP'.symm.trans hP'')
    exact ⟨P', hP', hlow, hhigh, hlog⟩

end Sys2Proof.Machine
end
